-- ==== Sys2Proof/Word.lean ====
section
/-! DEFINITION. The word types of the libriscv interpreter core (spec/00_scope.md R6, R8).

The engine is parametric over `W ∈ 4, 8` (bytes).  One state type serves both widths: a register, a pc or an address
is held in a 64-bit `Word`, of which only the low `XLEN` bits are ever read (`Machine/Operands.lean`, `wrap`).
The conversions between widths stand in `Machine/Operands.lean`. -/

namespace Sys2Proof

/-- One byte of guest memory. -/
abbrev Byte := BitVec 8

/-- The container of an `XLEN`-bit value: the value is its low `XLEN` bits (R8). -/
abbrev Word := BitVec 64

/-- An integer register number, x0 to x31 (R20). -/
abbrev Reg := BitVec 5

/-- An address in the host's memory, where the bytes of a NonOwned page stand (R53, R93). -/
abbrev HostAddr := BitVec 64

/-- A primed 3-bit register field of the compressed formats: it names x8 to x15 (R119). -/
abbrev Reg3 := BitVec 3

/-- The parameter `W` of R6: the address and register width in bytes, 4 or 8.  It also names the width of an LR/SC
reservation (R29), 4 or 8 bytes. -/
inductive Width where
  | w4
  | w8
  deriving DecidableEq, Repr, Inhabited

/-- `W` as a number of bytes (R6). -/
def Width.bytes : Width → Nat
  | .w4 => 4
  | .w8 => 8

/-- `XLEN = 8 * W` (R6). -/
def Width.xlen (w : Width) : Nat := 8 * w.bytes

/-- `PAGE_SIZE` (R6). -/
def pageSize : Nat := 4096

end Sys2Proof
end

