-- ==== Sys2Proof/Config.lean ====
section
/-! DEFINITION. What an implementation fixes (the parameters of spec/00_scope.md R6), the plain data the host hands to the
machine (spec/60_exceptions.md section 4 and 5), and the FREE VALUES: opaque constants without a body, one for each
`draw` of the spec (spec/93_implementation_defined.md tables 1.1 and 1.3).  Nothing can evaluate a free value or prove a
value of it; a claim about one holds for every value. -/

namespace Sys2Proof

/-- The error taxonomy, in the order of the table of R400. -/
inductive Tag where
  | protectionFault
  | executionSpaceProtectionFault
  | misalignedAccess
  | invalidAlignment
  | unimplementedInstruction
  | unimplementedInstructionLength
  | unhandledSyscall
  | unknownRelocation
  | invalidArgument
  | stringOverLimit
  | outOfMemory
  | deadlock
  deriving DecidableEq, Repr, Inhabited

/-- `PAGE_FAULT_POLICY`: what a lookup miss does (R60). -/
inductive PageFaultPolicy where
  | fault
  | zeroRW
  | host
  deriving DecidableEq, Repr, Inhabited

/-- The parameters of R6 that no loader sets: fixed for the Machine's life (R7).  `EXT_F` is false in this block and is no
field. -/
structure Params where
  /-- `W`: 4 or 8. -/
  w : Width
  /-- `EXT_C`: the compressed extension is enabled. -/
  extC : Bool
  /-- `EXT_A`: the atomic extension is enabled. -/
  extA : Bool
  /-- `ALIGN_CHECK`: data alignment checks are enabled (default false). -/
  alignCheck : Bool
  /-- `PAGE_FAULT_POLICY` (default `Fault`). -/
  pageFault : PageFaultPolicy
  /-- `MEMORY_MAX`: the cap on the bytes of Owned pages; none is unbounded. -/
  memoryMax : Option Nat
  /-- `PROTECT_SEGMENTS`: read by the loader only (R465). -/
  protectSegments : Bool
  /-- `SHARED_RODATA`: read by the loader only (R465). -/
  sharedRodata : Bool
  /-- `EXEC_CONSTANT`: the execute segment is constant (R79, R161). -/
  execConstant : Bool
  /-- `THROW_ON_UNHANDLED_SYSCALL` (R304). -/
  throwOnUnhandledSyscall : Bool
  /-- `SYSCALL_EBREAK`: the number `EBREAK` dispatches to (D37). -/
  syscallEbreak : Word
  /-- `ENOSYS`: the error number whose negation an unhandled call returns (D36). -/
  enosys : Word
  /-- `DEADLOCK_ON_BUDGET` (default false, R167). -/
  deadlockOnBudget : Bool
  deriving DecidableEq, Repr, Inhabited

/-- `IALIGN` of R6: the instruction alignment in bytes, 2 with `EXT_C`, else 4. -/
def Params.ialign (p : Params) : Nat := if p.extC then 2 else 4

/-- The parameters the model's reset state takes: RV64IAC, the defaults of R6 where it gives one, the values of
spec/95_test_vectors.md where that gives one, and neither for `PROTECT_SEGMENTS` (true), `SHARED_RODATA` (false) and `MEMORY_MAX`
(unbounded).  DESIGN CHOICE (log entry 2): every parameter is a model argument. -/
def Params.default : Params where
  w := .w8
  extC := true
  extA := true
  alignCheck := false
  pageFault := .fault
  memoryMax := none
  protectSegments := true
  sharedRodata := false
  execConstant := false
  throwOnUnhandledSyscall := false
  syscallEbreak := 0x8000
  enosys := 38
  deadlockOnBudget := false

/-- The permissions of a page, each a Boolean (R52). -/
structure PageAttr where
  read : Bool
  write : Bool
  exec : Bool
  deriving DecidableEq, Repr, Inhabited

/-- The attributes the `ZeroRW` policy and `trap` give a page they create (R60, R96). -/
def PageAttr.rw : PageAttr := ⟨true, true, false⟩

/-- The four variants of a page (R52).  `buffer` is the host address of the page's first byte; `external` says that the host
declares the page externally written (R438).  A callback is named by a number; what it does is the host's (`HostAnswer`).  A
page is a Trap page whatever its backing: `buffer` is none where the backing is the Machine's own. -/
inductive Variant where
  | owned
  | sharedRO
  | nonOwned (buffer : HostAddr) (external : Bool)
  | trap (callback : Nat) (buffer : Option HostAddr)
  deriving DecidableEq, Repr, Inhabited

/-- The host address of the page's first byte, where its bytes are the host's (R52, R53). -/
def Variant.buffer? : Variant → Option HostAddr
  | .owned => none
  | .sharedRO => none
  | .nonOwned buffer _ => some buffer
  | .trap _ buffer => buffer

/-- A page without its bytes (R52): the 4096 bytes stand in the machine's memory at the page's guest addresses, or in the host's
buffer. -/
structure Page where
  attr : PageAttr
  variant : Variant
  deriving DecidableEq, Repr, Inhabited

/-- A page as a host callback returns it (R60, R77): attributes, variant and its leading bytes; every byte after those
listed is 0.  The bytes of a NonOwned page are those of its buffer, and none listed here. -/
structure PageImage where
  attr : PageAttr
  variant : Variant
  bytes : List Byte
  deriving DecidableEq, Repr, Inhabited

/-- What the host can do to the Machine, between runs or inside a callback: the operations of R93, R96, R438 and
R440 to R446, and the liberties of R439. -/
inductive HostOp where
  /-- `simulate(max_instr)` (R167). -/
  | simulate (maxInstr : Nat)
  /-- `reset()` (R460). -/
  | reset
  /-- `stop()` (R440). -/
  | stop
  /-- Write a register; a write to x0 is dropped (R431, R439). -/
  | setReg (r : Reg) (v : Word)
  /-- Set the pc (R433, R439). -/
  | setPc (v : Word)
  /-- `setup_call(call, return, args)` (R443). -/
  | setupCall (call ret : Word) (args : List Word)
  /-- `vmcall(name, args, exec, max)` (R443): `target` is what the host-side symbol lookup of `name` gives. -/
  | vmcall (target : Option Word) (args : List Word) (exec : Bool) (maxInstr : Nat)
  /-- `realign_stack(align)` (R444). -/
  | realignStack (align : Nat)
  /-- `memcpy(dst, src_host, len)` (R445): the host's bytes are given. -/
  | memcpy (dst : Word) (bytes : List Byte)
  /-- `copy_to_guest(dst, host_buf, len)`, which answers `dst + len` (R445). -/
  | copyToGuest (dst : Word) (bytes : List Byte)
  /-- `memset` (R445). -/
  | memset (dst : Word) (value : Byte) (len : Nat)
  /-- `memcpy_out(dst_host, src, len)` (R445): the guest's bytes go to the host's memory. -/
  | memcpyOut (dst : HostAddr) (src : Word) (len : Nat)
  /-- `memcmp` (R445).  The rule gives no operands: guest bytes against the host's bytes (DESIGN CHOICE, log entry 21). -/
  | memcmp (src : Word) (bytes : List Byte)
  /-- `memview(addr, len, cb)` (R445); its answer to its caller is log entry 40. -/
  | memview (src : Word) (len : Nat) (callback : Nat)
  /-- `memstring(addr, maxlen)` (R446). -/
  | memstring (src : Word) (maxlen : Nat)
  /-- `strlen(addr, maxlen)` (R446). -/
  | strlen (src : Word) (maxlen : Nat)
  /-- `get_page(npage)` (R93). -/
  | getPage (npage : Nat)
  /-- `create_page(npage)` (R93). -/
  | createPage (npage : Nat)
  /-- `free_pages(addr, len)` (R93). -/
  | freePages (addr : Word) (len : Nat)
  /-- `set_page_attr(base, len, attrs)` (R92). -/
  | setPageAttr (base : Word) (len : Nat) (attr : PageAttr)
  /-- `install_shared_page(npage, page)` (R93). -/
  | installShared (npage : Nat) (attr : PageAttr) (bytes : List Byte)
  /-- `insert_non_owned_memory(dst, ptr, size, attrs)` (R93): `[dst, dst + size)` shows the host's buffer at `ptr`. -/
  | insertNonOwned (dst : Word) (ptr : HostAddr) (size : Nat) (attr : PageAttr)
  /-- The host writes its own memory: what a buffer holds that it inserts or has inserted (R53, R93). -/
  | writeBuffer (ptr : HostAddr) (bytes : List Byte)
  /-- `trap(addr, cb)` (R96). -/
  | trapPage (addr : Word) (callback : Nat)
  /-- The host declares a NonOwned page externally written, or withdraws that (R438). -/
  | declareExternal (npage : Nat) (external : Bool)
  /-- `install_syscall_handler(n, h)` (R434). -/
  | installHandler (n : Word) (handler : Nat)
  /-- `get_syscall_handler(n)` (R434). -/
  | getHandler (n : Word)
  /-- Remove the handler of `n` (R431). -/
  | removeHandler (n : Word)
  /-- Replace the page-fault callback of policy `Host` (R33, R439). -/
  | setPageFaultCallback (callback : Nat)
  /-- Replace the page-write callback; none is the default copy-on-write (R77, R439). -/
  | setPageWriteCallback (callback : Option Nat)
  deriving DecidableEq, Repr, Inhabited

/-- Where the value a host callback returns comes from: given by the host, or the value register `r` holds when the
callback returns (a handler that returns `a0`). -/
inductive HostValue where
  | lit (v : Word)
  | reg (r : Reg)
  deriving DecidableEq, Repr, Inhabited

/-- What a host callback does (R431 to R437): the operations it performs, in order; whether it then fails, with the tag and
the detail it chose (R401); the value it returns; the page it returns (page-fault and page-write callbacks only). -/
structure HostAnswer where
  acts : List HostOp
  failure : Option (Tag × Nat)
  value : HostValue
  page : PageImage
  deriving DecidableEq, Repr, Inhabited

/-- What a host callback can see when it is called: its arguments, the machine's registers, pc, counter, memory and pages, and
the host's own memory (R431, R436). -/
structure HostView where
  args : List Nat
  regs : List Word
  pc : Word
  counter : BitVec 64
  mem : List Host.Cell
  hostMem : List Host.Cell
  pages : List (Nat × Page)
  deriving DecidableEq, Repr, Inhabited

/-- FREE VALUE.  What the host code numbered `callback` does at draw `draw`, seeing `view`: "what each handler does is
host policy" (R431, R436, R435, R437).  Any script of operations, any value, any page, any failure. -/
opaque Config.hostAnswer (callback draw : Nat) (view : HostView) : HostAnswer

/-- FREE VALUE.  One draw between two outcomes the spec leaves open (table 1.3): the bytes a straddling store wrote before
its fault (R78), `a0` after an unhandled `EBREAK` (R304), the fault tag in the pregenerated band (R161), the reservation
after a host action (R281). -/
opaque Config.freeBool (draw : Nat) : Bool

/-- How deep the host's callbacks may call one another: the last one may make no call to the host.  Deeper is refused by name
(`hostNesting`; DESIGN CHOICE, log entry 10). -/
def Config.hostNesting : Nat := 1000

/-- FREE VALUE.  The byte an external writer leaves at guest address `addr` of an externally written page, at boundary
draw `draw` (R438). -/
opaque Config.externalByte (draw addr : Nat) : Byte

/-- FREE VALUE.  The attributes of a page `create_page` makes, which R93 does not state. -/
opaque Config.createdPageAttr (draw : Nat) : PageAttr

/-- FREE VALUE.  The number `memcmp` returns, which R445 does not state (log entry 21). -/
opaque Config.memcmpResult (guest host : List Byte) : Nat

end Sys2Proof
end

