-- ==== Sys2Proof/Syntax.lean ====
section
/-! DEFINITION. The instructions: one constructor for each row of spec/opcode_table.json.

Operands are the fields of the encoding (spec/30_encoding.md R111, R112, R119; spec/46_compressed.md).  An immediate is held
at its own width and value: a branch offset keeps its low zero bit, and `WellFormed` checks it.  A row whose encodings this block
does not execute keeps the bits of its word, since they are the detail of the fault it raises (R116, R121). -/

namespace Sys2Proof

inductive Instr where
  -- upper immediates (R191, R192)
  | lui (rd : Reg) (imm : BitVec 20)
  | auipc (rd : Reg) (imm : BitVec 20)
  -- register-immediate (R193 to R201)
  | addi (rd rs1 : Reg) (imm : BitVec 12)
  | slti (rd rs1 : Reg) (imm : BitVec 12)
  | sltiu (rd rs1 : Reg) (imm : BitVec 12)
  | xori (rd rs1 : Reg) (imm : BitVec 12)
  | ori (rd rs1 : Reg) (imm : BitVec 12)
  | andi (rd rs1 : Reg) (imm : BitVec 12)
  | slli (rd rs1 : Reg) (shamt : BitVec 6)
  | srli (rd rs1 : Reg) (shamt : BitVec 6)
  | srai (rd rs1 : Reg) (shamt : BitVec 6)
  -- register-register (R202 to R211)
  | add (rd rs1 rs2 : Reg)
  | sub (rd rs1 rs2 : Reg)
  | sll (rd rs1 rs2 : Reg)
  | slt (rd rs1 rs2 : Reg)
  | sltu (rd rs1 rs2 : Reg)
  | xor (rd rs1 rs2 : Reg)
  | srl (rd rs1 rs2 : Reg)
  | sra (rd rs1 rs2 : Reg)
  | or (rd rs1 rs2 : Reg)
  | and (rd rs1 rs2 : Reg)
  -- RV64 word forms (R212 to R220)
  | addiw (rd rs1 : Reg) (imm : BitVec 12)
  | slliw (rd rs1 : Reg) (shamt : BitVec 5)
  | srliw (rd rs1 : Reg) (shamt : BitVec 5)
  | sraiw (rd rs1 : Reg) (shamt : BitVec 5)
  | addw (rd rs1 rs2 : Reg)
  | subw (rd rs1 rs2 : Reg)
  | sllw (rd rs1 rs2 : Reg)
  | srlw (rd rs1 rs2 : Reg)
  | sraw (rd rs1 rs2 : Reg)
  -- control transfer (R241 to R248)
  | jal (rd : Reg) (offset : BitVec 21)
  | jalr (rd rs1 : Reg) (imm : BitVec 12)
  | beq (rs1 rs2 : Reg) (offset : BitVec 13)
  | bne (rs1 rs2 : Reg) (offset : BitVec 13)
  | blt (rs1 rs2 : Reg) (offset : BitVec 13)
  | bge (rs1 rs2 : Reg) (offset : BitVec 13)
  | bltu (rs1 rs2 : Reg) (offset : BitVec 13)
  | bgeu (rs1 rs2 : Reg) (offset : BitVec 13)
  -- loads (R261 to R267)
  | lb (rd rs1 : Reg) (imm : BitVec 12)
  | lh (rd rs1 : Reg) (imm : BitVec 12)
  | lw (rd rs1 : Reg) (imm : BitVec 12)
  | ld (rd rs1 : Reg) (imm : BitVec 12)
  | lbu (rd rs1 : Reg) (imm : BitVec 12)
  | lhu (rd rs1 : Reg) (imm : BitVec 12)
  | lwu (rd rs1 : Reg) (imm : BitVec 12)
  -- stores (R270 to R273)
  | sb (rs1 rs2 : Reg) (imm : BitVec 12)
  | sh (rs1 rs2 : Reg) (imm : BitVec 12)
  | sw (rs1 rs2 : Reg) (imm : BitVec 12)
  | sd (rs1 rs2 : Reg) (imm : BitVec 12)
  -- atomics, word (R283 to R293)
  | lrW (rd rs1 : Reg) (aq rl : Bool)
  | scW (rd rs1 rs2 : Reg) (aq rl : Bool)
  | amoswapW (rd rs1 rs2 : Reg) (aq rl : Bool)
  | amoaddW (rd rs1 rs2 : Reg) (aq rl : Bool)
  | amoxorW (rd rs1 rs2 : Reg) (aq rl : Bool)
  | amoandW (rd rs1 rs2 : Reg) (aq rl : Bool)
  | amoorW (rd rs1 rs2 : Reg) (aq rl : Bool)
  | amominW (rd rs1 rs2 : Reg) (aq rl : Bool)
  | amomaxW (rd rs1 rs2 : Reg) (aq rl : Bool)
  | amominuW (rd rs1 rs2 : Reg) (aq rl : Bool)
  | amomaxuW (rd rs1 rs2 : Reg) (aq rl : Bool)
  -- atomics, doubleword (R380 to R390)
  | lrD (rd rs1 : Reg) (aq rl : Bool)
  | scD (rd rs1 rs2 : Reg) (aq rl : Bool)
  | amoswapD (rd rs1 rs2 : Reg) (aq rl : Bool)
  | amoaddD (rd rs1 rs2 : Reg) (aq rl : Bool)
  | amoxorD (rd rs1 rs2 : Reg) (aq rl : Bool)
  | amoandD (rd rs1 rs2 : Reg) (aq rl : Bool)
  | amoorD (rd rs1 rs2 : Reg) (aq rl : Bool)
  | amominD (rd rs1 rs2 : Reg) (aq rl : Bool)
  | amomaxD (rd rs1 rs2 : Reg) (aq rl : Bool)
  | amominuD (rd rs1 rs2 : Reg) (aq rl : Bool)
  | amomaxuD (rd rs1 rs2 : Reg) (aq rl : Bool)
  -- fences and system (R300 to R303)
  | fence (fm pred succ : BitVec 4) (rs1 rd : Reg)
  | ecall
  | ebreak
  -- 32-bit rows that raise UNIMPLEMENTED_INSTRUCTION (R301, R305, R306, R307)
  | fenceI (imm : BitVec 12) (rs1 rd : Reg)
  | mulDiv (funct3 : BitVec 3) (rd rs1 rs2 : Reg)
  | mulDivW (funct3 : BitVec 3) (rd rs1 rs2 : Reg)
  | csrrw (csr : BitVec 12) (src rd : Reg)
  | csrrs (csr : BitVec 12) (src rd : Reg)
  | csrrc (csr : BitVec 12) (src rd : Reg)
  | csrrwi (csr : BitVec 12) (src rd : Reg)
  | csrrsi (csr : BitVec 12) (src rd : Reg)
  | csrrci (csr : BitVec 12) (src rd : Reg)
  | systemFunct3_4 (imm : BitVec 12) (rs1 rd : Reg)
  | uret
  | sret
  | mret
  | wfi
  | sfenceVma (rs1 rs2 : Reg)
  | loadFp (high : BitVec 25)
  | storeFp (high : BitVec 25)
  | fmadd (high : BitVec 25)
  | fmsub (high : BitVec 25)
  | fnmsub (high : BitVec 25)
  | fnmadd (high : BitVec 25)
  | opFp (high : BitVec 25)
  -- compressed, quadrant 0 (R322 to R326)
  | cAddi4spn (rd : Reg3) (imm : BitVec 10)
  | cLw (rd rs1 : Reg3) (imm : BitVec 7)
  | cLd (rd rs1 : Reg3) (imm : BitVec 8)
  | cSw (rs1 rs2 : Reg3) (imm : BitVec 7)
  | cSd (rs1 rs2 : Reg3) (imm : BitVec 8)
  -- compressed, quadrant 1 (R327 to R345)
  | cNop
  | cAddi (rd : Reg) (imm : BitVec 6)
  | cJal (offset : BitVec 12)
  | cAddiw (rd : Reg) (imm : BitVec 6)
  | cLi (rd : Reg) (imm : BitVec 6)
  | cAddi16sp (imm : BitVec 10)
  | cLui (rd : Reg) (imm : BitVec 6)
  | cSrli (rd : Reg3) (shamt : BitVec 6)
  | cSrai (rd : Reg3) (shamt : BitVec 6)
  | cAndi (rd : Reg3) (imm : BitVec 6)
  | cSub (rd rs2 : Reg3)
  | cXor (rd rs2 : Reg3)
  | cOr (rd rs2 : Reg3)
  | cAnd (rd rs2 : Reg3)
  | cSubw (rd rs2 : Reg3)
  | cAddw (rd rs2 : Reg3)
  | cJ (offset : BitVec 12)
  | cBeqz (rs1 : Reg3) (offset : BitVec 9)
  | cBnez (rs1 : Reg3) (offset : BitVec 9)
  -- compressed, quadrant 2 (R346 to R355)
  | cSlli (rd : Reg) (shamt : BitVec 6)
  | cLwsp (rd : Reg) (imm : BitVec 8)
  | cLdsp (rd : Reg) (imm : BitVec 9)
  | cJr (rs1 : Reg)
  | cMv (rd rs2 : Reg)
  | cEbreak
  | cJalr (rs1 : Reg)
  | cAdd (rd rs2 : Reg)
  | cSwsp (rs2 : Reg) (imm : BitVec 8)
  | cSdsp (rs2 : Reg) (imm : BitVec 9)
  -- 16-bit rows that raise UNIMPLEMENTED_INSTRUCTION (R321)
  | cFld (mid : BitVec 11)
  | cFsd (mid : BitVec 11)
  | cFldsp (mid : BitVec 11)
  | cFsdsp (mid : BitVec 11)
  | cFlw (mid : BitVec 11)
  | cFsw (mid : BitVec 11)
  | cFlwsp (mid : BitVec 11)
  | cFswsp (mid : BitVec 11)
  | cReserved00_4 (mid : BitVec 11)
  | cIllegal
  deriving DecidableEq, Repr, Inhabited

end Sys2Proof
end

