-- ==== Sys2Proof/WellFormed.lean ====
section
/-! DEFINITION. Which instruction terms stand for an encoding: the configuration an instruction exists in
(spec/30_encoding.md R114, R120) and the values its operands may take (R112, R116, R121, spec/46_compressed.md).
One check for each condition of the opcode table's `condition` column. -/

namespace Sys2Proof

/-- What a row of the opcode table asks of the configuration (its `condition`): the register width and the extension. -/
inductive Needs where
  | base
  | rv64
  | atomic
  | atomic64
  | compressed
  | compressed32
  | compressed64
  deriving DecidableEq, Repr

/-- The configuration has what the row needs (R114, R120, R280, R320). -/
def Needs.met (p : Params) : Needs → Bool
  | .base => true
  | .rv64 => p.w == .w8
  | .atomic => p.extA
  | .atomic64 => p.extA && p.w == .w8
  | .compressed => p.extC
  | .compressed32 => p.extC && p.w == .w4
  | .compressed64 => p.extC && p.w == .w8

/-- What each row needs (R114, R120). -/
def Instr.needs : Instr → Needs
  | .lui .. | .auipc .. | .addi .. | .slti .. | .sltiu .. | .xori .. | .ori .. | .andi .. => .base
  | .slli .. | .srli .. | .srai .. => .base
  | .add .. | .sub .. | .sll .. | .slt .. | .sltu .. | .xor .. | .srl .. | .sra .. | .or .. | .and .. => .base
  | .addiw .. | .slliw .. | .srliw .. | .sraiw .. | .addw .. | .subw .. | .sllw .. | .srlw .. | .sraw .. => .rv64
  | .jal .. | .jalr .. | .beq .. | .bne .. | .blt .. | .bge .. | .bltu .. | .bgeu .. => .base
  | .lb .. | .lh .. | .lw .. | .lbu .. | .lhu .. => .base
  | .ld .. | .lwu .. => .rv64
  | .sb .. | .sh .. | .sw .. => .base
  | .sd .. => .rv64
  | .lrW .. | .scW .. | .amoswapW .. | .amoaddW .. | .amoxorW .. | .amoandW .. | .amoorW .. => .atomic
  | .amominW .. | .amomaxW .. | .amominuW .. | .amomaxuW .. => .atomic
  | .lrD .. | .scD .. | .amoswapD .. | .amoaddD .. | .amoxorD .. | .amoandD .. | .amoorD .. => .atomic64
  | .amominD .. | .amomaxD .. | .amominuD .. | .amomaxuD .. => .atomic64
  | .fence .. | .ecall | .ebreak | .fenceI .. | .mulDiv .. => .base
  | .mulDivW .. => .rv64
  | .csrrw .. | .csrrs .. | .csrrc .. | .csrrwi .. | .csrrsi .. | .csrrci .. | .systemFunct3_4 .. => .base
  | .uret | .sret | .mret | .wfi | .sfenceVma .. => .base
  | .loadFp .. | .storeFp .. | .fmadd .. | .fmsub .. | .fnmsub .. | .fnmadd .. | .opFp .. => .base
  | .cAddi4spn .. | .cLw .. | .cSw .. | .cNop | .cAddi .. | .cLi .. | .cAddi16sp .. | .cLui .. => .compressed
  | .cLd .. | .cSd .. | .cAddiw .. | .cSubw .. | .cAddw .. | .cLdsp .. | .cSdsp .. => .compressed64
  | .cJal .. => .compressed32
  | .cSrli .. | .cSrai .. | .cAndi .. | .cSub .. | .cXor .. | .cOr .. | .cAnd .. => .compressed
  | .cJ .. | .cBeqz .. | .cBnez .. | .cSlli .. | .cLwsp .. | .cJr .. | .cMv .. | .cEbreak => .compressed
  | .cJalr .. | .cAdd .. | .cSwsp .. => .compressed
  | .cFld .. | .cFsd .. | .cFldsp .. | .cFsdsp .. | .cReserved00_4 .. | .cIllegal => .compressed
  | .cFlw .. | .cFsw .. | .cFlwsp .. | .cFswsp .. => .compressed32

/-- The low `k` bits are zero: a scaled offset (R112, R119). -/
def multipleOf {n : Nat} (v : BitVec n) (k : Nat) : Bool := v.toNat % k == 0

/-- A shift amount fits the register width: `shamt[5] = 0` on RV32 (R116, R121). -/
def shamtFits (p : Params) (shamt : BitVec 6) : Bool := p.w == .w8 || shamt.toNat < 32

/-- The values the operand fields may take (R112, R116, R121 and the rules of spec/46_compressed.md). -/
def Instr.operandsOk (p : Params) : Instr → Bool
  | .slli _ _ shamt | .srli _ _ shamt | .srai _ _ shamt => shamtFits p shamt
  | .jal _ offset => multipleOf offset 2
  | .beq _ _ offset | .bne _ _ offset | .blt _ _ offset => multipleOf offset 2
  | .bge _ _ offset | .bltu _ _ offset | .bgeu _ _ offset => multipleOf offset 2
  | .cAddi4spn _ imm => multipleOf imm 4 && imm != 0
  | .cLw _ _ imm | .cSw _ _ imm => multipleOf imm 4
  | .cLd _ _ imm | .cSd _ _ imm => multipleOf imm 8
  | .cAddi rd imm => rd != 0 && imm != 0
  | .cJal offset | .cJ offset => multipleOf offset 2
  | .cAddiw rd _ | .cLi rd _ => rd != 0
  | .cAddi16sp imm => multipleOf imm 16 && imm != 0
  | .cLui rd imm => rd != 0 && rd != 2 && imm != 0
  | .cSrli _ shamt | .cSrai _ shamt => shamt != 0 && shamtFits p shamt
  | .cBeqz _ offset | .cBnez _ offset => multipleOf offset 2
  | .cSlli rd shamt => rd != 0 && shamt != 0 && shamtFits p shamt
  | .cLwsp rd imm => rd != 0 && multipleOf imm 4
  | .cLdsp rd imm => rd != 0 && multipleOf imm 8
  | .cJr rs1 | .cJalr rs1 => rs1 != 0
  | .cMv rd rs2 | .cAdd rd rs2 => rd != 0 && rs2 != 0
  | .cSwsp _ imm => multipleOf imm 4
  | .cSdsp _ imm => multipleOf imm 8
  | .lui .. | .auipc .. | .addi .. | .slti .. | .sltiu .. | .xori .. | .ori .. | .andi .. => true
  | .add .. | .sub .. | .sll .. | .slt .. | .sltu .. | .xor .. | .srl .. | .sra .. | .or .. | .and .. => true
  | .addiw .. | .slliw .. | .srliw .. | .sraiw .. | .addw .. | .subw .. | .sllw .. | .srlw .. | .sraw .. => true
  | .jalr .. | .lb .. | .lh .. | .lw .. | .ld .. | .lbu .. | .lhu .. | .lwu .. => true
  | .sb .. | .sh .. | .sw .. | .sd .. => true
  | .lrW .. | .scW .. | .amoswapW .. | .amoaddW .. | .amoxorW .. | .amoandW .. | .amoorW .. => true
  | .amominW .. | .amomaxW .. | .amominuW .. | .amomaxuW .. => true
  | .lrD .. | .scD .. | .amoswapD .. | .amoaddD .. | .amoxorD .. | .amoandD .. | .amoorD .. => true
  | .amominD .. | .amomaxD .. | .amominuD .. | .amomaxuD .. => true
  | .fence .. | .ecall | .ebreak | .fenceI .. | .mulDiv .. | .mulDivW .. => true
  | .csrrw .. | .csrrs .. | .csrrc .. | .csrrwi .. | .csrrsi .. | .csrrci .. | .systemFunct3_4 .. => true
  | .uret | .sret | .mret | .wfi | .sfenceVma .. => true
  | .loadFp .. | .storeFp .. | .fmadd .. | .fmsub .. | .fnmsub .. | .fnmadd .. | .opFp .. => true
  | .cNop | .cAndi .. | .cSub .. | .cXor .. | .cOr .. | .cAnd .. | .cSubw .. | .cAddw .. | .cEbreak => true
  | .cFld .. | .cFsd .. | .cFldsp .. | .cFsdsp .. | .cFlw .. | .cFsw .. | .cFlwsp .. | .cFswsp .. => true
  | .cReserved00_4 .. | .cIllegal => true

/-- The instruction exists in the configuration and its operands are encodable. -/
def Instr.wf (p : Params) (i : Instr) : Bool := i.needs.met p && i.operandsOk p

end Sys2Proof
end

