-- ==== Sys2Proof/Decode.lean ====
section
/-! DEFINITION. The decoder (spec/30_encoding.md R110 to R121) and the encoder, written from the same encoding tables.

Decoding is a pure function of the instruction bits and the parameters (R115).  `decode32` follows the opcode map of R113 and
R114, `decode16` that of R120.  A word no row selects has no instruction: the answer is `none`, and the fetch raises
`UNIMPLEMENTED_INSTRUCTION` with the word as detail (R116). -/

namespace Sys2Proof

/-! ### Fields of a 32-bit instruction (R111) -/

def fOpcode (w : BitVec 32) : BitVec 7 := w.extractLsb' 0 7
def fRd (w : BitVec 32) : Reg := w.extractLsb' 7 5
def fFunct3 (w : BitVec 32) : BitVec 3 := w.extractLsb' 12 3
def fRs1 (w : BitVec 32) : Reg := w.extractLsb' 15 5
def fRs2 (w : BitVec 32) : Reg := w.extractLsb' 20 5
def fFunct7 (w : BitVec 32) : BitVec 7 := w.extractLsb' 25 7
/-- The 6-bit shift amount, `inst[25:20]`. -/
def fShamt6 (w : BitVec 32) : BitVec 6 := w.extractLsb' 20 6
/-- `funct6 = inst[31:26]`, the minor opcode of the immediate shifts. -/
def fFunct6 (w : BitVec 32) : BitVec 6 := w.extractLsb' 26 6
/-- `funct5 = inst[31:27]`, the AMO operation. -/
def fFunct5 (w : BitVec 32) : BitVec 5 := w.extractLsb' 27 5
/-- `aq = inst[26]`. -/
def fAq (w : BitVec 32) : Bool := w.extractLsb' 26 1 == 1#1
/-- `rl = inst[25]`. -/
def fRl (w : BitVec 32) : Bool := w.extractLsb' 25 1 == 1#1
/-- `inst[31:7]`, everything but the opcode. -/
def fHigh (w : BitVec 32) : BitVec 25 := w.extractLsb' 7 25

/-! ### Immediates of the 32-bit formats (R112) -/

def immI (w : BitVec 32) : BitVec 12 := w.extractLsb' 20 12
def immS (w : BitVec 32) : BitVec 12 := w.extractLsb' 25 7 ++ w.extractLsb' 7 5
/-- `inst[31] inst[7] inst[30:25] inst[11:8] 0` (R112). -/
def immB (w : BitVec 32) : BitVec 13 :=
  w.extractLsb' 31 1 ++ w.extractLsb' 7 1 ++ w.extractLsb' 25 6 ++ w.extractLsb' 8 4 ++ 0#1
def immU (w : BitVec 32) : BitVec 20 := w.extractLsb' 12 20
/-- `inst[31] inst[19:12] inst[20] inst[30:21] 0` (R112). -/
def immJ (w : BitVec 32) : BitVec 21 :=
  w.extractLsb' 31 1 ++ w.extractLsb' 12 8 ++ w.extractLsb' 20 1 ++ w.extractLsb' 21 10 ++ 0#1

/-! ### The 32-bit opcode map (R113, R114) -/

/-- LOAD, opcode 0000011. -/
def decodeLoad (p : Params) (w : BitVec 32) : Option Instr :=
  let f3 := fFunct3 w
  let rd := fRd w
  let rs1 := fRs1 w
  let imm := immI w
  if f3 = 0b000#3 then some (.lb rd rs1 imm)
  else if f3 = 0b001#3 then some (.lh rd rs1 imm)
  else if f3 = 0b010#3 then some (.lw rd rs1 imm)
  else if f3 = 0b100#3 then some (.lbu rd rs1 imm)
  else if f3 = 0b101#3 then some (.lhu rd rs1 imm)
  else if f3 = 0b011#3 then (if p.w = .w8 then some (.ld rd rs1 imm) else none)
  else if f3 = 0b110#3 then (if p.w = .w8 then some (.lwu rd rs1 imm) else none)
  else none

/-- STORE, opcode 0100011. -/
def decodeStore (p : Params) (w : BitVec 32) : Option Instr :=
  let f3 := fFunct3 w
  let rs1 := fRs1 w
  let rs2 := fRs2 w
  let imm := immS w
  if f3 = 0b000#3 then some (.sb rs1 rs2 imm)
  else if f3 = 0b001#3 then some (.sh rs1 rs2 imm)
  else if f3 = 0b010#3 then some (.sw rs1 rs2 imm)
  else if f3 = 0b011#3 then (if p.w = .w8 then some (.sd rs1 rs2 imm) else none)
  else none

/-- OP-IMM, opcode 0010011.  On RV32 the immediate shifts also need `inst[25] = 0` (R114, R116). -/
def decodeOpImm (p : Params) (w : BitVec 32) : Option Instr :=
  let f3 := fFunct3 w
  let rd := fRd w
  let rs1 := fRs1 w
  let imm := immI w
  let f6 := fFunct6 w
  let shamt := fShamt6 w
  if f3 = 0b000#3 then some (.addi rd rs1 imm)
  else if f3 = 0b010#3 then some (.slti rd rs1 imm)
  else if f3 = 0b011#3 then some (.sltiu rd rs1 imm)
  else if f3 = 0b100#3 then some (.xori rd rs1 imm)
  else if f3 = 0b110#3 then some (.ori rd rs1 imm)
  else if f3 = 0b111#3 then some (.andi rd rs1 imm)
  else if !shamtFits p shamt then none
  else if f3 = 0b001#3 then
    (if f6 = 0b000000#6 then some (.slli rd rs1 shamt) else none)
  else
    (if f6 = 0b000000#6 then some (.srli rd rs1 shamt)
     else if f6 = 0b010000#6 then some (.srai rd rs1 shamt)
     else none)

/-- OP, opcode 0110011; `funct7 = 0000001` is the M extension (R305). -/
def decodeOp (w : BitVec 32) : Option Instr :=
  let f3 := fFunct3 w
  let f7 := fFunct7 w
  let rd := fRd w
  let rs1 := fRs1 w
  let rs2 := fRs2 w
  if f7 = 0b0000000#7 then
    (if f3 = 0b000#3 then some (.add rd rs1 rs2)
     else if f3 = 0b001#3 then some (.sll rd rs1 rs2)
     else if f3 = 0b010#3 then some (.slt rd rs1 rs2)
     else if f3 = 0b011#3 then some (.sltu rd rs1 rs2)
     else if f3 = 0b100#3 then some (.xor rd rs1 rs2)
     else if f3 = 0b101#3 then some (.srl rd rs1 rs2)
     else if f3 = 0b110#3 then some (.or rd rs1 rs2)
     else some (.and rd rs1 rs2))
  else if f7 = 0b0100000#7 then
    (if f3 = 0b000#3 then some (.sub rd rs1 rs2)
     else if f3 = 0b101#3 then some (.sra rd rs1 rs2)
     else none)
  else if f7 = 0b0000001#7 then some (.mulDiv f3 rd rs1 rs2)
  else none

/-- OP-IMM-32, opcode 0011011, RV64 only. -/
def decodeOpImm32 (p : Params) (w : BitVec 32) : Option Instr :=
  let f3 := fFunct3 w
  let f7 := fFunct7 w
  let rd := fRd w
  let rs1 := fRs1 w
  let shamt := fRs2 w
  if p.w = .w4 then none
  else if f3 = 0b000#3 then some (.addiw rd rs1 (immI w))
  else if f3 = 0b001#3 then (if f7 = 0b0000000#7 then some (.slliw rd rs1 shamt) else none)
  else if f3 = 0b101#3 then
    (if f7 = 0b0000000#7 then some (.srliw rd rs1 shamt)
     else if f7 = 0b0100000#7 then some (.sraiw rd rs1 shamt)
     else none)
  else none

/-- OP-32, opcode 0111011, RV64 only; `funct7 = 0000001` is the M extension (R305). -/
def decodeOp32 (p : Params) (w : BitVec 32) : Option Instr :=
  let f3 := fFunct3 w
  let f7 := fFunct7 w
  let rd := fRd w
  let rs1 := fRs1 w
  let rs2 := fRs2 w
  if p.w = .w4 then none
  else if f7 = 0b0000000#7 then
    (if f3 = 0b000#3 then some (.addw rd rs1 rs2)
     else if f3 = 0b001#3 then some (.sllw rd rs1 rs2)
     else if f3 = 0b101#3 then some (.srlw rd rs1 rs2)
     else none)
  else if f7 = 0b0100000#7 then
    (if f3 = 0b000#3 then some (.subw rd rs1 rs2)
     else if f3 = 0b101#3 then some (.sraw rd rs1 rs2)
     else none)
  else if f7 = 0b0000001#7 then some (.mulDivW f3 rd rs1 rs2)
  else none

/-- BRANCH, opcode 1100011. -/
def decodeBranch (w : BitVec 32) : Option Instr :=
  let f3 := fFunct3 w
  let rs1 := fRs1 w
  let rs2 := fRs2 w
  let off := immB w
  if f3 = 0b000#3 then some (.beq rs1 rs2 off)
  else if f3 = 0b001#3 then some (.bne rs1 rs2 off)
  else if f3 = 0b100#3 then some (.blt rs1 rs2 off)
  else if f3 = 0b101#3 then some (.bge rs1 rs2 off)
  else if f3 = 0b110#3 then some (.bltu rs1 rs2 off)
  else if f3 = 0b111#3 then some (.bgeu rs1 rs2 off)
  else none

/-- AMO, opcode 0101111, `funct3 = 010` (R282). -/
def decodeAmoW (w : BitVec 32) : Option Instr :=
  let f5 := fFunct5 w
  let rd := fRd w
  let rs1 := fRs1 w
  let rs2 := fRs2 w
  let aq := fAq w
  let rl := fRl w
  if f5 = 0b00010#5 then (if rs2 = 0#5 then some (.lrW rd rs1 aq rl) else none)
  else if f5 = 0b00011#5 then some (.scW rd rs1 rs2 aq rl)
  else if f5 = 0b00001#5 then some (.amoswapW rd rs1 rs2 aq rl)
  else if f5 = 0b00000#5 then some (.amoaddW rd rs1 rs2 aq rl)
  else if f5 = 0b00100#5 then some (.amoxorW rd rs1 rs2 aq rl)
  else if f5 = 0b01100#5 then some (.amoandW rd rs1 rs2 aq rl)
  else if f5 = 0b01000#5 then some (.amoorW rd rs1 rs2 aq rl)
  else if f5 = 0b10000#5 then some (.amominW rd rs1 rs2 aq rl)
  else if f5 = 0b10100#5 then some (.amomaxW rd rs1 rs2 aq rl)
  else if f5 = 0b11000#5 then some (.amominuW rd rs1 rs2 aq rl)
  else if f5 = 0b11100#5 then some (.amomaxuW rd rs1 rs2 aq rl)
  else none

/-- AMO, opcode 0101111, `funct3 = 011` (R282). -/
def decodeAmoD (w : BitVec 32) : Option Instr :=
  let f5 := fFunct5 w
  let rd := fRd w
  let rs1 := fRs1 w
  let rs2 := fRs2 w
  let aq := fAq w
  let rl := fRl w
  if f5 = 0b00010#5 then (if rs2 = 0#5 then some (.lrD rd rs1 aq rl) else none)
  else if f5 = 0b00011#5 then some (.scD rd rs1 rs2 aq rl)
  else if f5 = 0b00001#5 then some (.amoswapD rd rs1 rs2 aq rl)
  else if f5 = 0b00000#5 then some (.amoaddD rd rs1 rs2 aq rl)
  else if f5 = 0b00100#5 then some (.amoxorD rd rs1 rs2 aq rl)
  else if f5 = 0b01100#5 then some (.amoandD rd rs1 rs2 aq rl)
  else if f5 = 0b01000#5 then some (.amoorD rd rs1 rs2 aq rl)
  else if f5 = 0b10000#5 then some (.amominD rd rs1 rs2 aq rl)
  else if f5 = 0b10100#5 then some (.amomaxD rd rs1 rs2 aq rl)
  else if f5 = 0b11000#5 then some (.amominuD rd rs1 rs2 aq rl)
  else if f5 = 0b11100#5 then some (.amomaxuD rd rs1 rs2 aq rl)
  else none

/-- AMO, opcode 0101111: only with `EXT_A`, the doubleword forms only on RV64 (R282). -/
def decodeAmo (p : Params) (w : BitVec 32) : Option Instr :=
  if !p.extA then none
  else if fFunct3 w = 0b010#3 then decodeAmoW w
  else if fFunct3 w = 0b011#3 then (if p.w = .w8 then decodeAmoD w else none)
  else none

/-- SYSTEM, opcode 1110011 (R302, R303, R306).  The rows that raise keep their bits. -/
def decodeSystem (w : BitVec 32) : Option Instr :=
  let f3 := fFunct3 w
  let rd := fRd w
  let rs1 := fRs1 w
  let csr := immI w
  if w = 0x00000073#32 then some .ecall
  else if w = 0x00100073#32 then some .ebreak
  else if w = 0x00200073#32 then some .uret
  else if w = 0x10200073#32 then some .sret
  else if w = 0x30200073#32 then some .mret
  else if w = 0x10500073#32 then some .wfi
  else if f3 = 0b000#3 then
    (if fFunct7 w = 0b0001001#7 ∧ rd = 0#5 then some (.sfenceVma rs1 (fRs2 w)) else none)
  else if f3 = 0b001#3 then some (.csrrw csr rs1 rd)
  else if f3 = 0b010#3 then some (.csrrs csr rs1 rd)
  else if f3 = 0b011#3 then some (.csrrc csr rs1 rd)
  else if f3 = 0b100#3 then some (.systemFunct3_4 csr rs1 rd)
  else if f3 = 0b101#3 then some (.csrrwi csr rs1 rd)
  else if f3 = 0b110#3 then some (.csrrsi csr rs1 rd)
  else some (.csrrci csr rs1 rd)

/-- MISC-MEM, opcode 0001111 (R300, R301). -/
def decodeMiscMem (w : BitVec 32) : Option Instr :=
  if fFunct3 w = 0b000#3 then
    some (.fence (w.extractLsb' 28 4) (w.extractLsb' 24 4) (w.extractLsb' 20 4) (fRs1 w) (fRd w))
  else if fFunct3 w = 0b001#3 then some (.fenceI (immI w) (fRs1 w) (fRd w))
  else none

/-- The 32-bit decoder: the primary opcode of R113, then the refinement of R114. -/
def decode32 (p : Params) (w : BitVec 32) : Option Instr :=
  let op := fOpcode w
  if op = 0b0110111#7 then some (.lui (fRd w) (immU w))
  else if op = 0b0010111#7 then some (.auipc (fRd w) (immU w))
  else if op = 0b0010011#7 then decodeOpImm p w
  else if op = 0b0110011#7 then decodeOp w
  else if op = 0b0011011#7 then decodeOpImm32 p w
  else if op = 0b0111011#7 then decodeOp32 p w
  else if op = 0b0000011#7 then decodeLoad p w
  else if op = 0b0100011#7 then decodeStore p w
  else if op = 0b1100011#7 then decodeBranch w
  else if op = 0b1101111#7 then some (.jal (fRd w) (immJ w))
  else if op = 0b1100111#7 then
    (if fFunct3 w = 0b000#3 then some (.jalr (fRd w) (fRs1 w) (immI w)) else none)
  else if op = 0b0101111#7 then decodeAmo p w
  else if op = 0b0001111#7 then decodeMiscMem w
  else if op = 0b1110011#7 then decodeSystem w
  else if op = 0b0000111#7 then some (.loadFp (fHigh w))
  else if op = 0b0100111#7 then some (.storeFp (fHigh w))
  else if op = 0b1000011#7 then some (.fmadd (fHigh w))
  else if op = 0b1000111#7 then some (.fmsub (fHigh w))
  else if op = 0b1001011#7 then some (.fnmsub (fHigh w))
  else if op = 0b1001111#7 then some (.fnmadd (fHigh w))
  else if op = 0b1010011#7 then some (.opFp (fHigh w))
  else none

/-! ### Fields of a 16-bit instruction (R119) -/

def cFunct3 (c : BitVec 16) : BitVec 3 := c.extractLsb' 13 3
def cQuad (c : BitVec 16) : BitVec 2 := c.extractLsb' 0 2
/-- The full field `c[11:7]`. -/
def cRd (c : BitVec 16) : Reg := c.extractLsb' 7 5
/-- The full field `c[6:2]`. -/
def cRs2 (c : BitVec 16) : Reg := c.extractLsb' 2 5
/-- The primed field `c[9:7]`. -/
def cHiReg (c : BitVec 16) : Reg3 := c.extractLsb' 7 3
/-- The primed field `c[4:2]`. -/
def cLoReg (c : BitVec 16) : Reg3 := c.extractLsb' 2 3
/-- `c[12:2]`, everything but the quadrant and `funct3`. -/
def cMid (c : BitVec 16) : BitVec 11 := c.extractLsb' 2 11

/-! ### Immediates of the compressed forms (spec/46_compressed.md) -/

/-- The CI immediate `c[12] c[6:2]` (R328). -/
def cImm6 (c : BitVec 16) : BitVec 6 := c.extractLsb' 12 1 ++ c.extractLsb' 2 5
/-- C.ADDI4SPN: `c[10:7] c[12:11] c[5] c[6] 00` (R322). -/
def cImmSpn (c : BitVec 16) : BitVec 10 :=
  c.extractLsb' 7 4 ++ c.extractLsb' 11 2 ++ c.extractLsb' 5 1 ++ c.extractLsb' 6 1 ++ 0#2
/-- C.LW and C.SW: `c[5] c[12:10] c[6] 00` (R323). -/
def cImmW (c : BitVec 16) : BitVec 7 :=
  c.extractLsb' 5 1 ++ c.extractLsb' 10 3 ++ c.extractLsb' 6 1 ++ 0#2
/-- C.LD and C.SD: `c[6:5] c[12:10] 000` (R324). -/
def cImmD (c : BitVec 16) : BitVec 8 := c.extractLsb' 5 2 ++ c.extractLsb' 10 3 ++ 0#3
/-- C.J and C.JAL: `c[12] c[8] c[10:9] c[6] c[7] c[2] c[11] c[5:3] 0` (R329). -/
def cImmJ (c : BitVec 16) : BitVec 12 :=
  c.extractLsb' 12 1 ++ c.extractLsb' 8 1 ++ c.extractLsb' 9 2 ++ c.extractLsb' 6 1 ++ c.extractLsb' 7 1
    ++ c.extractLsb' 2 1 ++ c.extractLsb' 11 1 ++ c.extractLsb' 3 3 ++ 0#1
/-- C.ADDI16SP: `c[12] c[4:3] c[5] c[2] c[6] 0000` (R332). -/
def cImm16sp (c : BitVec 16) : BitVec 10 :=
  c.extractLsb' 12 1 ++ c.extractLsb' 3 2 ++ c.extractLsb' 5 1 ++ c.extractLsb' 2 1 ++ c.extractLsb' 6 1 ++ 0#4
/-- C.BEQZ and C.BNEZ: `c[12] c[6:5] c[2] c[11:10] c[4:3] 0` (R344). -/
def cImmB (c : BitVec 16) : BitVec 9 :=
  c.extractLsb' 12 1 ++ c.extractLsb' 5 2 ++ c.extractLsb' 2 1 ++ c.extractLsb' 10 2 ++ c.extractLsb' 3 2 ++ 0#1
/-- C.LWSP: `c[3:2] c[12] c[6:4] 00` (R347). -/
def cImmLwsp (c : BitVec 16) : BitVec 8 := c.extractLsb' 2 2 ++ c.extractLsb' 12 1 ++ c.extractLsb' 4 3 ++ 0#2
/-- C.LDSP: `c[4:2] c[12] c[6:5] 000` (R348). -/
def cImmLdsp (c : BitVec 16) : BitVec 9 := c.extractLsb' 2 3 ++ c.extractLsb' 12 1 ++ c.extractLsb' 5 2 ++ 0#3
/-- C.SWSP: `c[8:7] c[12:9] 00` (R354). -/
def cImmSwsp (c : BitVec 16) : BitVec 8 := c.extractLsb' 7 2 ++ c.extractLsb' 9 4 ++ 0#2
/-- C.SDSP: `c[9:7] c[12:10] 000` (R355). -/
def cImmSdsp (c : BitVec 16) : BitVec 9 := c.extractLsb' 7 3 ++ c.extractLsb' 10 3 ++ 0#3

/-! ### The compressed opcode map (R120) -/

/-- Quadrant 0. -/
def decodeQ0 (p : Params) (c : BitVec 16) : Option Instr :=
  let f3 := cFunct3 c
  if c = 0x0000#16 then some .cIllegal
  else if f3 = 0b000#3 then (if cImmSpn c = 0#10 then none else some (.cAddi4spn (cLoReg c) (cImmSpn c)))
  else if f3 = 0b001#3 then some (.cFld (cMid c))
  else if f3 = 0b010#3 then some (.cLw (cLoReg c) (cHiReg c) (cImmW c))
  else if f3 = 0b011#3 then
    (if p.w = .w4 then some (.cFlw (cMid c)) else some (.cLd (cLoReg c) (cHiReg c) (cImmD c)))
  else if f3 = 0b100#3 then some (.cReserved00_4 (cMid c))
  else if f3 = 0b101#3 then some (.cFsd (cMid c))
  else if f3 = 0b110#3 then some (.cSw (cHiReg c) (cLoReg c) (cImmW c))
  else
    (if p.w = .w4 then some (.cFsw (cMid c)) else some (.cSd (cHiReg c) (cLoReg c) (cImmD c)))

/-- Quadrant 1, `funct3 = 100`: the register arithmetic of C. -/
def decodeQ1Arith (p : Params) (c : BitVec 16) : Option Instr :=
  let sel := c.extractLsb' 10 2
  let sub := c.extractLsb' 5 2
  let rd := cHiReg c
  let rs2 := cLoReg c
  let imm := cImm6 c
  if sel = 0b00#2 then (if imm = 0#6 ∨ !shamtFits p imm then none else some (.cSrli rd imm))
  else if sel = 0b01#2 then (if imm = 0#6 ∨ !shamtFits p imm then none else some (.cSrai rd imm))
  else if sel = 0b10#2 then some (.cAndi rd imm)
  else if c.extractLsb' 12 1 = 0#1 then
    (if sub = 0b00#2 then some (.cSub rd rs2)
     else if sub = 0b01#2 then some (.cXor rd rs2)
     else if sub = 0b10#2 then some (.cOr rd rs2)
     else some (.cAnd rd rs2))
  else if p.w = .w4 then none
  else if sub = 0b00#2 then some (.cSubw rd rs2)
  else if sub = 0b01#2 then some (.cAddw rd rs2)
  else none

/-- Quadrant 1. -/
def decodeQ1 (p : Params) (c : BitVec 16) : Option Instr :=
  let f3 := cFunct3 c
  let rd := cRd c
  let imm := cImm6 c
  if c = 0x0001#16 then some .cNop
  else if f3 = 0b000#3 then (if rd = 0#5 ∨ imm = 0#6 then none else some (.cAddi rd imm))
  else if f3 = 0b001#3 then
    (if p.w = .w4 then some (.cJal (cImmJ c)) else if rd = 0#5 then none else some (.cAddiw rd imm))
  else if f3 = 0b010#3 then (if rd = 0#5 then none else some (.cLi rd imm))
  else if f3 = 0b011#3 then
    (if rd = 2#5 then (if cImm16sp c = 0#10 then none else some (.cAddi16sp (cImm16sp c)))
     else if rd = 0#5 ∨ imm = 0#6 then none
     else some (.cLui rd imm))
  else if f3 = 0b100#3 then decodeQ1Arith p c
  else if f3 = 0b101#3 then some (.cJ (cImmJ c))
  else if f3 = 0b110#3 then some (.cBeqz (cHiReg c) (cImmB c))
  else some (.cBnez (cHiReg c) (cImmB c))

/-- Quadrant 2, `funct3 = 100`: C.JR, C.MV, C.EBREAK, C.JALR, C.ADD. -/
def decodeQ2Jump (c : BitVec 16) : Option Instr :=
  let rd := cRd c
  let rs2 := cRs2 c
  if c.extractLsb' 12 1 = 0#1 then
    (if rd = 0#5 then none
     else if rs2 = 0#5 then some (.cJr rd)
     else some (.cMv rd rs2))
  else if rs2 = 0#5 then (if rd = 0#5 then some .cEbreak else some (.cJalr rd))
  else if rd = 0#5 then none
  else some (.cAdd rd rs2)

/-- Quadrant 2. -/
def decodeQ2 (p : Params) (c : BitVec 16) : Option Instr :=
  let f3 := cFunct3 c
  let rd := cRd c
  let imm := cImm6 c
  if f3 = 0b000#3 then (if rd = 0#5 ∨ imm = 0#6 ∨ !shamtFits p imm then none else some (.cSlli rd imm))
  else if f3 = 0b001#3 then some (.cFldsp (cMid c))
  else if f3 = 0b010#3 then (if rd = 0#5 then none else some (.cLwsp rd (cImmLwsp c)))
  else if f3 = 0b011#3 then
    (if p.w = .w4 then some (.cFlwsp (cMid c)) else if rd = 0#5 then none else some (.cLdsp rd (cImmLdsp c)))
  else if f3 = 0b100#3 then decodeQ2Jump c
  else if f3 = 0b101#3 then some (.cFsdsp (cMid c))
  else if f3 = 0b110#3 then some (.cSwsp (cRs2 c) (cImmSwsp c))
  else
    (if p.w = .w4 then some (.cFswsp (cMid c)) else some (.cSdsp (cRs2 c) (cImmSdsp c)))

/-- The 16-bit decoder (R120): the quadrant, then `funct3`.  Without `EXT_C` there is no 16-bit instruction (R110). -/
def decode16 (p : Params) (c : BitVec 16) : Option Instr :=
  if !p.extC then none
  else if cQuad c = 0b00#2 then decodeQ0 p c
  else if cQuad c = 0b01#2 then decodeQ1 p c
  else if cQuad c = 0b10#2 then decodeQ2 p c
  else none

/-! ### Instruction length and decoding of bytes (R86, R110) -/

/-- The length in bytes of the instruction whose first parcel is `p0`, or none: a 16-bit parcel without `EXT_C`, or a
parcel that announces an encoding of 48 bits or more (R110). -/
def lengthOf (p : Params) (p0 : BitVec 16) : Option Nat :=
  if p0.extractLsb' 0 2 ≠ 0b11#2 then (if p.extC then some 2 else none)
  else if p0.extractLsb' 2 3 = 0b111#3 then none
  else some 4

/-- The outcome of decoding bytes: an instruction and the bytes after it, or why there is none, by name. -/
inductive Decoded where
  /-- An instruction and the rest of the bytes. -/
  | instr (i : Instr) (rest : List Byte)
  /-- `UNIMPLEMENTED_INSTRUCTION_LENGTH(p)`: the first parcel announces a length this engine lacks (R110). -/
  | badLength (parcel : BitVec 16)
  /-- `UNIMPLEMENTED_INSTRUCTION(inst)`: no rule selects the bits (R116, R121). -/
  | unimplemented (bits : BitVec 32)
  /-- The bytes end inside the instruction. -/
  | truncated
  deriving DecidableEq, Repr

/-- Decode the instruction at the front of a list of bytes, lowest address first; parcels are little-endian halfwords, the
low parcel first (R86). -/
def decodeBytes (p : Params) : List Byte → Decoded
  | b0 :: b1 :: rest =>
    let p0 : BitVec 16 := b1 ++ b0
    match lengthOf p p0 with
    | none => .badLength p0
    | some 2 =>
      match decode16 p p0 with
      | some i => .instr i rest
      | none => .unimplemented (p0.setWidth 32)
    | some _ =>
      match rest with
      | b2 :: b3 :: rest' =>
        let w : BitVec 32 := b3 ++ b2 ++ b1 ++ b0
        match decode32 p w with
        | some i => .instr i rest'
        | none => .unimplemented w
      | _ => .truncated
  | _ => .truncated

/-! ### The encoder -/

/-- R-type: `funct7 rs2 rs1 funct3 rd opcode` (R111). -/
def encR (f7 : BitVec 7) (rs2 rs1 : Reg) (f3 : BitVec 3) (rd : Reg) (op : BitVec 7) : BitVec 32 :=
  f7 ++ rs2 ++ rs1 ++ f3 ++ rd ++ op
/-- I-type: `imm[11:0] rs1 funct3 rd opcode` (R111). -/
def encI (imm : BitVec 12) (rs1 : Reg) (f3 : BitVec 3) (rd : Reg) (op : BitVec 7) : BitVec 32 :=
  imm ++ rs1 ++ f3 ++ rd ++ op
/-- Immediate shift: `funct6 shamt rs1 funct3 rd opcode` (R114). -/
def encShift (f6 shamt : BitVec 6) (rs1 : Reg) (f3 : BitVec 3) (rd : Reg) (op : BitVec 7) : BitVec 32 :=
  f6 ++ shamt ++ rs1 ++ f3 ++ rd ++ op
/-- S-type: `imm[11:5] rs2 rs1 funct3 imm[4:0] opcode` (R111). -/
def encS (imm : BitVec 12) (rs2 rs1 : Reg) (f3 : BitVec 3) (op : BitVec 7) : BitVec 32 :=
  imm.extractLsb' 5 7 ++ rs2 ++ rs1 ++ f3 ++ imm.extractLsb' 0 5 ++ op
/-- B-type: `imm[12] imm[10:5] rs2 rs1 funct3 imm[4:1] imm[11] opcode` (R111). -/
def encB (imm : BitVec 13) (rs2 rs1 : Reg) (f3 : BitVec 3) (op : BitVec 7) : BitVec 32 :=
  imm.extractLsb' 12 1 ++ imm.extractLsb' 5 6 ++ rs2 ++ rs1 ++ f3 ++ imm.extractLsb' 1 4 ++ imm.extractLsb' 11 1 ++ op
/-- U-type: `imm[31:12] rd opcode` (R111). -/
def encU (imm : BitVec 20) (rd : Reg) (op : BitVec 7) : BitVec 32 := imm ++ rd ++ op
/-- J-type: `imm[20] imm[10:1] imm[11] imm[19:12] rd opcode` (R111). -/
def encJ (imm : BitVec 21) (rd : Reg) (op : BitVec 7) : BitVec 32 :=
  imm.extractLsb' 20 1 ++ imm.extractLsb' 1 10 ++ imm.extractLsb' 11 1 ++ imm.extractLsb' 12 8 ++ rd ++ op
/-- AMO: `funct5 aq rl rs2 rs1 funct3 rd 0101111` (R280). -/
def encAmo (f5 : BitVec 5) (aq rl : Bool) (rs2 rs1 : Reg) (f3 : BitVec 3) (rd : Reg) : BitVec 32 :=
  f5 ++ BitVec.ofBool aq ++ BitVec.ofBool rl ++ rs2 ++ rs1 ++ f3 ++ rd ++ 0b0101111#7
/-- FENCE: `fm pred succ rs1 000 rd 0001111` (R300). -/
def encFence (fm pred succ : BitVec 4) (rs1 rd : Reg) : BitVec 32 :=
  fm ++ pred ++ succ ++ rs1 ++ 0b000#3 ++ rd ++ 0b0001111#7
/-- An opcode with the other 25 bits as they are. -/
def encHigh (high : BitVec 25) (op : BitVec 7) : BitVec 32 := high ++ op

/-- `funct3 c[12:2] quadrant`. -/
def encMid (f3 : BitVec 3) (mid : BitVec 11) (q : BitVec 2) : BitVec 16 := f3 ++ mid ++ q
/-- CI: `funct3 imm[5] rd imm[4:0] quadrant` (R119). -/
def encCI (f3 : BitVec 3) (rd : Reg) (imm : BitVec 6) (q : BitVec 2) : BitVec 16 :=
  f3 ++ imm.extractLsb' 5 1 ++ rd ++ imm.extractLsb' 0 5 ++ q
/-- CR: `funct4 rd rs2 10` (R119). -/
def encCR (f4 : BitVec 4) (rd rs2 : Reg) : BitVec 16 := f4 ++ rd ++ rs2 ++ 0b10#2
/-- CB with an immediate: `100 imm[5] sel rd' imm[4:0] 01` (R334). -/
def encCBImm (sel : BitVec 2) (rd : Reg3) (imm : BitVec 6) : BitVec 16 :=
  0b100#3 ++ imm.extractLsb' 5 1 ++ sel ++ rd ++ imm.extractLsb' 0 5 ++ 0b01#2
/-- CA: `funct6 rd' funct2 rs2' 01` (R337). -/
def encCA (f6 : BitVec 6) (rd : Reg3) (f2 : BitVec 2) (rs2 : Reg3) : BitVec 16 := f6 ++ rd ++ f2 ++ rs2 ++ 0b01#2
/-- CIW, C.ADDI4SPN (R322). -/
def encSpn (imm : BitVec 10) (rd : Reg3) : BitVec 16 :=
  0b000#3 ++ imm.extractLsb' 4 2 ++ imm.extractLsb' 6 4 ++ imm.extractLsb' 2 1 ++ imm.extractLsb' 3 1 ++ rd ++ 0b00#2
/-- CL and CS with a word offset (R323, R325). -/
def encLSW (f3 : BitVec 3) (imm : BitVec 7) (hi lo : Reg3) : BitVec 16 :=
  f3 ++ imm.extractLsb' 3 3 ++ hi ++ imm.extractLsb' 2 1 ++ imm.extractLsb' 6 1 ++ lo ++ 0b00#2
/-- CL and CS with a doubleword offset (R324, R326). -/
def encLSD (f3 : BitVec 3) (imm : BitVec 8) (hi lo : Reg3) : BitVec 16 :=
  f3 ++ imm.extractLsb' 3 3 ++ hi ++ imm.extractLsb' 6 2 ++ lo ++ 0b00#2
/-- CJ (R329). -/
def encCJ (f3 : BitVec 3) (o : BitVec 12) : BitVec 16 :=
  f3 ++ o.extractLsb' 11 1 ++ o.extractLsb' 4 1 ++ o.extractLsb' 8 2 ++ o.extractLsb' 10 1 ++ o.extractLsb' 6 1
    ++ o.extractLsb' 7 1 ++ o.extractLsb' 1 3 ++ o.extractLsb' 5 1 ++ 0b01#2
/-- C.ADDI16SP (R332). -/
def enc16sp (imm : BitVec 10) : BitVec 16 :=
  0b011#3 ++ imm.extractLsb' 9 1 ++ 0b00010#5 ++ imm.extractLsb' 4 1 ++ imm.extractLsb' 6 1 ++ imm.extractLsb' 7 2
    ++ imm.extractLsb' 5 1 ++ 0b01#2
/-- CB with a branch offset (R344). -/
def encCB (f3 : BitVec 3) (rs1 : Reg3) (o : BitVec 9) : BitVec 16 :=
  f3 ++ o.extractLsb' 8 1 ++ o.extractLsb' 3 2 ++ rs1 ++ o.extractLsb' 6 2 ++ o.extractLsb' 1 2 ++ o.extractLsb' 5 1
    ++ 0b01#2
/-- C.LWSP (R347). -/
def encLwsp (rd : Reg) (imm : BitVec 8) : BitVec 16 :=
  0b010#3 ++ imm.extractLsb' 5 1 ++ rd ++ imm.extractLsb' 2 3 ++ imm.extractLsb' 6 2 ++ 0b10#2
/-- C.LDSP (R348). -/
def encLdsp (rd : Reg) (imm : BitVec 9) : BitVec 16 :=
  0b011#3 ++ imm.extractLsb' 5 1 ++ rd ++ imm.extractLsb' 3 2 ++ imm.extractLsb' 6 3 ++ 0b10#2
/-- C.SWSP (R354). -/
def encSwsp (rs2 : Reg) (imm : BitVec 8) : BitVec 16 :=
  0b110#3 ++ imm.extractLsb' 2 4 ++ imm.extractLsb' 6 2 ++ rs2 ++ 0b10#2
/-- C.SDSP (R355). -/
def encSdsp (rs2 : Reg) (imm : BitVec 9) : BitVec 16 :=
  0b111#3 ++ imm.extractLsb' 3 3 ++ imm.extractLsb' 6 3 ++ rs2 ++ 0b10#2

/-- The bits of an instruction: one parcel or two. -/
inductive Encoded where
  | half (c : BitVec 16)
  | word (w : BitVec 32)
  deriving DecidableEq, Repr

/-- The encoder: the words of an instruction, from the tables of R111 to R120. -/
def encode : Instr → Encoded
  | .lui rd imm => .word (encU imm rd 0b0110111)
  | .auipc rd imm => .word (encU imm rd 0b0010111)
  | .addi rd rs1 imm => .word (encI imm rs1 0b000 rd 0b0010011)
  | .slti rd rs1 imm => .word (encI imm rs1 0b010 rd 0b0010011)
  | .sltiu rd rs1 imm => .word (encI imm rs1 0b011 rd 0b0010011)
  | .xori rd rs1 imm => .word (encI imm rs1 0b100 rd 0b0010011)
  | .ori rd rs1 imm => .word (encI imm rs1 0b110 rd 0b0010011)
  | .andi rd rs1 imm => .word (encI imm rs1 0b111 rd 0b0010011)
  | .slli rd rs1 shamt => .word (encShift 0b000000 shamt rs1 0b001 rd 0b0010011)
  | .srli rd rs1 shamt => .word (encShift 0b000000 shamt rs1 0b101 rd 0b0010011)
  | .srai rd rs1 shamt => .word (encShift 0b010000 shamt rs1 0b101 rd 0b0010011)
  | .add rd rs1 rs2 => .word (encR 0b0000000 rs2 rs1 0b000 rd 0b0110011)
  | .sub rd rs1 rs2 => .word (encR 0b0100000 rs2 rs1 0b000 rd 0b0110011)
  | .sll rd rs1 rs2 => .word (encR 0b0000000 rs2 rs1 0b001 rd 0b0110011)
  | .slt rd rs1 rs2 => .word (encR 0b0000000 rs2 rs1 0b010 rd 0b0110011)
  | .sltu rd rs1 rs2 => .word (encR 0b0000000 rs2 rs1 0b011 rd 0b0110011)
  | .xor rd rs1 rs2 => .word (encR 0b0000000 rs2 rs1 0b100 rd 0b0110011)
  | .srl rd rs1 rs2 => .word (encR 0b0000000 rs2 rs1 0b101 rd 0b0110011)
  | .sra rd rs1 rs2 => .word (encR 0b0100000 rs2 rs1 0b101 rd 0b0110011)
  | .or rd rs1 rs2 => .word (encR 0b0000000 rs2 rs1 0b110 rd 0b0110011)
  | .and rd rs1 rs2 => .word (encR 0b0000000 rs2 rs1 0b111 rd 0b0110011)
  | .addiw rd rs1 imm => .word (encI imm rs1 0b000 rd 0b0011011)
  | .slliw rd rs1 shamt => .word (encR 0b0000000 shamt rs1 0b001 rd 0b0011011)
  | .srliw rd rs1 shamt => .word (encR 0b0000000 shamt rs1 0b101 rd 0b0011011)
  | .sraiw rd rs1 shamt => .word (encR 0b0100000 shamt rs1 0b101 rd 0b0011011)
  | .addw rd rs1 rs2 => .word (encR 0b0000000 rs2 rs1 0b000 rd 0b0111011)
  | .subw rd rs1 rs2 => .word (encR 0b0100000 rs2 rs1 0b000 rd 0b0111011)
  | .sllw rd rs1 rs2 => .word (encR 0b0000000 rs2 rs1 0b001 rd 0b0111011)
  | .srlw rd rs1 rs2 => .word (encR 0b0000000 rs2 rs1 0b101 rd 0b0111011)
  | .sraw rd rs1 rs2 => .word (encR 0b0100000 rs2 rs1 0b101 rd 0b0111011)
  | .jal rd offset => .word (encJ offset rd 0b1101111)
  | .jalr rd rs1 imm => .word (encI imm rs1 0b000 rd 0b1100111)
  | .beq rs1 rs2 offset => .word (encB offset rs2 rs1 0b000 0b1100011)
  | .bne rs1 rs2 offset => .word (encB offset rs2 rs1 0b001 0b1100011)
  | .blt rs1 rs2 offset => .word (encB offset rs2 rs1 0b100 0b1100011)
  | .bge rs1 rs2 offset => .word (encB offset rs2 rs1 0b101 0b1100011)
  | .bltu rs1 rs2 offset => .word (encB offset rs2 rs1 0b110 0b1100011)
  | .bgeu rs1 rs2 offset => .word (encB offset rs2 rs1 0b111 0b1100011)
  | .lb rd rs1 imm => .word (encI imm rs1 0b000 rd 0b0000011)
  | .lh rd rs1 imm => .word (encI imm rs1 0b001 rd 0b0000011)
  | .lw rd rs1 imm => .word (encI imm rs1 0b010 rd 0b0000011)
  | .ld rd rs1 imm => .word (encI imm rs1 0b011 rd 0b0000011)
  | .lbu rd rs1 imm => .word (encI imm rs1 0b100 rd 0b0000011)
  | .lhu rd rs1 imm => .word (encI imm rs1 0b101 rd 0b0000011)
  | .lwu rd rs1 imm => .word (encI imm rs1 0b110 rd 0b0000011)
  | .sb rs1 rs2 imm => .word (encS imm rs2 rs1 0b000 0b0100011)
  | .sh rs1 rs2 imm => .word (encS imm rs2 rs1 0b001 0b0100011)
  | .sw rs1 rs2 imm => .word (encS imm rs2 rs1 0b010 0b0100011)
  | .sd rs1 rs2 imm => .word (encS imm rs2 rs1 0b011 0b0100011)
  | .lrW rd rs1 aq rl => .word (encAmo 0b00010 aq rl 0 rs1 0b010 rd)
  | .scW rd rs1 rs2 aq rl => .word (encAmo 0b00011 aq rl rs2 rs1 0b010 rd)
  | .amoswapW rd rs1 rs2 aq rl => .word (encAmo 0b00001 aq rl rs2 rs1 0b010 rd)
  | .amoaddW rd rs1 rs2 aq rl => .word (encAmo 0b00000 aq rl rs2 rs1 0b010 rd)
  | .amoxorW rd rs1 rs2 aq rl => .word (encAmo 0b00100 aq rl rs2 rs1 0b010 rd)
  | .amoandW rd rs1 rs2 aq rl => .word (encAmo 0b01100 aq rl rs2 rs1 0b010 rd)
  | .amoorW rd rs1 rs2 aq rl => .word (encAmo 0b01000 aq rl rs2 rs1 0b010 rd)
  | .amominW rd rs1 rs2 aq rl => .word (encAmo 0b10000 aq rl rs2 rs1 0b010 rd)
  | .amomaxW rd rs1 rs2 aq rl => .word (encAmo 0b10100 aq rl rs2 rs1 0b010 rd)
  | .amominuW rd rs1 rs2 aq rl => .word (encAmo 0b11000 aq rl rs2 rs1 0b010 rd)
  | .amomaxuW rd rs1 rs2 aq rl => .word (encAmo 0b11100 aq rl rs2 rs1 0b010 rd)
  | .lrD rd rs1 aq rl => .word (encAmo 0b00010 aq rl 0 rs1 0b011 rd)
  | .scD rd rs1 rs2 aq rl => .word (encAmo 0b00011 aq rl rs2 rs1 0b011 rd)
  | .amoswapD rd rs1 rs2 aq rl => .word (encAmo 0b00001 aq rl rs2 rs1 0b011 rd)
  | .amoaddD rd rs1 rs2 aq rl => .word (encAmo 0b00000 aq rl rs2 rs1 0b011 rd)
  | .amoxorD rd rs1 rs2 aq rl => .word (encAmo 0b00100 aq rl rs2 rs1 0b011 rd)
  | .amoandD rd rs1 rs2 aq rl => .word (encAmo 0b01100 aq rl rs2 rs1 0b011 rd)
  | .amoorD rd rs1 rs2 aq rl => .word (encAmo 0b01000 aq rl rs2 rs1 0b011 rd)
  | .amominD rd rs1 rs2 aq rl => .word (encAmo 0b10000 aq rl rs2 rs1 0b011 rd)
  | .amomaxD rd rs1 rs2 aq rl => .word (encAmo 0b10100 aq rl rs2 rs1 0b011 rd)
  | .amominuD rd rs1 rs2 aq rl => .word (encAmo 0b11000 aq rl rs2 rs1 0b011 rd)
  | .amomaxuD rd rs1 rs2 aq rl => .word (encAmo 0b11100 aq rl rs2 rs1 0b011 rd)
  | .fence fm pred succ rs1 rd => .word (encFence fm pred succ rs1 rd)
  | .ecall => .word 0x00000073
  | .ebreak => .word 0x00100073
  | .fenceI imm rs1 rd => .word (encI imm rs1 0b001 rd 0b0001111)
  | .mulDiv f3 rd rs1 rs2 => .word (encR 0b0000001 rs2 rs1 f3 rd 0b0110011)
  | .mulDivW f3 rd rs1 rs2 => .word (encR 0b0000001 rs2 rs1 f3 rd 0b0111011)
  | .csrrw csr src rd => .word (encI csr src 0b001 rd 0b1110011)
  | .csrrs csr src rd => .word (encI csr src 0b010 rd 0b1110011)
  | .csrrc csr src rd => .word (encI csr src 0b011 rd 0b1110011)
  | .csrrwi csr src rd => .word (encI csr src 0b101 rd 0b1110011)
  | .csrrsi csr src rd => .word (encI csr src 0b110 rd 0b1110011)
  | .csrrci csr src rd => .word (encI csr src 0b111 rd 0b1110011)
  | .systemFunct3_4 imm rs1 rd => .word (encI imm rs1 0b100 rd 0b1110011)
  | .uret => .word 0x00200073
  | .sret => .word 0x10200073
  | .mret => .word 0x30200073
  | .wfi => .word 0x10500073
  | .sfenceVma rs1 rs2 => .word (encR 0b0001001 rs2 rs1 0b000 0 0b1110011)
  | .loadFp high => .word (encHigh high 0b0000111)
  | .storeFp high => .word (encHigh high 0b0100111)
  | .fmadd high => .word (encHigh high 0b1000011)
  | .fmsub high => .word (encHigh high 0b1000111)
  | .fnmsub high => .word (encHigh high 0b1001011)
  | .fnmadd high => .word (encHigh high 0b1001111)
  | .opFp high => .word (encHigh high 0b1010011)
  | .cAddi4spn rd imm => .half (encSpn imm rd)
  | .cLw rd rs1 imm => .half (encLSW 0b010 imm rs1 rd)
  | .cLd rd rs1 imm => .half (encLSD 0b011 imm rs1 rd)
  | .cSw rs1 rs2 imm => .half (encLSW 0b110 imm rs1 rs2)
  | .cSd rs1 rs2 imm => .half (encLSD 0b111 imm rs1 rs2)
  | .cNop => .half 0x0001
  | .cAddi rd imm => .half (encCI 0b000 rd imm 0b01)
  | .cJal offset => .half (encCJ 0b001 offset)
  | .cAddiw rd imm => .half (encCI 0b001 rd imm 0b01)
  | .cLi rd imm => .half (encCI 0b010 rd imm 0b01)
  | .cAddi16sp imm => .half (enc16sp imm)
  | .cLui rd imm => .half (encCI 0b011 rd imm 0b01)
  | .cSrli rd shamt => .half (encCBImm 0b00 rd shamt)
  | .cSrai rd shamt => .half (encCBImm 0b01 rd shamt)
  | .cAndi rd imm => .half (encCBImm 0b10 rd imm)
  | .cSub rd rs2 => .half (encCA 0b100011 rd 0b00 rs2)
  | .cXor rd rs2 => .half (encCA 0b100011 rd 0b01 rs2)
  | .cOr rd rs2 => .half (encCA 0b100011 rd 0b10 rs2)
  | .cAnd rd rs2 => .half (encCA 0b100011 rd 0b11 rs2)
  | .cSubw rd rs2 => .half (encCA 0b100111 rd 0b00 rs2)
  | .cAddw rd rs2 => .half (encCA 0b100111 rd 0b01 rs2)
  | .cJ offset => .half (encCJ 0b101 offset)
  | .cBeqz rs1 offset => .half (encCB 0b110 rs1 offset)
  | .cBnez rs1 offset => .half (encCB 0b111 rs1 offset)
  | .cSlli rd shamt => .half (encCI 0b000 rd shamt 0b10)
  | .cLwsp rd imm => .half (encLwsp rd imm)
  | .cLdsp rd imm => .half (encLdsp rd imm)
  | .cJr rs1 => .half (encCR 0b1000 rs1 0)
  | .cMv rd rs2 => .half (encCR 0b1000 rd rs2)
  | .cEbreak => .half 0x9002
  | .cJalr rs1 => .half (encCR 0b1001 rs1 0)
  | .cAdd rd rs2 => .half (encCR 0b1001 rd rs2)
  | .cSwsp rs2 imm => .half (encSwsp rs2 imm)
  | .cSdsp rs2 imm => .half (encSdsp rs2 imm)
  | .cFld mid => .half (encMid 0b001 mid 0b00)
  | .cFsd mid => .half (encMid 0b101 mid 0b00)
  | .cFldsp mid => .half (encMid 0b001 mid 0b10)
  | .cFsdsp mid => .half (encMid 0b101 mid 0b10)
  | .cFlw mid => .half (encMid 0b011 mid 0b00)
  | .cFsw mid => .half (encMid 0b111 mid 0b00)
  | .cFlwsp mid => .half (encMid 0b011 mid 0b10)
  | .cFswsp mid => .half (encMid 0b111 mid 0b10)
  | .cReserved00_4 mid => .half (encMid 0b100 mid 0b00)
  | .cIllegal => .half 0x0000

/-- The instruction's bits as a number: the detail of `UNIMPLEMENTED_INSTRUCTION` (R400). -/
def Encoded.bits : Encoded → Nat
  | .half c => c.toNat
  | .word w => w.toNat

/-- The length of the encoding in bytes, `len` of R9. -/
def Encoded.length : Encoded → Nat
  | .half _ => 2
  | .word _ => 4

/-- The bytes of the encoding, lowest address first (R86). -/
def Encoded.bytes : Encoded → List Byte
  | .half c => [c.extractLsb' 0 8, c.extractLsb' 8 8]
  | .word w => [w.extractLsb' 0 8, w.extractLsb' 8 8, w.extractLsb' 16 8, w.extractLsb' 24 8]

/-! ### Table words -/

/-- The four bytes, lowest address first, of an instruction whose bits are `w` and whose table row has `nbits` bits: the bits
above `nbits` are 0. -/
def tableBytes (nbits w : Nat) : List Byte := (Encoded.word (BitVec.ofNat 32 (w % 2 ^ nbits))).bytes

/-- The instruction at the front of some bytes, where there is one. -/
def instrAt (p : Params) (bs : List Byte) : Option Instr :=
  match decodeBytes p bs with
  | .instr i _ => some i
  | _ => none

/-- The parameters under which a table word is run: those given where the decoder reads the word under them, else the same
with the other register width, where it does under those.  An encoding of one width only (C.JAL, R329) is read so. -/
def paramsFor (p : Params) (bs : List Byte) : Params :=
  let other := { p with w := match p.w with | .w4 => .w8 | .w8 => .w4 }
  if (instrAt p bs).isSome then p
  else if (instrAt other bs).isSome then other
  else p

/-- What the decoder reads from a word of spec/opcode_table.json, under the reset parameters (RV64IAC) or, where they have no
such instruction, under the same with `W = 4` (log entry 3). -/
def decodeTableWord (nbits w : Nat) : Option Instr :=
  instrAt (paramsFor Params.default (tableBytes nbits w)) (tableBytes nbits w)

end Sys2Proof
end

