-- ==== Sys2Proof/Machine/State.lean ====
section
/-! DEFINITION. The state of one Machine (spec/10_state.md, spec/20_memory.md), as plain data, and the machine right after
reset (spec/10_state.md R35, spec/70_reset_and_hazards.md R460, R465).

`INVENTORY.md` lists every field with its rule and its reset value, and says which fields are the model's own. -/

namespace Sys2Proof.Machine

/-- The model's faults: there are none.  A fault of the spec (R400) is a NEXT state, the Trapped status of R27 and R410
(`takeTrap`), from which the host resumes (R421), and a Machine that runs nothing holds its state (R455).  So no step ends
in an outcome of this type (log entry 1). -/
inductive Fault where
  deriving DecidableEq, Repr

/-- The refusals: the spec's own `refuse REASON` (R11 and table 1.4 of spec/93_implementation_defined.md), cases the spec gives
no meaning, and one bound of the model (`hostNesting`).  Every one is SAFE: it proves less, never something false. -/
inductive Refusal where
  /-- An instruction this model has not reached yet.  Raised by no arm.  Safe. -/
  | notModelled (mnemonic : String)
  /-- `FETCH_FROM_UNBACKED_EXEC_PAGE`: a fetch inside the execute segment from an absent page or a Trap page (R162).
  Raised by the fetch.  Safe. -/
  | fetchFromUnbackedExecPage
  /-- `JALR_ODD_TARGET`: an odd sum (R242, R349, R352).  Raised by JALR, C.JR and C.JALR.  Safe. -/
  | jalrOddTarget
  /-- `REENTRANT_SIMULATE`: a host callback runs `simulate`, or a `vmcall` that does (R171).  Raised by callbacks.  Safe. -/
  | reentrantSimulate
  /-- `REENTRANT_RESET`: a host callback runs `reset` (R430).  Raised by callbacks.  Safe. -/
  | reentrantReset
  /-- `STORE_TO_CONSTANT_EXEC_SEGMENT`: with `EXEC_CONSTANT`, a guest or host write to a byte of the execute segment (R79,
  R445).  Raised by stores, AMOs, SC and the bulk operations.  Safe. -/
  | storeToConstantExecSegment
  /-- `HOST_BULK_ON_TRAP_PAGE`: a host bulk operation touches a Trap page (R445).  Raised by the bulk operations.  Safe. -/
  | hostBulkOnTrapPage
  /-- `UNRESOLVED_SYMBOL`: `vmcall` of a name that does not resolve (R443).  Raised by `vmcall`.  Safe. -/
  | unresolvedSymbol
  /-- `SNAPSHOT_PAGE_WITHOUT_BACKING`: a restored page without bytes and without backing (R447).  Raised by `restore`.
  Safe. -/
  | snapshotPageWithoutBacking
  /-- The model's own bound: host callbacks that call one another deeper than `Config.hostNesting` (log entry 10).  Raised by
  callbacks.  Safe. -/
  | hostNesting
  /-- An increment of `counter` from `2^64 - 1` (R25, R166).  Raised by the retirement of any instruction.  Safe. -/
  | counterOverflow
  deriving DecidableEq, Repr

/-- The run status (R27). -/
inductive Status where
  | init
  | running
  | trapped (tag : Tag) (detail : Nat)
  | stopped
  deriving DecidableEq, Repr

/-- The LR/SC reservation (R29). -/
structure Reservation where
  valid : Bool
  addr : Word
  width : Width
  deriving DecidableEq, Repr

/-- An active `simulate` (R167): the counter it started at and its budget, 0 for no bound.  It is the local state of the run
loop, held here because a step of the model is one turn of that loop. -/
structure Run where
  startCounter : BitVec 64
  maxInstr : Nat
  deriving DecidableEq, Repr

/-- What the last host operation answered its caller (R173, R443 to R446, R93). -/
inductive HostResult where
  /-- Nothing has been answered yet. -/
  | pending
  | ok
  | failed (tag : Tag) (detail : Nat)
  | value (n : Nat)
  | data (bytes : List Byte)
  | page (page : Page) (bytes : List Byte)
  | handler (handler : Option Nat)
  deriving DecidableEq, Repr

/-- Where a guest byte stands: in the Machine's own memory, or in the host's (R52, R53, R93). -/
inductive Place where
  | guest (a : Nat)
  | host (h : Nat)
  deriving DecidableEq, Repr

/-- The state of one Machine. -/
structure State where
  /-- The parameters of R6 (fixed for the Machine's life, R7). -/
  params : Params
  /-- The integer registers x0 to x31 (R20); x0 is read through `State.x`, which gives 0 (R21). -/
  regs : Vector Word 32
  /-- The program counter (R24). -/
  pc : Word
  /-- The retired-instruction counter (R25). -/
  counter : BitVec 64
  /-- The stop flag (R26). -/
  stopped : Bool
  /-- The run status (R27). -/
  status : Status
  /-- The LR/SC reservation (R29). -/
  resv : Reservation
  /-- The page map, without bytes, strictly rising by page number (R51, R52). -/
  pages : List (Nat × Page)
  /-- The bytes of the pages the engine holds, at their guest addresses; an unlisted address reads 0 (R52, R60). -/
  mem : List Host.Cell
  /-- The host's own memory, at its host addresses: the bytes of NonOwned pages (R53, R93); an unlisted address reads 0 (log
  entry 13). -/
  hostMem : List Host.Cell
  /-- The execute segment (R56). -/
  execBase : Word
  execLen : Word
  /-- The three addresses of R57. -/
  startAddress : Word
  stackAddress : Word
  exitAddress : Word
  /-- The system-call handler table (R33, R434): number to handler. -/
  handlers : List (Nat × Nat)
  /-- The page-fault callback of policy `Host` (R33, R435). -/
  pageFaultCallback : Nat
  /-- The page-write callback, none for the default copy-on-write (R33, R437). -/
  pageWriteCallback : Option Nat
  /-- THE MODEL'S OWN.  What the host declares that some of its callbacks do; a callback not listed is a free value
  (`Config.hostAnswer`). -/
  scripts : List (Nat × HostAnswer)
  /-- The active `simulate` (R167), none between runs. -/
  run : Option Run
  /-- THE MODEL'S OWN.  The calls the host makes, in order, taken one at a time while no `simulate` is active (R439 to R447). -/
  hostCalls : List HostOp
  /-- What the last host operation answered (R173). -/
  hostResult : HostResult
  /-- THE MODEL'S OWN.  The number of free values drawn so far: the argument of the opaque constants of Config. -/
  draws : Nat
  /-- THE MODEL'S OWN.  While a straddling store runs: the bytes it has stored that nothing has written since, the last first, with
  what they held before it (R78, R410).  Empty between instructions. -/
  undo : List (Place × Byte)
  deriving DecidableEq, Repr

/-- The launch state after construction and reset (R35, R460, R465).  The launch arguments are OPEN in the spec; the values
here are DESIGN CHOICES of log entries 2 and 4: RV64IAC, `start_address = 0x1000`, an empty execute segment there, the stack
page `[0x7F000, 0x80000)` with `stack_address = 0x80000`, `exit_address = 0`. -/
def State.reset : State where
  params := Params.default
  regs := (Vector.replicate 32 0).set 2 0x80000
  pc := 0x1000
  counter := 0
  stopped := false
  status := .init
  resv := ⟨false, 0, .w4⟩
  pages := [(0x7F, ⟨⟨true, true, false⟩, .owned⟩)]
  mem := []
  hostMem := []
  execBase := 0x1000
  execLen := 0
  startAddress := 0x1000
  stackAddress := 0x80000
  exitAddress := 0
  handlers := []
  pageFaultCallback := 0
  pageWriteCallback := none
  scripts := []
  run := none
  hostCalls := []
  hostResult := .pending
  draws := 0
  undo := []

/-- The result of a part of a step: a value with the state so far and whether the pc has been written (R160, R164); a fault of
the spec, with the changes it leaves in place (R410, R411); a refusal. -/
inductive Effect (α : Type) where
  | done (a : α) (s : State) (pcWritten : Bool)
  | trapped (tag : Tag) (detail : Nat) (s : State)
  | refused (r : Refusal)
  deriving DecidableEq, Repr

end Sys2Proof.Machine
end

