-- ==== Sys2Proof/Machine/Operands.lean ====
section
/-! DEFINITION. Operand forms: `XLEN`-bit values in the 64-bit container, the extensions of R8, access sizes (R88), register
fields of the compressed formats (R119) and little-endian assembly (R72, R76). -/

namespace Sys2Proof.Machine

/-- The low `XLEN` bits of `v`, zero above them (R8). -/
def wrap : Width → Word → Word
  | .w4, v => (v.setWidth 32).setWidth 64
  | .w8, v => v

/-- The `XLEN`-bit value `v` sign-extended to the container: the value `signed(v)` of R8. -/
def sxl : Width → Word → Word
  | .w4, v => (v.setWidth 32).signExtend 64
  | .w8, v => v

/-- `sext(v)` of R8: an immediate extended to `XLEN` bits. -/
def immWord {n : Nat} (w : Width) (v : BitVec n) : Word := wrap w (v.signExtend 64)

/-- The immediate of `LUI` and `AUIPC`: `immU = sext({imm20, 12'b0})` (R112). -/
def immUpper (w : Width) (imm : BitVec 20) : Word := immWord w (imm ++ 0#12)

/-- `XLEN` as the bound of a shift amount: the low `log2(XLEN)` bits of `v` (R190). -/
def shiftAmount (w : Width) (v : Word) : Nat := v.toNat % w.xlen

/-- The low 32 bits sign-extended to 64, the result of the `*W` forms (R190). -/
def sext32 (v : BitVec 32) : Word := v.signExtend 64

/-- The low 32 bits of a register value. -/
def low32 (v : Word) : BitVec 32 := v.setWidth 32

/-- A primed register field names x8 to x15 (R119). -/
def reg3 (r : Reg3) : Reg := 0b01#2 ++ r

/-- The access sizes (R88). -/
inductive Size where
  | b1
  | b2
  | b4
  | b8
  deriving DecidableEq, Repr

/-- The number of bytes of an access. -/
def Size.bytes : Size → Nat
  | .b1 => 1
  | .b2 => 2
  | .b4 => 4
  | .b8 => 8

/-- The low `8n` bits of `v`, zero-extended (R10). -/
def Size.zext : Size → Word → Word
  | .b1, v => (v.setWidth 8).setWidth 64
  | .b2, v => (v.setWidth 16).setWidth 64
  | .b4, v => (v.setWidth 32).setWidth 64
  | .b8, v => v

/-- The low `8n` bits of `v`, sign-extended (R261 to R264). -/
def Size.sext : Size → Word → Word
  | .b1, v => (v.setWidth 8).signExtend 64
  | .b2, v => (v.setWidth 16).signExtend 64
  | .b4, v => (v.setWidth 32).signExtend 64
  | .b8, v => v

/-- The access size of a reservation width (R29). -/
def sizeOfWidth : Width → Size
  | .w4 => .b4
  | .w8 => .b8

/-- `LE(b0, b1, …)`: the byte at the lowest address is the least significant (R72). -/
def leWord : List Byte → Word
  | [] => 0
  | b :: bs => (leWord bs) <<< 8 ||| b.setWidth 64

/-- Byte `i` of `v`, bits `8i+7` to `8i` (R76). -/
def byteOf (v : Word) (i : Nat) : Byte := v.extractLsb' (8 * i) 8

/-- The low `n` bytes of `v`, least significant first (R76). -/
def leBytes (n : Nat) (v : Word) : List Byte := (List.range n).map (byteOf v)

/-- `PAGE_SHIFT`: the page number of an address (R6, R51). -/
def pageOf (a : Nat) : Nat := a / pageSize

/-- The page offset `a[11:0]` (R51). -/
def offsetOf (a : Nat) : Nat := a % pageSize

/-- The bytes `[a, a + n)` lie in one page (R70). -/
def inOnePage (a n : Nat) : Bool := offsetOf a + n ≤ pageSize

/-- The number of pages of the address space: page numbers have `XLEN - 12` bits (R51). -/
def pageCount (w : Width) : Nat := 2 ^ (w.xlen - 12)

/-- The page at `npage` and the address range `[base, base + len)` have a byte in common (R92, R93). -/
def pageMeets (npage base len : Nat) : Bool :=
  max (npage * pageSize) base < min ((npage + 1) * pageSize) (base + len)

/-- The page numbers that `[base, base + len)` touches, ascending, inside the address space (R92, R93). -/
def pagesTouched (w : Width) (base len : Nat) : List Nat :=
  if len = 0 then []
  else
    let first := pageOf base
    let last := min (pageOf (base + len - 1)) (pageCount w - 1)
    (List.range (last + 1 - first)).map (first + ·)

end Sys2Proof.Machine
end

