-- ==== Sys2Proof/Machine/Flags.lean ====
section
/-! DEFINITION. The machine has no flags (R28): no condition codes, no status bits.  What other machines compute into flags is
here a comparison: the conditions of the branches (R243 to R248), the 0 or 1 that `SLT` and its kin write (R194, R195, R205,
R206), and the minimum and maximum of the AMOs (R290 to R293, R387 to R390). -/

namespace Sys2Proof.Machine

/-- `signed(a) < signed(b)` on `XLEN`-bit values (R8). -/
def lessSigned (w : Width) (a b : Word) : Bool := (sxl w a).slt (sxl w b)

/-- `unsigned(a) < unsigned(b)` on `XLEN`-bit values (R8). -/
def lessUnsigned (w : Width) (a b : Word) : Bool := (wrap w a).ult (wrap w b)

/-- `a = b` on `XLEN`-bit values. -/
def equalWords (w : Width) (a b : Word) : Bool := wrap w a == wrap w b

/-- `1 if c else 0` (R194). -/
def boolWord (c : Bool) : Word := if c then 1 else 0

/-- `t if signed(t) < signed(s) else s` on `8n`-bit values (R290, R387). -/
def minSigned (z : Size) (t s : Word) : Word := if (z.sext t).slt (z.sext s) then t else s

/-- `t if signed(t) > signed(s) else s` (R291, R388). -/
def maxSigned (z : Size) (t s : Word) : Word := if (z.sext s).slt (z.sext t) then t else s

/-- `t if unsigned(t) < unsigned(s) else s` (R292, R389). -/
def minUnsigned (z : Size) (t s : Word) : Word := if (z.zext t).ult (z.zext s) then t else s

/-- `t if unsigned(t) > unsigned(s) else s` (R293, R390). -/
def maxUnsigned (z : Size) (t s : Word) : Word := if (z.zext s).ult (z.zext t) then t else s

end Sys2Proof.Machine
end

