-- ==== Sys2Proof/Machine/Memory.lean ====
section
/-! DEFINITION. The finite maps of the machine as lists strictly rising by key, and the byte memory over them: the page map
(R51), the handler table (R434) and the bytes of the pages (R52), each in one canonical form. -/

namespace Sys2Proof.Machine

/-- The value at key `k`. -/
def SMap.find {α : Type} (m : List (Nat × α)) (k : Nat) : Option α :=
  match m with
  | [] => none
  | (k', v) :: t => if k = k' then some v else SMap.find t k

/-- Bind `k` to `v`, keeping the keys rising. -/
def SMap.insert {α : Type} (k : Nat) (v : α) (m : List (Nat × α)) : List (Nat × α) :=
  match m with
  | [] => [(k, v)]
  | (k', v') :: t =>
    if k < k' then (k, v) :: (k', v') :: t
    else if k = k' then (k, v) :: t
    else (k', v') :: SMap.insert k v t

/-- Remove every key that satisfies `p`. -/
def SMap.dropKeys {α : Type} (p : Nat → Bool) (m : List (Nat × α)) : List (Nat × α) := m.filter fun e => !p e.1

/-- Remove `k`. -/
def SMap.erase {α : Type} (k : Nat) (m : List (Nat × α)) : List (Nat × α) := SMap.dropKeys (· == k) m

/-- The keys are strictly rising. -/
abbrev SMap.sorted {α : Type} (m : List (Nat × α)) : Prop := m.Pairwise fun a b => a.1 < b.1

/-- What an address that is not listed reads as: the pages the engine creates are zero pages (R60, R92, R93), and the bytes
of a loaded page outside every segment are zero (R465). -/
def Memory.unlisted : Byte := 0

/-- The canonical form of the memory: addresses strictly rising, and no entry equal to what an unlisted address reads as. -/
abbrev Memory.wf (m : List Host.Cell) : Prop := SMap.sorted m ∧ ∀ c ∈ m, c.2 ≠ Memory.unlisted

/-- Read one byte. -/
def Memory.read (m : List Host.Cell) (a : Nat) : Byte := (SMap.find m a).getD Memory.unlisted

/-- Write one byte; writing what an unlisted address reads as removes the entry. -/
def Memory.write (a : Nat) (b : Byte) (m : List Host.Cell) : List Host.Cell :=
  if b = Memory.unlisted then SMap.erase a m else SMap.insert a b m

/-- Write bytes from address `a` on, ascending, without wrapping. -/
def Memory.writeBytes (a : Nat) (bs : List Byte) (m : List Host.Cell) : List Host.Cell :=
  match bs with
  | [] => m
  | b :: t => Memory.writeBytes (a + 1) t (Memory.write a b m)

/-- Read `n` bytes from address `a` on, ascending, without wrapping. -/
def Memory.readBytes (m : List Host.Cell) (a n : Nat) : List Byte := (List.range n).map fun i => Memory.read m (a + i)

/-- Make every byte of the page `npage` read as unlisted. -/
def Memory.clearPage (npage : Nat) (m : List Host.Cell) : List Host.Cell := SMap.dropKeys (pageOf · == npage) m

end Sys2Proof.Machine
end

