-- ==== Sys2Proof/Machine/Ops.lean ====
section
/-! DEFINITION. The named operations over registers, pages and memory; the parts of a step put together (R160, R164, R166);
taking a fault and the return from one (R410, R420, R421); the free-value counter. -/

namespace Sys2Proof.Machine

/-! ### Registers (R9, R20, R21, R24) -/

/-- `W` of the machine. -/
abbrev State.w (s : State) : Width := s.params.w

/-- `x[r]`: x0 reads 0 (R21). -/
def State.x (s : State) (r : Reg) : Word :=
  if r = 0#5 then 0 else wrap s.w (s.regs[r.toNat]'r.isLt)

/-- `x[r] <- v`: a write to x0 is discarded (R21). -/
def State.setReg (s : State) (r : Reg) (v : Word) : State :=
  if r = 0#5 then s else { s with regs := s.regs.set r.toNat (wrap s.w v) r.isLt }

/-- `pc <- t`, modulo `2^XLEN` (R24). -/
def State.setPc (s : State) (t : Word) : State := { s with pc := wrap s.w t }

/-- `ea = x[rs1] + imm`, modulo `2^XLEN` (R260). -/
def State.ea {n : Nat} (s : State) (rs1 : Reg) (imm : BitVec n) : Word := wrap s.w (s.x rs1 + imm.signExtend 64)

/-- `ea = x[rs1] + zext(uimm)`, the addressing of the compressed loads and stores (R323, R347). -/
def State.eaU {n : Nat} (s : State) (rs1 : Reg) (uimm : BitVec n) : Word := wrap s.w (s.x rs1 + uimm.setWidth 64)

/-- `pc + len`, the fall-through and the link (R164, R240). -/
def State.pcNext (s : State) (len : Nat) : Word := wrap s.w (s.pc + BitVec.ofNat 64 len)

/-! ### Parts of a step, in sequence (R11, R12) -/

/-- The same part, with the pc counted as written when `wrote` (R164). -/
def Effect.orWrote {α : Type} (wrote : Bool) (e : Effect α) : Effect α :=
  match e with
  | .done a s wrote' => .done a s (wrote || wrote')
  | .trapped tag detail s => .trapped tag detail s
  | .refused r => .refused r

/-- Run `f` after `e`: the first fault or refusal ends the step (R12); the pc counts as written when either wrote it.
A later fault keeps what `e` left, also what a callback did that returned before it (log entry 38). -/
def Effect.bind {α β : Type} (e : Effect α) (f : α → State → Effect β) : Effect β :=
  match e with
  | .trapped tag detail s => .trapped tag detail s
  | .refused r => .refused r
  | .done a s wrote => (f a s).orWrote wrote

/-- A change of the state that cannot fail and does not write the pc. -/
def Effect.pure {α : Type} (a : α) (s : State) : Effect α := .done a s false

/-! ### Taking a fault and returning from one (R410, R420, R421) -/

/-- TAKING A FAULT.  Nothing is saved, no mode changes, no vector is taken (R420): the status becomes Trapped with the tag and
the detail, `simulate` returns the failure (R167, R410), and the pc, the counter, the stop flag and everything else stay as the
faulting step left them. -/
def takeTrap (tag : Tag) (detail : Nat) (s : State) : State :=
  { s with status := .trapped tag detail, run := none, hostResult := .failed tag detail }

/-- THE RETURN FROM A FAULT, and the start of any run: there is no return instruction; the host calls `simulate` again, which
clears the stop flag and the Trapped status and goes on at the current pc (R167, R421). -/
def enterSimulate (maxInstr : Nat) (s : State) : State :=
  { s with stopped := false, status := .running, run := some ⟨s.counter, maxInstr⟩, hostResult := .pending }

/-- `simulate` returns OK with the status it leaves (R167, R173). -/
def endRun (status : Status) (s : State) : State :=
  { s with status := status, run := none, hostResult := .ok }

/-! ### Retirement (R164, R166) -/

/-- The last value of the counter, `2^64 - 1`. -/
def counterMax : BitVec 64 := BitVec.allOnes 64

/-- The end of an instruction of `len` bytes that neither faulted nor was refused: the pc advances unless it was written, the
counter increases by 1, an increment from `2^64 - 1` is refused (R25). -/
def retire (len : Nat) (pcWritten : Bool) (s : State) : Host.Outcome State Fault Refusal :=
  if s.counter = counterMax then .refused .counterOverflow
  else .next { s with pc := if pcWritten then s.pc else s.pcNext len, counter := s.counter + 1 }

/-- The outcome of an instruction of `len` bytes. -/
def finish (len : Nat) (e : Effect Unit) : Host.Outcome State Fault Refusal :=
  match e with
  | .done _ s pcWritten => retire len pcWritten s
  | .trapped tag detail s => .next (takeTrap tag detail s)
  | .refused r => .refused r

/-- The fault of an encoding this block does not execute: `UNIMPLEMENTED_INSTRUCTION` with the instruction bits (R116, R121),
or, for a 16-bit parcel without `EXT_C`, `UNIMPLEMENTED_INSTRUCTION_LENGTH` (R110). -/
def unimplemented (i : Instr) (s : State) : Host.Outcome State Fault Refusal :=
  match encode i with
  | .half c =>
    if s.params.extC then .next (takeTrap .unimplementedInstruction c.toNat s)
    else .next (takeTrap .unimplementedInstructionLength c.toNat s)
  | .word w => .next (takeTrap .unimplementedInstruction w.toNat s)

/-- An instruction that exists in some configurations only, or whose operand field has forbidden values (R114, R120, R121):
where the machine does not have it, it decodes to no instruction. -/
def guarded (i : Instr) (s : State) (run : Host.Outcome State Fault Refusal) : Host.Outcome State Fault Refusal :=
  if i.wf s.params then run else unimplemented i s

/-- Write a result and retire: the shape of every computational instruction. -/
def writeBack (len : Nat) (rd : Reg) (v : Word) (s : State) : Host.Outcome State Fault Refusal :=
  retire len false (s.setReg rd v)

/-- `pc <- t` and retire: the shape of a taken branch and of a jump after its link (R164). -/
def jumpTo (len : Nat) (t : Word) (s : State) : Host.Outcome State Fault Refusal :=
  retire len true (s.setPc t)

/-! ### Pages (R51, R52, R60, R61) -/

/-- The page at page number `npage`. -/
def State.pageAt (s : State) (npage : Nat) : Option Page := SMap.find s.pages npage

/-- The place is in the Machine's own memory, in a page whose number satisfies `q`. -/
def Place.inPages (q : Nat → Bool) : Place → Bool
  | .guest a => q (pageOf a)
  | .host _ => false

/-- Bind the page number to a page, leaving the bytes. -/
def State.setPage (s : State) (npage : Nat) (p : Page) : State := { s with pages := SMap.insert npage p s.pages }

/-- Install a page at `npage`, replacing any page there.  Where its bytes are the Machine's own they are those given and 0 after
them; where they are the host's they are the buffer's. -/
def State.installPage (s : State) (npage : Nat) (p : Page) (bytes : List Byte) : State :=
  { s with
    pages := SMap.insert npage p s.pages
    mem := Memory.writeBytes (npage * pageSize) (if p.variant.buffer?.isSome then [] else bytes.take pageSize)
      (Memory.clearPage npage s.mem)
    undo := s.undo.filter fun e => !e.1.inPages (· == npage) }

/-- Remove every page whose number satisfies `q`, and its bytes. -/
def State.removePages (s : State) (q : Nat → Bool) : State :=
  { s with
    pages := SMap.dropKeys q s.pages
    mem := SMap.dropKeys (fun a => q (pageOf a)) s.mem
    undo := s.undo.filter fun e => !e.1.inPages q }

/-- The number of Owned pages, the pages that count toward `MEMORY_MAX` (R61, D12). -/
def State.ownedPages (s : State) : Nat := (s.pages.filter fun e => e.2.variant == .owned).length

/-- One more Owned page would pass `MEMORY_MAX` (R61). -/
def State.outOfMemory (s : State) : Bool :=
  match s.params.memoryMax with
  | none => false
  | some cap => cap < (s.ownedPages + 1) * pageSize

/-- Create an Owned zero page (R60, R61, R92, R93). -/
def createOwned (npage : Nat) (attr : PageAttr) (s : State) : Effect Page :=
  if s.outOfMemory then .trapped .outOfMemory (npage * pageSize) s
  else .pure ⟨attr, .owned⟩ (s.installPage npage ⟨attr, .owned⟩ [])

/-- The default page-write callback (R77): the page becomes Owned with the same bytes and attributes.  The shared backing
outside the Machine is not its state and does not change (R54). -/
def promoteOwned (npage : Nat) (p : Page) (s : State) : Effect Page :=
  if s.outOfMemory then .trapped .outOfMemory (npage * pageSize) s
  else .pure ⟨p.attr, .owned⟩ (s.setPage npage ⟨p.attr, .owned⟩)

/-! ### Bytes (R51 to R53, R93) -/

/-- Where the byte at a guest address stands: in its page's buffer where that is the host's, else at the address itself. -/
def State.place (s : State) (a : Nat) : Place :=
  match s.pageAt (pageOf a) with
  | some p =>
    match p.variant.buffer? with
    | some h => .host (h + BitVec.ofNat 64 (offsetOf a)).toNat
    | none => .guest a
  | none => .guest a

/-- The byte that stands at a place. -/
def State.get (s : State) (p : Place) : Byte :=
  match p with
  | .guest a => Memory.read s.mem a
  | .host h => Memory.read s.hostMem h

/-- Put a byte at a place. -/
def State.put (s : State) (p : Place) (b : Byte) : State :=
  match p with
  | .guest a => { s with mem := Memory.write a b s.mem }
  | .host h => { s with hostMem := Memory.write h b s.hostMem }

/-- The place is the host's, or in a mapped page. -/
def State.backed (s : State) (p : Place) : Bool :=
  match p with
  | .guest a => (s.pageAt (pageOf a)).isSome
  | .host _ => true

/-- The byte at a guest address, as the page map holds it. -/
def State.byte (s : State) (a : Nat) : Byte := s.get (s.place a)

/-- The `n` bytes from a guest address on, ascending, without wrapping. -/
def State.bytes (s : State) (a n : Nat) : List Byte := (List.range n).map fun i => s.byte (a + i)

/-- Store bytes from a guest address on, ascending, without wrapping. -/
def State.storeBytes (s : State) (a : Nat) (bs : List Byte) : State :=
  match bs with
  | [] => s
  | b :: t => (s.put (s.place a) b).storeBytes (a + 1) t

/-- A write by the host: what a straddling store in progress stored there is no longer the store's (R410 item 3). -/
def State.hostPut (s : State) (p : Place) (b : Byte) : State :=
  { s.put p b with undo := s.undo.filter fun e => e.1 != p }

/-- A write of one byte by a straddling store, which notes what the byte was before (R78). -/
def State.putNoted (s : State) (p : Place) (b : Byte) : State :=
  { s.put p b with undo := (p, s.get p) :: s.undo }

/-- The address lies in the execute segment; unbounded comparison (R56, R161). -/
def State.inExecSegment (s : State) (a : Nat) : Bool :=
  s.execBase.toNat ≤ a && a < s.execBase.toNat + s.execLen.toNat

/-- Some of `[a, a + n)` lies in the execute segment. -/
def State.meetsExecSegment (s : State) (a n : Nat) : Bool :=
  max a s.execBase.toNat < min (a + n) (s.execBase.toNat + s.execLen.toNat)

/-- The page at `npage` overlaps the execute segment (R79, R161). -/
def State.pageMeetsExec (s : State) (npage : Nat) : Bool := pageMeets npage s.execBase.toNat s.execLen.toNat

/-- Clear the reservation (R79, R281). -/
def State.clearResv (s : State) : State := { s with resv := { s.resv with valid := false } }

/-! ### Free values -/

/-- Count one draw. -/
def State.drawn (s : State) : State := { s with draws := s.draws + 1 }

/-- The draw `valid' in {valid, false}` after each host action (R281). -/
def drawReservation (s : State) : State :=
  { s with resv := { s.resv with valid := s.resv.valid && Config.freeBool s.draws }, draws := s.draws + 1 }

end Sys2Proof.Machine
end

