-- ==== Sys2Proof/Machine/HostOps.lean ====
section
/-! DEFINITION. The operations the host can do to the Machine (spec/60_exceptions.md R439 to R446, spec/20_memory.md R92, R93,
R96), except `simulate` and `reset`, which only the host outside a run may call (R171, R430; `hostStep` in Machine/Facade.lean).

The page lookup of R60, the write promotion of R77 and `memview` call the host.  Their three calls stand in `PagePaths`, so that the
same operations serve a host outside a run and a callback at any depth (R430, `PagePaths.nested` in Machine/Callback.lean). -/

namespace Sys2Proof.Machine

/-- How an operation calls the host (R435, R437, R445): `host.page_fault(npage)`, `host.page_write(npage)` by a replacement
callback, and the callback of `memview`. -/
structure PagePaths where
  pageFault : Nat → State → Effect Page
  pageWrite : Nat → Nat → State → Effect Page
  view : Nat → List Nat → State → Effect Unit

/-- Page lookup for an access to address `a` (R60). -/
def lookupWith (p : PagePaths) (a : Nat) (s : State) : Effect Page :=
  match s.pageAt (pageOf a) with
  | some page => .pure page s
  | none =>
    match s.params.pageFault with
    | .fault => .trapped .protectionFault a s
    | .zeroRW => createOwned (pageOf a) .rw s
    | .host => p.pageFault (pageOf a) s

/-- The page a write at `npage` proceeds with (R76, R77): a SharedRO page is promoted or replaced, any other is itself.  A
replacement callback that returns a SharedRO page leaves it to the default promotion, since shared backing is never written
(R54; log entry 12). -/
def writableWith (p : PagePaths) (npage : Nat) (page : Page) (s : State) : Effect Page :=
  if page.variant = .sharedRO then
    match s.pageWriteCallback with
    | none => promoteOwned npage page s
    | some callback =>
      (p.pageWrite callback npage s).bind fun page' s' =>
        if page'.variant = .sharedRO then promoteOwned npage page' s' else .pure page' s'
  else .pure page s

/-- The page is a Trap page (R55). -/
def isTrapPage (page : Page) : Bool :=
  match page.variant with
  | .trap .. => true
  | .owned | .sharedRO | .nonOwned .. => false

/-! ### Bulk access by the host (R445): no permission check, page fault and copy-on-write as for the guest -/

/-- Read one byte. -/
def bulkReadByte (p : PagePaths) (a : Nat) (s : State) : Effect Byte :=
  (lookupWith p a s).bind fun page s' =>
    if isTrapPage page then .refused .hostBulkOnTrapPage else .pure (s'.byte a) s'

/-- Write one byte. -/
def bulkWriteByte (p : PagePaths) (a : Nat) (b : Byte) (s : State) : Effect Unit :=
  (lookupWith p a s).bind fun page s' =>
    if isTrapPage page then .refused .hostBulkOnTrapPage
    else if s'.params.execConstant && s'.inExecSegment a then .refused .storeToConstantExecSegment
    else
      (writableWith p (pageOf a) page s').bind fun page' s'' =>
        if isTrapPage page' then .refused .hostBulkOnTrapPage else .pure () (s''.hostPut (s''.place a) b)

/-- Read `n` bytes, ascending. -/
def bulkRead (p : PagePaths) (n : Nat) (a : Word) (s : State) : Effect (List Byte) :=
  match n with
  | 0 => .pure [] s
  | k + 1 =>
    (bulkReadByte p a.toNat s).bind fun b s' =>
      (bulkRead p k (wrap s'.w (a + 1)) s').bind fun bs s'' => .pure (b :: bs) s''

/-- Write bytes, ascending; a failure part-way leaves the bytes before it written. -/
def bulkWrite (p : PagePaths) (bs : List Byte) (a : Word) (s : State) : Effect Unit :=
  match bs with
  | [] => .pure () s
  | b :: t => (bulkWriteByte p a.toNat b s).bind fun _ s' => bulkWrite p t (wrap s'.w (a + 1)) s'

/-- Copy `n` guest bytes from `a` on to the host's memory at `dst`, ascending; a failure part-way leaves the bytes before it written
(log entry 39). -/
def bulkCopyOut (p : PagePaths) (n : Nat) (dst : HostAddr) (a : Word) (s : State) : Effect Unit :=
  match n with
  | 0 => .pure () s
  | k + 1 =>
    (bulkReadByte p a.toNat s).bind fun b s' =>
      bulkCopyOut p k (dst + 1) (wrap s'.w (a + 1)) (s'.hostPut (.host dst.toNat) b)

/-- The bytes before the first NUL among the first `maxlen` bytes, none if there is no NUL (R446).  Reading ends at the NUL. -/
def readString (p : PagePaths) (maxlen : Nat) (a : Word) (s : State) : Effect (Option (List Byte)) :=
  match maxlen with
  | 0 => .pure none s
  | k + 1 =>
    (bulkReadByte p a.toNat s).bind fun b s' =>
      if b = 0#8 then .pure (some []) s'
      else (readString p k (wrap s'.w (a + 1)) s').bind fun r s'' => .pure (r.map (b :: ·)) s''

/-! ### Operations on the page map (R92, R93, R96) -/

/-- Do `f` for every page number of a list, in order. -/
def forPages (f : Nat → State → Effect Unit) (ns : List Nat) (s : State) : Effect Unit :=
  match ns with
  | [] => .pure () s
  | n :: t => (f n s).bind fun _ s' => forPages f t s'

/-- The attributes of one page; a missing page is created as an Owned zero page (R92). -/
def setOnePageAttr (attr : PageAttr) (npage : Nat) (s : State) : Effect Unit :=
  match s.pageAt npage with
  | some page => .pure () (s.setPage npage { page with attr := attr })
  | none => (createOwned npage attr s).bind fun _ s' => .pure () s'

/-- `create_page(npage)`: an Owned zero page if none is present.  R93 does not say its attributes: a free value (log entry 14). -/
def createPage (npage : Nat) (s : State) : Effect Page :=
  match s.pageAt npage with
  | some page => .pure page s
  | none => createOwned npage (Config.createdPageAttr s.draws) s.drawn

/-- The host address of the first byte of page `npage`, where the buffer at `ptr` stands at guest address `dst` (R93).  The bytes a
page has outside the buffer are those around it in the host's memory (log entry 13). -/
def bufferOfPage (dst : Nat) (ptr : HostAddr) (npage : Nat) : HostAddr :=
  ptr + BitVec.ofNat 64 (npage * pageSize) - BitVec.ofNat 64 dst

/-- `insert_non_owned_memory` on one page (R93). -/
def insertNonOwnedPage (dst : Nat) (ptr : HostAddr) (attr : PageAttr) (npage : Nat) (s : State) : Effect Unit :=
  .pure () (s.installPage npage ⟨attr, .nonOwned (bufferOfPage dst ptr npage) false⟩ [])

/-- The host writes its own memory (R53, R93), addresses modulo `2^64`. -/
def writeBuffer (ptr : HostAddr) (bytes : List Byte) (s : State) : State :=
  match bytes with
  | [] => s
  | b :: t => writeBuffer (ptr + 1) t (s.hostPut (.host ptr.toNat) b)

/-- `trap(addr, cb)` (R96): a mapped page keeps its attributes and its backing, an unmapped one is created with `{read, write}`. -/
def trapPage (addr : Word) (callback : Nat) (s : State) : State :=
  let npage := pageOf addr.toNat
  match s.pageAt npage with
  | some page => s.setPage npage { page with variant := .trap callback page.variant.buffer? }
  | none => s.installPage npage ⟨.rw, .trap callback none⟩ []

/-- The host declares a NonOwned page externally written, or no longer so (R438). -/
def declareExternal (npage : Nat) (external : Bool) (s : State) : State :=
  match s.pageAt npage with
  | some ⟨attr, .nonOwned buffer _⟩ => s.setPage npage ⟨attr, .nonOwned buffer external⟩
  | _ => s

/-! ### Calls into the guest and the stack (R443, R444) -/

/-- Write the arguments to the registers `a0`, `a1`, … from number `r` on (R443). -/
def setArgs (r : Nat) (args : List Word) (s : State) : State :=
  match args with
  | [] => s
  | v :: t => setArgs (r + 1) t (s.setReg (BitVec.ofNat 5 r) v)

/-- `setup_call(call, return, args)` (R443). -/
def setupCall (call ret : Word) (args : List Word) (s : State) : Effect HostResult :=
  if 8 < args.length then .trapped .invalidArgument args.length s
  else .done .ok ((setArgs 10 args (s.setReg 1 ret)).setPc call) true

/-- `vmcall` up to the run (R443): the arguments, the resolved name, the call. -/
def vmcallSetup (target : Option Word) (args : List Word) (s : State) : Effect HostResult :=
  if 8 < args.length then .trapped .invalidArgument args.length s
  else
    match target with
    | none => .refused .unresolvedSymbol
    | some a => setupCall a s.exitAddress args s

/-- `realign_stack(align)` (R444): `sp` rounded down to a multiple of 4, 8 or 16. -/
def realignStack (align : Nat) (s : State) : Effect HostResult :=
  if align = 4 ∨ align = 8 ∨ align = 16 then
    .pure .ok (s.setReg 2 (s.x 2 &&& ~~~(BitVec.ofNat 64 (align - 1))))
  else .trapped .invalidAlignment align s

/-! ### The operations -/

/-- One host operation (R439 to R446), inside a callback or outside a run.  An operation to which the spec gives no result answers that it
completed, and `memview` the bytes it presents (DESIGN CHOICE, log entry 40).  A failure of the operation is `trapped`, with what
it did before.  `simulate`, `reset` and a `vmcall` that runs are refused here (R171, R430). -/
def hostAct (p : PagePaths) (op : HostOp) (s : State) : Effect HostResult :=
  match op with
  | .simulate _ => .refused .reentrantSimulate
  | .reset => .refused .reentrantReset
  | .stop => .pure .ok { s with stopped := true }
  | .setReg r v => .pure .ok (s.setReg r v)
  | .setPc v => .done .ok (s.setPc v) true
  | .setupCall call ret args => setupCall call ret args s
  | .vmcall target args exec _ =>
    (vmcallSetup target args s).bind fun r s' => if exec then .refused .reentrantSimulate else .pure r s'
  | .realignStack align => realignStack align s
  | .memcpy dst bytes => (bulkWrite p bytes (wrap s.w dst) s).bind fun _ s' => .pure .ok s'
  | .copyToGuest dst bytes =>
    (bulkWrite p bytes (wrap s.w dst) s).bind fun _ s' =>
      .pure (.value (wrap s.w (dst + BitVec.ofNat 64 bytes.length)).toNat) s'
  | .memset dst value len =>
    (bulkWrite p (List.replicate len value) (wrap s.w dst) s).bind fun _ s' => .pure .ok s'
  | .memcpyOut dst src len => (bulkCopyOut p len dst (wrap s.w src) s).bind fun _ s' => .pure .ok s'
  | .memcmp src bytes =>
    (bulkRead p bytes.length (wrap s.w src) s).bind fun bs s' => .pure (.value (Config.memcmpResult bs bytes)) s'
  | .memview src len callback =>
    (bulkRead p len (wrap s.w src) s).bind fun bs s' =>
      (p.view callback [(wrap s.w src).toNat, len] s').bind fun _ s'' => .pure (.data bs) s''
  | .memstring src maxlen =>
    (readString p maxlen (wrap s.w src) s).bind fun r s' =>
      match r with
      | some bs => .pure (.data bs) s'
      | none => .trapped .stringOverLimit (wrap s.w src).toNat s'
  | .strlen src maxlen =>
    (readString p maxlen (wrap s.w src) s).bind fun r s' =>
      match r with
      | some bs => .pure (.value bs.length) s'
      | none => .trapped .stringOverLimit (wrap s.w src).toNat s'
  | .getPage npage =>
    (lookupWith p (npage % pageCount s.w * pageSize) s).bind fun page s' =>
      .pure (.page page (s'.bytes (npage % pageCount s.w * pageSize) pageSize)) s'
  | .createPage npage =>
    (createPage (npage % pageCount s.w) s).bind fun page s' =>
      .pure (.page page (s'.bytes (npage % pageCount s.w * pageSize) pageSize)) s'
  | .freePages addr len => .pure .ok (s.removePages fun n => pageMeets n (wrap s.w addr).toNat len)
  | .setPageAttr base len attr =>
    (forPages (setOnePageAttr attr) (pagesTouched s.w (wrap s.w base).toNat len) s).bind fun _ s' => .pure .ok s'
  | .installShared npage attr bytes =>
    .pure .ok (s.installPage (npage % pageCount s.w) ⟨attr, .sharedRO⟩ bytes)
  | .insertNonOwned dst ptr size attr =>
    (forPages (insertNonOwnedPage (wrap s.w dst).toNat ptr attr)
      (pagesTouched s.w (wrap s.w dst).toNat size) s).bind fun _ s' => .pure .ok s'
  | .writeBuffer ptr bytes => .pure .ok (writeBuffer ptr bytes s)
  | .trapPage addr callback => .pure .ok (trapPage (wrap s.w addr) callback s)
  | .declareExternal npage external => .pure .ok (declareExternal npage external s)
  | .installHandler n handler =>
    .pure .ok { s with handlers := SMap.insert (wrap s.w n).toNat handler s.handlers }
  | .getHandler n => .pure (.handler (SMap.find s.handlers (wrap s.w n).toNat)) s
  | .removeHandler n => .pure .ok { s with handlers := SMap.erase (wrap s.w n).toNat s.handlers }
  | .setPageFaultCallback callback => .pure .ok { s with pageFaultCallback := callback }
  | .setPageWriteCallback callback => .pure .ok { s with pageWriteCallback := callback }

end Sys2Proof.Machine
end

