-- ==== Sys2Proof/Machine/Callback.lean ====
section
/-! DEFINITION. The calls from the core to the host (spec/60_exceptions.md R430 to R437, R401): what a callback does is a script of
host operations, then a value or a failure, either declared by the host (`State.scripts`) or a free value
(`Config.hostAnswer`).  An operation of a script may call the host again; that callback is one like any other (R430). -/

namespace Sys2Proof.Machine

/-- What the callback can see (R431). -/
def State.view (s : State) (args : List Nat) : HostView where
  args := args
  regs := s.regs.toList
  pc := s.pc
  counter := s.counter
  mem := s.mem
  hostMem := s.hostMem
  pages := s.pages

/-- What the host code numbered `callback` does, called now: declared, or free.  One draw. -/
def answerOf (callback : Nat) (args : List Nat) (s : State) : HostAnswer :=
  (SMap.find s.scripts callback).getD (Config.hostAnswer callback s.draws (s.view args))

/-- Install at `npage` the page a callback returned (R60).  R77 and R437 say of a replacement page-write callback only that the write
proceeds with its page: that it is installed is the model's choice (DESIGN CHOICE, log entry 32). -/
def installImage (npage : Nat) (image : PageImage) (s : State) : Effect Page :=
  .pure ⟨image.attr, image.variant⟩ (s.installPage npage ⟨image.attr, image.variant⟩ image.bytes)

/-- End a callback: its failure ends the step with the tag and the detail it chose (R401), else the step goes on. -/
def answered (answer : HostAnswer) (s : State) : Effect HostAnswer :=
  match answer.failure with
  | some (tag, detail) => .trapped tag detail s
  | none => .pure answer s

/-- The operations of a callback, in order, each over the page paths `p`.  An operation that fails ends the step of the
instruction that called the host (R421; log entry 20), and so does a refusal. -/
def runScript (p : PagePaths) (acts : List HostOp) (s : State) : Effect Unit :=
  match acts with
  | [] => .pure () s
  | op :: t => (hostAct p op s).bind fun r s' => runScript p t { s' with hostResult := r }

/-- The reservation draw of a host action, however it ends (R281). -/
def afterHost (e : Effect Unit) : Effect Unit :=
  match e with
  | .done _ s wrote => .done () (drawReservation s) wrote
  | .trapped tag detail s => .trapped tag detail (drawReservation s)
  | .refused r => .refused r

/-- Call the host (R430), where a call from inside the callback goes through `p`: the script, the reservation draw, then the
answer or the failure. -/
def callHostWith (p : PagePaths) (callback : Nat) (args : List Nat) (s : State) : Effect HostAnswer :=
  let answer := answerOf callback args s
  (afterHost (runScript p answer.acts s.drawn)).bind fun _ s' => answered answer s'

/-- The value a callback returns: the one it gives, or the register it names as it stands now. -/
def answerValue (answer : HostAnswer) (s : State) : Word :=
  match answer.value with
  | .lit v => v
  | .reg r => s.x r

/-- The page paths of an operation below which the host may be called `depth` deep (R435, R437, R445). -/
def PagePaths.nested : Nat → PagePaths
  | 0 =>
    { pageFault := fun _ _ => .refused .hostNesting
      pageWrite := fun _ _ _ => .refused .hostNesting
      view := fun _ _ _ => .refused .hostNesting }
  | depth + 1 =>
    { pageFault := fun npage s =>
        (callHostWith (PagePaths.nested depth) s.pageFaultCallback [npage] s).bind fun answer s' =>
          installImage npage answer.page s'
      pageWrite := fun callback npage s =>
        (callHostWith (PagePaths.nested depth) callback [npage] s).bind fun answer s' =>
          installImage npage answer.page s'
      view := fun callback args s =>
        (callHostWith (PagePaths.nested depth) callback args s).bind fun _ s' => .pure () s' }

/-- Call the host from an instruction. -/
def callHost (callback : Nat) (args : List Nat) (s : State) : Effect HostAnswer :=
  callHostWith (PagePaths.nested Config.hostNesting) callback args s

/-- The page paths of the guest, and of the host outside a run. -/
def PagePaths.outer : PagePaths := PagePaths.nested (Config.hostNesting + 1)

end Sys2Proof.Machine
end

