-- ==== Sys2Proof/Machine/Access.lean ====
section
/-! DEFINITION. The guest's read and write paths (spec/20_memory.md R60, R70 to R79). -/

namespace Sys2Proof.Machine

/-- `lookup(addr >> 12)` for a guest access (R60). -/
def lookup (a : Nat) (s : State) : Effect Page := lookupWith .outer a s

/-- The data access is misaligned and checked (R70, R75). -/
def misaligned (a : Word) (z : Size) (s : State) : Bool := s.params.alignCheck && a.toNat % z.bytes != 0

/-! ### Reading -/

/-- Single-page read of `n` bytes, lowest address first (R71).  A Trap page answers through its callback, called with
`0, offset, n` (R436). -/
def readPage (a n : Nat) (s : State) : Effect (List Byte) :=
  (lookup a s).bind fun page s' =>
    if page.attr.read then
      match page.variant with
      | .trap callback _ =>
        (callHost callback [0, offsetOf a, n] s').bind fun answer s'' => .pure (leBytes n (answerValue answer s'')) s''
      | .owned | .sharedRO | .nonOwned .. => .pure (s'.bytes a n) s'
    else .trapped .protectionFault a s'

/-- Byte-wise read of an access that straddles a page, ascending, addresses modulo `2^XLEN` (R73). -/
def readStraddling (n : Nat) (a : Word) (s : State) : Effect (List Byte) :=
  match n with
  | 0 => .pure [] s
  | k + 1 =>
    (readPage a.toNat 1 s).bind fun b s' =>
      (readStraddling k (wrap s'.w (a + 1)) s').bind fun bs s'' => .pure (b ++ bs) s''

/-- `MemRead(addr, n)`: the value zero-extended to the container (R70, R72). -/
def memRead (a : Word) (z : Size) (s : State) : Effect Word :=
  if misaligned a z s then .trapped .misalignedAccess a.toNat s
  else if inOnePage a.toNat z.bytes then
    (readPage a.toNat z.bytes s).bind fun bs s' => .pure (leWord bs) s'
  else (readStraddling z.bytes a s).bind fun bs s' => .pure (leWord bs) s'

/-! ### Writing -/

/-- Single-page write (R76): lookup, copy-on-write, permission, then the callback of a Trap page, called with
`1, offset, n, value` (R436), or the store, which is `store`.  With `EXEC_CONSTANT` a write to a byte of the execute segment is
refused (R79). -/
def writePage (store : Nat → List Byte → State → State) (a : Nat) (bs : List Byte) (s : State) : Effect Unit :=
  (lookup a s).bind fun page s1 =>
    (writableWith .outer (pageOf a) page s1).bind fun page' s2 =>
      if page'.attr.write then
        if s2.params.execConstant && s2.meetsExecSegment a bs.length then .refused .storeToConstantExecSegment
        else
          match page'.variant with
          | .trap callback _ =>
            (callHost callback [1, offsetOf a, bs.length, (leWord bs).toNat] s2).bind fun _ s3 => .pure () s3
          | .owned | .sharedRO | .nonOwned .. => .pure () (store a bs s2)
      else .trapped .protectionFault a s2

/-- The store of an access inside one page. -/
def storeInPage (a : Nat) (bs : List Byte) (s : State) : State := s.storeBytes a bs

/-- The store of one byte of a straddling access. -/
def storeNoted (a : Nat) (bs : List Byte) (s : State) : State :=
  match bs with
  | [] => s
  | b :: t => storeNoted (a + 1) t (s.putNoted (s.place a) b)

/-- Byte-wise write of an access that straddles a page, ascending (R78). -/
def writeStraddling (bs : List Byte) (a : Word) (s : State) : Effect Unit :=
  match bs with
  | [] => .pure () s
  | b :: t => (writePage storeNoted a.toNat [b] s).bind fun _ s' => writeStraddling t (wrap s'.w (a + 1)) s'

/-- Give the noted bytes back what they held, the last first.  What unmaps a page or writes a byte drops its notes, so that nothing a
callback did is undone (R410 item 3; log entry 34); a note whose page is gone is passed over. -/
def restoreBytes (notes : List (Place × Byte)) (s : State) : State :=
  match notes with
  | [] => s
  | (p, b) :: t => restoreBytes t (if s.backed p then s.put p b else s)

/-- The draw of a straddling store that faults after some bytes: all written or all unchanged (R78, R410 item 1). -/
def drawPartialStore (s : State) : State :=
  match s.undo with
  | [] => s
  | _ :: _ => { (if Config.freeBool s.draws then s.drawn else restoreBytes s.undo s.drawn) with undo := [] }

/-- A straddling store: its bytes with their notes, which end with it (R78). -/
def writeNoted (bs : List Byte) (a : Word) (s : State) : Effect Unit :=
  match writeStraddling bs a { s with undo := [] } with
  | .done _ s' wrote => .done () { s' with undo := [] } wrote
  | .trapped tag detail s' => .trapped tag detail (drawPartialStore s')
  | .refused r => .refused r

/-- `MemWrite(addr, n, v)` (R75); a completed write clears the reservation (R79, R281). -/
def memWrite (a : Word) (z : Size) (v : Word) (s : State) : Effect Unit :=
  if misaligned a z s then .trapped .misalignedAccess a.toNat s
  else if inOnePage a.toNat z.bytes then
    (writePage storeInPage a.toNat (leBytes z.bytes v) s).bind fun _ s' => .pure () s'.clearResv
  else (writeNoted (leBytes z.bytes v) a s).bind fun _ s' => .pure () s'.clearResv

end Sys2Proof.Machine
end

