-- ==== Sys2Proof/Machine/Atomic.lean ====
section
/-! DEFINITION. The A extension (spec/44_atomics.md R280 to R293, R380 to R391).  Where the machine does not have the instruction
(`EXT_A = false`, or a doubleword form on RV32) it decodes to no instruction (R282). -/

namespace Sys2Proof.Machine

/-- The operation of an AMO on the old value and the register operand. -/
abbrev AmoOp := Size → Word → Word → Word

def amoSwap : AmoOp := fun _ _ s => s
def amoAdd : AmoOp := fun _ t s => t + s
def amoXor : AmoOp := fun _ t s => t ^^^ s
def amoAnd : AmoOp := fun _ t s => t &&& s
def amoOr : AmoOp := fun _ t s => t ||| s

/-- The natural alignment every LR, SC and AMO needs, whatever `ALIGN_CHECK` is (R280). -/
def atomicMisaligned (a : Word) (z : Size) : Bool := a.toNat % z.bytes != 0

/-- `LR`: read, extend, reserve (R283, R380). -/
def loadReserved (width : Width) (rd rs1 : Reg) (s : State) : Effect Unit :=
  if atomicMisaligned (s.x rs1) (sizeOfWidth width) then .trapped .misalignedAccess (s.x rs1).toNat s
  else
    (memRead (s.x rs1) (sizeOfWidth width) s).bind fun v s' =>
      .pure () { s'.setReg rd ((sizeOfWidth width).sext v) with resv := ⟨true, s.x rs1, width⟩ }

/-- The reservation covers exactly this address and width (R281). -/
def State.reserved (s : State) (a : Word) (width : Width) : Bool :=
  s.resv.valid && s.resv.addr == a && s.resv.width == width

/-- `SC`: on a matching reservation store and write 0, else write 1 and touch no memory; the reservation ends (R284, R381). -/
def storeConditional (width : Width) (rd rs1 rs2 : Reg) (s : State) : Effect Unit :=
  if atomicMisaligned (s.x rs1) (sizeOfWidth width) then .trapped .misalignedAccess (s.x rs1).toNat s
  else if s.reserved (s.x rs1) width then
    (memWrite (s.x rs1) (sizeOfWidth width) (s.x rs2) s).bind fun _ s' => .pure () (s'.setReg rd 0).clearResv
  else .pure () (s.setReg rd 1).clearResv

/-- The shape of every AMO (R294): read, write the result of `op`, write the old value to `rd`. -/
def atomicOp (op : AmoOp) (z : Size) (rd rs1 rs2 : Reg) (s : State) : Effect Unit :=
  if atomicMisaligned (s.x rs1) z then .trapped .misalignedAccess (s.x rs1).toNat s
  else
    (memRead (s.x rs1) z s).bind fun t s' =>
      (memWrite (s.x rs1) z (op z t (z.zext (s.x rs2))) s').bind fun _ s'' => .pure () (s''.setReg rd (z.sext t))

/-! ### Word forms -/

/-- R283. -/
def execLrW (rd rs1 : Reg) (aq rl : Bool) (s : State) : Host.Outcome State Fault Refusal :=
  guarded (.lrW rd rs1 aq rl) s (finish 4 (loadReserved .w4 rd rs1 s))
/-- R284. -/
def execScW (rd rs1 rs2 : Reg) (aq rl : Bool) (s : State) : Host.Outcome State Fault Refusal :=
  guarded (.scW rd rs1 rs2 aq rl) s (finish 4 (storeConditional .w4 rd rs1 rs2 s))
/-- R285. -/
def execAmoswapW (rd rs1 rs2 : Reg) (aq rl : Bool) (s : State) : Host.Outcome State Fault Refusal :=
  guarded (.amoswapW rd rs1 rs2 aq rl) s (finish 4 (atomicOp amoSwap .b4 rd rs1 rs2 s))
/-- R286. -/
def execAmoaddW (rd rs1 rs2 : Reg) (aq rl : Bool) (s : State) : Host.Outcome State Fault Refusal :=
  guarded (.amoaddW rd rs1 rs2 aq rl) s (finish 4 (atomicOp amoAdd .b4 rd rs1 rs2 s))
/-- R287. -/
def execAmoxorW (rd rs1 rs2 : Reg) (aq rl : Bool) (s : State) : Host.Outcome State Fault Refusal :=
  guarded (.amoxorW rd rs1 rs2 aq rl) s (finish 4 (atomicOp amoXor .b4 rd rs1 rs2 s))
/-- R288. -/
def execAmoandW (rd rs1 rs2 : Reg) (aq rl : Bool) (s : State) : Host.Outcome State Fault Refusal :=
  guarded (.amoandW rd rs1 rs2 aq rl) s (finish 4 (atomicOp amoAnd .b4 rd rs1 rs2 s))
/-- R289. -/
def execAmoorW (rd rs1 rs2 : Reg) (aq rl : Bool) (s : State) : Host.Outcome State Fault Refusal :=
  guarded (.amoorW rd rs1 rs2 aq rl) s (finish 4 (atomicOp amoOr .b4 rd rs1 rs2 s))
/-- R290. -/
def execAmominW (rd rs1 rs2 : Reg) (aq rl : Bool) (s : State) : Host.Outcome State Fault Refusal :=
  guarded (.amominW rd rs1 rs2 aq rl) s (finish 4 (atomicOp minSigned .b4 rd rs1 rs2 s))
/-- R291. -/
def execAmomaxW (rd rs1 rs2 : Reg) (aq rl : Bool) (s : State) : Host.Outcome State Fault Refusal :=
  guarded (.amomaxW rd rs1 rs2 aq rl) s (finish 4 (atomicOp maxSigned .b4 rd rs1 rs2 s))
/-- R292. -/
def execAmominuW (rd rs1 rs2 : Reg) (aq rl : Bool) (s : State) : Host.Outcome State Fault Refusal :=
  guarded (.amominuW rd rs1 rs2 aq rl) s (finish 4 (atomicOp minUnsigned .b4 rd rs1 rs2 s))
/-- R293. -/
def execAmomaxuW (rd rs1 rs2 : Reg) (aq rl : Bool) (s : State) : Host.Outcome State Fault Refusal :=
  guarded (.amomaxuW rd rs1 rs2 aq rl) s (finish 4 (atomicOp maxUnsigned .b4 rd rs1 rs2 s))

/-! ### Doubleword forms -/

/-- R380. -/
def execLrD (rd rs1 : Reg) (aq rl : Bool) (s : State) : Host.Outcome State Fault Refusal :=
  guarded (.lrD rd rs1 aq rl) s (finish 4 (loadReserved .w8 rd rs1 s))
/-- R381. -/
def execScD (rd rs1 rs2 : Reg) (aq rl : Bool) (s : State) : Host.Outcome State Fault Refusal :=
  guarded (.scD rd rs1 rs2 aq rl) s (finish 4 (storeConditional .w8 rd rs1 rs2 s))
/-- R382. -/
def execAmoswapD (rd rs1 rs2 : Reg) (aq rl : Bool) (s : State) : Host.Outcome State Fault Refusal :=
  guarded (.amoswapD rd rs1 rs2 aq rl) s (finish 4 (atomicOp amoSwap .b8 rd rs1 rs2 s))
/-- R383. -/
def execAmoaddD (rd rs1 rs2 : Reg) (aq rl : Bool) (s : State) : Host.Outcome State Fault Refusal :=
  guarded (.amoaddD rd rs1 rs2 aq rl) s (finish 4 (atomicOp amoAdd .b8 rd rs1 rs2 s))
/-- R384. -/
def execAmoxorD (rd rs1 rs2 : Reg) (aq rl : Bool) (s : State) : Host.Outcome State Fault Refusal :=
  guarded (.amoxorD rd rs1 rs2 aq rl) s (finish 4 (atomicOp amoXor .b8 rd rs1 rs2 s))
/-- R385. -/
def execAmoandD (rd rs1 rs2 : Reg) (aq rl : Bool) (s : State) : Host.Outcome State Fault Refusal :=
  guarded (.amoandD rd rs1 rs2 aq rl) s (finish 4 (atomicOp amoAnd .b8 rd rs1 rs2 s))
/-- R386. -/
def execAmoorD (rd rs1 rs2 : Reg) (aq rl : Bool) (s : State) : Host.Outcome State Fault Refusal :=
  guarded (.amoorD rd rs1 rs2 aq rl) s (finish 4 (atomicOp amoOr .b8 rd rs1 rs2 s))
/-- R387. -/
def execAmominD (rd rs1 rs2 : Reg) (aq rl : Bool) (s : State) : Host.Outcome State Fault Refusal :=
  guarded (.amominD rd rs1 rs2 aq rl) s (finish 4 (atomicOp minSigned .b8 rd rs1 rs2 s))
/-- R388. -/
def execAmomaxD (rd rs1 rs2 : Reg) (aq rl : Bool) (s : State) : Host.Outcome State Fault Refusal :=
  guarded (.amomaxD rd rs1 rs2 aq rl) s (finish 4 (atomicOp maxSigned .b8 rd rs1 rs2 s))
/-- R389. -/
def execAmominuD (rd rs1 rs2 : Reg) (aq rl : Bool) (s : State) : Host.Outcome State Fault Refusal :=
  guarded (.amominuD rd rs1 rs2 aq rl) s (finish 4 (atomicOp minUnsigned .b8 rd rs1 rs2 s))
/-- R390. -/
def execAmomaxuD (rd rs1 rs2 : Reg) (aq rl : Bool) (s : State) : Host.Outcome State Fault Refusal :=
  guarded (.amomaxuD rd rs1 rs2 aq rl) s (finish 4 (atomicOp maxUnsigned .b8 rd rs1 rs2 s))

end Sys2Proof.Machine
end

