-- ==== Sys2Proof/Machine/Control.lean ====
section
/-! DEFINITION. Jumps and branches (spec/42_control_transfer.md R240 to R248), with the instruction's length as an argument so that
the compressed forms share them.  No instruction here faults: a bad target faults at the next fetch (R240). -/

namespace Sys2Proof.Machine

/-- `t <- pc + offset; x[rd] <- pc + len; pc <- t` (R241). -/
def jumpRelative {n : Nat} (len : Nat) (rd : Reg) (offset : BitVec n) (s : State) : Host.Outcome State Fault Refusal :=
  jumpTo len (s.pc + immWord s.w offset) (s.setReg rd (s.pcNext len))

/-- `s <- x[rs1] + imm; x[rd] <- pc + len; pc <- s`; an odd sum is refused (R242).  `rs1` is read before `rd` is written. -/
def jumpRegister {n : Nat} (len : Nat) (rd rs1 : Reg) (imm : BitVec n) (s : State) : Host.Outcome State Fault Refusal :=
  if (s.ea rs1 imm).getLsbD 0 then .refused .jalrOddTarget
  else jumpTo len (s.ea rs1 imm) (s.setReg rd (s.pcNext len))

/-- `if cond: pc <- pc + offset`, else the loop adds the length (section 2). -/
def branchIf {n : Nat} (len : Nat) (cond : Bool) (offset : BitVec n) (s : State) : Host.Outcome State Fault Refusal :=
  if cond then jumpTo len (s.pc + immWord s.w offset) s else retire len false s

/-- R241. -/
def execJal (rd : Reg) (offset : BitVec 21) (s : State) : Host.Outcome State Fault Refusal := jumpRelative 4 rd offset s
/-- R242. -/
def execJalr (rd rs1 : Reg) (imm : BitVec 12) (s : State) : Host.Outcome State Fault Refusal := jumpRegister 4 rd rs1 imm s
/-- R243. -/
def execBeq (rs1 rs2 : Reg) (offset : BitVec 13) (s : State) : Host.Outcome State Fault Refusal :=
  branchIf 4 (equalWords s.w (s.x rs1) (s.x rs2)) offset s
/-- R244. -/
def execBne (rs1 rs2 : Reg) (offset : BitVec 13) (s : State) : Host.Outcome State Fault Refusal :=
  branchIf 4 (!equalWords s.w (s.x rs1) (s.x rs2)) offset s
/-- R245. -/
def execBlt (rs1 rs2 : Reg) (offset : BitVec 13) (s : State) : Host.Outcome State Fault Refusal :=
  branchIf 4 (lessSigned s.w (s.x rs1) (s.x rs2)) offset s
/-- R246. -/
def execBge (rs1 rs2 : Reg) (offset : BitVec 13) (s : State) : Host.Outcome State Fault Refusal :=
  branchIf 4 (!lessSigned s.w (s.x rs1) (s.x rs2)) offset s
/-- R247. -/
def execBltu (rs1 rs2 : Reg) (offset : BitVec 13) (s : State) : Host.Outcome State Fault Refusal :=
  branchIf 4 (lessUnsigned s.w (s.x rs1) (s.x rs2)) offset s
/-- R248. -/
def execBgeu (rs1 rs2 : Reg) (offset : BitVec 13) (s : State) : Host.Outcome State Fault Refusal :=
  branchIf 4 (!lessUnsigned s.w (s.x rs1) (s.x rs2)) offset s

end Sys2Proof.Machine
end

