-- ==== Sys2Proof/Machine/Integer.lean ====
section
/-! DEFINITION. Integer computational instructions (spec/41_integer_computational.md R190 to R220).  Each computes a value from
its operands and writes it back: `writeBack` wraps it to `XLEN` bits, drops it for x0 and retires the instruction. -/

namespace Sys2Proof.Machine

/-! ### Shifts (R199 to R201, R204, R208, R209, R213 to R215, R218 to R220) -/

/-- Logical left shift; `writeBack` keeps the low `XLEN` bits. -/
def shiftLeft (v : Word) (sh : Nat) : Word := v <<< sh
/-- Logical right shift of an `XLEN`-bit value. -/
def shiftRight (v : Word) (sh : Nat) : Word := v >>> sh
/-- Arithmetic right shift of an `XLEN`-bit value. -/
def shiftRightArith (w : Width) (v : Word) (sh : Nat) : Word := (sxl w v).sshiftRight sh
/-- The amount of a `*W` register shift: the low 5 bits (R190, C8). -/
def shiftAmountW (v : Word) : Nat := v.toNat % 32

/-! ### Upper immediates -/

/-- R191. -/
def execLui (rd : Reg) (imm : BitVec 20) (s : State) : Host.Outcome State Fault Refusal :=
  writeBack 4 rd (immUpper s.w imm) s
/-- R192. -/
def execAuipc (rd : Reg) (imm : BitVec 20) (s : State) : Host.Outcome State Fault Refusal :=
  writeBack 4 rd (s.pc + immUpper s.w imm) s

/-! ### Register-immediate -/

/-- R193. -/
def execAddi (rd rs1 : Reg) (imm : BitVec 12) (s : State) : Host.Outcome State Fault Refusal :=
  writeBack 4 rd (s.x rs1 + immWord s.w imm) s
/-- R194. -/
def execSlti (rd rs1 : Reg) (imm : BitVec 12) (s : State) : Host.Outcome State Fault Refusal :=
  writeBack 4 rd (boolWord (lessSigned s.w (s.x rs1) (immWord s.w imm))) s
/-- R195. -/
def execSltiu (rd rs1 : Reg) (imm : BitVec 12) (s : State) : Host.Outcome State Fault Refusal :=
  writeBack 4 rd (boolWord (lessUnsigned s.w (s.x rs1) (immWord s.w imm))) s
/-- R196. -/
def execXori (rd rs1 : Reg) (imm : BitVec 12) (s : State) : Host.Outcome State Fault Refusal :=
  writeBack 4 rd (s.x rs1 ^^^ immWord s.w imm) s
/-- R197. -/
def execOri (rd rs1 : Reg) (imm : BitVec 12) (s : State) : Host.Outcome State Fault Refusal :=
  writeBack 4 rd (s.x rs1 ||| immWord s.w imm) s
/-- R198. -/
def execAndi (rd rs1 : Reg) (imm : BitVec 12) (s : State) : Host.Outcome State Fault Refusal :=
  writeBack 4 rd (s.x rs1 &&& immWord s.w imm) s
/-- R199; on RV32 a shift amount of 32 or more does not decode (R116). -/
def execSlli (rd rs1 : Reg) (shamt : BitVec 6) (s : State) : Host.Outcome State Fault Refusal :=
  guarded (.slli rd rs1 shamt) s (writeBack 4 rd (shiftLeft (s.x rs1) shamt.toNat) s)
/-- R200; as `SLLI` for the shift amount. -/
def execSrli (rd rs1 : Reg) (shamt : BitVec 6) (s : State) : Host.Outcome State Fault Refusal :=
  guarded (.srli rd rs1 shamt) s (writeBack 4 rd (shiftRight (s.x rs1) shamt.toNat) s)
/-- R201; as `SLLI` for the shift amount. -/
def execSrai (rd rs1 : Reg) (shamt : BitVec 6) (s : State) : Host.Outcome State Fault Refusal :=
  guarded (.srai rd rs1 shamt) s (writeBack 4 rd (shiftRightArith s.w (s.x rs1) shamt.toNat) s)

/-! ### Register-register -/

/-- R202. -/
def execAdd (rd rs1 rs2 : Reg) (s : State) : Host.Outcome State Fault Refusal :=
  writeBack 4 rd (s.x rs1 + s.x rs2) s
/-- R203. -/
def execSub (rd rs1 rs2 : Reg) (s : State) : Host.Outcome State Fault Refusal :=
  writeBack 4 rd (s.x rs1 - s.x rs2) s
/-- R204. -/
def execSll (rd rs1 rs2 : Reg) (s : State) : Host.Outcome State Fault Refusal :=
  writeBack 4 rd (shiftLeft (s.x rs1) (shiftAmount s.w (s.x rs2))) s
/-- R205. -/
def execSlt (rd rs1 rs2 : Reg) (s : State) : Host.Outcome State Fault Refusal :=
  writeBack 4 rd (boolWord (lessSigned s.w (s.x rs1) (s.x rs2))) s
/-- R206. -/
def execSltu (rd rs1 rs2 : Reg) (s : State) : Host.Outcome State Fault Refusal :=
  writeBack 4 rd (boolWord (lessUnsigned s.w (s.x rs1) (s.x rs2))) s
/-- R207. -/
def execXor (rd rs1 rs2 : Reg) (s : State) : Host.Outcome State Fault Refusal :=
  writeBack 4 rd (s.x rs1 ^^^ s.x rs2) s
/-- R208. -/
def execSrl (rd rs1 rs2 : Reg) (s : State) : Host.Outcome State Fault Refusal :=
  writeBack 4 rd (shiftRight (s.x rs1) (shiftAmount s.w (s.x rs2))) s
/-- R209. -/
def execSra (rd rs1 rs2 : Reg) (s : State) : Host.Outcome State Fault Refusal :=
  writeBack 4 rd (shiftRightArith s.w (s.x rs1) (shiftAmount s.w (s.x rs2))) s
/-- R210. -/
def execOr (rd rs1 rs2 : Reg) (s : State) : Host.Outcome State Fault Refusal :=
  writeBack 4 rd (s.x rs1 ||| s.x rs2) s
/-- R211. -/
def execAnd (rd rs1 rs2 : Reg) (s : State) : Host.Outcome State Fault Refusal :=
  writeBack 4 rd (s.x rs1 &&& s.x rs2) s

/-! ### RV64 word forms: the low 32 bits, sign-extended -/

/-- R212. -/
def execAddiw (rd rs1 : Reg) (imm : BitVec 12) (s : State) : Host.Outcome State Fault Refusal :=
  guarded (.addiw rd rs1 imm) s (writeBack 4 rd (sext32 (low32 (s.x rs1 + immWord s.w imm))) s)
/-- R213. -/
def execSlliw (rd rs1 : Reg) (shamt : BitVec 5) (s : State) : Host.Outcome State Fault Refusal :=
  guarded (.slliw rd rs1 shamt) s (writeBack 4 rd (sext32 (low32 (s.x rs1) <<< shamt.toNat)) s)
/-- R214. -/
def execSrliw (rd rs1 : Reg) (shamt : BitVec 5) (s : State) : Host.Outcome State Fault Refusal :=
  guarded (.srliw rd rs1 shamt) s (writeBack 4 rd (sext32 (low32 (s.x rs1) >>> shamt.toNat)) s)
/-- R215. -/
def execSraiw (rd rs1 : Reg) (shamt : BitVec 5) (s : State) : Host.Outcome State Fault Refusal :=
  guarded (.sraiw rd rs1 shamt) s (writeBack 4 rd (sext32 ((low32 (s.x rs1)).sshiftRight shamt.toNat)) s)
/-- R216. -/
def execAddw (rd rs1 rs2 : Reg) (s : State) : Host.Outcome State Fault Refusal :=
  guarded (.addw rd rs1 rs2) s (writeBack 4 rd (sext32 (low32 (s.x rs1 + s.x rs2))) s)
/-- R217. -/
def execSubw (rd rs1 rs2 : Reg) (s : State) : Host.Outcome State Fault Refusal :=
  guarded (.subw rd rs1 rs2) s (writeBack 4 rd (sext32 (low32 (s.x rs1 - s.x rs2))) s)
/-- R218. -/
def execSllw (rd rs1 rs2 : Reg) (s : State) : Host.Outcome State Fault Refusal :=
  guarded (.sllw rd rs1 rs2) s (writeBack 4 rd (sext32 (low32 (s.x rs1) <<< shiftAmountW (s.x rs2))) s)
/-- R219. -/
def execSrlw (rd rs1 rs2 : Reg) (s : State) : Host.Outcome State Fault Refusal :=
  guarded (.srlw rd rs1 rs2) s (writeBack 4 rd (sext32 (low32 (s.x rs1) >>> shiftAmountW (s.x rs2))) s)
/-- R220. -/
def execSraw (rd rs1 rs2 : Reg) (s : State) : Host.Outcome State Fault Refusal :=
  guarded (.sraw rd rs1 rs2) s (writeBack 4 rd (sext32 ((low32 (s.x rs1)).sshiftRight (shiftAmountW (s.x rs2)))) s)

end Sys2Proof.Machine
end

