-- ==== Sys2Proof/Machine/LoadStore.lean ====
section
/-! DEFINITION. Loads and stores (spec/43_loads_stores.md R260 to R274), with the instruction's length as an argument so that the
compressed forms share them. -/

namespace Sys2Proof.Machine

/-- A load: read, extend, write `rd`, retire; a fault writes no register (R260).  `rd = 0` still reads. -/
def loadFrom (len : Nat) (z : Size) (signed : Bool) (rd : Reg) (ea : Word) (s : State) :
    Host.Outcome State Fault Refusal :=
  finish len ((memRead ea z s).bind fun v s' => .pure () (s'.setReg rd (if signed then z.sext v else v)))

/-- A store of the low bytes of `v`, then retire (R274). -/
def storeTo (len : Nat) (z : Size) (ea v : Word) (s : State) : Host.Outcome State Fault Refusal :=
  finish len (memWrite ea z v s)

/-- R261. -/
def execLb (rd rs1 : Reg) (imm : BitVec 12) (s : State) : Host.Outcome State Fault Refusal :=
  loadFrom 4 .b1 true rd (s.ea rs1 imm) s
/-- R262. -/
def execLh (rd rs1 : Reg) (imm : BitVec 12) (s : State) : Host.Outcome State Fault Refusal :=
  loadFrom 4 .b2 true rd (s.ea rs1 imm) s
/-- R263. -/
def execLw (rd rs1 : Reg) (imm : BitVec 12) (s : State) : Host.Outcome State Fault Refusal :=
  loadFrom 4 .b4 true rd (s.ea rs1 imm) s
/-- R264. -/
def execLd (rd rs1 : Reg) (imm : BitVec 12) (s : State) : Host.Outcome State Fault Refusal :=
  guarded (.ld rd rs1 imm) s (loadFrom 4 .b8 true rd (s.ea rs1 imm) s)
/-- R265. -/
def execLbu (rd rs1 : Reg) (imm : BitVec 12) (s : State) : Host.Outcome State Fault Refusal :=
  loadFrom 4 .b1 false rd (s.ea rs1 imm) s
/-- R266. -/
def execLhu (rd rs1 : Reg) (imm : BitVec 12) (s : State) : Host.Outcome State Fault Refusal :=
  loadFrom 4 .b2 false rd (s.ea rs1 imm) s
/-- R267. -/
def execLwu (rd rs1 : Reg) (imm : BitVec 12) (s : State) : Host.Outcome State Fault Refusal :=
  guarded (.lwu rd rs1 imm) s (loadFrom 4 .b4 false rd (s.ea rs1 imm) s)
/-- R270. -/
def execSb (rs1 rs2 : Reg) (imm : BitVec 12) (s : State) : Host.Outcome State Fault Refusal :=
  storeTo 4 .b1 (s.ea rs1 imm) (s.x rs2) s
/-- R271. -/
def execSh (rs1 rs2 : Reg) (imm : BitVec 12) (s : State) : Host.Outcome State Fault Refusal :=
  storeTo 4 .b2 (s.ea rs1 imm) (s.x rs2) s
/-- R272. -/
def execSw (rs1 rs2 : Reg) (imm : BitVec 12) (s : State) : Host.Outcome State Fault Refusal :=
  storeTo 4 .b4 (s.ea rs1 imm) (s.x rs2) s
/-- R273. -/
def execSd (rs1 rs2 : Reg) (imm : BitVec 12) (s : State) : Host.Outcome State Fault Refusal :=
  guarded (.sd rs1 rs2 imm) s (storeTo 4 .b8 (s.ea rs1 imm) (s.x rs2) s)

end Sys2Proof.Machine
end

