-- ==== Sys2Proof/Machine/System.lean ====
section
/-! DEFINITION. Fences and the environment calls (spec/45_system.md R300 to R304). -/

namespace Sys2Proof.Machine

/-- `-ENOSYS` in `XLEN` bits (R304). -/
def State.noSuchCall (s : State) : Word := wrap s.w (-s.params.enosys)

/-- The number `EBREAK` dispatches to, in `XLEN` bits (R303). -/
def State.ebreakNumber (s : State) : Word := wrap s.w s.params.syscallEbreak

/-- `SystemCall(n)` (R304, R431, R432): the handler, then its value into `a0` unless `n` is `SYSCALL_EBREAK`; without a handler
the failure, `-ENOSYS`, or, for `SYSCALL_EBREAK`, one of the old `a0` and `-ENOSYS`, drawn (C3). -/
def systemCall (n : Word) (s : State) : Effect Unit :=
  match SMap.find s.handlers n.toNat with
  | some handler =>
    (callHost handler [n.toNat] s).bind fun answer s' =>
      if n = s'.ebreakNumber then .pure () s' else .pure () (s'.setReg 10 (answerValue answer s'))
  | none =>
    if s.params.throwOnUnhandledSyscall then .trapped .unhandledSyscall n.toNat s
    else if n = s.ebreakNumber then
      (if Config.freeBool s.draws then .pure () s.drawn else .pure () (s.drawn.setReg 10 s.noSuchCall))
    else .pure () (s.setReg 10 s.noSuchCall)

/-- R300: no effect but the pc and the counter. -/
def execFence (_fm _pred _succ : BitVec 4) (_rs1 _rd : Reg) (s : State) : Host.Outcome State Fault Refusal :=
  retire 4 false s
/-- R302. -/
def execEcall (s : State) : Host.Outcome State Fault Refusal := finish 4 (systemCall (s.x 17) s)
/-- R303. -/
def execEbreak (s : State) : Host.Outcome State Fault Refusal := finish 4 (systemCall s.ebreakNumber s)

end Sys2Proof.Machine
end

