-- ==== Sys2Proof/Machine/Compressed.lean ====
section
/-! DEFINITION. The C extension (spec/46_compressed.md R320 to R355): each instruction executes as its expansion with `len = 2`
(R122), over the operations the 32-bit forms use.  Where the machine does not have it (`EXT_C = false`, the other width) or its
operand is reserved or a HINT, it decodes to no instruction (R121). -/

namespace Sys2Proof.Machine

/-! ### Quadrant 0 -/

/-- R322: `addi rd', x2, nzuimm`. -/
def execCAddi4spn (rd : Reg3) (imm : BitVec 10) (s : State) : Host.Outcome State Fault Refusal :=
  guarded (.cAddi4spn rd imm) s (writeBack 2 (reg3 rd) (s.x 2 + imm.setWidth 64) s)
/-- R323: `lw rd', uimm(rs1')`. -/
def execCLw (rd rs1 : Reg3) (imm : BitVec 7) (s : State) : Host.Outcome State Fault Refusal :=
  guarded (.cLw rd rs1 imm) s (loadFrom 2 .b4 true (reg3 rd) (s.eaU (reg3 rs1) imm) s)
/-- R324: `ld rd', uimm(rs1')`. -/
def execCLd (rd rs1 : Reg3) (imm : BitVec 8) (s : State) : Host.Outcome State Fault Refusal :=
  guarded (.cLd rd rs1 imm) s (loadFrom 2 .b8 true (reg3 rd) (s.eaU (reg3 rs1) imm) s)
/-- R325: `sw rs2', uimm(rs1')`. -/
def execCSw (rs1 rs2 : Reg3) (imm : BitVec 7) (s : State) : Host.Outcome State Fault Refusal :=
  guarded (.cSw rs1 rs2 imm) s (storeTo 2 .b4 (s.eaU (reg3 rs1) imm) (s.x (reg3 rs2)) s)
/-- R326: `sd rs2', uimm(rs1')`. -/
def execCSd (rs1 rs2 : Reg3) (imm : BitVec 8) (s : State) : Host.Outcome State Fault Refusal :=
  guarded (.cSd rs1 rs2 imm) s (storeTo 2 .b8 (s.eaU (reg3 rs1) imm) (s.x (reg3 rs2)) s)

/-! ### Quadrant 1 -/

/-- R327: `addi x0, x0, 0`. -/
def execCNop (s : State) : Host.Outcome State Fault Refusal :=
  guarded .cNop s (retire 2 false s)
/-- R328: `addi rd, rd, nzimm`. -/
def execCAddi (rd : Reg) (imm : BitVec 6) (s : State) : Host.Outcome State Fault Refusal :=
  guarded (.cAddi rd imm) s (writeBack 2 rd (s.x rd + immWord s.w imm) s)
/-- R329: `jal x1, offset`, link `pc + 2`. -/
def execCJal (offset : BitVec 12) (s : State) : Host.Outcome State Fault Refusal :=
  guarded (.cJal offset) s (jumpRelative 2 1 offset s)
/-- R330: `addiw rd, rd, imm`. -/
def execCAddiw (rd : Reg) (imm : BitVec 6) (s : State) : Host.Outcome State Fault Refusal :=
  guarded (.cAddiw rd imm) s (writeBack 2 rd (sext32 (low32 (s.x rd + immWord s.w imm))) s)
/-- R331: `addi rd, x0, imm`. -/
def execCLi (rd : Reg) (imm : BitVec 6) (s : State) : Host.Outcome State Fault Refusal :=
  guarded (.cLi rd imm) s (writeBack 2 rd (immWord s.w imm) s)
/-- R332: `addi x2, x2, nzimm`. -/
def execCAddi16sp (imm : BitVec 10) (s : State) : Host.Outcome State Fault Refusal :=
  guarded (.cAddi16sp imm) s (writeBack 2 2 (s.x 2 + immWord s.w imm) s)
/-- R333: `lui rd, nzimm`. -/
def execCLui (rd : Reg) (imm : BitVec 6) (s : State) : Host.Outcome State Fault Refusal :=
  guarded (.cLui rd imm) s (writeBack 2 rd (immWord s.w (imm ++ 0#12)) s)
/-- R334: `srli rd', rd', shamt`. -/
def execCSrli (rd : Reg3) (shamt : BitVec 6) (s : State) : Host.Outcome State Fault Refusal :=
  guarded (.cSrli rd shamt) s (writeBack 2 (reg3 rd) (shiftRight (s.x (reg3 rd)) shamt.toNat) s)
/-- R335: `srai rd', rd', shamt`. -/
def execCSrai (rd : Reg3) (shamt : BitVec 6) (s : State) : Host.Outcome State Fault Refusal :=
  guarded (.cSrai rd shamt) s (writeBack 2 (reg3 rd) (shiftRightArith s.w (s.x (reg3 rd)) shamt.toNat) s)
/-- R336: `andi rd', rd', imm`. -/
def execCAndi (rd : Reg3) (imm : BitVec 6) (s : State) : Host.Outcome State Fault Refusal :=
  guarded (.cAndi rd imm) s (writeBack 2 (reg3 rd) (s.x (reg3 rd) &&& immWord s.w imm) s)
/-- R337: `sub rd', rd', rs2'`. -/
def execCSub (rd rs2 : Reg3) (s : State) : Host.Outcome State Fault Refusal :=
  guarded (.cSub rd rs2) s (writeBack 2 (reg3 rd) (s.x (reg3 rd) - s.x (reg3 rs2)) s)
/-- R338: `xor rd', rd', rs2'`. -/
def execCXor (rd rs2 : Reg3) (s : State) : Host.Outcome State Fault Refusal :=
  guarded (.cXor rd rs2) s (writeBack 2 (reg3 rd) (s.x (reg3 rd) ^^^ s.x (reg3 rs2)) s)
/-- R339: `or rd', rd', rs2'`. -/
def execCOr (rd rs2 : Reg3) (s : State) : Host.Outcome State Fault Refusal :=
  guarded (.cOr rd rs2) s (writeBack 2 (reg3 rd) (s.x (reg3 rd) ||| s.x (reg3 rs2)) s)
/-- R340: `and rd', rd', rs2'`. -/
def execCAnd (rd rs2 : Reg3) (s : State) : Host.Outcome State Fault Refusal :=
  guarded (.cAnd rd rs2) s (writeBack 2 (reg3 rd) (s.x (reg3 rd) &&& s.x (reg3 rs2)) s)
/-- R341: `subw rd', rd', rs2'`. -/
def execCSubw (rd rs2 : Reg3) (s : State) : Host.Outcome State Fault Refusal :=
  guarded (.cSubw rd rs2) s (writeBack 2 (reg3 rd) (sext32 (low32 (s.x (reg3 rd) - s.x (reg3 rs2)))) s)
/-- R342: `addw rd', rd', rs2'`. -/
def execCAddw (rd rs2 : Reg3) (s : State) : Host.Outcome State Fault Refusal :=
  guarded (.cAddw rd rs2) s (writeBack 2 (reg3 rd) (sext32 (low32 (s.x (reg3 rd) + s.x (reg3 rs2)))) s)
/-- R343: `jal x0, offset`. -/
def execCJ (offset : BitVec 12) (s : State) : Host.Outcome State Fault Refusal :=
  guarded (.cJ offset) s (jumpRelative 2 0 offset s)
/-- R344: `beq rs1', x0, offset`. -/
def execCBeqz (rs1 : Reg3) (offset : BitVec 9) (s : State) : Host.Outcome State Fault Refusal :=
  guarded (.cBeqz rs1 offset) s (branchIf 2 (equalWords s.w (s.x (reg3 rs1)) 0) offset s)
/-- R345: `bne rs1', x0, offset`. -/
def execCBnez (rs1 : Reg3) (offset : BitVec 9) (s : State) : Host.Outcome State Fault Refusal :=
  guarded (.cBnez rs1 offset) s (branchIf 2 (!equalWords s.w (s.x (reg3 rs1)) 0) offset s)

/-! ### Quadrant 2 -/

/-- R346: `slli rd, rd, shamt`. -/
def execCSlli (rd : Reg) (shamt : BitVec 6) (s : State) : Host.Outcome State Fault Refusal :=
  guarded (.cSlli rd shamt) s (writeBack 2 rd (shiftLeft (s.x rd) shamt.toNat) s)
/-- R347: `lw rd, uimm(x2)`. -/
def execCLwsp (rd : Reg) (imm : BitVec 8) (s : State) : Host.Outcome State Fault Refusal :=
  guarded (.cLwsp rd imm) s (loadFrom 2 .b4 true rd (s.eaU 2 imm) s)
/-- R348: `ld rd, uimm(x2)`. -/
def execCLdsp (rd : Reg) (imm : BitVec 9) (s : State) : Host.Outcome State Fault Refusal :=
  guarded (.cLdsp rd imm) s (loadFrom 2 .b8 true rd (s.eaU 2 imm) s)
/-- R349: `jalr x0, 0(rs1)`. -/
def execCJr (rs1 : Reg) (s : State) : Host.Outcome State Fault Refusal :=
  guarded (.cJr rs1) s (jumpRegister 2 0 rs1 0#12 s)
/-- R350: `add rd, x0, rs2`. -/
def execCMv (rd rs2 : Reg) (s : State) : Host.Outcome State Fault Refusal :=
  guarded (.cMv rd rs2) s (writeBack 2 rd (s.x rs2) s)
/-- R351: `ebreak`, fall-through `pc + 2`. -/
def execCEbreak (s : State) : Host.Outcome State Fault Refusal :=
  guarded .cEbreak s (finish 2 (systemCall s.ebreakNumber s))
/-- R352: `jalr x1, 0(rs1)`, link `pc + 2`. -/
def execCJalr (rs1 : Reg) (s : State) : Host.Outcome State Fault Refusal :=
  guarded (.cJalr rs1) s (jumpRegister 2 1 rs1 0#12 s)
/-- R353: `add rd, rd, rs2`. -/
def execCAdd (rd rs2 : Reg) (s : State) : Host.Outcome State Fault Refusal :=
  guarded (.cAdd rd rs2) s (writeBack 2 rd (s.x rd + s.x rs2) s)
/-- R354: `sw rs2, uimm(x2)`. -/
def execCSwsp (rs2 : Reg) (imm : BitVec 8) (s : State) : Host.Outcome State Fault Refusal :=
  guarded (.cSwsp rs2 imm) s (storeTo 2 .b4 (s.eaU 2 imm) (s.x rs2) s)
/-- R355: `sd rs2, uimm(x2)`. -/
def execCSdsp (rs2 : Reg) (imm : BitVec 9) (s : State) : Host.Outcome State Fault Refusal :=
  guarded (.cSdsp rs2 imm) s (storeTo 2 .b8 (s.eaU 2 imm) (s.x rs2) s)

end Sys2Proof.Machine
end

