-- ==== Sys2Proof/Machine/Unimplemented.lean ====
section
/-! DEFINITION. The rows of the opcode table that this block does not execute (spec/45_system.md R301, R305 to R307,
spec/46_compressed.md R321): each ends its step in the fault `UNIMPLEMENTED_INSTRUCTION` with its bits as detail, the Trapped state
of R410 (`takeTrap`). -/

namespace Sys2Proof.Machine

/-- R301. -/
def execFenceI (imm : BitVec 12) (rs1 rd : Reg) (s : State) : Host.Outcome State Fault Refusal :=
  unimplemented (.fenceI imm rs1 rd) s
/-- R305. -/
def execMulDiv (funct3 : BitVec 3) (rd rs1 rs2 : Reg) (s : State) : Host.Outcome State Fault Refusal :=
  unimplemented (.mulDiv funct3 rd rs1 rs2) s
/-- R305. -/
def execMulDivW (funct3 : BitVec 3) (rd rs1 rs2 : Reg) (s : State) : Host.Outcome State Fault Refusal :=
  unimplemented (.mulDivW funct3 rd rs1 rs2) s
/-- R306. -/
def execCsrrw (csr : BitVec 12) (src rd : Reg) (s : State) : Host.Outcome State Fault Refusal :=
  unimplemented (.csrrw csr src rd) s
/-- R306. -/
def execCsrrs (csr : BitVec 12) (src rd : Reg) (s : State) : Host.Outcome State Fault Refusal :=
  unimplemented (.csrrs csr src rd) s
/-- R306. -/
def execCsrrc (csr : BitVec 12) (src rd : Reg) (s : State) : Host.Outcome State Fault Refusal :=
  unimplemented (.csrrc csr src rd) s
/-- R306. -/
def execCsrrwi (csr : BitVec 12) (src rd : Reg) (s : State) : Host.Outcome State Fault Refusal :=
  unimplemented (.csrrwi csr src rd) s
/-- R306. -/
def execCsrrsi (csr : BitVec 12) (src rd : Reg) (s : State) : Host.Outcome State Fault Refusal :=
  unimplemented (.csrrsi csr src rd) s
/-- R306. -/
def execCsrrci (csr : BitVec 12) (src rd : Reg) (s : State) : Host.Outcome State Fault Refusal :=
  unimplemented (.csrrci csr src rd) s
/-- R306. -/
def execSystemFunct3_4 (imm : BitVec 12) (rs1 rd : Reg) (s : State) : Host.Outcome State Fault Refusal :=
  unimplemented (.systemFunct3_4 imm rs1 rd) s
/-- R306. -/
def execUret (s : State) : Host.Outcome State Fault Refusal :=
  unimplemented .uret s
/-- R306. -/
def execSret (s : State) : Host.Outcome State Fault Refusal :=
  unimplemented .sret s
/-- R306. -/
def execMret (s : State) : Host.Outcome State Fault Refusal :=
  unimplemented .mret s
/-- R306. -/
def execWfi (s : State) : Host.Outcome State Fault Refusal :=
  unimplemented .wfi s
/-- R306. -/
def execSfenceVma (rs1 rs2 : Reg) (s : State) : Host.Outcome State Fault Refusal :=
  unimplemented (.sfenceVma rs1 rs2) s
/-- R307. -/
def execLoadFp (high : BitVec 25) (s : State) : Host.Outcome State Fault Refusal :=
  unimplemented (.loadFp high) s
/-- R307. -/
def execStoreFp (high : BitVec 25) (s : State) : Host.Outcome State Fault Refusal :=
  unimplemented (.storeFp high) s
/-- R307. -/
def execFmadd (high : BitVec 25) (s : State) : Host.Outcome State Fault Refusal :=
  unimplemented (.fmadd high) s
/-- R307. -/
def execFmsub (high : BitVec 25) (s : State) : Host.Outcome State Fault Refusal :=
  unimplemented (.fmsub high) s
/-- R307. -/
def execFnmsub (high : BitVec 25) (s : State) : Host.Outcome State Fault Refusal :=
  unimplemented (.fnmsub high) s
/-- R307. -/
def execFnmadd (high : BitVec 25) (s : State) : Host.Outcome State Fault Refusal :=
  unimplemented (.fnmadd high) s
/-- R307. -/
def execOpFp (high : BitVec 25) (s : State) : Host.Outcome State Fault Refusal :=
  unimplemented (.opFp high) s
/-- R321. -/
def execCFld (mid : BitVec 11) (s : State) : Host.Outcome State Fault Refusal :=
  unimplemented (.cFld mid) s
/-- R321. -/
def execCFsd (mid : BitVec 11) (s : State) : Host.Outcome State Fault Refusal :=
  unimplemented (.cFsd mid) s
/-- R321. -/
def execCFldsp (mid : BitVec 11) (s : State) : Host.Outcome State Fault Refusal :=
  unimplemented (.cFldsp mid) s
/-- R321. -/
def execCFsdsp (mid : BitVec 11) (s : State) : Host.Outcome State Fault Refusal :=
  unimplemented (.cFsdsp mid) s
/-- R321. -/
def execCFlw (mid : BitVec 11) (s : State) : Host.Outcome State Fault Refusal :=
  unimplemented (.cFlw mid) s
/-- R321. -/
def execCFsw (mid : BitVec 11) (s : State) : Host.Outcome State Fault Refusal :=
  unimplemented (.cFsw mid) s
/-- R321. -/
def execCFlwsp (mid : BitVec 11) (s : State) : Host.Outcome State Fault Refusal :=
  unimplemented (.cFlwsp mid) s
/-- R321. -/
def execCFswsp (mid : BitVec 11) (s : State) : Host.Outcome State Fault Refusal :=
  unimplemented (.cFswsp mid) s
/-- R321. -/
def execCReserved00_4 (mid : BitVec 11) (s : State) : Host.Outcome State Fault Refusal :=
  unimplemented (.cReserved00_4 mid) s
/-- R321. -/
def execCIllegal (s : State) : Host.Outcome State Fault Refusal :=
  unimplemented .cIllegal s

end Sys2Proof.Machine
end

