-- ==== Sys2Proof/Machine/Fetch.lean ====
section
/-! DEFINITION. Instruction fetch (spec/40_fetch_execute.md R161 to R163): the bounds, the parcels as they stand in the page map
now, the length, the decoding.  It does not use the read path: no permission check, no page-fault path. -/

namespace Sys2Proof.Machine

/-- `FetchParcel(a)`: the halfword at `a`, none where its page is absent or a Trap page (R162).  `a` is even, so the two bytes
are in one page. -/
def fetchParcel (a : Nat) (s : State) : Option (BitVec 16) :=
  match s.pageAt (pageOf a) with
  | some page => if isTrapPage page then none else some (s.byte (a + 1) ++ s.byte a)
  | none => none

/-- The fault of a fetch outside the execute segment.  With `EXEC_CONSTANT`, at an address outside it but in a page that
overlaps it, the tag is drawn (R161, C7). -/
def outsideExecSegment (s : State) : Effect Instr :=
  if s.params.execConstant && !s.inExecSegment s.pc.toNat && s.pageMeetsExec (pageOf s.pc.toNat) then
    .trapped (if Config.freeBool s.draws then .unimplementedInstruction else .executionSpaceProtectionFault) s.pc.toNat
      s.drawn
  else .trapped .executionSpaceProtectionFault s.pc.toNat s

/-- `[a, a + n)` lies in the execute segment; unbounded comparison (R161). -/
def State.execSegmentHolds (s : State) (a n : Nat) : Bool :=
  s.execBase.toNat ≤ a && a + n ≤ s.execBase.toNat + s.execLen.toNat

/-- Decode the bits of a 16-bit instruction, or the fault (R163). -/
def decodedHalf (c : BitVec 16) (s : State) : Effect Instr :=
  match decode16 s.params c with
  | some i => .pure i s
  | none => .trapped .unimplementedInstruction c.toNat s

/-- Decode the bits of a 32-bit instruction, or the fault (R163). -/
def decodedWord (w : BitVec 32) (s : State) : Effect Instr :=
  match decode32 s.params w with
  | some i => .pure i s
  | none => .trapped .unimplementedInstruction w.toNat s

/-- `Fetch(pc)` and `Decode` (R161 to R163), in the order of R411.  The bounds are compared unbounded
(R161); the address of a parcel is a pc sum, modulo `2^XLEN` (R8, D8).  A misaligned pc faults with the tag of R161's first check also
where `EXEC_CONSTANT` draws the tag of its second (DEDUCED, log entry 37). -/
def fetch (s : State) : Effect Instr :=
  let pc := s.pc.toNat
  if pc % s.params.ialign != 0 then .trapped .executionSpaceProtectionFault pc s
  else if !s.execSegmentHolds pc 2 then outsideExecSegment s
  else
    match fetchParcel (wrap s.w s.pc).toNat s with
    | none => .refused .fetchFromUnbackedExecPage
    | some p0 =>
      match lengthOf s.params p0 with
      | none => .trapped .unimplementedInstructionLength p0.toNat s
      | some len =>
        if !s.execSegmentHolds pc len then .trapped .executionSpaceProtectionFault pc s
        else if len = 2 then decodedHalf p0 s
        else
          match fetchParcel (wrap s.w (s.pc + 2)).toNat s with
          | none => .refused .fetchFromUnbackedExecPage
          | some p1 => decodedWord (p1 ++ p0) s

/-- The bytes an external writer leaves in a page. -/
def externalPage (draw npage : Nat) : List Byte :=
  (List.range pageSize).map fun o => Config.externalByte draw (npage * pageSize + o)

/-- External writers (R438): every byte of a page the host declared externally written becomes a free value.  A page
not declared that shows the same bytes of the host's memory shows the new ones too, where R438 says unchanged and R93 says the
buffer's (DESIGN CHOICE, log entry 35). -/
def redrawPage (npage : Nat) (s : State) : State :=
  (s.storeBytes (npage * pageSize) (externalPage s.draws npage)).drawn

/-- External writers (R438) at an instruction boundary, over the listed pages.  Nothing changes where no page is. -/
def redrawPages (pages : List (Nat × Page)) (s : State) : State :=
  match pages with
  | [] => s
  | (npage, ⟨_, .nonOwned _ true⟩) :: t => redrawPages t (redrawPage npage s)
  | _ :: t => redrawPages t s

/-- The state at an instruction boundary, as whatever looks next sees it: the loop, the fetch, the host. -/
def atBoundary (s : State) : State := redrawPages s.pages s

end Sys2Proof.Machine
end

