-- ==== Sys2Proof/Machine/Facade.lean ====
section
/-! DEFINITION. The host outside a run (spec/60_exceptions.md R439 to R446, spec/70_reset_and_hazards.md R460): one call at a time,
each ending in a state that holds its answer. -/

namespace Sys2Proof.Machine

/-- The registers after reset: x2 is the initial stack pointer, every other is 0 (R460, R461). -/
def resetRegs (stackAddress : Word) : Vector Word 32 := (Vector.replicate 32 0).set 2 stackAddress

/-- `reset()` (R460): the CPU state and only it; pages, bytes, the execute segment, the three addresses, the handlers and the
callbacks stay. -/
def resetCpu (s : State) : State :=
  { s with
    regs := resetRegs (wrap s.w s.stackAddress)
    pc := wrap s.w s.startAddress
    counter := 0
    stopped := false
    status := .init
    resv := { s.resv with valid := false } }

/-- The answer of a host operation, and the reservation draw of a host action (R281). -/
def answerHost (e : Effect HostResult) : Host.Outcome State Fault Refusal :=
  match e with
  | .done r s _ => .next { drawReservation s with hostResult := r }
  | .trapped tag detail s => .next { drawReservation s with hostResult := .failed tag detail }
  | .refused r => .refused r

/-- `vmcall` (R443): the call, and the run when it is asked for. -/
def vmcall (target : Option Word) (args : List Word) (exec : Bool) (maxInstr : Nat) (s : State) :
    Host.Outcome State Fault Refusal :=
  match vmcallSetup target args s with
  | .done r s' wrote =>
    if exec then .next (enterSimulate maxInstr (drawReservation s')) else answerHost (.done r s' wrote)
  | .trapped tag detail s' => answerHost (.trapped tag detail s')
  | .refused r => .refused r

/-- One call of the host while no `simulate` is active. -/
def hostCall (op : HostOp) (s : State) : Host.Outcome State Fault Refusal :=
  match op with
  | .simulate maxInstr => .next (enterSimulate maxInstr s)
  | .reset => .next { resetCpu s with hostResult := .ok }
  | .vmcall target args exec maxInstr => vmcall target args exec maxInstr s
  | .stop | .setReg .. | .setPc .. | .setupCall .. | .realignStack .. | .memcpy .. | .copyToGuest .. | .memset .. | .memcpyOut ..
  | .memcmp .. | .memview .. | .memstring .. | .strlen .. | .getPage .. | .createPage .. | .freePages .. | .setPageAttr ..
  | .installShared .. | .insertNonOwned .. | .writeBuffer .. | .trapPage .. | .declareExternal .. | .installHandler ..
  | .getHandler .. | .removeHandler ..
  | .setPageFaultCallback .. | .setPageWriteCallback .. => answerHost (hostAct .outer op s)

/-- The next call of the host, where there is one, on what the external writers left (R438); between its calls the Machine holds its
whole state (R455). -/
def hostTurn (s : State) : Host.Outcome State Fault Refusal :=
  match s.hostCalls with
  | [] => .next s
  | op :: rest => hostCall op { atBoundary s with hostCalls := rest }

end Sys2Proof.Machine
end

