-- ==== Sys2Proof/Machine/Loop.lean ====
section
/-! DEFINITION. The run loop of `simulate` (spec/40_fetch_execute.md R160, R167, R168), one turn at a time, and the placing of an
instruction where the next turn fetches it. -/

namespace Sys2Proof.Machine

/-- One step of the CPU: fetch, decode, execute (R160).  Advancing the pc and the counter is the end of `exec` (`retire`). -/
def cpuStep (s : State) : Host.Outcome State Fault Refusal :=
  match fetch s with
  | .done i s' _ => exec i s'
  | .trapped tag detail s' => .next (takeTrap tag detail s')
  | .refused r => .refused r

/-- The budget of the run is used up (R167); the comparison is on unbounded integers. -/
def budgetSpent (r : Run) (s : State) : Bool :=
  r.maxInstr != 0 && r.startCounter.toNat + r.maxInstr ≤ s.counter.toNat

/-- One turn of the loop of `simulate`: the stop flag, the budget, the exit sentinel, then one instruction (R167, R168). -/
def runTurn (r : Run) (s : State) : Host.Outcome State Fault Refusal :=
  if s.stopped then .next (endRun .stopped s)
  else if budgetSpent r s then
    if s.params.deadlockOnBudget then .next (takeTrap .deadlock s.counter.toNat s) else .next (endRun s.status s)
  else if s.pc = s.exitAddress then .next (endRun .stopped { s with stopped := true })
  else cpuStep s

/-- One turn of the machine, from an instruction boundary (R438): a turn of the active run, or a call of the host. -/
def turn (s : State) : Host.Outcome State Fault Refusal :=
  match s.run with
  | some r => runTurn r (atBoundary s)
  | none => hostTurn s

/-- A page the fetch can read: the one at `npage` where it is mapped, not a Trap page and not externally written, else a fresh
Owned page. -/
def fetchablePage (npage : Nat) (s : State) : State :=
  match s.pageAt npage with
  | some ⟨_, .owned⟩ | some ⟨_, .sharedRO⟩ | some ⟨_, .nonOwned _ false⟩ => s
  | some ⟨_, .nonOwned _ true⟩ | some ⟨_, .trap ..⟩ | none => s.installPage npage ⟨⟨true, false, true⟩, .owned⟩ []

/-- The address the next fetch takes its instruction from, at the alignment the fetch needs (R161). -/
def fetchAddress (s : State) : Word := wrap s.w s.pc - BitVec.ofNat 64 ((wrap s.w s.pc).toNat % s.params.ialign)

/-- Place bytes from `a` on, addresses modulo `2^XLEN`. -/
def placeBytes (a : Word) (bs : List Byte) (s : State) : State :=
  match bs with
  | [] => s
  | b :: t => placeBytes (wrap s.w (a + 1)) t (s.put (s.place a.toNat) b)

/-- Place four bytes at `pc` and all that fetching them there takes: the page, the execute segment, an active run without
budget, an exit sentinel elsewhere. -/
def placeAt (pc : Word) (bs : List Byte) (s : State) : State :=
  let t := placeBytes pc bs (fetchablePage (pageOf (wrap s.w (pc + 3)).toNat) (fetchablePage (pageOf pc.toNat) s))
  { t with
    pc := pc
    execBase := if t.execSegmentHolds pc.toNat 4 then t.execBase else pc
    execLen := if t.execSegmentHolds pc.toNat 4 then t.execLen else 4
    exitAddress := if t.exitAddress = pc then wrap t.w (pc + 4) else t.exitAddress
    stopped := false
    status := .running
    run := some ⟨t.counter, 0⟩ }

/-- `s` with the table word placed as its next instruction, under parameters that have it (log entry 3). -/
def placeWord (s : State) (nbits w : Nat) : State :=
  let bs := tableBytes nbits w
  let t := { s with params := paramsFor s.params bs }
  placeAt (fetchAddress t) bs t

end Sys2Proof.Machine
end

