-- ==== Sys2Proof/Machine/Step.lean ====
section
/-! DEFINITION. One step of the machine, and the instruction word the host places for it. -/

namespace Sys2Proof.Machine

/-- One step: a turn of the run loop of `simulate` (R167), which executes one instruction (R160) or ends the run, or, between
runs, one call of the host. -/
def step (s : State) : Host.Outcome State Fault Refusal := turn s

/-- `s` with a word of spec/opcode_table.json placed where `step` fetches its next instruction. -/
def State.withFetchWord (s : State) (nbits w : Nat) : State := placeWord s nbits w

end Sys2Proof.Machine
end

