-- ==== Sys2Proof/Laws/Encoding.lean ====
section
/-! SUPPORT. The fields of an encoded instruction: one lemma per format says what each field extraction of the decoder gives on a
word of the encoder. -/

namespace Sys2Proof.Laws

theorem even_bit {n : Nat} (v : BitVec n) (k i : Nat) (h : multipleOf v (2 ^ k) = true) (hi : i < k) : v.getLsbD i = false := by
  have h' : v.toNat % 2 ^ k = 0 := by simpa [multipleOf] using h
  have : (v.toNat % 2 ^ k).testBit i = v.toNat.testBit i := by simp [Nat.testBit_mod_two_pow, hi]
  simpa [BitVec.getLsbD, h'] using this.symm

theorem encR_fields (f7 : BitVec 7) (rs2 rs1 : Reg) (f3 : BitVec 3) (rd : Reg) (op : BitVec 7) :
    fOpcode (encR f7 rs2 rs1 f3 rd op) = op ∧
    fRd (encR f7 rs2 rs1 f3 rd op) = rd ∧
    fFunct3 (encR f7 rs2 rs1 f3 rd op) = f3 ∧
    fRs1 (encR f7 rs2 rs1 f3 rd op) = rs1 ∧
    fRs2 (encR f7 rs2 rs1 f3 rd op) = rs2 ∧
    fFunct7 (encR f7 rs2 rs1 f3 rd op) = f7 := by
  refine ⟨?_, ?_, ?_, ?_, ?_, ?_⟩ <;>
    (apply BitVec.eq_of_getLsbD_eq; intro i hi
     simp only [fOpcode, fRd, fFunct3, fRs1, fRs2, fFunct7, encR, BitVec.getLsbD_extractLsb', BitVec.getLsbD_append]
     interval_cases i <;> simp)

theorem encI_fields (imm : BitVec 12) (rs1 : Reg) (f3 : BitVec 3) (rd : Reg) (op : BitVec 7) :
    fOpcode (encI imm rs1 f3 rd op) = op ∧
    fRd (encI imm rs1 f3 rd op) = rd ∧
    fFunct3 (encI imm rs1 f3 rd op) = f3 ∧
    fRs1 (encI imm rs1 f3 rd op) = rs1 ∧
    immI (encI imm rs1 f3 rd op) = imm := by
  refine ⟨?_, ?_, ?_, ?_, ?_⟩ <;>
    (apply BitVec.eq_of_getLsbD_eq; intro i hi
     simp only [fOpcode, fRd, fFunct3, fRs1, immI, encI, BitVec.getLsbD_extractLsb', BitVec.getLsbD_append]
     interval_cases i <;> simp)

theorem encShift_fields (f6 shamt : BitVec 6) (rs1 : Reg) (f3 : BitVec 3) (rd : Reg) (op : BitVec 7) :
    fOpcode (encShift f6 shamt rs1 f3 rd op) = op ∧
    fRd (encShift f6 shamt rs1 f3 rd op) = rd ∧
    fFunct3 (encShift f6 shamt rs1 f3 rd op) = f3 ∧
    fRs1 (encShift f6 shamt rs1 f3 rd op) = rs1 ∧
    fShamt6 (encShift f6 shamt rs1 f3 rd op) = shamt ∧
    fFunct6 (encShift f6 shamt rs1 f3 rd op) = f6 := by
  refine ⟨?_, ?_, ?_, ?_, ?_, ?_⟩ <;>
    (apply BitVec.eq_of_getLsbD_eq; intro i hi
     simp only [fOpcode, fRd, fFunct3, fRs1, fShamt6, fFunct6, encShift, BitVec.getLsbD_extractLsb', BitVec.getLsbD_append]
     interval_cases i <;> simp)

theorem encS_fields (imm : BitVec 12) (rs2 rs1 : Reg) (f3 : BitVec 3) (op : BitVec 7) :
    fOpcode (encS imm rs2 rs1 f3 op) = op ∧
    fFunct3 (encS imm rs2 rs1 f3 op) = f3 ∧
    fRs1 (encS imm rs2 rs1 f3 op) = rs1 ∧
    fRs2 (encS imm rs2 rs1 f3 op) = rs2 ∧
    immS (encS imm rs2 rs1 f3 op) = imm := by
  refine ⟨?_, ?_, ?_, ?_, ?_⟩ <;>
    (apply BitVec.eq_of_getLsbD_eq; intro i hi
     simp only [fOpcode, fFunct3, fRs1, fRs2, immS, encS, BitVec.getLsbD_extractLsb', BitVec.getLsbD_append]
     interval_cases i <;> simp)

theorem encB_fields (imm : BitVec 13) (rs2 rs1 : Reg) (f3 : BitVec 3) (op : BitVec 7) (h : multipleOf imm 2 = true) :
    fOpcode (encB imm rs2 rs1 f3 op) = op ∧
    fFunct3 (encB imm rs2 rs1 f3 op) = f3 ∧
    fRs1 (encB imm rs2 rs1 f3 op) = rs1 ∧
    fRs2 (encB imm rs2 rs1 f3 op) = rs2 ∧
    immB (encB imm rs2 rs1 f3 op) = imm := by
  have h0 : imm[0] = false := by simpa using even_bit imm 1 0 h (by decide)
  refine ⟨?_, ?_, ?_, ?_, ?_⟩ <;>
    (apply BitVec.eq_of_getLsbD_eq; intro i hi
     simp only [fOpcode, fFunct3, fRs1, fRs2, immB, encB, BitVec.getLsbD_extractLsb', BitVec.getLsbD_append]
     interval_cases i <;> simp [*])

theorem encU_fields (imm : BitVec 20) (rd : Reg) (op : BitVec 7) :
    fOpcode (encU imm rd op) = op ∧
    fRd (encU imm rd op) = rd ∧
    immU (encU imm rd op) = imm := by
  refine ⟨?_, ?_, ?_⟩ <;>
    (apply BitVec.eq_of_getLsbD_eq; intro i hi
     simp only [fOpcode, fRd, immU, encU, BitVec.getLsbD_extractLsb', BitVec.getLsbD_append]
     interval_cases i <;> simp)

theorem encJ_fields (imm : BitVec 21) (rd : Reg) (op : BitVec 7) (h : multipleOf imm 2 = true) :
    fOpcode (encJ imm rd op) = op ∧
    fRd (encJ imm rd op) = rd ∧
    immJ (encJ imm rd op) = imm := by
  have h0 : imm[0] = false := by simpa using even_bit imm 1 0 h (by decide)
  refine ⟨?_, ?_, ?_⟩ <;>
    (apply BitVec.eq_of_getLsbD_eq; intro i hi
     simp only [fOpcode, fRd, immJ, encJ, BitVec.getLsbD_extractLsb', BitVec.getLsbD_append]
     interval_cases i <;> simp [*])

theorem encHigh_fields (high : BitVec 25) (op : BitVec 7) :
    fOpcode (encHigh high op) = op ∧
    fHigh (encHigh high op) = high := by
  refine ⟨?_, ?_⟩ <;>
    (apply BitVec.eq_of_getLsbD_eq; intro i hi
     simp only [fOpcode, fHigh, encHigh, BitVec.getLsbD_extractLsb', BitVec.getLsbD_append]
     interval_cases i <;> simp)

theorem encAmo_fields (f5 : BitVec 5) (aq rl : Bool) (rs2 rs1 : Reg) (f3 : BitVec 3) (rd : Reg) :
    fOpcode (encAmo f5 aq rl rs2 rs1 f3 rd) = 0b0101111#7 ∧
    fRd (encAmo f5 aq rl rs2 rs1 f3 rd) = rd ∧
    fFunct3 (encAmo f5 aq rl rs2 rs1 f3 rd) = f3 ∧
    fRs1 (encAmo f5 aq rl rs2 rs1 f3 rd) = rs1 ∧
    fRs2 (encAmo f5 aq rl rs2 rs1 f3 rd) = rs2 ∧
    fFunct5 (encAmo f5 aq rl rs2 rs1 f3 rd) = f5 ∧
    fAq (encAmo f5 aq rl rs2 rs1 f3 rd) = aq ∧
    fRl (encAmo f5 aq rl rs2 rs1 f3 rd) = rl := by
  have one (b : Bool) (v : BitVec 1) (h : v = BitVec.ofBool b) : (v == 1#1) = b := by subst h; cases b <;> rfl
  refine ⟨?_, ?_, ?_, ?_, ?_, ?_, one _ _ ?_, one _ _ ?_⟩ <;>
    (apply BitVec.eq_of_getLsbD_eq; intro i hi
     simp only [fOpcode, fRd, fFunct3, fRs1, fRs2, fFunct5, encAmo, BitVec.getLsbD_extractLsb', BitVec.getLsbD_append]
     interval_cases i <;> simp)

theorem encFence_fields (fm pred succ : BitVec 4) (rs1 rd : Reg) :
    fOpcode (encFence fm pred succ rs1 rd) = 0b0001111#7 ∧
    fRd (encFence fm pred succ rs1 rd) = rd ∧
    fFunct3 (encFence fm pred succ rs1 rd) = 0b000#3 ∧
    fRs1 (encFence fm pred succ rs1 rd) = rs1 ∧
    (encFence fm pred succ rs1 rd).extractLsb' 28 4 = fm ∧
    (encFence fm pred succ rs1 rd).extractLsb' 24 4 = pred ∧
    (encFence fm pred succ rs1 rd).extractLsb' 20 4 = succ := by
  refine ⟨?_, ?_, ?_, ?_, ?_, ?_, ?_⟩ <;>
    (apply BitVec.eq_of_getLsbD_eq; intro i hi
     simp only [fOpcode, fRd, fFunct3, fRs1, encFence, BitVec.getLsbD_extractLsb', BitVec.getLsbD_append]
     interval_cases i <;> simp)

/-! ### Compressed formats -/

theorem encMid_fields (f3 : BitVec 3) (mid : BitVec 11) (q : BitVec 2) :
    cQuad (encMid f3 mid q) = q ∧
    cFunct3 (encMid f3 mid q) = f3 ∧
    cMid (encMid f3 mid q) = mid := by
  refine ⟨?_, ?_, ?_⟩ <;>
    (apply BitVec.eq_of_getLsbD_eq; intro i hi
     simp only [cFunct3, cQuad, cMid, encMid, BitVec.getLsbD_extractLsb', BitVec.getLsbD_append]
     interval_cases i <;> simp)

theorem encCI_fields (f3 : BitVec 3) (rd : Reg) (imm : BitVec 6) (q : BitVec 2) :
    cQuad (encCI f3 rd imm q) = q ∧
    cFunct3 (encCI f3 rd imm q) = f3 ∧
    cRd (encCI f3 rd imm q) = rd ∧
    cImm6 (encCI f3 rd imm q) = imm := by
  refine ⟨?_, ?_, ?_, ?_⟩ <;>
    (apply BitVec.eq_of_getLsbD_eq; intro i hi
     simp only [cFunct3, cQuad, cRd, cImm6, encCI, BitVec.getLsbD_extractLsb', BitVec.getLsbD_append]
     interval_cases i <;> simp)

theorem encCR_fields (f4 : BitVec 4) (rd rs2 : Reg) :
    cQuad (encCR f4 rd rs2) = 0b10#2 ∧
    cFunct3 (encCR f4 rd rs2) = f4.extractLsb' 1 3 ∧
    cRd (encCR f4 rd rs2) = rd ∧
    cRs2 (encCR f4 rd rs2) = rs2 ∧
    (encCR f4 rd rs2).extractLsb' 12 1 = f4.extractLsb' 0 1 := by
  refine ⟨?_, ?_, ?_, ?_, ?_⟩ <;>
    (apply BitVec.eq_of_getLsbD_eq; intro i hi
     simp only [cFunct3, cQuad, cRd, cRs2, encCR, BitVec.getLsbD_extractLsb', BitVec.getLsbD_append]
     interval_cases i <;> simp)

theorem encCBImm_fields (sel : BitVec 2) (rd : Reg3) (imm : BitVec 6) :
    cQuad (encCBImm sel rd imm) = 0b01#2 ∧
    cFunct3 (encCBImm sel rd imm) = 0b100#3 ∧
    cHiReg (encCBImm sel rd imm) = rd ∧
    cImm6 (encCBImm sel rd imm) = imm ∧
    (encCBImm sel rd imm).extractLsb' 10 2 = sel := by
  refine ⟨?_, ?_, ?_, ?_, ?_⟩ <;>
    (apply BitVec.eq_of_getLsbD_eq; intro i hi
     simp only [cFunct3, cQuad, cHiReg, cImm6, encCBImm, BitVec.getLsbD_extractLsb', BitVec.getLsbD_append]
     interval_cases i <;> simp)

theorem encCA_fields (f6 : BitVec 6) (rd : Reg3) (f2 : BitVec 2) (rs2 : Reg3) :
    cQuad (encCA f6 rd f2 rs2) = 0b01#2 ∧
    cFunct3 (encCA f6 rd f2 rs2) = f6.extractLsb' 3 3 ∧
    cHiReg (encCA f6 rd f2 rs2) = rd ∧
    cLoReg (encCA f6 rd f2 rs2) = rs2 ∧
    (encCA f6 rd f2 rs2).extractLsb' 10 2 = f6.extractLsb' 0 2 ∧
    (encCA f6 rd f2 rs2).extractLsb' 12 1 = f6.extractLsb' 2 1 ∧
    (encCA f6 rd f2 rs2).extractLsb' 5 2 = f2 := by
  refine ⟨?_, ?_, ?_, ?_, ?_, ?_, ?_⟩ <;>
    (apply BitVec.eq_of_getLsbD_eq; intro i hi
     simp only [cFunct3, cQuad, cHiReg, cLoReg, encCA, BitVec.getLsbD_extractLsb', BitVec.getLsbD_append]
     interval_cases i <;> simp)

theorem encSpn_fields (imm : BitVec 10) (rd : Reg3) (h : multipleOf imm 4 = true) :
    cQuad (encSpn imm rd) = 0b00#2 ∧
    cFunct3 (encSpn imm rd) = 0b000#3 ∧
    cLoReg (encSpn imm rd) = rd ∧
    cImmSpn (encSpn imm rd) = imm := by
  have h0 : imm[0] = false := by simpa using even_bit imm 2 0 h (by decide)
  have h1 : imm[1] = false := by simpa using even_bit imm 2 1 h (by decide)
  refine ⟨?_, ?_, ?_, ?_⟩ <;>
    (apply BitVec.eq_of_getLsbD_eq; intro i hi
     simp only [cFunct3, cQuad, cLoReg, cImmSpn, encSpn, BitVec.getLsbD_extractLsb', BitVec.getLsbD_append]
     interval_cases i <;> simp [*])

theorem encLSW_fields (f3 : BitVec 3) (imm : BitVec 7) (hi lo : Reg3) (h : multipleOf imm 4 = true) :
    cQuad (encLSW f3 imm hi lo) = 0b00#2 ∧
    cFunct3 (encLSW f3 imm hi lo) = f3 ∧
    cHiReg (encLSW f3 imm hi lo) = hi ∧
    cLoReg (encLSW f3 imm hi lo) = lo ∧
    cImmW (encLSW f3 imm hi lo) = imm := by
  have h0 : imm[0] = false := by simpa using even_bit imm 2 0 h (by decide)
  have h1 : imm[1] = false := by simpa using even_bit imm 2 1 h (by decide)
  refine ⟨?_, ?_, ?_, ?_, ?_⟩ <;>
    (apply BitVec.eq_of_getLsbD_eq; intro i hi
     simp only [cFunct3, cQuad, cHiReg, cLoReg, cImmW, encLSW, BitVec.getLsbD_extractLsb', BitVec.getLsbD_append]
     interval_cases i <;> simp [*])

theorem encLSD_fields (f3 : BitVec 3) (imm : BitVec 8) (hi lo : Reg3) (h : multipleOf imm 8 = true) :
    cQuad (encLSD f3 imm hi lo) = 0b00#2 ∧
    cFunct3 (encLSD f3 imm hi lo) = f3 ∧
    cHiReg (encLSD f3 imm hi lo) = hi ∧
    cLoReg (encLSD f3 imm hi lo) = lo ∧
    cImmD (encLSD f3 imm hi lo) = imm := by
  have h0 : imm[0] = false := by simpa using even_bit imm 3 0 h (by decide)
  have h1 : imm[1] = false := by simpa using even_bit imm 3 1 h (by decide)
  have h2 : imm[2] = false := by simpa using even_bit imm 3 2 h (by decide)
  refine ⟨?_, ?_, ?_, ?_, ?_⟩ <;>
    (apply BitVec.eq_of_getLsbD_eq; intro i hi
     simp only [cFunct3, cQuad, cHiReg, cLoReg, cImmD, encLSD, BitVec.getLsbD_extractLsb', BitVec.getLsbD_append]
     interval_cases i <;> simp [*])

theorem encCJ_fields (f3 : BitVec 3) (o : BitVec 12) (h : multipleOf o 2 = true) :
    cQuad (encCJ f3 o) = 0b01#2 ∧
    cFunct3 (encCJ f3 o) = f3 ∧
    cImmJ (encCJ f3 o) = o := by
  have h0 : o[0] = false := by simpa using even_bit o 1 0 h (by decide)
  refine ⟨?_, ?_, ?_⟩ <;>
    (apply BitVec.eq_of_getLsbD_eq; intro i hi
     simp only [cFunct3, cQuad, cImmJ, encCJ, BitVec.getLsbD_extractLsb', BitVec.getLsbD_append]
     interval_cases i <;> simp [*])

theorem enc16sp_fields (imm : BitVec 10) (h : multipleOf imm 16 = true) :
    cQuad (enc16sp imm) = 0b01#2 ∧
    cFunct3 (enc16sp imm) = 0b011#3 ∧
    cRd (enc16sp imm) = 2#5 ∧
    cImm16sp (enc16sp imm) = imm := by
  have h0 : imm[0] = false := by simpa using even_bit imm 4 0 h (by decide)
  have h1 : imm[1] = false := by simpa using even_bit imm 4 1 h (by decide)
  have h2 : imm[2] = false := by simpa using even_bit imm 4 2 h (by decide)
  have h3 : imm[3] = false := by simpa using even_bit imm 4 3 h (by decide)
  refine ⟨?_, ?_, ?_, ?_⟩ <;>
    (apply BitVec.eq_of_getLsbD_eq; intro i hi
     simp only [cFunct3, cQuad, cRd, cImm16sp, enc16sp, BitVec.getLsbD_extractLsb', BitVec.getLsbD_append]
     interval_cases i <;> simp [*])

theorem encCB_fields (f3 : BitVec 3) (rs1 : Reg3) (o : BitVec 9) (h : multipleOf o 2 = true) :
    cQuad (encCB f3 rs1 o) = 0b01#2 ∧
    cFunct3 (encCB f3 rs1 o) = f3 ∧
    cHiReg (encCB f3 rs1 o) = rs1 ∧
    cImmB (encCB f3 rs1 o) = o := by
  have h0 : o[0] = false := by simpa using even_bit o 1 0 h (by decide)
  refine ⟨?_, ?_, ?_, ?_⟩ <;>
    (apply BitVec.eq_of_getLsbD_eq; intro i hi
     simp only [cFunct3, cQuad, cHiReg, cImmB, encCB, BitVec.getLsbD_extractLsb', BitVec.getLsbD_append]
     interval_cases i <;> simp [*])

theorem encLwsp_fields (rd : Reg) (imm : BitVec 8) (h : multipleOf imm 4 = true) :
    cQuad (encLwsp rd imm) = 0b10#2 ∧
    cFunct3 (encLwsp rd imm) = 0b010#3 ∧
    cRd (encLwsp rd imm) = rd ∧
    cImmLwsp (encLwsp rd imm) = imm := by
  have h0 : imm[0] = false := by simpa using even_bit imm 2 0 h (by decide)
  have h1 : imm[1] = false := by simpa using even_bit imm 2 1 h (by decide)
  refine ⟨?_, ?_, ?_, ?_⟩ <;>
    (apply BitVec.eq_of_getLsbD_eq; intro i hi
     simp only [cFunct3, cQuad, cRd, cImmLwsp, encLwsp, BitVec.getLsbD_extractLsb', BitVec.getLsbD_append]
     interval_cases i <;> simp [*])

theorem encLdsp_fields (rd : Reg) (imm : BitVec 9) (h : multipleOf imm 8 = true) :
    cQuad (encLdsp rd imm) = 0b10#2 ∧
    cFunct3 (encLdsp rd imm) = 0b011#3 ∧
    cRd (encLdsp rd imm) = rd ∧
    cImmLdsp (encLdsp rd imm) = imm := by
  have h0 : imm[0] = false := by simpa using even_bit imm 3 0 h (by decide)
  have h1 : imm[1] = false := by simpa using even_bit imm 3 1 h (by decide)
  have h2 : imm[2] = false := by simpa using even_bit imm 3 2 h (by decide)
  refine ⟨?_, ?_, ?_, ?_⟩ <;>
    (apply BitVec.eq_of_getLsbD_eq; intro i hi
     simp only [cFunct3, cQuad, cRd, cImmLdsp, encLdsp, BitVec.getLsbD_extractLsb', BitVec.getLsbD_append]
     interval_cases i <;> simp [*])

theorem encSwsp_fields (rs2 : Reg) (imm : BitVec 8) (h : multipleOf imm 4 = true) :
    cQuad (encSwsp rs2 imm) = 0b10#2 ∧
    cFunct3 (encSwsp rs2 imm) = 0b110#3 ∧
    cRs2 (encSwsp rs2 imm) = rs2 ∧
    cImmSwsp (encSwsp rs2 imm) = imm := by
  have h0 : imm[0] = false := by simpa using even_bit imm 2 0 h (by decide)
  have h1 : imm[1] = false := by simpa using even_bit imm 2 1 h (by decide)
  refine ⟨?_, ?_, ?_, ?_⟩ <;>
    (apply BitVec.eq_of_getLsbD_eq; intro i hi
     simp only [cFunct3, cQuad, cRs2, cImmSwsp, encSwsp, BitVec.getLsbD_extractLsb', BitVec.getLsbD_append]
     interval_cases i <;> simp [*])

theorem encSdsp_fields (rs2 : Reg) (imm : BitVec 9) (h : multipleOf imm 8 = true) :
    cQuad (encSdsp rs2 imm) = 0b10#2 ∧
    cFunct3 (encSdsp rs2 imm) = 0b111#3 ∧
    cRs2 (encSdsp rs2 imm) = rs2 ∧
    cImmSdsp (encSdsp rs2 imm) = imm := by
  have h0 : imm[0] = false := by simpa using even_bit imm 3 0 h (by decide)
  have h1 : imm[1] = false := by simpa using even_bit imm 3 1 h (by decide)
  have h2 : imm[2] = false := by simpa using even_bit imm 3 2 h (by decide)
  refine ⟨?_, ?_, ?_, ?_⟩ <;>
    (apply BitVec.eq_of_getLsbD_eq; intro i hi
     simp only [cFunct3, cQuad, cRs2, cImmSdsp, encSdsp, BitVec.getLsbD_extractLsb', BitVec.getLsbD_append]
     interval_cases i <;> simp [*])

end Sys2Proof.Laws
end

