-- ==== Sys2Proof/Laws/PerInstr.lean ====
section
/-! SUPPORT. The per-instruction family RoundTrip: the decoder reads a well-formed instruction back from its encoding, one lemma per
constructor. -/

namespace Sys2Proof.Laws

/-- The length of a 32-bit encoding from its opcode (R110). -/
theorem lengthOf_word (p : Params) (w : BitVec 32) (op : BitVec 7) (h : fOpcode w = op)
    (h0 : op.extractLsb' 0 2 = 0b11#2) (h1 : op.extractLsb' 2 3 ≠ 0b111#3) :
    lengthOf p (w.extractLsb' 0 16) = some 4 := by
  subst h
  have e0 : (w.extractLsb' 0 16).extractLsb' 0 2 = (fOpcode w).extractLsb' 0 2 := by
    apply BitVec.eq_of_getLsbD_eq; intro i hi
    simp only [fOpcode, BitVec.getLsbD_extractLsb']
    interval_cases i <;> simp
  have e1 : (w.extractLsb' 0 16).extractLsb' 2 3 = (fOpcode w).extractLsb' 2 3 := by
    apply BitVec.eq_of_getLsbD_eq; intro i hi
    simp only [fOpcode, BitVec.getLsbD_extractLsb']
    interval_cases i <;> simp
  simp [lengthOf, e0, e1, h0, h1]

/-- The length of a 16-bit encoding from its quadrant (R110). -/
theorem lengthOf_half (p : Params) (c : BitVec 16) (h : cQuad c ≠ 0b11#2) (hc : p.extC = true) :
    lengthOf p c = some 2 := by
  simp only [cQuad] at h
  simp [lengthOf, h, hc]

namespace RoundTrip

/-- The decoder gives `i` back from its encoding, and the length decoder its length. -/
def Statement (i : Instr) : Prop :=
  ∀ p : Params, i.wf p = true →
    match encode i with
    | .half c => lengthOf p c = some 2 ∧ decode16 p c = some i
    | .word w => lengthOf p (w.extractLsb' 0 16) = some 4 ∧ decode32 p w = some i

theorem lui (rd : Reg) (imm : BitVec 20) : Statement (.lui rd imm) := by
  intro p _
  exact ⟨lengthOf_word p _ _ (encU_fields ..).1 (by decide) (by decide), by simp [decode32, encU_fields]⟩

theorem auipc (rd : Reg) (imm : BitVec 20) : Statement (.auipc rd imm) := by
  intro p _
  exact ⟨lengthOf_word p _ _ (encU_fields ..).1 (by decide) (by decide), by simp [decode32, encU_fields]⟩

theorem addi (rd rs1 : Reg) (imm : BitVec 12) : Statement (.addi rd rs1 imm) := by
  intro p _
  exact ⟨lengthOf_word p _ _ (encI_fields ..).1 (by decide) (by decide), by simp [decode32, decodeOpImm, encI_fields]⟩

theorem slti (rd rs1 : Reg) (imm : BitVec 12) : Statement (.slti rd rs1 imm) := by
  intro p _
  exact ⟨lengthOf_word p _ _ (encI_fields ..).1 (by decide) (by decide), by simp [decode32, decodeOpImm, encI_fields]⟩

theorem sltiu (rd rs1 : Reg) (imm : BitVec 12) : Statement (.sltiu rd rs1 imm) := by
  intro p _
  exact ⟨lengthOf_word p _ _ (encI_fields ..).1 (by decide) (by decide), by simp [decode32, decodeOpImm, encI_fields]⟩

theorem xori (rd rs1 : Reg) (imm : BitVec 12) : Statement (.xori rd rs1 imm) := by
  intro p _
  exact ⟨lengthOf_word p _ _ (encI_fields ..).1 (by decide) (by decide), by simp [decode32, decodeOpImm, encI_fields]⟩

theorem ori (rd rs1 : Reg) (imm : BitVec 12) : Statement (.ori rd rs1 imm) := by
  intro p _
  exact ⟨lengthOf_word p _ _ (encI_fields ..).1 (by decide) (by decide), by simp [decode32, decodeOpImm, encI_fields]⟩

theorem andi (rd rs1 : Reg) (imm : BitVec 12) : Statement (.andi rd rs1 imm) := by
  intro p _
  exact ⟨lengthOf_word p _ _ (encI_fields ..).1 (by decide) (by decide), by simp [decode32, decodeOpImm, encI_fields]⟩

theorem slli (rd rs1 : Reg) (shamt : BitVec 6) : Statement (.slli rd rs1 shamt) := by
  intro p h
  change (Needs.met p .base && (shamtFits p shamt)) = true at h
  simp [Needs.met] at h
  exact ⟨lengthOf_word p _ _ (encShift_fields ..).1 (by decide) (by decide), by simp [decode32, decodeOpImm, encShift_fields, h]⟩

theorem srli (rd rs1 : Reg) (shamt : BitVec 6) : Statement (.srli rd rs1 shamt) := by
  intro p h
  change (Needs.met p .base && (shamtFits p shamt)) = true at h
  simp [Needs.met] at h
  exact ⟨lengthOf_word p _ _ (encShift_fields ..).1 (by decide) (by decide), by simp [decode32, decodeOpImm, encShift_fields, h]⟩

theorem srai (rd rs1 : Reg) (shamt : BitVec 6) : Statement (.srai rd rs1 shamt) := by
  intro p h
  change (Needs.met p .base && (shamtFits p shamt)) = true at h
  simp [Needs.met] at h
  exact ⟨lengthOf_word p _ _ (encShift_fields ..).1 (by decide) (by decide), by simp [decode32, decodeOpImm, encShift_fields, h]⟩

theorem add (rd rs1 rs2 : Reg) : Statement (.add rd rs1 rs2) := by
  intro p _
  exact ⟨lengthOf_word p _ _ (encR_fields ..).1 (by decide) (by decide), by simp [decode32, decodeOp, encR_fields]⟩

theorem sub (rd rs1 rs2 : Reg) : Statement (.sub rd rs1 rs2) := by
  intro p _
  exact ⟨lengthOf_word p _ _ (encR_fields ..).1 (by decide) (by decide), by simp [decode32, decodeOp, encR_fields]⟩

theorem sll (rd rs1 rs2 : Reg) : Statement (.sll rd rs1 rs2) := by
  intro p _
  exact ⟨lengthOf_word p _ _ (encR_fields ..).1 (by decide) (by decide), by simp [decode32, decodeOp, encR_fields]⟩

theorem slt (rd rs1 rs2 : Reg) : Statement (.slt rd rs1 rs2) := by
  intro p _
  exact ⟨lengthOf_word p _ _ (encR_fields ..).1 (by decide) (by decide), by simp [decode32, decodeOp, encR_fields]⟩

theorem sltu (rd rs1 rs2 : Reg) : Statement (.sltu rd rs1 rs2) := by
  intro p _
  exact ⟨lengthOf_word p _ _ (encR_fields ..).1 (by decide) (by decide), by simp [decode32, decodeOp, encR_fields]⟩

theorem xor (rd rs1 rs2 : Reg) : Statement (.xor rd rs1 rs2) := by
  intro p _
  exact ⟨lengthOf_word p _ _ (encR_fields ..).1 (by decide) (by decide), by simp [decode32, decodeOp, encR_fields]⟩

theorem srl (rd rs1 rs2 : Reg) : Statement (.srl rd rs1 rs2) := by
  intro p _
  exact ⟨lengthOf_word p _ _ (encR_fields ..).1 (by decide) (by decide), by simp [decode32, decodeOp, encR_fields]⟩

theorem sra (rd rs1 rs2 : Reg) : Statement (.sra rd rs1 rs2) := by
  intro p _
  exact ⟨lengthOf_word p _ _ (encR_fields ..).1 (by decide) (by decide), by simp [decode32, decodeOp, encR_fields]⟩

theorem or (rd rs1 rs2 : Reg) : Statement (.or rd rs1 rs2) := by
  intro p _
  exact ⟨lengthOf_word p _ _ (encR_fields ..).1 (by decide) (by decide), by simp [decode32, decodeOp, encR_fields]⟩

theorem and (rd rs1 rs2 : Reg) : Statement (.and rd rs1 rs2) := by
  intro p _
  exact ⟨lengthOf_word p _ _ (encR_fields ..).1 (by decide) (by decide), by simp [decode32, decodeOp, encR_fields]⟩

theorem addiw (rd rs1 : Reg) (imm : BitVec 12) : Statement (.addiw rd rs1 imm) := by
  intro p h
  change (Needs.met p .rv64 && (true)) = true at h
  simp [Needs.met] at h
  exact ⟨lengthOf_word p _ _ (encI_fields ..).1 (by decide) (by decide), by simp [decode32, decodeOpImm32, encI_fields, h]⟩

theorem slliw (rd rs1 : Reg) (shamt : BitVec 5) : Statement (.slliw rd rs1 shamt) := by
  intro p h
  change (Needs.met p .rv64 && (true)) = true at h
  simp [Needs.met] at h
  exact ⟨lengthOf_word p _ _ (encR_fields ..).1 (by decide) (by decide), by simp [decode32, decodeOpImm32, encR_fields, h]⟩

theorem srliw (rd rs1 : Reg) (shamt : BitVec 5) : Statement (.srliw rd rs1 shamt) := by
  intro p h
  change (Needs.met p .rv64 && (true)) = true at h
  simp [Needs.met] at h
  exact ⟨lengthOf_word p _ _ (encR_fields ..).1 (by decide) (by decide), by simp [decode32, decodeOpImm32, encR_fields, h]⟩

theorem sraiw (rd rs1 : Reg) (shamt : BitVec 5) : Statement (.sraiw rd rs1 shamt) := by
  intro p h
  change (Needs.met p .rv64 && (true)) = true at h
  simp [Needs.met] at h
  exact ⟨lengthOf_word p _ _ (encR_fields ..).1 (by decide) (by decide), by simp [decode32, decodeOpImm32, encR_fields, h]⟩

theorem addw (rd rs1 rs2 : Reg) : Statement (.addw rd rs1 rs2) := by
  intro p h
  change (Needs.met p .rv64 && (true)) = true at h
  simp [Needs.met] at h
  exact ⟨lengthOf_word p _ _ (encR_fields ..).1 (by decide) (by decide), by simp [decode32, decodeOp32, encR_fields, h]⟩

theorem subw (rd rs1 rs2 : Reg) : Statement (.subw rd rs1 rs2) := by
  intro p h
  change (Needs.met p .rv64 && (true)) = true at h
  simp [Needs.met] at h
  exact ⟨lengthOf_word p _ _ (encR_fields ..).1 (by decide) (by decide), by simp [decode32, decodeOp32, encR_fields, h]⟩

theorem sllw (rd rs1 rs2 : Reg) : Statement (.sllw rd rs1 rs2) := by
  intro p h
  change (Needs.met p .rv64 && (true)) = true at h
  simp [Needs.met] at h
  exact ⟨lengthOf_word p _ _ (encR_fields ..).1 (by decide) (by decide), by simp [decode32, decodeOp32, encR_fields, h]⟩

theorem srlw (rd rs1 rs2 : Reg) : Statement (.srlw rd rs1 rs2) := by
  intro p h
  change (Needs.met p .rv64 && (true)) = true at h
  simp [Needs.met] at h
  exact ⟨lengthOf_word p _ _ (encR_fields ..).1 (by decide) (by decide), by simp [decode32, decodeOp32, encR_fields, h]⟩

theorem sraw (rd rs1 rs2 : Reg) : Statement (.sraw rd rs1 rs2) := by
  intro p h
  change (Needs.met p .rv64 && (true)) = true at h
  simp [Needs.met] at h
  exact ⟨lengthOf_word p _ _ (encR_fields ..).1 (by decide) (by decide), by simp [decode32, decodeOp32, encR_fields, h]⟩

theorem jal (rd : Reg) (offset : BitVec 21) : Statement (.jal rd offset) := by
  intro p h
  change (Needs.met p .base && (multipleOf offset 2)) = true at h
  simp [Needs.met] at h
  exact ⟨lengthOf_word p _ _ (encJ_fields _ _ _ h).1 (by decide) (by decide), by simp [decode32, encJ_fields, h]⟩

theorem jalr (rd rs1 : Reg) (imm : BitVec 12) : Statement (.jalr rd rs1 imm) := by
  intro p _
  exact ⟨lengthOf_word p _ _ (encI_fields ..).1 (by decide) (by decide), by simp [decode32, encI_fields]⟩

theorem beq (rs1 rs2 : Reg) (offset : BitVec 13) : Statement (.beq rs1 rs2 offset) := by
  intro p h
  change (Needs.met p .base && (multipleOf offset 2)) = true at h
  simp [Needs.met] at h
  exact ⟨lengthOf_word p _ _ (encB_fields _ _ _ _ _ h).1 (by decide) (by decide), by simp [decode32, decodeBranch, encB_fields, h]⟩

theorem bne (rs1 rs2 : Reg) (offset : BitVec 13) : Statement (.bne rs1 rs2 offset) := by
  intro p h
  change (Needs.met p .base && (multipleOf offset 2)) = true at h
  simp [Needs.met] at h
  exact ⟨lengthOf_word p _ _ (encB_fields _ _ _ _ _ h).1 (by decide) (by decide), by simp [decode32, decodeBranch, encB_fields, h]⟩

theorem blt (rs1 rs2 : Reg) (offset : BitVec 13) : Statement (.blt rs1 rs2 offset) := by
  intro p h
  change (Needs.met p .base && (multipleOf offset 2)) = true at h
  simp [Needs.met] at h
  exact ⟨lengthOf_word p _ _ (encB_fields _ _ _ _ _ h).1 (by decide) (by decide), by simp [decode32, decodeBranch, encB_fields, h]⟩

theorem bge (rs1 rs2 : Reg) (offset : BitVec 13) : Statement (.bge rs1 rs2 offset) := by
  intro p h
  change (Needs.met p .base && (multipleOf offset 2)) = true at h
  simp [Needs.met] at h
  exact ⟨lengthOf_word p _ _ (encB_fields _ _ _ _ _ h).1 (by decide) (by decide), by simp [decode32, decodeBranch, encB_fields, h]⟩

theorem bltu (rs1 rs2 : Reg) (offset : BitVec 13) : Statement (.bltu rs1 rs2 offset) := by
  intro p h
  change (Needs.met p .base && (multipleOf offset 2)) = true at h
  simp [Needs.met] at h
  exact ⟨lengthOf_word p _ _ (encB_fields _ _ _ _ _ h).1 (by decide) (by decide), by simp [decode32, decodeBranch, encB_fields, h]⟩

theorem bgeu (rs1 rs2 : Reg) (offset : BitVec 13) : Statement (.bgeu rs1 rs2 offset) := by
  intro p h
  change (Needs.met p .base && (multipleOf offset 2)) = true at h
  simp [Needs.met] at h
  exact ⟨lengthOf_word p _ _ (encB_fields _ _ _ _ _ h).1 (by decide) (by decide), by simp [decode32, decodeBranch, encB_fields, h]⟩

theorem lb (rd rs1 : Reg) (imm : BitVec 12) : Statement (.lb rd rs1 imm) := by
  intro p _
  exact ⟨lengthOf_word p _ _ (encI_fields ..).1 (by decide) (by decide), by simp [decode32, decodeLoad, encI_fields]⟩

theorem lh (rd rs1 : Reg) (imm : BitVec 12) : Statement (.lh rd rs1 imm) := by
  intro p _
  exact ⟨lengthOf_word p _ _ (encI_fields ..).1 (by decide) (by decide), by simp [decode32, decodeLoad, encI_fields]⟩

theorem lw (rd rs1 : Reg) (imm : BitVec 12) : Statement (.lw rd rs1 imm) := by
  intro p _
  exact ⟨lengthOf_word p _ _ (encI_fields ..).1 (by decide) (by decide), by simp [decode32, decodeLoad, encI_fields]⟩

theorem ld (rd rs1 : Reg) (imm : BitVec 12) : Statement (.ld rd rs1 imm) := by
  intro p h
  change (Needs.met p .rv64 && (true)) = true at h
  simp [Needs.met] at h
  exact ⟨lengthOf_word p _ _ (encI_fields ..).1 (by decide) (by decide), by simp [decode32, decodeLoad, encI_fields, h]⟩

theorem lbu (rd rs1 : Reg) (imm : BitVec 12) : Statement (.lbu rd rs1 imm) := by
  intro p _
  exact ⟨lengthOf_word p _ _ (encI_fields ..).1 (by decide) (by decide), by simp [decode32, decodeLoad, encI_fields]⟩

theorem lhu (rd rs1 : Reg) (imm : BitVec 12) : Statement (.lhu rd rs1 imm) := by
  intro p _
  exact ⟨lengthOf_word p _ _ (encI_fields ..).1 (by decide) (by decide), by simp [decode32, decodeLoad, encI_fields]⟩

theorem lwu (rd rs1 : Reg) (imm : BitVec 12) : Statement (.lwu rd rs1 imm) := by
  intro p h
  change (Needs.met p .rv64 && (true)) = true at h
  simp [Needs.met] at h
  exact ⟨lengthOf_word p _ _ (encI_fields ..).1 (by decide) (by decide), by simp [decode32, decodeLoad, encI_fields, h]⟩

theorem sb (rs1 rs2 : Reg) (imm : BitVec 12) : Statement (.sb rs1 rs2 imm) := by
  intro p _
  exact ⟨lengthOf_word p _ _ (encS_fields ..).1 (by decide) (by decide), by simp [decode32, decodeStore, encS_fields]⟩

theorem sh (rs1 rs2 : Reg) (imm : BitVec 12) : Statement (.sh rs1 rs2 imm) := by
  intro p _
  exact ⟨lengthOf_word p _ _ (encS_fields ..).1 (by decide) (by decide), by simp [decode32, decodeStore, encS_fields]⟩

theorem sw (rs1 rs2 : Reg) (imm : BitVec 12) : Statement (.sw rs1 rs2 imm) := by
  intro p _
  exact ⟨lengthOf_word p _ _ (encS_fields ..).1 (by decide) (by decide), by simp [decode32, decodeStore, encS_fields]⟩

theorem sd (rs1 rs2 : Reg) (imm : BitVec 12) : Statement (.sd rs1 rs2 imm) := by
  intro p h
  change (Needs.met p .rv64 && (true)) = true at h
  simp [Needs.met] at h
  exact ⟨lengthOf_word p _ _ (encS_fields ..).1 (by decide) (by decide), by simp [decode32, decodeStore, encS_fields, h]⟩

theorem lrW (rd rs1 : Reg) (aq rl : Bool) : Statement (.lrW rd rs1 aq rl) := by
  intro p h
  change (Needs.met p .atomic && (true)) = true at h
  simp [Needs.met] at h
  exact ⟨lengthOf_word p _ _ (encAmo_fields ..).1 (by decide) (by decide), by simp [decode32, decodeAmo, decodeAmoW, encAmo_fields, h]⟩

theorem scW (rd rs1 rs2 : Reg) (aq rl : Bool) : Statement (.scW rd rs1 rs2 aq rl) := by
  intro p h
  change (Needs.met p .atomic && (true)) = true at h
  simp [Needs.met] at h
  exact ⟨lengthOf_word p _ _ (encAmo_fields ..).1 (by decide) (by decide), by simp [decode32, decodeAmo, decodeAmoW, encAmo_fields, h]⟩

theorem amoswapW (rd rs1 rs2 : Reg) (aq rl : Bool) : Statement (.amoswapW rd rs1 rs2 aq rl) := by
  intro p h
  change (Needs.met p .atomic && (true)) = true at h
  simp [Needs.met] at h
  exact ⟨lengthOf_word p _ _ (encAmo_fields ..).1 (by decide) (by decide), by simp [decode32, decodeAmo, decodeAmoW, encAmo_fields, h]⟩

theorem amoaddW (rd rs1 rs2 : Reg) (aq rl : Bool) : Statement (.amoaddW rd rs1 rs2 aq rl) := by
  intro p h
  change (Needs.met p .atomic && (true)) = true at h
  simp [Needs.met] at h
  exact ⟨lengthOf_word p _ _ (encAmo_fields ..).1 (by decide) (by decide), by simp [decode32, decodeAmo, decodeAmoW, encAmo_fields, h]⟩

theorem amoxorW (rd rs1 rs2 : Reg) (aq rl : Bool) : Statement (.amoxorW rd rs1 rs2 aq rl) := by
  intro p h
  change (Needs.met p .atomic && (true)) = true at h
  simp [Needs.met] at h
  exact ⟨lengthOf_word p _ _ (encAmo_fields ..).1 (by decide) (by decide), by simp [decode32, decodeAmo, decodeAmoW, encAmo_fields, h]⟩

theorem amoandW (rd rs1 rs2 : Reg) (aq rl : Bool) : Statement (.amoandW rd rs1 rs2 aq rl) := by
  intro p h
  change (Needs.met p .atomic && (true)) = true at h
  simp [Needs.met] at h
  exact ⟨lengthOf_word p _ _ (encAmo_fields ..).1 (by decide) (by decide), by simp [decode32, decodeAmo, decodeAmoW, encAmo_fields, h]⟩

theorem amoorW (rd rs1 rs2 : Reg) (aq rl : Bool) : Statement (.amoorW rd rs1 rs2 aq rl) := by
  intro p h
  change (Needs.met p .atomic && (true)) = true at h
  simp [Needs.met] at h
  exact ⟨lengthOf_word p _ _ (encAmo_fields ..).1 (by decide) (by decide), by simp [decode32, decodeAmo, decodeAmoW, encAmo_fields, h]⟩

theorem amominW (rd rs1 rs2 : Reg) (aq rl : Bool) : Statement (.amominW rd rs1 rs2 aq rl) := by
  intro p h
  change (Needs.met p .atomic && (true)) = true at h
  simp [Needs.met] at h
  exact ⟨lengthOf_word p _ _ (encAmo_fields ..).1 (by decide) (by decide), by simp [decode32, decodeAmo, decodeAmoW, encAmo_fields, h]⟩

theorem amomaxW (rd rs1 rs2 : Reg) (aq rl : Bool) : Statement (.amomaxW rd rs1 rs2 aq rl) := by
  intro p h
  change (Needs.met p .atomic && (true)) = true at h
  simp [Needs.met] at h
  exact ⟨lengthOf_word p _ _ (encAmo_fields ..).1 (by decide) (by decide), by simp [decode32, decodeAmo, decodeAmoW, encAmo_fields, h]⟩

theorem amominuW (rd rs1 rs2 : Reg) (aq rl : Bool) : Statement (.amominuW rd rs1 rs2 aq rl) := by
  intro p h
  change (Needs.met p .atomic && (true)) = true at h
  simp [Needs.met] at h
  exact ⟨lengthOf_word p _ _ (encAmo_fields ..).1 (by decide) (by decide), by simp [decode32, decodeAmo, decodeAmoW, encAmo_fields, h]⟩

theorem amomaxuW (rd rs1 rs2 : Reg) (aq rl : Bool) : Statement (.amomaxuW rd rs1 rs2 aq rl) := by
  intro p h
  change (Needs.met p .atomic && (true)) = true at h
  simp [Needs.met] at h
  exact ⟨lengthOf_word p _ _ (encAmo_fields ..).1 (by decide) (by decide), by simp [decode32, decodeAmo, decodeAmoW, encAmo_fields, h]⟩

theorem lrD (rd rs1 : Reg) (aq rl : Bool) : Statement (.lrD rd rs1 aq rl) := by
  intro p h
  change (Needs.met p .atomic64 && (true)) = true at h
  simp [Needs.met] at h
  exact ⟨lengthOf_word p _ _ (encAmo_fields ..).1 (by decide) (by decide), by simp [decode32, decodeAmo, decodeAmoD, encAmo_fields, h]⟩

theorem scD (rd rs1 rs2 : Reg) (aq rl : Bool) : Statement (.scD rd rs1 rs2 aq rl) := by
  intro p h
  change (Needs.met p .atomic64 && (true)) = true at h
  simp [Needs.met] at h
  exact ⟨lengthOf_word p _ _ (encAmo_fields ..).1 (by decide) (by decide), by simp [decode32, decodeAmo, decodeAmoD, encAmo_fields, h]⟩

theorem amoswapD (rd rs1 rs2 : Reg) (aq rl : Bool) : Statement (.amoswapD rd rs1 rs2 aq rl) := by
  intro p h
  change (Needs.met p .atomic64 && (true)) = true at h
  simp [Needs.met] at h
  exact ⟨lengthOf_word p _ _ (encAmo_fields ..).1 (by decide) (by decide), by simp [decode32, decodeAmo, decodeAmoD, encAmo_fields, h]⟩

theorem amoaddD (rd rs1 rs2 : Reg) (aq rl : Bool) : Statement (.amoaddD rd rs1 rs2 aq rl) := by
  intro p h
  change (Needs.met p .atomic64 && (true)) = true at h
  simp [Needs.met] at h
  exact ⟨lengthOf_word p _ _ (encAmo_fields ..).1 (by decide) (by decide), by simp [decode32, decodeAmo, decodeAmoD, encAmo_fields, h]⟩

theorem amoxorD (rd rs1 rs2 : Reg) (aq rl : Bool) : Statement (.amoxorD rd rs1 rs2 aq rl) := by
  intro p h
  change (Needs.met p .atomic64 && (true)) = true at h
  simp [Needs.met] at h
  exact ⟨lengthOf_word p _ _ (encAmo_fields ..).1 (by decide) (by decide), by simp [decode32, decodeAmo, decodeAmoD, encAmo_fields, h]⟩

theorem amoandD (rd rs1 rs2 : Reg) (aq rl : Bool) : Statement (.amoandD rd rs1 rs2 aq rl) := by
  intro p h
  change (Needs.met p .atomic64 && (true)) = true at h
  simp [Needs.met] at h
  exact ⟨lengthOf_word p _ _ (encAmo_fields ..).1 (by decide) (by decide), by simp [decode32, decodeAmo, decodeAmoD, encAmo_fields, h]⟩

theorem amoorD (rd rs1 rs2 : Reg) (aq rl : Bool) : Statement (.amoorD rd rs1 rs2 aq rl) := by
  intro p h
  change (Needs.met p .atomic64 && (true)) = true at h
  simp [Needs.met] at h
  exact ⟨lengthOf_word p _ _ (encAmo_fields ..).1 (by decide) (by decide), by simp [decode32, decodeAmo, decodeAmoD, encAmo_fields, h]⟩

theorem amominD (rd rs1 rs2 : Reg) (aq rl : Bool) : Statement (.amominD rd rs1 rs2 aq rl) := by
  intro p h
  change (Needs.met p .atomic64 && (true)) = true at h
  simp [Needs.met] at h
  exact ⟨lengthOf_word p _ _ (encAmo_fields ..).1 (by decide) (by decide), by simp [decode32, decodeAmo, decodeAmoD, encAmo_fields, h]⟩

theorem amomaxD (rd rs1 rs2 : Reg) (aq rl : Bool) : Statement (.amomaxD rd rs1 rs2 aq rl) := by
  intro p h
  change (Needs.met p .atomic64 && (true)) = true at h
  simp [Needs.met] at h
  exact ⟨lengthOf_word p _ _ (encAmo_fields ..).1 (by decide) (by decide), by simp [decode32, decodeAmo, decodeAmoD, encAmo_fields, h]⟩

theorem amominuD (rd rs1 rs2 : Reg) (aq rl : Bool) : Statement (.amominuD rd rs1 rs2 aq rl) := by
  intro p h
  change (Needs.met p .atomic64 && (true)) = true at h
  simp [Needs.met] at h
  exact ⟨lengthOf_word p _ _ (encAmo_fields ..).1 (by decide) (by decide), by simp [decode32, decodeAmo, decodeAmoD, encAmo_fields, h]⟩

theorem amomaxuD (rd rs1 rs2 : Reg) (aq rl : Bool) : Statement (.amomaxuD rd rs1 rs2 aq rl) := by
  intro p h
  change (Needs.met p .atomic64 && (true)) = true at h
  simp [Needs.met] at h
  exact ⟨lengthOf_word p _ _ (encAmo_fields ..).1 (by decide) (by decide), by simp [decode32, decodeAmo, decodeAmoD, encAmo_fields, h]⟩

theorem fence (fm pred succ : BitVec 4) (rs1 rd : Reg) : Statement (.fence fm pred succ rs1 rd) := by
  intro p _
  exact ⟨lengthOf_word p _ _ (encFence_fields ..).1 (by decide) (by decide), by simp [decode32, decodeMiscMem, encFence_fields]⟩

theorem ecall : Statement .ecall := by
  intro p _
  exact ⟨lengthOf_word p _ _ rfl (by decide) (by decide), by simp [decode32, decodeSystem, fOpcode]⟩

theorem ebreak : Statement .ebreak := by
  intro p _
  exact ⟨lengthOf_word p _ _ rfl (by decide) (by decide), by simp [decode32, decodeSystem, fOpcode]⟩

theorem fenceI (imm : BitVec 12) (rs1 rd : Reg) : Statement (.fenceI imm rs1 rd) := by
  intro p _
  exact ⟨lengthOf_word p _ _ (encI_fields ..).1 (by decide) (by decide), by simp [decode32, decodeMiscMem, encI_fields]⟩

theorem mulDiv (funct3 : BitVec 3) (rd rs1 rs2 : Reg) : Statement (.mulDiv funct3 rd rs1 rs2) := by
  intro p _
  exact ⟨lengthOf_word p _ _ (encR_fields ..).1 (by decide) (by decide), by simp [decode32, decodeOp, encR_fields]⟩

theorem mulDivW (funct3 : BitVec 3) (rd rs1 rs2 : Reg) : Statement (.mulDivW funct3 rd rs1 rs2) := by
  intro p h
  change (Needs.met p .rv64 && (true)) = true at h
  simp [Needs.met] at h
  exact ⟨lengthOf_word p _ _ (encR_fields ..).1 (by decide) (by decide), by simp [decode32, decodeOp32, encR_fields, h]⟩

theorem csrrw (csr : BitVec 12) (src rd : Reg) : Statement (.csrrw csr src rd) := by
  intro p _
  have ne (k : BitVec 32) (hk : fFunct3 k ≠ 0b001#3) : encI csr src 0b001#3 rd 0b1110011#7 ≠ k := fun e => hk (by simp [← e, encI_fields])
  have n := fun k hk => eq_false (ne k hk)
  exact ⟨lengthOf_word p _ _ (encI_fields ..).1 (by decide) (by decide), by simp [decode32, decodeSystem, encI_fields, n 0x00000073#32 (by decide), n 0x00100073#32 (by decide), n 0x00200073#32 (by decide), n 0x10200073#32 (by decide), n 0x30200073#32 (by decide), n 0x10500073#32 (by decide)]⟩

theorem csrrs (csr : BitVec 12) (src rd : Reg) : Statement (.csrrs csr src rd) := by
  intro p _
  have ne (k : BitVec 32) (hk : fFunct3 k ≠ 0b010#3) : encI csr src 0b010#3 rd 0b1110011#7 ≠ k := fun e => hk (by simp [← e, encI_fields])
  have n := fun k hk => eq_false (ne k hk)
  exact ⟨lengthOf_word p _ _ (encI_fields ..).1 (by decide) (by decide), by simp [decode32, decodeSystem, encI_fields, n 0x00000073#32 (by decide), n 0x00100073#32 (by decide), n 0x00200073#32 (by decide), n 0x10200073#32 (by decide), n 0x30200073#32 (by decide), n 0x10500073#32 (by decide)]⟩

theorem csrrc (csr : BitVec 12) (src rd : Reg) : Statement (.csrrc csr src rd) := by
  intro p _
  have ne (k : BitVec 32) (hk : fFunct3 k ≠ 0b011#3) : encI csr src 0b011#3 rd 0b1110011#7 ≠ k := fun e => hk (by simp [← e, encI_fields])
  have n := fun k hk => eq_false (ne k hk)
  exact ⟨lengthOf_word p _ _ (encI_fields ..).1 (by decide) (by decide), by simp [decode32, decodeSystem, encI_fields, n 0x00000073#32 (by decide), n 0x00100073#32 (by decide), n 0x00200073#32 (by decide), n 0x10200073#32 (by decide), n 0x30200073#32 (by decide), n 0x10500073#32 (by decide)]⟩

theorem csrrwi (csr : BitVec 12) (src rd : Reg) : Statement (.csrrwi csr src rd) := by
  intro p _
  have ne (k : BitVec 32) (hk : fFunct3 k ≠ 0b101#3) : encI csr src 0b101#3 rd 0b1110011#7 ≠ k := fun e => hk (by simp [← e, encI_fields])
  have n := fun k hk => eq_false (ne k hk)
  exact ⟨lengthOf_word p _ _ (encI_fields ..).1 (by decide) (by decide), by simp [decode32, decodeSystem, encI_fields, n 0x00000073#32 (by decide), n 0x00100073#32 (by decide), n 0x00200073#32 (by decide), n 0x10200073#32 (by decide), n 0x30200073#32 (by decide), n 0x10500073#32 (by decide)]⟩

theorem csrrsi (csr : BitVec 12) (src rd : Reg) : Statement (.csrrsi csr src rd) := by
  intro p _
  have ne (k : BitVec 32) (hk : fFunct3 k ≠ 0b110#3) : encI csr src 0b110#3 rd 0b1110011#7 ≠ k := fun e => hk (by simp [← e, encI_fields])
  have n := fun k hk => eq_false (ne k hk)
  exact ⟨lengthOf_word p _ _ (encI_fields ..).1 (by decide) (by decide), by simp [decode32, decodeSystem, encI_fields, n 0x00000073#32 (by decide), n 0x00100073#32 (by decide), n 0x00200073#32 (by decide), n 0x10200073#32 (by decide), n 0x30200073#32 (by decide), n 0x10500073#32 (by decide)]⟩

theorem csrrci (csr : BitVec 12) (src rd : Reg) : Statement (.csrrci csr src rd) := by
  intro p _
  have ne (k : BitVec 32) (hk : fFunct3 k ≠ 0b111#3) : encI csr src 0b111#3 rd 0b1110011#7 ≠ k := fun e => hk (by simp [← e, encI_fields])
  have n := fun k hk => eq_false (ne k hk)
  exact ⟨lengthOf_word p _ _ (encI_fields ..).1 (by decide) (by decide), by simp [decode32, decodeSystem, encI_fields, n 0x00000073#32 (by decide), n 0x00100073#32 (by decide), n 0x00200073#32 (by decide), n 0x10200073#32 (by decide), n 0x30200073#32 (by decide), n 0x10500073#32 (by decide)]⟩

theorem systemFunct3_4 (imm : BitVec 12) (rs1 rd : Reg) : Statement (.systemFunct3_4 imm rs1 rd) := by
  intro p _
  have ne (k : BitVec 32) (hk : fFunct3 k ≠ 0b100#3) : encI imm rs1 0b100#3 rd 0b1110011#7 ≠ k := fun e => hk (by simp [← e, encI_fields])
  have n := fun k hk => eq_false (ne k hk)
  exact ⟨lengthOf_word p _ _ (encI_fields ..).1 (by decide) (by decide), by simp [decode32, decodeSystem, encI_fields, n 0x00000073#32 (by decide), n 0x00100073#32 (by decide), n 0x00200073#32 (by decide), n 0x10200073#32 (by decide), n 0x30200073#32 (by decide), n 0x10500073#32 (by decide)]⟩

theorem uret : Statement .uret := by
  intro p _
  exact ⟨lengthOf_word p _ _ rfl (by decide) (by decide), by simp [decode32, decodeSystem, fOpcode]⟩

theorem sret : Statement .sret := by
  intro p _
  exact ⟨lengthOf_word p _ _ rfl (by decide) (by decide), by simp [decode32, decodeSystem, fOpcode]⟩

theorem mret : Statement .mret := by
  intro p _
  exact ⟨lengthOf_word p _ _ rfl (by decide) (by decide), by simp [decode32, decodeSystem, fOpcode]⟩

theorem wfi : Statement .wfi := by
  intro p _
  exact ⟨lengthOf_word p _ _ rfl (by decide) (by decide), by simp [decode32, decodeSystem, fOpcode]⟩

theorem sfenceVma (rs1 rs2 : Reg) : Statement (.sfenceVma rs1 rs2) := by
  intro p _
  have ne (k : BitVec 32) (hk : fFunct7 k ≠ 0b0001001#7) : encR 0b0001001#7 rs2 rs1 0b000#3 0#5 0b1110011#7 ≠ k := fun e => hk (by simp [← e, encR_fields])
  have n := fun k hk => eq_false (ne k hk)
  exact ⟨lengthOf_word p _ _ (encR_fields ..).1 (by decide) (by decide), by simp [decode32, decodeSystem, encR_fields, n 0x00000073#32 (by decide), n 0x00100073#32 (by decide), n 0x00200073#32 (by decide), n 0x10200073#32 (by decide), n 0x30200073#32 (by decide), n 0x10500073#32 (by decide)]⟩

theorem loadFp (high : BitVec 25) : Statement (.loadFp high) := by
  intro p _
  exact ⟨lengthOf_word p _ _ (encHigh_fields ..).1 (by decide) (by decide), by simp [decode32, encHigh_fields]⟩

theorem storeFp (high : BitVec 25) : Statement (.storeFp high) := by
  intro p _
  exact ⟨lengthOf_word p _ _ (encHigh_fields ..).1 (by decide) (by decide), by simp [decode32, encHigh_fields]⟩

theorem fmadd (high : BitVec 25) : Statement (.fmadd high) := by
  intro p _
  exact ⟨lengthOf_word p _ _ (encHigh_fields ..).1 (by decide) (by decide), by simp [decode32, encHigh_fields]⟩

theorem fmsub (high : BitVec 25) : Statement (.fmsub high) := by
  intro p _
  exact ⟨lengthOf_word p _ _ (encHigh_fields ..).1 (by decide) (by decide), by simp [decode32, encHigh_fields]⟩

theorem fnmsub (high : BitVec 25) : Statement (.fnmsub high) := by
  intro p _
  exact ⟨lengthOf_word p _ _ (encHigh_fields ..).1 (by decide) (by decide), by simp [decode32, encHigh_fields]⟩

theorem fnmadd (high : BitVec 25) : Statement (.fnmadd high) := by
  intro p _
  exact ⟨lengthOf_word p _ _ (encHigh_fields ..).1 (by decide) (by decide), by simp [decode32, encHigh_fields]⟩

theorem opFp (high : BitVec 25) : Statement (.opFp high) := by
  intro p _
  exact ⟨lengthOf_word p _ _ (encHigh_fields ..).1 (by decide) (by decide), by simp [decode32, encHigh_fields]⟩

theorem cAddi4spn (rd : Reg3) (imm : BitVec 10) : Statement (.cAddi4spn rd imm) := by
  intro p h
  change (Needs.met p .compressed && (multipleOf imm 4 && imm != 0)) = true at h
  simp [Needs.met] at h
  have fl := encSpn_fields imm rd (by simp [h])
  have ne : encSpn imm rd ≠ 0#16 := fun e => by
    have e := fl.2.2.2.symm.trans (congrArg cImmSpn e)
    simp [cImmSpn, h] at e
  exact ⟨lengthOf_half p _ (by simp [fl]) (by simp [h]), by simp [decode16, decodeQ0, fl, ne, h]⟩

theorem cLw (rd rs1 : Reg3) (imm : BitVec 7) : Statement (.cLw rd rs1 imm) := by
  intro p h
  change (Needs.met p .compressed && (multipleOf imm 4)) = true at h
  simp [Needs.met] at h
  have fl := encLSW_fields 0b010#3 imm rs1 rd (by simp [h])
  have ne : encLSW 0b010#3 imm rs1 rd ≠ 0#16 := fun e => by
    have e := fl.2.1.symm.trans (congrArg cFunct3 e)
    simp [cFunct3] at e
  exact ⟨lengthOf_half p _ (by simp [fl]) (by simp [h]), by simp [decode16, decodeQ0, fl, ne, h]⟩

theorem cLd (rd rs1 : Reg3) (imm : BitVec 8) : Statement (.cLd rd rs1 imm) := by
  intro p h
  change (Needs.met p .compressed64 && (multipleOf imm 8)) = true at h
  simp [Needs.met] at h
  have fl := encLSD_fields 0b011#3 imm rs1 rd (by simp [h])
  have ne : encLSD 0b011#3 imm rs1 rd ≠ 0#16 := fun e => by
    have e := fl.2.1.symm.trans (congrArg cFunct3 e)
    simp [cFunct3] at e
  exact ⟨lengthOf_half p _ (by simp [fl]) (by simp [h]), by simp [decode16, decodeQ0, fl, ne, h]⟩

theorem cSw (rs1 rs2 : Reg3) (imm : BitVec 7) : Statement (.cSw rs1 rs2 imm) := by
  intro p h
  change (Needs.met p .compressed && (multipleOf imm 4)) = true at h
  simp [Needs.met] at h
  have fl := encLSW_fields 0b110#3 imm rs1 rs2 (by simp [h])
  have ne : encLSW 0b110#3 imm rs1 rs2 ≠ 0#16 := fun e => by
    have e := fl.2.1.symm.trans (congrArg cFunct3 e)
    simp [cFunct3] at e
  exact ⟨lengthOf_half p _ (by simp [fl]) (by simp [h]), by simp [decode16, decodeQ0, fl, ne, h]⟩

theorem cSd (rs1 rs2 : Reg3) (imm : BitVec 8) : Statement (.cSd rs1 rs2 imm) := by
  intro p h
  change (Needs.met p .compressed64 && (multipleOf imm 8)) = true at h
  simp [Needs.met] at h
  have fl := encLSD_fields 0b111#3 imm rs1 rs2 (by simp [h])
  have ne : encLSD 0b111#3 imm rs1 rs2 ≠ 0#16 := fun e => by
    have e := fl.2.1.symm.trans (congrArg cFunct3 e)
    simp [cFunct3] at e
  exact ⟨lengthOf_half p _ (by simp [fl]) (by simp [h]), by simp [decode16, decodeQ0, fl, ne, h]⟩

theorem cNop : Statement .cNop := by
  intro p h
  change (Needs.met p .compressed && (true)) = true at h
  simp [Needs.met] at h
  exact ⟨lengthOf_half p _ (by simp [cQuad]) (by simp [h]), by simp [decode16, decodeQ1, cQuad, h]⟩

theorem cAddi (rd : Reg) (imm : BitVec 6) : Statement (.cAddi rd imm) := by
  intro p h
  change (Needs.met p .compressed && (rd != 0 && imm != 0)) = true at h
  simp [Needs.met] at h
  have fl := encCI_fields 0b000#3 rd imm 0b01#2
  have ne : encCI 0b000#3 rd imm 0b01#2 ≠ 1#16 := fun e => by
    have e := fl.2.2.1.symm.trans (congrArg cRd e)
    simp [cRd, h] at e
  exact ⟨lengthOf_half p _ (by simp [fl]) (by simp [h]), by simp [decode16, decodeQ1, fl, ne, h]⟩

theorem cJal (offset : BitVec 12) : Statement (.cJal offset) := by
  intro p h
  change (Needs.met p .compressed32 && (multipleOf offset 2)) = true at h
  simp [Needs.met] at h
  have fl := encCJ_fields 0b001#3 offset (by simp [h])
  have ne : encCJ 0b001#3 offset ≠ 1#16 := fun e => by
    have e := fl.2.1.symm.trans (congrArg cFunct3 e)
    simp [cFunct3] at e
  exact ⟨lengthOf_half p _ (by simp [fl]) (by simp [h]), by simp [decode16, decodeQ1, fl, ne, h]⟩

theorem cAddiw (rd : Reg) (imm : BitVec 6) : Statement (.cAddiw rd imm) := by
  intro p h
  change (Needs.met p .compressed64 && (rd != 0)) = true at h
  simp [Needs.met] at h
  have fl := encCI_fields 0b001#3 rd imm 0b01#2
  have ne : encCI 0b001#3 rd imm 0b01#2 ≠ 1#16 := fun e => by
    have e := fl.2.1.symm.trans (congrArg cFunct3 e)
    simp [cFunct3] at e
  exact ⟨lengthOf_half p _ (by simp [fl]) (by simp [h]), by simp [decode16, decodeQ1, fl, ne, h]⟩

theorem cLi (rd : Reg) (imm : BitVec 6) : Statement (.cLi rd imm) := by
  intro p h
  change (Needs.met p .compressed && (rd != 0)) = true at h
  simp [Needs.met] at h
  have fl := encCI_fields 0b010#3 rd imm 0b01#2
  have ne : encCI 0b010#3 rd imm 0b01#2 ≠ 1#16 := fun e => by
    have e := fl.2.1.symm.trans (congrArg cFunct3 e)
    simp [cFunct3] at e
  exact ⟨lengthOf_half p _ (by simp [fl]) (by simp [h]), by simp [decode16, decodeQ1, fl, ne, h]⟩

theorem cAddi16sp (imm : BitVec 10) : Statement (.cAddi16sp imm) := by
  intro p h
  change (Needs.met p .compressed && (multipleOf imm 16 && imm != 0)) = true at h
  simp [Needs.met] at h
  have fl := enc16sp_fields imm (by simp [h])
  have ne : enc16sp imm ≠ 1#16 := fun e => by
    have e := fl.2.1.symm.trans (congrArg cFunct3 e)
    simp [cFunct3] at e
  exact ⟨lengthOf_half p _ (by simp [fl]) (by simp [h]), by simp [decode16, decodeQ1, fl, ne, h]⟩

theorem cLui (rd : Reg) (imm : BitVec 6) : Statement (.cLui rd imm) := by
  intro p h
  change (Needs.met p .compressed && (rd != 0 && rd != 2 && imm != 0)) = true at h
  simp [Needs.met] at h
  have fl := encCI_fields 0b011#3 rd imm 0b01#2
  have ne : encCI 0b011#3 rd imm 0b01#2 ≠ 1#16 := fun e => by
    have e := fl.2.1.symm.trans (congrArg cFunct3 e)
    simp [cFunct3] at e
  exact ⟨lengthOf_half p _ (by simp [fl]) (by simp [h]), by simp [decode16, decodeQ1, fl, ne, h]⟩

theorem cSrli (rd : Reg3) (shamt : BitVec 6) : Statement (.cSrli rd shamt) := by
  intro p h
  change (Needs.met p .compressed && (shamt != 0 && shamtFits p shamt)) = true at h
  simp [Needs.met] at h
  have fl := encCBImm_fields 0b00#2 rd shamt
  have ne : encCBImm 0b00#2 rd shamt ≠ 1#16 := fun e => by
    have e := fl.2.1.symm.trans (congrArg cFunct3 e)
    simp [cFunct3] at e
  exact ⟨lengthOf_half p _ (by simp [fl]) (by simp [h]), by simp [decode16, decodeQ1, decodeQ1Arith, fl, ne, h]⟩

theorem cSrai (rd : Reg3) (shamt : BitVec 6) : Statement (.cSrai rd shamt) := by
  intro p h
  change (Needs.met p .compressed && (shamt != 0 && shamtFits p shamt)) = true at h
  simp [Needs.met] at h
  have fl := encCBImm_fields 0b01#2 rd shamt
  have ne : encCBImm 0b01#2 rd shamt ≠ 1#16 := fun e => by
    have e := fl.2.1.symm.trans (congrArg cFunct3 e)
    simp [cFunct3] at e
  exact ⟨lengthOf_half p _ (by simp [fl]) (by simp [h]), by simp [decode16, decodeQ1, decodeQ1Arith, fl, ne, h]⟩

theorem cAndi (rd : Reg3) (imm : BitVec 6) : Statement (.cAndi rd imm) := by
  intro p h
  change (Needs.met p .compressed && (true)) = true at h
  simp [Needs.met] at h
  have fl := encCBImm_fields 0b10#2 rd imm
  have ne : encCBImm 0b10#2 rd imm ≠ 1#16 := fun e => by
    have e := fl.2.1.symm.trans (congrArg cFunct3 e)
    simp [cFunct3] at e
  exact ⟨lengthOf_half p _ (by simp [fl]) (by simp [h]), by simp [decode16, decodeQ1, decodeQ1Arith, fl, ne, h]⟩

theorem cSub (rd rs2 : Reg3) : Statement (.cSub rd rs2) := by
  intro p h
  change (Needs.met p .compressed && (true)) = true at h
  simp [Needs.met] at h
  have fl := encCA_fields 0b100011#6 rd 0b00#2 rs2
  have ne : encCA 0b100011#6 rd 0b00#2 rs2 ≠ 1#16 := fun e => by
    have e := fl.2.1.symm.trans (congrArg cFunct3 e)
    simp [cFunct3] at e
  exact ⟨lengthOf_half p _ (by simp [fl]) (by simp [h]), by simp [decode16, decodeQ1, decodeQ1Arith, fl, ne, h]⟩

theorem cXor (rd rs2 : Reg3) : Statement (.cXor rd rs2) := by
  intro p h
  change (Needs.met p .compressed && (true)) = true at h
  simp [Needs.met] at h
  have fl := encCA_fields 0b100011#6 rd 0b01#2 rs2
  have ne : encCA 0b100011#6 rd 0b01#2 rs2 ≠ 1#16 := fun e => by
    have e := fl.2.1.symm.trans (congrArg cFunct3 e)
    simp [cFunct3] at e
  exact ⟨lengthOf_half p _ (by simp [fl]) (by simp [h]), by simp [decode16, decodeQ1, decodeQ1Arith, fl, ne, h]⟩

theorem cOr (rd rs2 : Reg3) : Statement (.cOr rd rs2) := by
  intro p h
  change (Needs.met p .compressed && (true)) = true at h
  simp [Needs.met] at h
  have fl := encCA_fields 0b100011#6 rd 0b10#2 rs2
  have ne : encCA 0b100011#6 rd 0b10#2 rs2 ≠ 1#16 := fun e => by
    have e := fl.2.1.symm.trans (congrArg cFunct3 e)
    simp [cFunct3] at e
  exact ⟨lengthOf_half p _ (by simp [fl]) (by simp [h]), by simp [decode16, decodeQ1, decodeQ1Arith, fl, ne, h]⟩

theorem cAnd (rd rs2 : Reg3) : Statement (.cAnd rd rs2) := by
  intro p h
  change (Needs.met p .compressed && (true)) = true at h
  simp [Needs.met] at h
  have fl := encCA_fields 0b100011#6 rd 0b11#2 rs2
  have ne : encCA 0b100011#6 rd 0b11#2 rs2 ≠ 1#16 := fun e => by
    have e := fl.2.1.symm.trans (congrArg cFunct3 e)
    simp [cFunct3] at e
  exact ⟨lengthOf_half p _ (by simp [fl]) (by simp [h]), by simp [decode16, decodeQ1, decodeQ1Arith, fl, ne, h]⟩

theorem cSubw (rd rs2 : Reg3) : Statement (.cSubw rd rs2) := by
  intro p h
  change (Needs.met p .compressed64 && (true)) = true at h
  simp [Needs.met] at h
  have fl := encCA_fields 0b100111#6 rd 0b00#2 rs2
  have ne : encCA 0b100111#6 rd 0b00#2 rs2 ≠ 1#16 := fun e => by
    have e := fl.2.1.symm.trans (congrArg cFunct3 e)
    simp [cFunct3] at e
  exact ⟨lengthOf_half p _ (by simp [fl]) (by simp [h]), by simp [decode16, decodeQ1, decodeQ1Arith, fl, ne, h]⟩

theorem cAddw (rd rs2 : Reg3) : Statement (.cAddw rd rs2) := by
  intro p h
  change (Needs.met p .compressed64 && (true)) = true at h
  simp [Needs.met] at h
  have fl := encCA_fields 0b100111#6 rd 0b01#2 rs2
  have ne : encCA 0b100111#6 rd 0b01#2 rs2 ≠ 1#16 := fun e => by
    have e := fl.2.1.symm.trans (congrArg cFunct3 e)
    simp [cFunct3] at e
  exact ⟨lengthOf_half p _ (by simp [fl]) (by simp [h]), by simp [decode16, decodeQ1, decodeQ1Arith, fl, ne, h]⟩

theorem cJ (offset : BitVec 12) : Statement (.cJ offset) := by
  intro p h
  change (Needs.met p .compressed && (multipleOf offset 2)) = true at h
  simp [Needs.met] at h
  have fl := encCJ_fields 0b101#3 offset (by simp [h])
  have ne : encCJ 0b101#3 offset ≠ 1#16 := fun e => by
    have e := fl.2.1.symm.trans (congrArg cFunct3 e)
    simp [cFunct3] at e
  exact ⟨lengthOf_half p _ (by simp [fl]) (by simp [h]), by simp [decode16, decodeQ1, fl, ne, h]⟩

theorem cBeqz (rs1 : Reg3) (offset : BitVec 9) : Statement (.cBeqz rs1 offset) := by
  intro p h
  change (Needs.met p .compressed && (multipleOf offset 2)) = true at h
  simp [Needs.met] at h
  have fl := encCB_fields 0b110#3 rs1 offset (by simp [h])
  have ne : encCB 0b110#3 rs1 offset ≠ 1#16 := fun e => by
    have e := fl.2.1.symm.trans (congrArg cFunct3 e)
    simp [cFunct3] at e
  exact ⟨lengthOf_half p _ (by simp [fl]) (by simp [h]), by simp [decode16, decodeQ1, fl, ne, h]⟩

theorem cBnez (rs1 : Reg3) (offset : BitVec 9) : Statement (.cBnez rs1 offset) := by
  intro p h
  change (Needs.met p .compressed && (multipleOf offset 2)) = true at h
  simp [Needs.met] at h
  have fl := encCB_fields 0b111#3 rs1 offset (by simp [h])
  have ne : encCB 0b111#3 rs1 offset ≠ 1#16 := fun e => by
    have e := fl.2.1.symm.trans (congrArg cFunct3 e)
    simp [cFunct3] at e
  exact ⟨lengthOf_half p _ (by simp [fl]) (by simp [h]), by simp [decode16, decodeQ1, fl, ne, h]⟩

theorem cSlli (rd : Reg) (shamt : BitVec 6) : Statement (.cSlli rd shamt) := by
  intro p h
  change (Needs.met p .compressed && (rd != 0 && shamt != 0 && shamtFits p shamt)) = true at h
  simp [Needs.met] at h
  have fl := encCI_fields 0b000#3 rd shamt 0b10#2
  exact ⟨lengthOf_half p _ (by simp [fl]) (by simp [h]), by simp [decode16, decodeQ2, fl, h]⟩

theorem cLwsp (rd : Reg) (imm : BitVec 8) : Statement (.cLwsp rd imm) := by
  intro p h
  change (Needs.met p .compressed && (rd != 0 && multipleOf imm 4)) = true at h
  simp [Needs.met] at h
  have fl := encLwsp_fields rd imm (by simp [h])
  exact ⟨lengthOf_half p _ (by simp [fl]) (by simp [h]), by simp [decode16, decodeQ2, fl, h]⟩

theorem cLdsp (rd : Reg) (imm : BitVec 9) : Statement (.cLdsp rd imm) := by
  intro p h
  change (Needs.met p .compressed64 && (rd != 0 && multipleOf imm 8)) = true at h
  simp [Needs.met] at h
  have fl := encLdsp_fields rd imm (by simp [h])
  exact ⟨lengthOf_half p _ (by simp [fl]) (by simp [h]), by simp [decode16, decodeQ2, fl, h]⟩

theorem cJr (rs1 : Reg) : Statement (.cJr rs1) := by
  intro p h
  change (Needs.met p .compressed && (rs1 != 0)) = true at h
  simp [Needs.met] at h
  have fl := encCR_fields 0b1000#4 rs1 0#5
  exact ⟨lengthOf_half p _ (by simp [fl]) (by simp [h]), by simp [decode16, decodeQ2, decodeQ2Jump, fl, h]⟩

theorem cMv (rd rs2 : Reg) : Statement (.cMv rd rs2) := by
  intro p h
  change (Needs.met p .compressed && (rd != 0 && rs2 != 0)) = true at h
  simp [Needs.met] at h
  have fl := encCR_fields 0b1000#4 rd rs2
  exact ⟨lengthOf_half p _ (by simp [fl]) (by simp [h]), by simp [decode16, decodeQ2, decodeQ2Jump, fl, h]⟩

theorem cEbreak : Statement .cEbreak := by
  intro p h
  change (Needs.met p .compressed && (true)) = true at h
  simp [Needs.met] at h
  exact ⟨lengthOf_half p _ (by simp [cQuad]) (by simp [h]), by simp [decode16, decodeQ2, decodeQ2Jump, cQuad, cFunct3, cRd, cRs2, h]⟩

theorem cJalr (rs1 : Reg) : Statement (.cJalr rs1) := by
  intro p h
  change (Needs.met p .compressed && (rs1 != 0)) = true at h
  simp [Needs.met] at h
  have fl := encCR_fields 0b1001#4 rs1 0#5
  exact ⟨lengthOf_half p _ (by simp [fl]) (by simp [h]), by simp [decode16, decodeQ2, decodeQ2Jump, fl, h]⟩

theorem cAdd (rd rs2 : Reg) : Statement (.cAdd rd rs2) := by
  intro p h
  change (Needs.met p .compressed && (rd != 0 && rs2 != 0)) = true at h
  simp [Needs.met] at h
  have fl := encCR_fields 0b1001#4 rd rs2
  exact ⟨lengthOf_half p _ (by simp [fl]) (by simp [h]), by simp [decode16, decodeQ2, decodeQ2Jump, fl, h]⟩

theorem cSwsp (rs2 : Reg) (imm : BitVec 8) : Statement (.cSwsp rs2 imm) := by
  intro p h
  change (Needs.met p .compressed && (multipleOf imm 4)) = true at h
  simp [Needs.met] at h
  have fl := encSwsp_fields rs2 imm (by simp [h])
  exact ⟨lengthOf_half p _ (by simp [fl]) (by simp [h]), by simp [decode16, decodeQ2, fl, h]⟩

theorem cSdsp (rs2 : Reg) (imm : BitVec 9) : Statement (.cSdsp rs2 imm) := by
  intro p h
  change (Needs.met p .compressed64 && (multipleOf imm 8)) = true at h
  simp [Needs.met] at h
  have fl := encSdsp_fields rs2 imm (by simp [h])
  exact ⟨lengthOf_half p _ (by simp [fl]) (by simp [h]), by simp [decode16, decodeQ2, fl, h]⟩

theorem cFld (mid : BitVec 11) : Statement (.cFld mid) := by
  intro p h
  change (Needs.met p .compressed && (true)) = true at h
  simp [Needs.met] at h
  have fl := encMid_fields 0b001#3 mid 0b00#2
  have ne : encMid 0b001#3 mid 0b00#2 ≠ 0#16 := fun e => by
    have e := fl.2.1.symm.trans (congrArg cFunct3 e)
    simp [cFunct3] at e
  exact ⟨lengthOf_half p _ (by simp [fl]) (by simp [h]), by simp [decode16, decodeQ0, fl, ne, h]⟩

theorem cFsd (mid : BitVec 11) : Statement (.cFsd mid) := by
  intro p h
  change (Needs.met p .compressed && (true)) = true at h
  simp [Needs.met] at h
  have fl := encMid_fields 0b101#3 mid 0b00#2
  have ne : encMid 0b101#3 mid 0b00#2 ≠ 0#16 := fun e => by
    have e := fl.2.1.symm.trans (congrArg cFunct3 e)
    simp [cFunct3] at e
  exact ⟨lengthOf_half p _ (by simp [fl]) (by simp [h]), by simp [decode16, decodeQ0, fl, ne, h]⟩

theorem cFldsp (mid : BitVec 11) : Statement (.cFldsp mid) := by
  intro p h
  change (Needs.met p .compressed && (true)) = true at h
  simp [Needs.met] at h
  have fl := encMid_fields 0b001#3 mid 0b10#2
  exact ⟨lengthOf_half p _ (by simp [fl]) (by simp [h]), by simp [decode16, decodeQ2, fl, h]⟩

theorem cFsdsp (mid : BitVec 11) : Statement (.cFsdsp mid) := by
  intro p h
  change (Needs.met p .compressed && (true)) = true at h
  simp [Needs.met] at h
  have fl := encMid_fields 0b101#3 mid 0b10#2
  exact ⟨lengthOf_half p _ (by simp [fl]) (by simp [h]), by simp [decode16, decodeQ2, fl, h]⟩

theorem cFlw (mid : BitVec 11) : Statement (.cFlw mid) := by
  intro p h
  change (Needs.met p .compressed32 && (true)) = true at h
  simp [Needs.met] at h
  have fl := encMid_fields 0b011#3 mid 0b00#2
  have ne : encMid 0b011#3 mid 0b00#2 ≠ 0#16 := fun e => by
    have e := fl.2.1.symm.trans (congrArg cFunct3 e)
    simp [cFunct3] at e
  exact ⟨lengthOf_half p _ (by simp [fl]) (by simp [h]), by simp [decode16, decodeQ0, fl, ne, h]⟩

theorem cFsw (mid : BitVec 11) : Statement (.cFsw mid) := by
  intro p h
  change (Needs.met p .compressed32 && (true)) = true at h
  simp [Needs.met] at h
  have fl := encMid_fields 0b111#3 mid 0b00#2
  have ne : encMid 0b111#3 mid 0b00#2 ≠ 0#16 := fun e => by
    have e := fl.2.1.symm.trans (congrArg cFunct3 e)
    simp [cFunct3] at e
  exact ⟨lengthOf_half p _ (by simp [fl]) (by simp [h]), by simp [decode16, decodeQ0, fl, ne, h]⟩

theorem cFlwsp (mid : BitVec 11) : Statement (.cFlwsp mid) := by
  intro p h
  change (Needs.met p .compressed32 && (true)) = true at h
  simp [Needs.met] at h
  have fl := encMid_fields 0b011#3 mid 0b10#2
  exact ⟨lengthOf_half p _ (by simp [fl]) (by simp [h]), by simp [decode16, decodeQ2, fl, h]⟩

theorem cFswsp (mid : BitVec 11) : Statement (.cFswsp mid) := by
  intro p h
  change (Needs.met p .compressed32 && (true)) = true at h
  simp [Needs.met] at h
  have fl := encMid_fields 0b111#3 mid 0b10#2
  exact ⟨lengthOf_half p _ (by simp [fl]) (by simp [h]), by simp [decode16, decodeQ2, fl, h]⟩

theorem cReserved00_4 (mid : BitVec 11) : Statement (.cReserved00_4 mid) := by
  intro p h
  change (Needs.met p .compressed && (true)) = true at h
  simp [Needs.met] at h
  have fl := encMid_fields 0b100#3 mid 0b00#2
  have ne : encMid 0b100#3 mid 0b00#2 ≠ 0#16 := fun e => by
    have e := fl.2.1.symm.trans (congrArg cFunct3 e)
    simp [cFunct3] at e
  exact ⟨lengthOf_half p _ (by simp [fl]) (by simp [h]), by simp [decode16, decodeQ0, fl, ne, h]⟩

theorem cIllegal : Statement .cIllegal := by
  intro p h
  change (Needs.met p .compressed && (true)) = true at h
  simp [Needs.met] at h
  exact ⟨lengthOf_half p _ (by simp [cQuad]) (by simp [h]), by simp [decode16, decodeQ0, cQuad, h]⟩

end RoundTrip

end Sys2Proof.Laws
end

