-- ==== Sys2Proof/Machine/Launch.lean ====
section
/-! DEFINITION. The launch state construction leaves (spec/70_reset_and_hazards.md R465, R466).  The ELF file is parsed outside this
block (R5): the loader's input here is what parsing gives. -/

namespace Sys2Proof.Machine

/-- A `LOAD` segment: its address, its size in memory, its file bytes, its flags. -/
structure Segment where
  vaddr : Word
  memsz : Nat
  bytes : List Byte
  r : Bool
  w : Bool
  x : Bool
  deriving DecidableEq, Repr

/-- A parsed binary: what its header says, its entry point, its segments in program-header order, and the first relocation type
the loader does not recognise. -/
structure Image where
  validMagic : Bool
  width : Width
  littleEndian : Bool
  riscv : Bool
  entry : Word
  segments : List Segment
  unknownRelocation : Option Nat
  deriving DecidableEq, Repr

/-- The launch arguments and what the host installs (R6, R442, R465). -/
structure Options where
  params : Params
  stackAddress : Word
  stackSize : Nat
  exitAddress : Word
  pageFaultCallback : Nat
  scripts : List (Nat × HostAnswer)
  deriving DecidableEq, Repr

/-- The outcome of construction: a Machine, a failure with its tag, or no Machine and no tag (R465 item 1, D47). -/
inductive Constructed where
  | machine (s : State)
  | failed (tag : Tag) (detail : Nat)
  | rejected
  deriving DecidableEq, Repr

/-- The binary is one this engine loads (R465 item 1). -/
def Image.valid (img : Image) (w : Width) : Bool := img.validMagic && img.littleEndian && img.riscv && img.width == w

/-- A read-only segment for `SHARED_RODATA`: readable, neither writable nor executable (R465 item 3; log entry 16). -/
def Segment.isRodata (g : Segment) : Bool := g.r && !g.w && !g.x

/-- The attributes of a segment's pages; without `PROTECT_SEGMENTS` they are widened (R465 items 2 and 4). -/
def Segment.attr (g : Segment) (p : Params) : PageAttr :=
  if p.protectSegments then ⟨g.r, g.w, g.x⟩ else ⟨true, true, g.x⟩

/-- The variant of a segment's pages (R465 item 3). -/
def Segment.variant (g : Segment) (p : Params) : Variant :=
  if p.sharedRodata && g.isRodata then .sharedRO else .owned

/-- Give one page of a segment its attributes and variant; a page not there yet is a zero page, and an Owned page counts
toward `MEMORY_MAX` (R465 items 2 and 9, R61). -/
def loadPage (g : Segment) (npage : Nat) (s : State) : Effect Unit :=
  let page : Page := ⟨g.attr s.params, g.variant s.params⟩
  match s.pageAt npage with
  | some old =>
    if page.variant = .owned ∧ old.variant ≠ .owned ∧ s.outOfMemory then .trapped .outOfMemory (npage * pageSize) s
    else .pure () (s.setPage npage page)
  | none =>
    if page.variant = .owned ∧ s.outOfMemory then .trapped .outOfMemory (npage * pageSize) s
    else .pure () (s.installPage npage page [])

/-- The bytes a segment gives `[vaddr, vaddr + memsz)`: the file's, then zeros (R465 item 2).  File bytes past `memsz`, on which the
spec is silent, are dropped (DESIGN CHOICE, log entry 31). -/
def Segment.image (g : Segment) : List Byte :=
  g.bytes.take g.memsz ++ List.replicate (g.memsz - g.bytes.length) 0

/-- Load one segment: its pages, then its bytes; a later segment wins over an earlier one (R465 item 2).  What a segment has beyond
the last address of the address space is not loaded (log entry 28). -/
def loadSegment (g : Segment) (s : State) : Effect Unit :=
  (forPages (loadPage g) (pagesTouched s.w g.vaddr.toNat g.memsz) s).bind fun _ s' =>
    .pure () (s'.storeBytes g.vaddr.toNat (g.image.take (2 ^ s'.w.xlen - g.vaddr.toNat)))

/-- Load the segments in order. -/
def loadSegments (gs : List Segment) (s : State) : Effect Unit :=
  match gs with
  | [] => .pure () s
  | g :: t => (loadSegment g s).bind fun _ s' => loadSegments t s'

/-- The executable segment with the lowest address (R465 item 5, C1); of two at that address, of which the spec does not choose, the
earlier program header (DESIGN CHOICE, log entry 31). -/
def lowestExecutable (gs : List Segment) : Option Segment :=
  match gs with
  | [] => none
  | g :: t =>
    match lowestExecutable t with
    | none => if g.x then some g else none
    | some h => if g.x && g.vaddr.toNat ≤ h.vaddr.toNat then some g else some h

/-- A page of the default stack: an Owned zero page `{read, write}` (R465 item 7), only where no segment has mapped one (DESIGN CHOICE,
log entry 28). -/
def stackPage (npage : Nat) (s : State) : Effect Unit :=
  match s.pageAt npage with
  | some _ => .pure () s
  | none => (createOwned npage .rw s).bind fun _ s' => .pure () s'

/-- A Machine before loading: nothing mapped. -/
def blank (o : Options) : State :=
  { State.reset with
    params := o.params
    pages := []
    execBase := 0
    execLen := 0
    startAddress := 0
    stackAddress := wrap o.params.w o.stackAddress
    exitAddress := wrap o.params.w o.exitAddress
    pageFaultCallback := o.pageFaultCallback
    scripts := o.scripts }

/-- The execute segment of the image (R465 item 5).  A binary without an executable segment, for which the spec gives none, has the
empty one at address 0, from which no fetch succeeds (DESIGN CHOICE, log entry 31); `exec_len` is `memsz` modulo `2^XLEN` (DESIGN CHOICE,
log entry 28). -/
def State.withExecSegment (s : State) (g : Option Segment) : State :=
  match g with
  | none => s
  | some g => { s with execBase := wrap s.w g.vaddr, execLen := wrap s.w (BitVec.ofNat 64 g.memsz) }

/-- The loader up to the CPU state (R465 items 2 to 9).  A stack that would begin below address 0, which the spec leaves open, begins
at 0 (DESIGN CHOICE, log entry 31).  Relocations change no byte, and the stack has exactly the pages its range meets, where R465 says
at least these (DESIGN CHOICE, log entry 28). -/
def load (img : Image) (o : Options) : Effect Unit :=
  (loadSegments img.segments (blank o)).bind fun _ s =>
    match img.unknownRelocation with
    | some t => .trapped .unknownRelocation t s
    | none =>
      (forPages stackPage (pagesTouched s.w (s.stackAddress.toNat - o.stackSize) (min o.stackSize s.stackAddress.toNat))
        { s.withExecSegment (lowestExecutable img.segments) with startAddress := wrap s.w img.entry }).bind fun _ s' =>
        .pure () s'

/-- What R466 says the loader establishes beyond the page map: an initial stack pointer that is a multiple of 16, and an execute
segment that is aligned to `IALIGN` and backed by pages that are no Trap pages. -/
def State.launchable (s : State) : Bool :=
  s.stackAddress.toNat % 16 == 0 && s.execBase.toNat % s.params.ialign == 0 &&
    (pagesTouched s.w s.execBase.toNat s.execLen.toNat).all fun n =>
      match s.pageAt n with
      | some p => !isTrapPage p
      | none => false

/-- `Machine(binary_bytes, options)` (R442, R465): the loader, then the reset of the CPU (R460).  Launch arguments and binaries that
do not give a state of R466 (a misaligned `stack_address`, which R6 excludes, or execute segment) give no Machine (DESIGN
CHOICE, log entry 31). -/
def construct (img : Image) (o : Options) : Constructed :=
  if img.valid o.params.w then
    match load img o with
    | .done _ s _ => if s.launchable then .machine (resetCpu s) else .rejected
    | .trapped tag detail _ => .failed tag detail
    | .refused _ => .rejected
  else .rejected

end Sys2Proof.Machine
end

