-- ==== Sys2Proof/Machine/Snapshot.lean ====
section
/-! DEFINITION. Snapshot and restore, as their effect on state (spec/60_exceptions.md R447); no byte format. -/

namespace Sys2Proof.Machine

/-- The variant of a page as a snapshot records it. -/
inductive VariantTag where
  | owned
  | sharedRO
  | nonOwned
  | trap
  deriving DecidableEq, Repr

/-- The tag of a variant. -/
def variantTag : Variant → VariantTag
  | .owned => .owned
  | .sharedRO => .sharedRO
  | .nonOwned .. => .nonOwned
  | .trap .. => .trap

/-- One page of a snapshot: `{page_number, attrs, variant_tag, bytes?}`. -/
structure SnapshotPage where
  npage : Nat
  attr : PageAttr
  variant : VariantTag
  bytes : Option (List Byte)
  deriving DecidableEq, Repr

/-- The header and the register block of a snapshot, and its pages. -/
structure Snapshot where
  w : Width
  counter : BitVec 64
  pc : Word
  startAddress : Word
  stackAddress : Word
  exitAddress : Word
  regs : Vector Word 32
  pages : List SnapshotPage
  deriving DecidableEq, Repr

/-- The backing the restoring host gives a page without bytes (R447): its buffer, what the buffer holds, and whether the host
declares it externally written (R438; log entry 15). -/
structure Backing where
  buffer : HostAddr
  bytes : List Byte
  external : Bool
  deriving DecidableEq, Repr

/-- What the restoring host supplies (R447): the parameters, the execute segment, the handlers, the callbacks, backing for pages
without bytes, and the callbacks of Trap pages. -/
structure Restorer where
  params : Params
  execBase : Word
  execLen : Word
  handlers : List (Nat × Nat)
  pageFaultCallback : Nat
  pageWriteCallback : Option Nat
  scripts : List (Nat × HostAnswer)
  backing : List (Nat × Backing)
  trapCallbacks : List (Nat × Nat)
  deriving DecidableEq, Repr

/-- The pages with bytes in a snapshot: those the engine holds itself, Owned and SharedRO.  The source says `bytes?` and not which
(log entry 15). -/
def carriesBytes : VariantTag → Bool
  | .owned | .sharedRO => true
  | .nonOwned | .trap => false

/-- The snapshot of one page. -/
def snapshotPage (s : State) (e : Nat × Page) : SnapshotPage where
  npage := e.1
  attr := e.2.attr
  variant := variantTag e.2.variant
  bytes :=
    if carriesBytes (variantTag e.2.variant) then some (s.bytes (e.1 * pageSize) pageSize) else none

/-- `serialize_to` (R447). -/
def serialize (s : State) : Snapshot where
  w := s.w
  counter := s.counter
  pc := s.pc
  startAddress := s.startAddress
  stackAddress := s.stackAddress
  exitAddress := s.exitAddress
  regs := s.regs
  pages := s.pages.map (snapshotPage s)

/-- Restore one page: an Owned or SharedRO page with its bytes, a NonOwned page over the host's buffer, a Trap page with the host's
callback, whose bytes are never read (R52); none where the snapshot and the host give no backing (R447). -/
def restorePage (h : Restorer) (p : SnapshotPage) (s : State) : Option State :=
  match p.variant with
  | .owned => p.bytes.map fun bs => s.installPage p.npage ⟨p.attr, .owned⟩ bs
  | .sharedRO => p.bytes.map fun bs => s.installPage p.npage ⟨p.attr, .sharedRO⟩ bs
  | .nonOwned =>
    (SMap.find h.backing p.npage).map fun k =>
      (writeBuffer k.buffer k.bytes s).installPage p.npage ⟨p.attr, .nonOwned k.buffer k.external⟩ []
  | .trap => (SMap.find h.trapCallbacks p.npage).map fun cb => s.installPage p.npage ⟨p.attr, .trap cb none⟩ []

/-- Restore the pages; one without backing refuses the restore (R447). -/
def restorePages (h : Restorer) (ps : List SnapshotPage) (s : State) : Effect Unit :=
  match ps with
  | [] => .pure () s
  | p :: t =>
    match restorePage h p s with
    | some s' => restorePages h t s'
    | none => .refused .snapshotPageWithoutBacking

/-- The Machine of a snapshot before its pages: the reservation and the stop flag clear, the status Init (R447).  Its `W` is the
snapshot's, also where the host's parameters name another, on which R447 is silent (DESIGN CHOICE, log entry 33). -/
def restoredCpu (snap : Snapshot) (h : Restorer) : State :=
  { State.reset with
    params := { h.params with w := snap.w }
    regs := snap.regs
    pc := snap.pc
    counter := snap.counter
    stopped := false
    status := .init
    resv := ⟨false, 0, .w4⟩
    pages := []
    mem := []
    execBase := h.execBase
    execLen := h.execLen
    startAddress := snap.startAddress
    stackAddress := snap.stackAddress
    exitAddress := snap.exitAddress
    handlers := h.handlers
    pageFaultCallback := h.pageFaultCallback
    pageWriteCallback := h.pageWriteCallback
    scripts := h.scripts }

/-- `deserialize_from` (R447): it builds a Machine, and is no operation on one that exists (DESIGN CHOICE, log entry 36). -/
def restore (snap : Snapshot) (h : Restorer) : Host.Outcome State Fault Refusal :=
  match restorePages h snap.pages (restoredCpu snap h) with
  | .done _ s _ => .next s
  | .trapped tag detail s => .next (takeTrap tag detail s)
  | .refused r => .refused r

end Sys2Proof.Machine
end

