-- ==== Sys2Proof/Safety.lean ====
section
/-! DEFINITION. What claims are stated in: the invariant of the machine, what a safe run is, and the readings and frames the statements
of Certificates/Slice0/Obligations.lean use. -/

namespace Sys2Proof.Machine

/-- A value of `XLEN` bits in the 64-bit container (R8). -/
def canonical (w : Width) (v : Word) : Prop := wrap w v = v

/-- The CPU part: every register and the pc are `XLEN`-bit values, and x0 holds 0 (R20, R21, R24). -/
structure State.CpuWf (s : State) : Prop where
  x0 : s.regs[0] = 0
  regs : ∀ i : Fin 32, canonical s.w s.regs[i]
  pc : canonical s.w s.pc

/-- The addresses: `XLEN`-bit values, the initial stack pointer a multiple of 16, the execute segment aligned to `IALIGN` (R6, R56,
R57, R466). -/
structure State.AddrWf (s : State) : Prop where
  start : canonical s.w s.startAddress
  stack : canonical s.w s.stackAddress
  exit : canonical s.w s.exitAddress
  exec : canonical s.w s.execBase ∧ canonical s.w s.execLen
  stackAligned : s.stackAddress.toNat % 16 = 0
  execAligned : s.execBase.toNat % s.params.ialign = 0

/-- The address space: one page at most per page number, in rising order and inside the address space (R51), the bytes in the
canonical form, the host's too, and no byte of the Machine's outside the pages (R50, R52). -/
structure State.PagesWf (s : State) : Prop where
  sorted : SMap.sorted s.pages
  inSpace : ∀ e ∈ s.pages, e.1 < pageCount s.w
  mem : Memory.wf s.mem
  hostMem : Memory.wf s.hostMem
  backed : ∀ c ∈ s.mem, (s.pageAt (pageOf c.1)).isSome

/-- The reservation: held only with `EXT_A`, only at a naturally aligned address, the doubleword width only on RV64 (R29, R280,
R283, R380). -/
structure State.ResvWf (s : State) : Prop where
  ext : s.resv.valid = true → s.params.extA = true
  aligned : s.resv.valid = true → s.resv.addr.toNat % (sizeOfWidth s.resv.width).bytes = 0
  width : s.resv.valid = true → s.resv.width = .w8 → s.w = .w8

/-- The run loop: a run is active only with status Running, and its start counter is not above the counter (R27, R167). -/
structure State.RunWf (s : State) : Prop where
  running : s.run.isSome = true → s.status = .running
  started : ∀ r, s.run = some r → r.startCounter.toNat ≤ s.counter.toNat

/-- The invariant of the machine. -/
structure State.wf (s : State) : Prop where
  cpu : s.CpuWf
  addr : s.AddrWf
  pages : s.PagesWf
  resv : s.ResvWf
  run : s.RunWf
  handlers : SMap.sorted s.handlers

/-- The fields no step changes: the parameters, the execute segment, the three addresses (R7, R56, R439). -/
structure State.SameFixed (s t : State) : Prop where
  params : t.params = s.params
  execBase : t.execBase = s.execBase
  execLen : t.execLen = s.execLen
  startAddress : t.startAddress = s.startAddress
  stackAddress : t.stackAddress = s.stackAddress
  exitAddress : t.exitAddress = s.exitAddress

/-- `t` follows from `s` by some steps. -/
inductive Reaches : State → State → Prop where
  | refl (s : State) : Reaches s s
  | step {s t u : State} (h : Reaches s t) (next : Machine.step t = .next u) : Reaches s u

/-- A safe run from `s`: no state it reaches is refused, and none is Trapped. -/
def SafeFrom (s : State) : Prop :=
  ∀ t, Reaches s t → (∃ u, Machine.step t = .next u) ∧ ∀ tag detail, t.status ≠ .trapped tag detail

/-! ### Readings: what a statement says of values, without the model's own arithmetic -/

/-- `v` read as a signed number of `n` bits (R8). -/
def signedOf (n : Nat) (v : Int) : Int := Int.bmod v (2 ^ n)

/-- The unsigned value of a register (R8). -/
def State.ux (s : State) (r : Reg) : Nat := (s.x r).toNat

/-- The signed value of a register (R8). -/
def State.sx (s : State) (r : Reg) : Int := signedOf s.w.xlen (s.ux r)

/-- `v` modulo `2^XLEN` (R8). -/
def State.mod (s : State) (v : Int) : Nat := (v % (2 ^ s.w.xlen : Nat)).toNat

/-- 1 or 0 (R194). -/
def oneIf (p : Prop) [Decidable p] : Int := if p then 1 else 0

/-- The guest address of byte `k` of an access at `a`, modulo `2^XLEN` (R73, R78). -/
def State.byteAddr (s : State) (a : Word) (k : Nat) : Nat := (a.toNat + k) % 2 ^ s.w.xlen

/-- The little-endian number of `n` bytes (R72). -/
def littleEndian (b : Nat → Byte) (n : Nat) : Nat :=
  match n with
  | 0 => 0
  | k + 1 => littleEndian b k + (b k).toNat * 256 ^ k

/-- The number the `n` bytes from `a` on hold (R72, R73). -/
def State.valueAt (s : State) (a : Word) (n : Nat) : Nat := littleEndian (fun k => s.byte (s.byteAddr a k)) n

/-- The guest may read the byte at `a` and it is a byte of the memory: a page is mapped there, with `read`, and it is not a Trap
page (R71). -/
def State.readable (s : State) (a : Nat) : Bool :=
  match s.pageAt (pageOf a) with
  | some p => p.attr.read && !isTrapPage p
  | none => false

/-- The guest may write the byte at `a` and the write changes that byte and no page: a page is mapped there, with `write`, Owned
or NonOwned, and the byte is not part of a constant execute segment (R53, R76, R79). -/
def State.storable (s : State) (a : Nat) : Bool :=
  match s.pageAt (pageOf a) with
  | some p =>
    p.attr.write && p.variant != .sharedRO && !isTrapPage p && !(s.params.execConstant && s.inExecSegment a)
  | none => false

/-- An aligned or unchecked access of `z` bytes all of which are readable (R70, R71, R73). -/
def State.canRead (s : State) (a : Word) (z : Size) : Bool :=
  !misaligned a z s && (List.range z.bytes).all fun k => s.readable (s.byteAddr a k)

/-- An aligned or unchecked access of `z` bytes all of which are storable (R75, R76, R78). -/
def State.canStore (s : State) (a : Word) (z : Size) : Bool :=
  !misaligned a z s && (List.range z.bytes).all fun k => s.storable (s.byteAddr a k)

/-! ### Frames: what a step leaves as it was -/

/-- Neither the page map nor any byte changed, of the guest's or of the host's. -/
structure State.SameMemory (s t : State) : Prop where
  pages : t.pages = s.pages
  bytes : ∀ a, t.byte a = s.byte a
  buffers : ∀ h, t.get (.host h) = s.get (.host h)

/-- No later one of the `n` bytes from `a` on stands where byte `k` does.  Two do only where an access straddles two NonOwned pages
whose buffers overlap in the host's memory (R53, R93). -/
def State.LastThere (s : State) (a : Word) (n k : Nat) : Prop :=
  ∀ j, k < j → j < n → s.place (s.byteAddr a j) ≠ s.place (s.byteAddr a k)

/-- The `n` bytes from `a` on hold the low `n` bytes of `v`, little-endian, and every byte that stands elsewhere is as it was (R76,
R78). -/
structure State.BytesStored (s t : State) (a : Word) (n v : Nat) : Prop where
  stored : ∀ k < n, s.LastThere a n k → t.byte (s.byteAddr a k) = BitVec.ofNat 8 (v / 256 ^ k)
  others : ∀ q, (∀ k < n, s.place q ≠ s.place (s.byteAddr a k)) → t.byte q = s.byte q
  buffers : ∀ h, (∀ k < n, s.place (s.byteAddr a k) ≠ .host h) → t.get (.host h) = s.get (.host h)

/-- What only the loop, a fault or the host changes.  The count of draws is the model's own bookkeeping and is left out. -/
structure State.SameControl (s t : State) : Prop where
  fixed : s.SameFixed t
  stopped : t.stopped = s.stopped
  status : t.status = s.status
  handlers : t.handlers = s.handlers
  pageFaultCallback : t.pageFaultCallback = s.pageFaultCallback
  pageWriteCallback : t.pageWriteCallback = s.pageWriteCallback
  scripts : t.scripts = s.scripts
  run : t.run = s.run
  hostCalls : t.hostCalls = s.hostCalls
  hostResult : t.hostResult = s.hostResult

/-- The instruction retired: the pc is `pc` modulo `2^XLEN`, the counter is one more, `rd` holds `v` modulo `2^XLEN`, x0 reads 0,
and every other register is as it was (R21, R24, R25).  `rd = 0` says that no register is written. -/
structure Retired (s t : State) (pc : Int) (rd : Reg) (v : Int) : Prop where
  pc : t.pc.toNat = s.mod pc
  counter : t.counter.toNat = s.counter.toNat + 1
  dest : rd ≠ 0 → t.ux rd = s.mod v
  x0 : t.x 0 = 0
  others : ∀ r, r ≠ rd → t.x r = s.x r

/-- `i` executed in `s` completes: it retires with the next pc `pc` and `v` in `rd`, and changes nothing else. -/
def Completes (i : Instr) (pc : Int) (rd : Reg) (v : Int) (s : State) : Prop :=
  ∃ t, exec i s = .next t ∧ Retired s t pc rd v ∧ t.resv = s.resv ∧ s.SameMemory t ∧ s.SameControl t

/-- `i`, of `len` bytes, executed in `s` completes: it retires with the pc `len` bytes further and `r` in `rd`; the `n` bytes from
`a` on hold the low `n` bytes of `v`, little-endian; the reservation is no longer valid; nothing else changes (R76, R78, R79). -/
def Stores (i : Instr) (len : Nat) (a : Word) (n v : Nat) (rd : Reg) (r : Int) (s : State) : Prop :=
  ∃ t, exec i s = .next t ∧ Retired s t (s.pc.toNat + len) rd r ∧ t.resv = { s.resv with valid := false } ∧
    t.pages = s.pages ∧ s.BytesStored t a n v ∧ s.SameControl t

/-- The fault `tag(detail)` ended the run: the status is Trapped, no run is active, `simulate` answered the failure, and nothing
else changed (R167, R410, R420). -/
structure TrapTaken (s t : State) (tag : Tag) (detail : Nat) : Prop where
  status : t.status = .trapped tag detail
  run : t.run = none
  result : t.hostResult = .failed tag detail
  regs : ∀ r, t.x r = s.x r
  pc : t.pc = s.pc
  counter : t.counter = s.counter
  stopped : t.stopped = s.stopped
  resv : t.resv = s.resv
  memory : s.SameMemory t
  fixed : s.SameFixed t
  handlers : t.handlers = s.handlers
  pageFaultCallback : t.pageFaultCallback = s.pageFaultCallback
  pageWriteCallback : t.pageWriteCallback = s.pageWriteCallback
  scripts : t.scripts = s.scripts
  hostCalls : t.hostCalls = s.hostCalls

/-- `i` executed in `s` ends in the fault `tag(detail)` and changes nothing else. -/
def Faults (i : Instr) (tag : Tag) (detail : Nat) (s : State) : Prop := ∃ t, exec i s = .next t ∧ TrapTaken s t tag detail

/-! ### Fetching -/

/-- The host declares the page externally written (R438). -/
def isExternal (p : Page) : Bool :=
  match p.variant with
  | .nonOwned _ external => external
  | .owned | .sharedRO | .trap .. => false

/-- The page is a NonOwned page (R53). -/
def isNonOwned (p : Page) : Bool :=
  match p.variant with
  | .nonOwned .. => true
  | .owned | .sharedRO | .trap .. => false

/-- An active run is at an instruction boundary where the loop executes an instruction: not stopped, budget left, not at the exit
sentinel (R167); and no page is externally written (R438). -/
def State.atInstruction (s : State) : Bool :=
  match s.run with
  | some r =>
    !s.stopped && !budgetSpent r s && s.pc != s.exitAddress && s.pages.all fun e => !isExternal e.2
  | none => false

/-- The bytes `bs` stand at the pc, which is aligned, inside the execute segment and in pages that are no Trap pages,
addresses modulo `2^XLEN` (R8, R161, R162). -/
def State.holdsCode (s : State) (bs : List Byte) : Bool :=
  s.pc.toNat % s.params.ialign == 0 && s.execSegmentHolds s.pc.toNat bs.length &&
    (List.range bs.length).all fun k =>
      match s.pageAt (pageOf (s.byteAddr s.pc k)) with
      | some p => !isTrapPage p && bs[k]? == some (s.byte (s.byteAddr s.pc k))
      | none => false

/-! ### Shapes of statements -/

/-- The word `w` decodes to `i`, and `i` completes with the pc 4 bytes further and `v` in `rd`. -/
def RunsWord (w : BitVec 32) (i : Instr) (rd : Reg) (v : Int) (s : State) : Prop :=
  decode32 s.params w = some i ∧ Completes i (s.pc.toNat + 4) rd v s

/-- The halfword `c` decodes to `i`, and `i` completes with the pc 2 bytes further and `v` in `rd`. -/
def RunsHalf (c : BitVec 16) (i : Instr) (rd : Reg) (v : Int) (s : State) : Prop :=
  decode16 s.params c = some i ∧ Completes i (s.pc.toNat + 2) rd v s

/-- The word `w` decodes to `i`, and `i` executed in `s` ends in `UNIMPLEMENTED_INSTRUCTION(w)` and changes nothing else. -/
def UnimplementedWord (w : BitVec 32) (i : Instr) (s : State) : Prop :=
  decode32 s.params w = some i ∧ Faults i .unimplementedInstruction w.toNat s

/-- The halfword `c` decodes to `i`, and `i` executed in `s` ends in `UNIMPLEMENTED_INSTRUCTION(c)` and changes nothing else. -/
def UnimplementedHalf (c : BitVec 16) (i : Instr) (s : State) : Prop :=
  decode16 s.params c = some i ∧ Faults i .unimplementedInstruction c.toNat s

/-- The word `w` decodes to the atomic `i` on `z` bytes at `x[rs1]`, and `i` leaves `new` there and the old value, sign-extended,
in `rd`. -/
def RunsAmo (w : BitVec 32) (i : Instr) (z : Size) (rd rs1 : Reg) (new : Int) (s : State) : Prop :=
  decode32 s.params w = some i ∧
    Stores i 4 (s.x rs1) z.bytes (new % 2 ^ (8 * z.bytes)).toNat rd
      (signedOf (8 * z.bytes) (s.valueAt (s.x rs1) z.bytes)) s

/-- A step from `s` ends in the fault `tag(detail)` and changes nothing else. -/
def StepFaults (s : State) (tag : Tag) (detail : Nat) : Prop := ∃ t, step s = .next t ∧ TrapTaken s t tag detail

/-- After a host action the reservation is as it was or no longer valid (R281). -/
def State.ResvDrawn (s t : State) : Prop := t.resv = s.resv ∨ t.resv = { s.resv with valid := false }

/-- `i`, a call of a host handler that does nothing but answer, completes (R432). -/
def CompletesAfterHost (i : Instr) (pc : Int) (rd : Reg) (v : Int) (s : State) : Prop :=
  ∃ t, exec i s = .next t ∧ Retired s t pc rd v ∧ s.ResvDrawn t ∧ s.SameMemory t ∧ s.SameControl t

/-- Host code called by `i` wrote `u` to register `q` and failed: that ends the step with the tag and the detail, and what it did before
stands (R401, R410 item 3, R421). -/
def HostFails (i : Instr) (q : Reg) (u : Word) (tag : Tag) (detail : Nat) (s : State) : Prop :=
  ∃ t, exec i s = .next t ∧ t.status = .trapped tag detail ∧ t.run = none ∧ t.hostResult = .failed tag detail ∧
    t.pc = s.pc ∧ t.counter = s.counter ∧ (q ≠ 0 → t.ux q = s.mod u.toNat) ∧ (∀ r, r ≠ q → t.x r = s.x r) ∧
    s.SameMemory t ∧ s.SameFixed t ∧ s.ResvDrawn t ∧ t.stopped = s.stopped

/-- `t` is `s` with a fresh Owned page of zeros with `read` and `write` at `npage` and no other change (R60). -/
structure ZeroPageInstalled (s t : State) (npage : Nat) : Prop where
  page : t.pageAt npage = some ⟨⟨true, true, false⟩, .owned⟩
  otherPages : ∀ n, n ≠ npage → t.pageAt n = s.pageAt n
  zero : ∀ a, pageOf a = npage → t.byte a = 0
  bytes : ∀ a, t.byte a = s.byte a
  buffers : ∀ h, t.get (.host h) = s.get (.host h)
  regs : ∀ r, t.x r = s.x r
  pc : t.pc = s.pc
  counter : t.counter = s.counter
  resv : t.resv = s.resv
  control : s.SameControl t

/-- `t` is `s` with new bytes in the externally written pages and no other change (R438). -/
structure ExternalWrites (s t : State) : Prop where
  bytes : ∀ p, (∀ e ∈ s.pages, isExternal e.2 = true → ∀ o < pageSize, p ≠ s.place (e.1 * pageSize + o)) → t.get p = s.get p
  pages : t.pages = s.pages
  regs : t.regs = s.regs
  pc : t.pc = s.pc
  counter : t.counter = s.counter
  resv : t.resv = s.resv
  control : s.SameControl t

/-- The host operation at the head of the pending calls answered `r`; it touched neither the counter, the status, the stop flag,
the page map nor the memory as the boundary left it (R438). -/
structure HostAnswered (s t : State) (rest : List HostOp) (r : HostResult) : Prop where
  result : t.hostResult = r
  hostCalls : t.hostCalls = rest
  run : t.run = s.run
  counter : t.counter = s.counter
  status : t.status = s.status
  stopped : t.stopped = s.stopped
  resv : s.ResvDrawn t
  memory : (atBoundary s).SameMemory t
  fixed : s.SameFixed t
  handlers : t.handlers = s.handlers
  scripts : t.scripts = s.scripts

/-- The reservation is held at `a` with the width of `z` (R284, R381). -/
def State.Reserves (s : State) (a : Word) (z : Size) : Prop :=
  s.resv.valid = true ∧ s.resv.addr = a ∧ sizeOfWidth s.resv.width = z

/-- The segment's `[vaddr, vaddr + memsz)` covers the address (R465 item 2). -/
def Segment.covers (g : Segment) (q : Nat) : Prop := g.vaddr.toNat ≤ q ∧ q < g.vaddr.toNat + g.memsz

/-- The segment touches the page (R465 item 2). -/
def Segment.touches (g : Segment) (npage : Nat) : Prop := ∃ q, g.covers q ∧ pageOf q = npage

/-- A load, with its length, its address, its width, whether it sign-extends, and its destination (R260 to R267, R323, R324, R347,
R348). -/
inductive IsLoad (s : State) : Instr → Nat → Word → Size → Bool → Reg → Prop where
  | lb (rd rs1 : Reg) (imm : BitVec 12) : IsLoad s (.lb rd rs1 imm) 4 (s.ea rs1 imm) .b1 true rd
  | lh (rd rs1 : Reg) (imm : BitVec 12) : IsLoad s (.lh rd rs1 imm) 4 (s.ea rs1 imm) .b2 true rd
  | lw (rd rs1 : Reg) (imm : BitVec 12) : IsLoad s (.lw rd rs1 imm) 4 (s.ea rs1 imm) .b4 true rd
  | ld (rd rs1 : Reg) (imm : BitVec 12) : IsLoad s (.ld rd rs1 imm) 4 (s.ea rs1 imm) .b8 true rd
  | lbu (rd rs1 : Reg) (imm : BitVec 12) : IsLoad s (.lbu rd rs1 imm) 4 (s.ea rs1 imm) .b1 false rd
  | lhu (rd rs1 : Reg) (imm : BitVec 12) : IsLoad s (.lhu rd rs1 imm) 4 (s.ea rs1 imm) .b2 false rd
  | lwu (rd rs1 : Reg) (imm : BitVec 12) : IsLoad s (.lwu rd rs1 imm) 4 (s.ea rs1 imm) .b4 false rd
  | cLw (rd rs1 : Reg3) (imm : BitVec 7) : IsLoad s (.cLw rd rs1 imm) 2 (s.eaU (reg3 rs1) imm) .b4 true (reg3 rd)
  | cLd (rd rs1 : Reg3) (imm : BitVec 8) : IsLoad s (.cLd rd rs1 imm) 2 (s.eaU (reg3 rs1) imm) .b8 true (reg3 rd)
  | cLwsp (rd : Reg) (imm : BitVec 8) : IsLoad s (.cLwsp rd imm) 2 (s.eaU 2 imm) .b4 true rd
  | cLdsp (rd : Reg) (imm : BitVec 9) : IsLoad s (.cLdsp rd imm) 2 (s.eaU 2 imm) .b8 true rd

/-- A store, with its length, its address, its width, and the value whose low bytes it stores (R270 to R273, R325, R326, R354,
R355). -/
inductive IsStore (s : State) : Instr → Nat → Word → Size → Word → Prop where
  | sb (rs1 rs2 : Reg) (imm : BitVec 12) : IsStore s (.sb rs1 rs2 imm) 4 (s.ea rs1 imm) .b1 (s.x rs2)
  | sh (rs1 rs2 : Reg) (imm : BitVec 12) : IsStore s (.sh rs1 rs2 imm) 4 (s.ea rs1 imm) .b2 (s.x rs2)
  | sw (rs1 rs2 : Reg) (imm : BitVec 12) : IsStore s (.sw rs1 rs2 imm) 4 (s.ea rs1 imm) .b4 (s.x rs2)
  | sd (rs1 rs2 : Reg) (imm : BitVec 12) : IsStore s (.sd rs1 rs2 imm) 4 (s.ea rs1 imm) .b8 (s.x rs2)
  | cSw (rs1 rs2 : Reg3) (imm : BitVec 7) : IsStore s (.cSw rs1 rs2 imm) 2 (s.eaU (reg3 rs1) imm) .b4 (s.x (reg3 rs2))
  | cSd (rs1 rs2 : Reg3) (imm : BitVec 8) : IsStore s (.cSd rs1 rs2 imm) 2 (s.eaU (reg3 rs1) imm) .b8 (s.x (reg3 rs2))
  | cSwsp (rs2 : Reg) (imm : BitVec 8) : IsStore s (.cSwsp rs2 imm) 2 (s.eaU 2 imm) .b4 (s.x rs2)
  | cSdsp (rs2 : Reg) (imm : BitVec 9) : IsStore s (.cSdsp rs2 imm) 2 (s.eaU 2 imm) .b8 (s.x rs2)

/-- The number of `z` bytes, sign- or zero-extended, that a load writes (R261 to R267). -/
def extended (z : Size) (signed : Bool) (v : Nat) : Int := if signed then signedOf (8 * z.bytes) v else v

/-- An instruction of the A extension, with its address, its width, whether it always reads and whether it always writes (R280,
R283, R284, R294). -/
inductive IsAtomic (s : State) : Instr → Word → Size → Bool → Bool → Prop where
  | lrW (rd rs1 : Reg) (aq rl : Bool) : IsAtomic s (.lrW rd rs1 aq rl) (s.x rs1) .b4 true false
  | scW (rd rs1 rs2 : Reg) (aq rl : Bool) : IsAtomic s (.scW rd rs1 rs2 aq rl) (s.x rs1) .b4 false false
  | amoswapW (rd rs1 rs2 : Reg) (aq rl : Bool) : IsAtomic s (.amoswapW rd rs1 rs2 aq rl) (s.x rs1) .b4 true true
  | amoaddW (rd rs1 rs2 : Reg) (aq rl : Bool) : IsAtomic s (.amoaddW rd rs1 rs2 aq rl) (s.x rs1) .b4 true true
  | amoxorW (rd rs1 rs2 : Reg) (aq rl : Bool) : IsAtomic s (.amoxorW rd rs1 rs2 aq rl) (s.x rs1) .b4 true true
  | amoandW (rd rs1 rs2 : Reg) (aq rl : Bool) : IsAtomic s (.amoandW rd rs1 rs2 aq rl) (s.x rs1) .b4 true true
  | amoorW (rd rs1 rs2 : Reg) (aq rl : Bool) : IsAtomic s (.amoorW rd rs1 rs2 aq rl) (s.x rs1) .b4 true true
  | amominW (rd rs1 rs2 : Reg) (aq rl : Bool) : IsAtomic s (.amominW rd rs1 rs2 aq rl) (s.x rs1) .b4 true true
  | amomaxW (rd rs1 rs2 : Reg) (aq rl : Bool) : IsAtomic s (.amomaxW rd rs1 rs2 aq rl) (s.x rs1) .b4 true true
  | amominuW (rd rs1 rs2 : Reg) (aq rl : Bool) : IsAtomic s (.amominuW rd rs1 rs2 aq rl) (s.x rs1) .b4 true true
  | amomaxuW (rd rs1 rs2 : Reg) (aq rl : Bool) : IsAtomic s (.amomaxuW rd rs1 rs2 aq rl) (s.x rs1) .b4 true true
  | lrD (rd rs1 : Reg) (aq rl : Bool) : IsAtomic s (.lrD rd rs1 aq rl) (s.x rs1) .b8 true false
  | scD (rd rs1 rs2 : Reg) (aq rl : Bool) : IsAtomic s (.scD rd rs1 rs2 aq rl) (s.x rs1) .b8 false false
  | amoswapD (rd rs1 rs2 : Reg) (aq rl : Bool) : IsAtomic s (.amoswapD rd rs1 rs2 aq rl) (s.x rs1) .b8 true true
  | amoaddD (rd rs1 rs2 : Reg) (aq rl : Bool) : IsAtomic s (.amoaddD rd rs1 rs2 aq rl) (s.x rs1) .b8 true true
  | amoxorD (rd rs1 rs2 : Reg) (aq rl : Bool) : IsAtomic s (.amoxorD rd rs1 rs2 aq rl) (s.x rs1) .b8 true true
  | amoandD (rd rs1 rs2 : Reg) (aq rl : Bool) : IsAtomic s (.amoandD rd rs1 rs2 aq rl) (s.x rs1) .b8 true true
  | amoorD (rd rs1 rs2 : Reg) (aq rl : Bool) : IsAtomic s (.amoorD rd rs1 rs2 aq rl) (s.x rs1) .b8 true true
  | amominD (rd rs1 rs2 : Reg) (aq rl : Bool) : IsAtomic s (.amominD rd rs1 rs2 aq rl) (s.x rs1) .b8 true true
  | amomaxD (rd rs1 rs2 : Reg) (aq rl : Bool) : IsAtomic s (.amomaxD rd rs1 rs2 aq rl) (s.x rs1) .b8 true true
  | amominuD (rd rs1 rs2 : Reg) (aq rl : Bool) : IsAtomic s (.amominuD rd rs1 rs2 aq rl) (s.x rs1) .b8 true true
  | amomaxuD (rd rs1 rs2 : Reg) (aq rl : Bool) : IsAtomic s (.amomaxuD rd rs1 rs2 aq rl) (s.x rs1) .b8 true true

/-- The guest call is set up: the pc, `ra` and the arguments in `a0`, `a1`, …; every other register is as it was (R443). -/
structure CallSet (s t : State) (call ret : Nat) (args : List Word) : Prop where
  pc : t.pc.toNat = s.mod call
  ra : t.ux 1 = s.mod ret
  arguments : ∀ k (h : k < args.length), t.ux (BitVec.ofNat 5 (10 + k)) = s.mod (args[k]'h).toNat
  others : ∀ r, r ≠ 1 → (∀ k < args.length, r ≠ BitVec.ofNat 5 (10 + k)) → t.x r = s.x r

/-- A compressed encoding this block has no instruction for, by the rows of the map of R120 and R121. -/
def reservedHalf (p : Params) (c : BitVec 16) : Bool :=
  let q := c.extractLsb' 0 2
  let f3 := c.extractLsb' 13 3
  let rd := c.extractLsb' 7 5
  let rs2 := c.extractLsb' 2 5
  let imm6 := c.extractLsb' 12 1 ++ c.extractLsb' 2 5
  (q == 0 && f3 == 0 && c.extractLsb' 5 8 == 0) ||
  (q == 0 && (f3 == 1 || f3 == 4 || f3 == 5)) ||
  (q == 0 && (f3 == 3 || f3 == 7) && p.w == .w4) ||
  (q == 1 && f3 == 0 && c != 1 && (rd == 0 || imm6 == 0)) ||
  (q == 1 && f3 == 1 && p.w == .w8 && rd == 0) ||
  (q == 1 && f3 == 2 && rd == 0) ||
  (q == 1 && f3 == 3 && (rd == 0 || imm6 == 0)) ||
  (q == 1 && f3 == 4 && (c.extractLsb' 10 2 == 0 || c.extractLsb' 10 2 == 1) &&
    (imm6 == 0 || (p.w == .w4 && c.extractLsb' 12 1 == 1))) ||
  (q == 1 && f3 == 4 && c.extractLsb' 10 3 == 7 && (p.w == .w4 || c.extractLsb' 6 1 == 1)) ||
  (q == 2 && f3 == 0 && (rd == 0 || imm6 == 0 || (p.w == .w4 && c.extractLsb' 12 1 == 1))) ||
  (q == 2 && (f3 == 1 || f3 == 5)) ||
  (q == 2 && f3 == 2 && rd == 0) ||
  (q == 2 && f3 == 3 && (p.w == .w4 || rd == 0)) ||
  (q == 2 && f3 == 4 && rd == 0 && (rs2 != 0 || c.extractLsb' 12 1 == 0)) ||
  (q == 2 && f3 == 7 && p.w == .w4)

end Sys2Proof.Machine
end

