-- ==== Sys2Proof/Certificates/Slice0/Obligations.lean ====
section
/-! DEFINITION. The statements for the provers, in the words of the spec's rules.  The readings (`ux`, `sx`, `signedOf`, `valueAt`)
and the frames (`Completes`, `Stores`, `TrapTaken`, …) stand in Sys2Proof/Safety.lean.  A statement whose docstring names a log
entry rests on a choice of the model there; every other clause is a rule's.
Where a rule is a decision of spec/92_eei_decisions.md (D<n>) or of spec/90_conflicts.md (C<n>), the docstring's last line says which. -/

open Sys2Proof Sys2Proof.Machine

/-! ### Integer computation (spec/41_integer_computational.md) -/

/-- R191, R192: LUI and AUIPC, for every destination and immediate, in both widths. -/
def Obligations.UpperImmediateResults : Prop :=
  ∀ (s : State) (rd : Reg) (imm : BitVec 20), s.counter ≠ counterMax →
    RunsWord (imm ++ rd ++ 0b0110111#7) (.lui rd imm) rd (imm.toInt * 4096) s ∧
    RunsWord (imm ++ rd ++ 0b0010111#7) (.auipc rd imm) rd (s.pc.toNat + imm.toInt * 4096) s

/-- R193 to R198: the register-immediate instructions. -/
def Obligations.RegisterImmediateResults : Prop :=
  ∀ (s : State) (rd rs1 : Reg) (imm : BitVec 12), s.counter ≠ counterMax →
    RunsWord (imm ++ rs1 ++ 0b000#3 ++ rd ++ 0b0010011#7) (.addi rd rs1 imm) rd (s.ux rs1 + imm.toInt) s ∧
    RunsWord (imm ++ rs1 ++ 0b010#3 ++ rd ++ 0b0010011#7) (.slti rd rs1 imm) rd (oneIf (s.sx rs1 < imm.toInt)) s ∧
    RunsWord (imm ++ rs1 ++ 0b011#3 ++ rd ++ 0b0010011#7) (.sltiu rd rs1 imm) rd (oneIf (s.ux rs1 < s.mod imm.toInt)) s ∧
    RunsWord (imm ++ rs1 ++ 0b100#3 ++ rd ++ 0b0010011#7) (.xori rd rs1 imm) rd (s.ux rs1 ^^^ s.mod imm.toInt : Nat) s ∧
    RunsWord (imm ++ rs1 ++ 0b110#3 ++ rd ++ 0b0010011#7) (.ori rd rs1 imm) rd (s.ux rs1 ||| s.mod imm.toInt : Nat) s ∧
    RunsWord (imm ++ rs1 ++ 0b111#3 ++ rd ++ 0b0010011#7) (.andi rd rs1 imm) rd (s.ux rs1 &&& s.mod imm.toInt : Nat) s

/-- R199 to R201: the immediate shifts by an amount below `XLEN`; on RV32 an encoding with `inst[25] = 1` does not decode
(R116). -/
def Obligations.ImmediateShiftResults : Prop :=
  ∀ (s : State) (rd rs1 : Reg) (shamt : BitVec 6), s.counter ≠ counterMax →
    (shamt.toNat < s.w.xlen →
      RunsWord (0b000000#6 ++ shamt ++ rs1 ++ 0b001#3 ++ rd ++ 0b0010011#7) (.slli rd rs1 shamt) rd (s.ux rs1 * 2 ^ shamt.toNat : Nat) s ∧
      RunsWord (0b000000#6 ++ shamt ++ rs1 ++ 0b101#3 ++ rd ++ 0b0010011#7) (.srli rd rs1 shamt) rd (s.ux rs1 / 2 ^ shamt.toNat : Nat) s ∧
      RunsWord (0b010000#6 ++ shamt ++ rs1 ++ 0b101#3 ++ rd ++ 0b0010011#7) (.srai rd rs1 shamt) rd (s.sx rs1 / 2 ^ shamt.toNat) s) ∧
    (s.w.xlen ≤ shamt.toNat →
      decode32 s.params (0b000000#6 ++ shamt ++ rs1 ++ 0b001#3 ++ rd ++ 0b0010011#7) = none ∧ decode32 s.params (0b000000#6 ++ shamt ++ rs1 ++ 0b101#3 ++ rd ++ 0b0010011#7) = none ∧
      decode32 s.params (0b010000#6 ++ shamt ++ rs1 ++ 0b101#3 ++ rd ++ 0b0010011#7) = none)

/-- R202 to R211: the register-register instructions; shift amounts are the low `log2(XLEN)` bits. -/
def Obligations.RegisterRegisterResults : Prop :=
  ∀ (s : State) (rd rs1 rs2 : Reg), s.counter ≠ counterMax →
    RunsWord (0b0000000#7 ++ rs2 ++ rs1 ++ 0b000#3 ++ rd ++ 0b0110011#7) (.add rd rs1 rs2) rd (s.ux rs1 + s.ux rs2) s ∧
    RunsWord (0b0100000#7 ++ rs2 ++ rs1 ++ 0b000#3 ++ rd ++ 0b0110011#7) (.sub rd rs1 rs2) rd (s.ux rs1 - s.ux rs2) s ∧
    RunsWord (0b0000000#7 ++ rs2 ++ rs1 ++ 0b001#3 ++ rd ++ 0b0110011#7) (.sll rd rs1 rs2) rd (s.ux rs1 * 2 ^ (s.ux rs2 % s.w.xlen) : Nat) s ∧
    RunsWord (0b0000000#7 ++ rs2 ++ rs1 ++ 0b010#3 ++ rd ++ 0b0110011#7) (.slt rd rs1 rs2) rd (oneIf (s.sx rs1 < s.sx rs2)) s ∧
    RunsWord (0b0000000#7 ++ rs2 ++ rs1 ++ 0b011#3 ++ rd ++ 0b0110011#7) (.sltu rd rs1 rs2) rd (oneIf (s.ux rs1 < s.ux rs2)) s ∧
    RunsWord (0b0000000#7 ++ rs2 ++ rs1 ++ 0b100#3 ++ rd ++ 0b0110011#7) (.xor rd rs1 rs2) rd (s.ux rs1 ^^^ s.ux rs2 : Nat) s ∧
    RunsWord (0b0000000#7 ++ rs2 ++ rs1 ++ 0b101#3 ++ rd ++ 0b0110011#7) (.srl rd rs1 rs2) rd (s.ux rs1 / 2 ^ (s.ux rs2 % s.w.xlen) : Nat) s ∧
    RunsWord (0b0100000#7 ++ rs2 ++ rs1 ++ 0b101#3 ++ rd ++ 0b0110011#7) (.sra rd rs1 rs2) rd (s.sx rs1 / 2 ^ (s.ux rs2 % s.w.xlen)) s ∧
    RunsWord (0b0000000#7 ++ rs2 ++ rs1 ++ 0b110#3 ++ rd ++ 0b0110011#7) (.or rd rs1 rs2) rd (s.ux rs1 ||| s.ux rs2 : Nat) s ∧
    RunsWord (0b0000000#7 ++ rs2 ++ rs1 ++ 0b111#3 ++ rd ++ 0b0110011#7) (.and rd rs1 rs2) rd (s.ux rs1 &&& s.ux rs2 : Nat) s

/-- R212 to R215: the RV64 word instructions with an immediate; bits 63:32 of the source are ignored.  SLLIW with
`inst[25] = 1`, and on RV32 every one of the words, does not decode. -/
def Obligations.WordImmediateResults : Prop :=
  ∀ (s : State) (rd rs1 : Reg) (imm : BitVec 12) (sh : BitVec 5), s.counter ≠ counterMax →
    (s.w = .w8 →
      RunsWord (imm ++ rs1 ++ 0b000#3 ++ rd ++ 0b0011011#7) (.addiw rd rs1 imm) rd (signedOf 32 (s.ux rs1 + imm.toInt)) s ∧
      RunsWord (0b0000000#7 ++ sh ++ rs1 ++ 0b001#3 ++ rd ++ 0b0011011#7) (.slliw rd rs1 sh) rd (signedOf 32 (s.ux rs1 % 2 ^ 32 * 2 ^ sh.toNat : Nat)) s ∧
      RunsWord (0b0000000#7 ++ sh ++ rs1 ++ 0b101#3 ++ rd ++ 0b0011011#7) (.srliw rd rs1 sh) rd (signedOf 32 (s.ux rs1 % 2 ^ 32 / 2 ^ sh.toNat : Nat)) s ∧
      RunsWord (0b0100000#7 ++ sh ++ rs1 ++ 0b101#3 ++ rd ++ 0b0011011#7) (.sraiw rd rs1 sh) rd (signedOf 32 (s.ux rs1) / 2 ^ sh.toNat) s) ∧
    decode32 s.params (0b0000001#7 ++ sh ++ rs1 ++ 0b001#3 ++ rd ++ 0b0011011#7) = none ∧
    (s.w = .w4 →
      decode32 s.params (imm ++ rs1 ++ 0b000#3 ++ rd ++ 0b0011011#7) = none ∧ decode32 s.params (0b0000000#7 ++ sh ++ rs1 ++ 0b001#3 ++ rd ++ 0b0011011#7) = none ∧
      decode32 s.params (0b0000000#7 ++ sh ++ rs1 ++ 0b101#3 ++ rd ++ 0b0011011#7) = none ∧ decode32 s.params (0b0100000#7 ++ sh ++ rs1 ++ 0b101#3 ++ rd ++ 0b0011011#7) = none)

/-- R216 to R220: the RV64 word instructions on registers; the shift amount is the low 5 bits.  On RV32 the words do not decode.
Decisions of the spec: D33. -/
def Obligations.WordRegisterResults : Prop :=
  ∀ (s : State) (rd rs1 rs2 : Reg), s.counter ≠ counterMax →
    (s.w = .w8 →
      RunsWord (0b0000000#7 ++ rs2 ++ rs1 ++ 0b000#3 ++ rd ++ 0b0111011#7) (.addw rd rs1 rs2) rd (signedOf 32 (s.ux rs1 + s.ux rs2)) s ∧
      RunsWord (0b0100000#7 ++ rs2 ++ rs1 ++ 0b000#3 ++ rd ++ 0b0111011#7) (.subw rd rs1 rs2) rd (signedOf 32 (s.ux rs1 - s.ux rs2)) s ∧
      RunsWord (0b0000000#7 ++ rs2 ++ rs1 ++ 0b001#3 ++ rd ++ 0b0111011#7) (.sllw rd rs1 rs2) rd (signedOf 32 (s.ux rs1 % 2 ^ 32 * 2 ^ (s.ux rs2 % 32) : Nat)) s ∧
      RunsWord (0b0000000#7 ++ rs2 ++ rs1 ++ 0b101#3 ++ rd ++ 0b0111011#7) (.srlw rd rs1 rs2) rd (signedOf 32 (s.ux rs1 % 2 ^ 32 / 2 ^ (s.ux rs2 % 32) : Nat)) s ∧
      RunsWord (0b0100000#7 ++ rs2 ++ rs1 ++ 0b101#3 ++ rd ++ 0b0111011#7) (.sraw rd rs1 rs2) rd (signedOf 32 (s.ux rs1) / 2 ^ (s.ux rs2 % 32)) s) ∧
    (s.w = .w4 →
      decode32 s.params (0b0000000#7 ++ rs2 ++ rs1 ++ 0b000#3 ++ rd ++ 0b0111011#7) = none ∧ decode32 s.params (0b0100000#7 ++ rs2 ++ rs1 ++ 0b000#3 ++ rd ++ 0b0111011#7) = none ∧
      decode32 s.params (0b0000000#7 ++ rs2 ++ rs1 ++ 0b001#3 ++ rd ++ 0b0111011#7) = none ∧ decode32 s.params (0b0000000#7 ++ rs2 ++ rs1 ++ 0b101#3 ++ rd ++ 0b0111011#7) = none ∧
      decode32 s.params (0b0100000#7 ++ rs2 ++ rs1 ++ 0b101#3 ++ rd ++ 0b0111011#7) = none)

/-! ### Jumps and branches (spec/42_control_transfer.md) -/

/-- R241: JAL, for every even offset: the target from the pc of the instruction, the link `pc + 4`, discarded for x0.  It completes
whatever the target is (R240). -/
def Obligations.JumpAndLinkResult : Prop :=
  ∀ (s : State) (rd : Reg) (o : BitVec 21), s.counter ≠ counterMax → o.toNat % 2 = 0 →
    decode32 s.params (o.extractLsb' 20 1 ++ o.extractLsb' 1 10 ++ o.extractLsb' 11 1 ++ o.extractLsb' 12 8 ++ rd ++ 0b1101111#7) =
        some (.jal rd o) ∧
    Completes (.jal rd o) (s.pc.toNat + o.toInt) rd (s.pc.toNat + 4) s

/-- R242: JALR to an even sum, with `rs1` read before `rd` is written, so that `rd = rs1` works; an odd sum is refused;
`funct3` other than 0 does not decode.
Decisions of the spec: D32. -/
def Obligations.JumpRegisterResult : Prop :=
  ∀ (s : State) (rd rs1 : Reg) (imm : BitVec 12), s.counter ≠ counterMax →
    decode32 s.params (imm ++ rs1 ++ 0b000#3 ++ rd ++ 0b1100111#7) = some (.jalr rd rs1 imm) ∧
    (∀ f : BitVec 3, f ≠ 0 → decode32 s.params (imm ++ rs1 ++ f ++ rd ++ 0b1100111#7) = none) ∧
    (s.mod (s.ux rs1 + imm.toInt) % 2 = 0 →
      Completes (.jalr rd rs1 imm) (s.ux rs1 + imm.toInt) rd (s.pc.toNat + 4) s) ∧
    (s.mod (s.ux rs1 + imm.toInt) % 2 = 1 → exec (.jalr rd rs1 imm) s = .refused .jalrOddTarget)

/-- R243 to R248: the branches, taken to `pc + offset` and untaken to `pc + 4`; no branch writes a register. -/
def Obligations.BranchResults : Prop :=
  ∀ (s : State) (rs1 rs2 : Reg) (o : BitVec 13), s.counter ≠ counterMax → o.toNat % 2 = 0 →
    decode32 s.params (o.extractLsb' 12 1 ++ o.extractLsb' 5 6 ++ rs2 ++ rs1 ++ 0b000#3 ++ o.extractLsb' 1 4 ++ o.extractLsb' 11 1 ++ 0b1100011#7) =
        some (.beq rs1 rs2 o) ∧
    Completes (.beq rs1 rs2 o) (s.pc.toNat + if s.ux rs1 = s.ux rs2 then o.toInt else 4) 0 0 s ∧
    decode32 s.params (o.extractLsb' 12 1 ++ o.extractLsb' 5 6 ++ rs2 ++ rs1 ++ 0b001#3 ++ o.extractLsb' 1 4 ++ o.extractLsb' 11 1 ++ 0b1100011#7) =
        some (.bne rs1 rs2 o) ∧
    Completes (.bne rs1 rs2 o) (s.pc.toNat + if s.ux rs1 ≠ s.ux rs2 then o.toInt else 4) 0 0 s ∧
    decode32 s.params (o.extractLsb' 12 1 ++ o.extractLsb' 5 6 ++ rs2 ++ rs1 ++ 0b100#3 ++ o.extractLsb' 1 4 ++ o.extractLsb' 11 1 ++ 0b1100011#7) =
        some (.blt rs1 rs2 o) ∧
    Completes (.blt rs1 rs2 o) (s.pc.toNat + if s.sx rs1 < s.sx rs2 then o.toInt else 4) 0 0 s ∧
    decode32 s.params (o.extractLsb' 12 1 ++ o.extractLsb' 5 6 ++ rs2 ++ rs1 ++ 0b101#3 ++ o.extractLsb' 1 4 ++ o.extractLsb' 11 1 ++ 0b1100011#7) =
        some (.bge rs1 rs2 o) ∧
    Completes (.bge rs1 rs2 o) (s.pc.toNat + if s.sx rs1 ≥ s.sx rs2 then o.toInt else 4) 0 0 s ∧
    decode32 s.params (o.extractLsb' 12 1 ++ o.extractLsb' 5 6 ++ rs2 ++ rs1 ++ 0b110#3 ++ o.extractLsb' 1 4 ++ o.extractLsb' 11 1 ++ 0b1100011#7) =
        some (.bltu rs1 rs2 o) ∧
    Completes (.bltu rs1 rs2 o) (s.pc.toNat + if s.ux rs1 < s.ux rs2 then o.toInt else 4) 0 0 s ∧
    decode32 s.params (o.extractLsb' 12 1 ++ o.extractLsb' 5 6 ++ rs2 ++ rs1 ++ 0b111#3 ++ o.extractLsb' 1 4 ++ o.extractLsb' 11 1 ++ 0b1100011#7) =
        some (.bgeu rs1 rs2 o) ∧
    Completes (.bgeu rs1 rs2 o) (s.pc.toNat + if s.ux rs1 ≥ s.ux rs2 then o.toInt else 4) 0 0 s

/-! ### Loads and stores (spec/43_loads_stores.md, spec/20_memory.md) -/

/-- R261 to R267 with R260 and R70 to R73: the loads over readable bytes, inside one page or across two, at the address
`x[rs1] + immI` modulo `2^XLEN`.
Decisions of the spec: D8, D9. -/
def Obligations.LoadResults : Prop :=
  ∀ (s : State) (rd rs1 : Reg) (imm : BitVec 12) (ea : Word), s.counter ≠ counterMax → ea = s.ea rs1 imm →
    ea.toNat = s.mod (s.ux rs1 + imm.toInt) ∧
    (s.canRead ea .b1 = true →
      RunsWord (imm ++ rs1 ++ 0b000#3 ++ rd ++ 0b0000011#7) (.lb rd rs1 imm) rd (signedOf 8 (s.valueAt ea 1)) s ∧
      RunsWord (imm ++ rs1 ++ 0b100#3 ++ rd ++ 0b0000011#7) (.lbu rd rs1 imm) rd (s.valueAt ea 1) s) ∧
    (s.canRead ea .b2 = true →
      RunsWord (imm ++ rs1 ++ 0b001#3 ++ rd ++ 0b0000011#7) (.lh rd rs1 imm) rd (signedOf 16 (s.valueAt ea 2)) s ∧
      RunsWord (imm ++ rs1 ++ 0b101#3 ++ rd ++ 0b0000011#7) (.lhu rd rs1 imm) rd (s.valueAt ea 2) s) ∧
    (s.canRead ea .b4 = true →
      RunsWord (imm ++ rs1 ++ 0b010#3 ++ rd ++ 0b0000011#7) (.lw rd rs1 imm) rd (signedOf 32 (s.valueAt ea 4)) s ∧
      (s.w = .w8 → RunsWord (imm ++ rs1 ++ 0b110#3 ++ rd ++ 0b0000011#7) (.lwu rd rs1 imm) rd (s.valueAt ea 4) s)) ∧
    (s.canRead ea .b8 = true → s.w = .w8 →
      RunsWord (imm ++ rs1 ++ 0b011#3 ++ rd ++ 0b0000011#7) (.ld rd rs1 imm) rd (s.valueAt ea 8) s)

/-- R260 and the checks of R70, R71, R73: with `ALIGN_CHECK` a misaligned load faults with its address; the first byte whose page
is missing under the `Fault` policy, or has no `read`, is the detail of `PROTECTION_FAULT`.  Nothing else changes.
Decisions of the spec: D9, D11. -/
def Obligations.LoadFaults : Prop :=
  ∀ (s : State) (i : Instr) (len : Nat) (ea : Word) (z : Size) (signed : Bool) (rd : Reg), IsLoad s i len ea z signed rd →
    i.wf s.params = true →
    (s.params.alignCheck = true → ea.toNat % z.bytes ≠ 0 → Faults i .misalignedAccess ea.toNat s) ∧
    (misaligned ea z s = false → ∀ k < z.bytes, (∀ j < k, s.readable (s.byteAddr ea j) = true) →
      (s.pageAt (pageOf (s.byteAddr ea k)) = none → s.params.pageFault = .fault →
        Faults i .protectionFault (s.byteAddr ea k) s) ∧
      (∀ p, s.pageAt (pageOf (s.byteAddr ea k)) = some p → p.attr.read = false →
        Faults i .protectionFault (s.byteAddr ea k) s))

/-- R270 to R274 with R75, R76, R78, R79: the stores over storable bytes, inside one page or across two: the low bytes of `x[rs2]`,
little-endian; the reservation is no longer valid; no register and no other byte changes.
Decisions of the spec: D8, D10. -/
def Obligations.StoreResults : Prop :=
  ∀ (s : State) (rs1 rs2 : Reg) (imm : BitVec 12) (ea : Word), s.counter ≠ counterMax → ea = s.ea rs1 imm →
    ea.toNat = s.mod (s.ux rs1 + imm.toInt) ∧
    (s.canStore ea .b1 = true →
      decode32 s.params (imm.extractLsb' 5 7 ++ rs2 ++ rs1 ++ 0b000#3 ++ imm.extractLsb' 0 5 ++ 0b0100011#7) = some (.sb rs1 rs2 imm) ∧
      Stores (.sb rs1 rs2 imm) 4 ea 1 (s.ux rs2) 0 0 s) ∧
    (s.canStore ea .b2 = true →
      decode32 s.params (imm.extractLsb' 5 7 ++ rs2 ++ rs1 ++ 0b001#3 ++ imm.extractLsb' 0 5 ++ 0b0100011#7) = some (.sh rs1 rs2 imm) ∧
      Stores (.sh rs1 rs2 imm) 4 ea 2 (s.ux rs2) 0 0 s) ∧
    (s.canStore ea .b4 = true →
      decode32 s.params (imm.extractLsb' 5 7 ++ rs2 ++ rs1 ++ 0b010#3 ++ imm.extractLsb' 0 5 ++ 0b0100011#7) = some (.sw rs1 rs2 imm) ∧
      Stores (.sw rs1 rs2 imm) 4 ea 4 (s.ux rs2) 0 0 s) ∧
    (s.canStore ea .b8 = true → s.w = .w8 →
      decode32 s.params (imm.extractLsb' 5 7 ++ rs2 ++ rs1 ++ 0b011#3 ++ imm.extractLsb' 0 5 ++ 0b0100011#7) = some (.sd rs1 rs2 imm) ∧
      Stores (.sd rs1 rs2 imm) 4 ea 8 (s.ux rs2) 0 0 s)

/-- R260, R75, R76, R79: a misaligned store with `ALIGN_CHECK`, a store to a missing page under the `Fault` policy and a store to a
page without `write` fault with the address and change nothing; a store into a constant execute segment is refused.  That a page
without `write` is reported before the constant segment is log entry 9 (DEDUCED).
Decisions of the spec: D10, D11, D19. -/
def Obligations.StoreFaults : Prop :=
  ∀ (s : State) (i : Instr) (len : Nat) (ea : Word) (z : Size) (v : Word), IsStore s i len ea z v → i.wf s.params = true →
    (s.params.alignCheck = true → ea.toNat % z.bytes ≠ 0 → Faults i .misalignedAccess ea.toNat s) ∧
    (misaligned ea z s = false → s.pageAt (pageOf ea.toNat) = none → s.params.pageFault = .fault →
      Faults i .protectionFault ea.toNat s) ∧
    (misaligned ea z s = false → ∀ p, s.pageAt (pageOf ea.toNat) = some p → p.variant ≠ .sharedRO →
      (p.attr.write = false → Faults i .protectionFault ea.toNat s) ∧
      (p.attr.write = true → inOnePage ea.toNat z.bytes = true → s.params.execConstant = true →
        (∃ k < z.bytes, s.inExecSegment (ea.toNat + k) = true) →
        exec i s = .refused .storeToConstantExecSegment))

/-- R54, R76, R77: a store inside one SharedRO page under the default page-write callback: the page becomes Owned with the same
attributes and the bytes of the store, and no other page or byte changes; beyond `MEMORY_MAX` it faults with the page's first
address (R61); without `write` it faults and the promotion stays (R410 item 2).  That the promotion and its own fault come before the
check of `write` is log entry 8 (DEDUCED).
Decisions of the spec: D10, D12. -/
def Obligations.SharedPageStore : Prop :=
  ∀ (s : State) (i : Instr) (len : Nat) (ea : Word) (z : Size) (v : Word) (p : Page), IsStore s i len ea z v →
    i.wf s.params = true → s.counter ≠ counterMax → misaligned ea z s = false → inOnePage ea.toNat z.bytes = true →
    s.pageAt (pageOf ea.toNat) = some p → p.variant = .sharedRO → s.pageWriteCallback = none → s.params.execConstant = false →
    (s.outOfMemory = false → ∃ t, exec i s = .next t ∧
      t.pageAt (pageOf ea.toNat) = some ⟨p.attr, .owned⟩ ∧ (∀ n, n ≠ pageOf ea.toNat → t.pageAt n = s.pageAt n) ∧
      (p.attr.write = true →
        Retired s t (s.pc.toNat + len) 0 0 ∧ s.BytesStored t ea z.bytes v.toNat ∧
        t.resv = { s.resv with valid := false } ∧ s.SameControl t) ∧
      (p.attr.write = false →
        t.status = .trapped .protectionFault ea.toNat ∧ t.run = none ∧ t.pc = s.pc ∧ t.counter = s.counter ∧
        (∀ r, t.x r = s.x r) ∧ (∀ a, t.byte a = s.byte a) ∧ (∀ h, t.get (.host h) = s.get (.host h)) ∧ t.resv = s.resv)) ∧
    (s.outOfMemory = true → Faults i .outOfMemory (pageOf ea.toNat * pageSize) s)

/-- R78, R410 item 1: a store that faults at byte `k > 0` leaves the bytes before it all written or all unchanged, whichever is drawn,
and changes nothing else.  That a byte without `write` faults although it lies in a constant execute segment is log entry 9
(DEDUCED).
Decisions of the spec: D14. -/
def Obligations.StraddlingStoreFault : Prop :=
  ∀ (s : State) (i : Instr) (len : Nat) (ea : Word) (z : Size) (v : Word) (k : Nat), IsStore s i len ea z v →
    i.wf s.params = true → misaligned ea z s = false → 0 < k → k < z.bytes →
    (∀ j < k, s.storable (s.byteAddr ea j) = true) →
    ((s.pageAt (pageOf (s.byteAddr ea k)) = none ∧ s.params.pageFault = .fault) ∨
      ∃ p, s.pageAt (pageOf (s.byteAddr ea k)) = some p ∧ p.attr.write = false ∧ p.variant ≠ .sharedRO) →
    ∃ t, exec i s = .next t ∧ t.status = .trapped .protectionFault (s.byteAddr ea k) ∧ t.run = none ∧
      t.hostResult = .failed .protectionFault (s.byteAddr ea k) ∧ (∀ r, t.x r = s.x r) ∧ t.pc = s.pc ∧
      t.counter = s.counter ∧ t.stopped = s.stopped ∧ t.resv = s.resv ∧ t.pages = s.pages ∧ s.SameFixed t ∧
      (s.BytesStored t ea k v.toNat ∨ s.SameMemory t)

/-- R55, R71, R76, R79, R274, R436: an access inside one Trap page calls the page's callback, a load with 0, the offset in the page and
the width, a store with 1, the offset, the width and the value.  For a callback that writes a register and then answers `v`, a load
gets the low bytes of `v`, a store completes and ends the reservation, and no byte and no page changes; one that fails ends the step
with its tag (R401, R410 item 3).
Decisions of the spec: D15, D9. -/
def Obligations.DeviceAccess : Prop :=
  ∀ (s : State) (p : Page) (cb : Nat) (buf : Option HostAddr) (a : HostAnswer) (v u : Word) (q : Reg), s.counter ≠ counterMax →
    p.variant = .trap cb buf → a.acts = [.setReg q u] → a.value = .lit v →
    (∀ i len ea z signed rd, IsLoad s i len ea z signed rd → i.wf s.params = true → misaligned ea z s = false →
      inOnePage ea.toNat z.bytes = true → s.pageAt (pageOf ea.toNat) = some p → p.attr.read = true →
      answerOf cb [0, ea.toNat % pageSize, z.bytes] s = a →
      (a.failure = none → ∃ t, exec i s = .next t ∧
        Retired (s.setReg q u) t (s.pc.toNat + len) rd (extended z signed (v.toNat % 2 ^ (8 * z.bytes))) ∧ s.ResvDrawn t ∧
        s.SameMemory t ∧ { s with hostResult := .ok }.SameControl t) ∧
      (∀ tag detail, a.failure = some (tag, detail) → HostFails i q u tag detail s)) ∧
    (∀ i len ea z w, IsStore s i len ea z w → i.wf s.params = true → misaligned ea z s = false →
      inOnePage ea.toNat z.bytes = true → s.pageAt (pageOf ea.toNat) = some p → p.attr.write = true →
      s.params.execConstant = false →
      answerOf cb [1, ea.toNat % pageSize, z.bytes, w.toNat % 2 ^ (8 * z.bytes)] s = a →
      (a.failure = none → ∃ t, exec i s = .next t ∧ Retired (s.setReg q u) t (s.pc.toNat + len) 0 0 ∧
        t.resv = { s.resv with valid := false } ∧ s.SameMemory t ∧ { s with hostResult := .ok }.SameControl t) ∧
      (∀ tag detail, a.failure = some (tag, detail) → HostFails i q u tag detail s))

/-- R60, R61 under the `ZeroRW` policy: an access inside one missing page installs an Owned zero page with `read` and `write` and goes
on with it: a load gives 0, a store leaves its bytes there, an atomic executes as on that page.  Beyond `MEMORY_MAX` the access faults
with the page's first address and changes nothing.
Decisions of the spec: D11, D12. -/
def Obligations.ZeroPageOnDemand : Prop :=
  ∀ (s : State) (i : Instr) (ea : Word) (z : Size), i.wf s.params = true → s.counter ≠ counterMax → s.PagesWf →
    misaligned ea z s = false → inOnePage ea.toNat z.bytes = true → s.pageAt (pageOf ea.toNat) = none →
    s.params.pageFault = .zeroRW →
    (∀ len signed rd, IsLoad s i len ea z signed rd → s.outOfMemory = false → ∃ t, exec i s = .next t ∧
      Retired s t (s.pc.toNat + len) rd 0 ∧ t.pageAt (pageOf ea.toNat) = some ⟨⟨true, true, false⟩, .owned⟩ ∧
      (∀ n, n ≠ pageOf ea.toNat → t.pageAt n = s.pageAt n) ∧ (∀ a, t.byte a = s.byte a) ∧
      (∀ h, t.get (.host h) = s.get (.host h)) ∧ t.resv = s.resv ∧ s.SameControl t) ∧
    (∀ len v, IsStore s i len ea z v → s.params.execConstant = false → s.outOfMemory = false → ∃ t, exec i s = .next t ∧
      Retired s t (s.pc.toNat + len) 0 0 ∧ t.pageAt (pageOf ea.toNat) = some ⟨⟨true, true, false⟩, .owned⟩ ∧
      (∀ n, n ≠ pageOf ea.toNat → t.pageAt n = s.pageAt n) ∧ s.BytesStored t ea z.bytes v.toNat ∧
      t.resv = { s.resv with valid := false } ∧ s.SameControl t) ∧
    (∀ reads writes, IsAtomic s i ea z reads writes → (reads = true ∨ s.Reserves ea z) → ea.toNat % z.bytes = 0 →
      s.outOfMemory = false → ∃ u, ZeroPageInstalled s u (pageOf ea.toNat) ∧ exec i s = exec i u) ∧
    (s.outOfMemory = true →
      ((∃ len signed rd, IsLoad s i len ea z signed rd) ∨ (∃ len v, IsStore s i len ea z v) ∨
        (∃ reads writes, IsAtomic s i ea z reads writes ∧ (reads = true ∨ s.Reserves ea z) ∧ ea.toNat % z.bytes = 0)) →
      Faults i .outOfMemory (pageOf ea.toNat * pageSize) s)

/-- R80, R85: over bytes of pages that are not Trap pages, and that stand at different places, a write completes and a read of the same
width at the same address then gives the value written.  The bytes of an access stand at different places wherever it lies inside one
page or in pages whose bytes are the Machine's own. -/
def Obligations.ReadAfterWrite : Prop :=
  ∀ (s : State) (a : Word) (z : Size) (v : Word), wrap s.w a = a →
    (s.canStore a z = true → s.canRead a z = true →
      (∀ j k, j < z.bytes → k < z.bytes → s.place (s.byteAddr a j) = s.place (s.byteAddr a k) → j = k) →
      ∃ t, memWrite a z v s = .done () t false ∧ memRead a z t = .done (z.zext v) t false) ∧
    ((inOnePage a.toNat z.bytes = true ∨ ∀ k < z.bytes, s.place (s.byteAddr a k) = .guest (s.byteAddr a k)) →
      ∀ j k, j < z.bytes → k < z.bytes → s.place (s.byteAddr a j) = s.place (s.byteAddr a k) → j = k)

/-! ### Atomics (spec/44_atomics.md) -/

/-- R283, R380: LR loads, sign-extends and reserves its address and width; `rd = x0` still reserves.
Decisions of the spec: D21, D22. -/
def Obligations.LoadReservedResults : Prop :=
  ∀ (s : State) (rd rs1 : Reg) (aq rl : Bool), s.counter ≠ counterMax → s.params.extA = true →
    (s.canRead (s.x rs1) .b4 = true → (s.x rs1).toNat % 4 = 0 →
      decode32 s.params (0b00010#5 ++ BitVec.ofBool aq ++ BitVec.ofBool rl ++ 0b00000#5 ++ rs1 ++ 0b010#3 ++ rd ++ 0b0101111#7) = some (.lrW rd rs1 aq rl) ∧
      ∃ t, exec (.lrW rd rs1 aq rl) s = .next t ∧
        Retired s t (s.pc.toNat + 4) rd (signedOf 32 (s.valueAt (s.x rs1) 4)) ∧
        t.resv = ⟨true, s.x rs1, .w4⟩ ∧ s.SameMemory t ∧ s.SameControl t) ∧
    (s.canRead (s.x rs1) .b8 = true → (s.x rs1).toNat % 8 = 0 → s.w = .w8 →
      decode32 s.params (0b00010#5 ++ BitVec.ofBool aq ++ BitVec.ofBool rl ++ 0b00000#5 ++ rs1 ++ 0b011#3 ++ rd ++ 0b0101111#7) = some (.lrD rd rs1 aq rl) ∧
      ∃ t, exec (.lrD rd rs1 aq rl) s = .next t ∧
        Retired s t (s.pc.toNat + 4) rd (signedOf 64 (s.valueAt (s.x rs1) 8)) ∧
        t.resv = ⟨true, s.x rs1, .w8⟩ ∧ s.SameMemory t ∧ s.SameControl t)

/-- R284, R381: SC on a reservation of its address and width stores and writes 0; on any other it writes 1 and touches no memory;
either way the reservation ends.
Decisions of the spec: D21, D22. -/
def Obligations.StoreConditionalResults : Prop :=
  ∀ (s : State) (rd rs1 rs2 : Reg) (aq rl : Bool), s.counter ≠ counterMax → s.params.extA = true →
    ((s.x rs1).toNat % 4 = 0 →
      decode32 s.params (0b00011#5 ++ BitVec.ofBool aq ++ BitVec.ofBool rl ++ rs2 ++ rs1 ++ 0b010#3 ++ rd ++ 0b0101111#7) = some (.scW rd rs1 rs2 aq rl) ∧
      (s.resv = ⟨true, s.x rs1, .w4⟩ → s.canStore (s.x rs1) .b4 = true →
        Stores (.scW rd rs1 rs2 aq rl) 4 (s.x rs1) 4 (s.ux rs2) rd 0 s) ∧
      (¬(s.resv.valid = true ∧ s.resv.addr = s.x rs1 ∧ s.resv.width = .w4) →
        ∃ t, exec (.scW rd rs1 rs2 aq rl) s = .next t ∧ Retired s t (s.pc.toNat + 4) rd 1 ∧
          t.resv = { s.resv with valid := false } ∧ s.SameMemory t ∧ s.SameControl t)) ∧
    ((s.x rs1).toNat % 8 = 0 → s.w = .w8 →
      decode32 s.params (0b00011#5 ++ BitVec.ofBool aq ++ BitVec.ofBool rl ++ rs2 ++ rs1 ++ 0b011#3 ++ rd ++ 0b0101111#7) = some (.scD rd rs1 rs2 aq rl) ∧
      (s.resv = ⟨true, s.x rs1, .w8⟩ → s.canStore (s.x rs1) .b8 = true →
        Stores (.scD rd rs1 rs2 aq rl) 4 (s.x rs1) 8 (s.ux rs2) rd 0 s) ∧
      (¬(s.resv.valid = true ∧ s.resv.addr = s.x rs1 ∧ s.resv.width = .w8) →
        ∃ t, exec (.scD rd rs1 rs2 aq rl) s = .next t ∧ Retired s t (s.pc.toNat + 4) rd 1 ∧
          t.resv = { s.resv with valid := false } ∧ s.SameMemory t ∧ s.SameControl t))

/-- R285 to R293 with R294: each AMO over readable and storable bytes writes `op(old, x[rs2])` to memory and the old value, sign-extended,
to `rd`; the reservation ends. -/
def Obligations.AmoWordResults : Prop :=
  ∀ (s : State) (rd rs1 rs2 : Reg) (aq rl : Bool), s.counter ≠ counterMax → s.params.extA = true →
    (s.x rs1).toNat % 4 = 0 → s.canRead (s.x rs1) .b4 = true → s.canStore (s.x rs1) .b4 = true →
    RunsAmo (0b00001#5 ++ BitVec.ofBool aq ++ BitVec.ofBool rl ++ rs2 ++ rs1 ++ 0b010#3 ++ rd ++ 0b0101111#7) (.amoswapW rd rs1 rs2 aq rl) .b4 rd rs1
      (s.ux rs2 % 2 ^ 32) s ∧
    RunsAmo (0b00000#5 ++ BitVec.ofBool aq ++ BitVec.ofBool rl ++ rs2 ++ rs1 ++ 0b010#3 ++ rd ++ 0b0101111#7) (.amoaddW rd rs1 rs2 aq rl) .b4 rd rs1
      ((s.valueAt (s.x rs1) 4) + (s.ux rs2 % 2 ^ 32) : Nat) s ∧
    RunsAmo (0b00100#5 ++ BitVec.ofBool aq ++ BitVec.ofBool rl ++ rs2 ++ rs1 ++ 0b010#3 ++ rd ++ 0b0101111#7) (.amoxorW rd rs1 rs2 aq rl) .b4 rd rs1
      ((s.valueAt (s.x rs1) 4) ^^^ (s.ux rs2 % 2 ^ 32) : Nat) s ∧
    RunsAmo (0b01100#5 ++ BitVec.ofBool aq ++ BitVec.ofBool rl ++ rs2 ++ rs1 ++ 0b010#3 ++ rd ++ 0b0101111#7) (.amoandW rd rs1 rs2 aq rl) .b4 rd rs1
      ((s.valueAt (s.x rs1) 4) &&& (s.ux rs2 % 2 ^ 32) : Nat) s ∧
    RunsAmo (0b01000#5 ++ BitVec.ofBool aq ++ BitVec.ofBool rl ++ rs2 ++ rs1 ++ 0b010#3 ++ rd ++ 0b0101111#7) (.amoorW rd rs1 rs2 aq rl) .b4 rd rs1
      ((s.valueAt (s.x rs1) 4) ||| (s.ux rs2 % 2 ^ 32) : Nat) s ∧
    RunsAmo (0b10000#5 ++ BitVec.ofBool aq ++ BitVec.ofBool rl ++ rs2 ++ rs1 ++ 0b010#3 ++ rd ++ 0b0101111#7) (.amominW rd rs1 rs2 aq rl) .b4 rd rs1
      (if signedOf 32 (s.valueAt (s.x rs1) 4) < signedOf 32 (s.ux rs2 % 2 ^ 32) then signedOf 32 (s.valueAt (s.x rs1) 4) else signedOf 32 (s.ux rs2 % 2 ^ 32)) s ∧
    RunsAmo (0b10100#5 ++ BitVec.ofBool aq ++ BitVec.ofBool rl ++ rs2 ++ rs1 ++ 0b010#3 ++ rd ++ 0b0101111#7) (.amomaxW rd rs1 rs2 aq rl) .b4 rd rs1
      (if signedOf 32 (s.valueAt (s.x rs1) 4) > signedOf 32 (s.ux rs2 % 2 ^ 32) then signedOf 32 (s.valueAt (s.x rs1) 4) else signedOf 32 (s.ux rs2 % 2 ^ 32)) s ∧
    RunsAmo (0b11000#5 ++ BitVec.ofBool aq ++ BitVec.ofBool rl ++ rs2 ++ rs1 ++ 0b010#3 ++ rd ++ 0b0101111#7) (.amominuW rd rs1 rs2 aq rl) .b4 rd rs1
      (if (s.valueAt (s.x rs1) 4) < (s.ux rs2 % 2 ^ 32) then (s.valueAt (s.x rs1) 4) else (s.ux rs2 % 2 ^ 32) : Nat) s ∧
    RunsAmo (0b11100#5 ++ BitVec.ofBool aq ++ BitVec.ofBool rl ++ rs2 ++ rs1 ++ 0b010#3 ++ rd ++ 0b0101111#7) (.amomaxuW rd rs1 rs2 aq rl) .b4 rd rs1
      (if (s.valueAt (s.x rs1) 4) > (s.ux rs2 % 2 ^ 32) then (s.valueAt (s.x rs1) 4) else (s.ux rs2 % 2 ^ 32) : Nat) s

/-- R382 to R390 with R294: each AMO over readable and storable bytes writes `op(old, x[rs2])` to memory and the old value, sign-extended,
to `rd`; the reservation ends. -/
def Obligations.AmoDoublewordResults : Prop :=
  ∀ (s : State) (rd rs1 rs2 : Reg) (aq rl : Bool), s.counter ≠ counterMax → s.params.extA = true → s.w = .w8 →
    (s.x rs1).toNat % 8 = 0 → s.canRead (s.x rs1) .b8 = true → s.canStore (s.x rs1) .b8 = true →
    RunsAmo (0b00001#5 ++ BitVec.ofBool aq ++ BitVec.ofBool rl ++ rs2 ++ rs1 ++ 0b011#3 ++ rd ++ 0b0101111#7) (.amoswapD rd rs1 rs2 aq rl) .b8 rd rs1
      (s.ux rs2 % 2 ^ 64) s ∧
    RunsAmo (0b00000#5 ++ BitVec.ofBool aq ++ BitVec.ofBool rl ++ rs2 ++ rs1 ++ 0b011#3 ++ rd ++ 0b0101111#7) (.amoaddD rd rs1 rs2 aq rl) .b8 rd rs1
      ((s.valueAt (s.x rs1) 8) + (s.ux rs2 % 2 ^ 64) : Nat) s ∧
    RunsAmo (0b00100#5 ++ BitVec.ofBool aq ++ BitVec.ofBool rl ++ rs2 ++ rs1 ++ 0b011#3 ++ rd ++ 0b0101111#7) (.amoxorD rd rs1 rs2 aq rl) .b8 rd rs1
      ((s.valueAt (s.x rs1) 8) ^^^ (s.ux rs2 % 2 ^ 64) : Nat) s ∧
    RunsAmo (0b01100#5 ++ BitVec.ofBool aq ++ BitVec.ofBool rl ++ rs2 ++ rs1 ++ 0b011#3 ++ rd ++ 0b0101111#7) (.amoandD rd rs1 rs2 aq rl) .b8 rd rs1
      ((s.valueAt (s.x rs1) 8) &&& (s.ux rs2 % 2 ^ 64) : Nat) s ∧
    RunsAmo (0b01000#5 ++ BitVec.ofBool aq ++ BitVec.ofBool rl ++ rs2 ++ rs1 ++ 0b011#3 ++ rd ++ 0b0101111#7) (.amoorD rd rs1 rs2 aq rl) .b8 rd rs1
      ((s.valueAt (s.x rs1) 8) ||| (s.ux rs2 % 2 ^ 64) : Nat) s ∧
    RunsAmo (0b10000#5 ++ BitVec.ofBool aq ++ BitVec.ofBool rl ++ rs2 ++ rs1 ++ 0b011#3 ++ rd ++ 0b0101111#7) (.amominD rd rs1 rs2 aq rl) .b8 rd rs1
      (if signedOf 64 (s.valueAt (s.x rs1) 8) < signedOf 64 (s.ux rs2 % 2 ^ 64) then signedOf 64 (s.valueAt (s.x rs1) 8) else signedOf 64 (s.ux rs2 % 2 ^ 64)) s ∧
    RunsAmo (0b10100#5 ++ BitVec.ofBool aq ++ BitVec.ofBool rl ++ rs2 ++ rs1 ++ 0b011#3 ++ rd ++ 0b0101111#7) (.amomaxD rd rs1 rs2 aq rl) .b8 rd rs1
      (if signedOf 64 (s.valueAt (s.x rs1) 8) > signedOf 64 (s.ux rs2 % 2 ^ 64) then signedOf 64 (s.valueAt (s.x rs1) 8) else signedOf 64 (s.ux rs2 % 2 ^ 64)) s ∧
    RunsAmo (0b11000#5 ++ BitVec.ofBool aq ++ BitVec.ofBool rl ++ rs2 ++ rs1 ++ 0b011#3 ++ rd ++ 0b0101111#7) (.amominuD rd rs1 rs2 aq rl) .b8 rd rs1
      (if (s.valueAt (s.x rs1) 8) < (s.ux rs2 % 2 ^ 64) then (s.valueAt (s.x rs1) 8) else (s.ux rs2 % 2 ^ 64) : Nat) s ∧
    RunsAmo (0b11100#5 ++ BitVec.ofBool aq ++ BitVec.ofBool rl ++ rs2 ++ rs1 ++ 0b011#3 ++ rd ++ 0b0101111#7) (.amomaxuD rd rs1 rs2 aq rl) .b8 rd rs1
      (if (s.valueAt (s.x rs1) 8) > (s.ux rs2 % 2 ^ 64) then (s.valueAt (s.x rs1) 8) else (s.ux rs2 % 2 ^ 64) : Nat) s

/-- R280, R282, R284, R294: an atomic at an address that is not a multiple of its width faults whatever `ALIGN_CHECK` is; where the
machine has no such instruction (`EXT_A = false`, a doubleword form on RV32) its word does not decode; an LR or AMO on a page without
`read`, an AMO on a page with `read` and no `write`, an SC with a matching reservation on a page without `write`, and an LR, an AMO or
such an SC on a missing page under the `Fault` policy fault with the address.  Nothing else changes, the reservation included.
That `exec` of an atomic the machine lacks is that fault is log entry 24 (DEDUCED); that a page without `write` is reported before a
constant execute segment is log entry 9 (DEDUCED).
Decisions of the spec: D11, D21, D24. -/
def Obligations.AtomicFaults : Prop :=
  ∀ (s : State) (i : Instr) (a : Word) (z : Size) (reads writes : Bool), IsAtomic s i a z reads writes →
    (i.wf s.params = true → a.toNat % z.bytes ≠ 0 → Faults i .misalignedAccess a.toNat s) ∧
    (i.wf s.params = false → ∀ w, encode i = .word w → decode32 s.params w = none ∧
      Faults i .unimplementedInstruction w.toNat s) ∧
    (i.wf s.params = true → a.toNat % z.bytes = 0 → ∀ p, s.pageAt (pageOf a.toNat) = some p →
      (reads = true → p.attr.read = false → Faults i .protectionFault a.toNat s) ∧
      (writes = true → p.attr.read = true → p.attr.write = false → p.variant ≠ .sharedRO → isTrapPage p = false →
        Faults i .protectionFault a.toNat s) ∧
      (reads = false → s.Reserves a z → p.attr.write = false → p.variant ≠ .sharedRO →
        Faults i .protectionFault a.toNat s)) ∧
    (i.wf s.params = true → a.toNat % z.bytes = 0 → s.pageAt (pageOf a.toNat) = none → s.params.pageFault = .fault →
      (reads = true ∨ s.Reserves a z) → Faults i .protectionFault a.toNat s)

/-! ### System (spec/45_system.md, spec/60_exceptions.md) -/

/-- R300: FENCE, with any `fm`, `pred`, `succ`, `rs1` and `rd`, only advances the pc by 4 and retires.
Decisions of the spec: D20. -/
def Obligations.FenceResult : Prop :=
  ∀ (s : State) (fm pred succ : BitVec 4) (rs1 rd : Reg), s.counter ≠ counterMax →
    RunsWord (fm ++ pred ++ succ ++ rs1 ++ 0b000#3 ++ rd ++ 0b0001111#7) (.fence fm pred succ rs1 rd) 0 0 s

/-- R302 to R304, R351, R432: ECALL with number `a7`, EBREAK and C.EBREAK with number `SYSCALL_EBREAK`, where a handler is installed
that answers `v` and does nothing else: `a0` gets `v` unless the number is `SYSCALL_EBREAK`; the call retires.
Decisions of the spec: D34, D35, D37. -/
def Obligations.SystemCallHit : Prop :=
  ∀ (s : State) (n h : Nat) (a : HostAnswer) (v : Word), s.counter ≠ counterMax → SMap.find s.handlers n = some h →
    SMap.find s.scripts h = some a → a.acts = [] → a.failure = none → a.value = .lit v →
    decode32 s.params 0x00000073#32 = some .ecall ∧ decode32 s.params 0x00100073#32 = some .ebreak ∧
    (n = s.ux 17 → n ≠ s.mod s.params.syscallEbreak.toNat →
      CompletesAfterHost .ecall (s.pc.toNat + 4) 10 v.toNat s) ∧
    (n = s.ux 17 → n = s.mod s.params.syscallEbreak.toNat → CompletesAfterHost .ecall (s.pc.toNat + 4) 0 0 s) ∧
    (n = s.mod s.params.syscallEbreak.toNat →
      CompletesAfterHost .ebreak (s.pc.toNat + 4) 0 0 s ∧
      (s.params.extC = true →
        decode16 s.params 0x9002#16 = some .cEbreak ∧ CompletesAfterHost .cEbreak (s.pc.toNat + 2) 0 0 s))

/-- R304: without a handler the call faults with `UNHANDLED_SYSCALL(n)` when `THROW_ON_UNHANDLED_SYSCALL`; else `a0` gets `-ENOSYS`, or,
for `SYSCALL_EBREAK`, its old value or `-ENOSYS`, whichever is drawn.
Decisions of the spec: D34, D36, C3. -/
def Obligations.SystemCallMiss : Prop :=
  ∀ (s : State) (n : Nat), s.counter ≠ counterMax → SMap.find s.handlers n = none →
    (s.params.throwOnUnhandledSyscall = true →
      (n = s.ux 17 → Faults .ecall .unhandledSyscall n s) ∧
      (n = s.mod s.params.syscallEbreak.toNat →
        Faults .ebreak .unhandledSyscall n s ∧ (s.params.extC = true → Faults .cEbreak .unhandledSyscall n s))) ∧
    (s.params.throwOnUnhandledSyscall = false →
      (n = s.ux 17 → n ≠ s.mod s.params.syscallEbreak.toNat →
        Completes .ecall (s.pc.toNat + 4) 10 (-s.params.enosys.toNat) s) ∧
      (n = s.mod s.params.syscallEbreak.toNat →
        (n = s.ux 17 → Completes .ecall (s.pc.toNat + 4) 10 (s.ux 10) s ∨
          Completes .ecall (s.pc.toNat + 4) 10 (-s.params.enosys.toNat) s) ∧
        (Completes .ebreak (s.pc.toNat + 4) 10 (s.ux 10) s ∨
          Completes .ebreak (s.pc.toNat + 4) 10 (-s.params.enosys.toNat) s) ∧
        (s.params.extC = true → Completes .cEbreak (s.pc.toNat + 2) 10 (s.ux 10) s ∨
          Completes .cEbreak (s.pc.toNat + 2) 10 (-s.params.enosys.toNat) s)))

/-- R26, R170, R433, R484: a handler that calls `stop()` lets its ECALL complete, with the `a0` write, the advance and the retirement,
and the next turn of the run ends it with status Stopped and executes nothing.
Decisions of the spec: D35. -/
def Obligations.SystemCallStops : Prop :=
  ∀ (s : State) (h : Nat) (a : HostAnswer) (v : Word) (r : Run), s.counter ≠ counterMax → SMap.find s.handlers (s.ux 17) = some h →
    s.ux 17 ≠ s.mod s.params.syscallEbreak.toNat → SMap.find s.scripts h = some a → a.acts = [.stop] → a.failure = none →
    a.value = .lit v → s.run = some r →
    ∃ t u, exec .ecall s = .next t ∧ Retired s t (s.pc.toNat + 4) 10 v.toNat ∧ t.stopped = true ∧ t.status = s.status ∧
      t.run = s.run ∧ s.SameMemory t ∧
      step t = .next u ∧ u.status = .stopped ∧ u.run = none ∧ u.hostResult = .ok ∧ u.counter = t.counter ∧ u.pc = t.pc ∧
      (∀ q, u.x q = t.x q) ∧ (atBoundary t).SameMemory u

/-- R433: a handler that sets the pc keeps the loop from advancing it; the ECALL retires with its `a0` write.
Decisions of the spec: D35. -/
def Obligations.SystemCallSetsPc : Prop :=
  ∀ (s : State) (h : Nat) (a : HostAnswer) (v target : Word), s.counter ≠ counterMax → SMap.find s.handlers (s.ux 17) = some h →
    s.ux 17 ≠ s.mod s.params.syscallEbreak.toNat → SMap.find s.scripts h = some a → a.acts = [.setPc target] →
    a.failure = none → a.value = .lit v →
    ∃ t, exec .ecall s = .next t ∧ Retired s t target.toNat 10 v.toNat ∧ t.stopped = s.stopped ∧ t.status = s.status ∧
      t.run = s.run ∧ s.SameMemory t ∧ s.SameFixed t ∧ s.ResvDrawn t

/-- R401, R410 item 3, R421, R432: a handler that writes a register and then fails ends the step with the tag and the detail it chose, and
one whose host operation fails (here `setup_call` with more than 8 arguments, R443) ends it with that operation's; the write
stands, `a0` is not written by the call, the pc and the counter are as they were.  That a failed operation ends the handler at once is
log entry 20 (DEDUCED).
Decisions of the spec: D28, D35, D42. -/
def Obligations.SystemCallFails : Prop :=
  ∀ (s : State) (h : Nat) (a : HostAnswer) (r : Reg) (u : Word), SMap.find s.handlers (s.ux 17) = some h →
    SMap.find s.scripts h = some a →
    (∀ tag detail, a.acts = [.setReg r u] → a.failure = some (tag, detail) → HostFails .ecall r u tag detail s) ∧
    (∀ call ret args acts, a.acts = .setReg r u :: .setupCall call ret args :: acts → 8 < args.length →
      HostFails .ecall r u .invalidArgument args.length s)

/-- R301, R305, R306, R307: the 32-bit rows this block has no instruction for (FENCE.I, M, Zicsr, the privileged and the floating-point
words) fault with `UNIMPLEMENTED_INSTRUCTION` and the word, and change nothing else.
Decisions of the spec: D1, D20, D45. -/
def Obligations.UnimplementedWords : Prop :=
  ∀ (s : State) (imm : BitVec 12) (f3 : BitVec 3) (rd rs1 rs2 : Reg) (high : BitVec 25),
    UnimplementedWord (imm ++ rs1 ++ 0b001#3 ++ rd ++ 0b0001111#7) (.fenceI imm rs1 rd) s ∧
    UnimplementedWord (0b0000001#7 ++ rs2 ++ rs1 ++ f3 ++ rd ++ 0b0110011#7) (.mulDiv f3 rd rs1 rs2) s ∧
    (s.w = .w8 →
      UnimplementedWord (0b0000001#7 ++ rs2 ++ rs1 ++ f3 ++ rd ++ 0b0111011#7) (.mulDivW f3 rd rs1 rs2) s) ∧
    UnimplementedWord (imm ++ rs1 ++ 0b001#3 ++ rd ++ 0b1110011#7) (.csrrw imm rs1 rd) s ∧
    UnimplementedWord (imm ++ rs1 ++ 0b010#3 ++ rd ++ 0b1110011#7) (.csrrs imm rs1 rd) s ∧
    UnimplementedWord (imm ++ rs1 ++ 0b011#3 ++ rd ++ 0b1110011#7) (.csrrc imm rs1 rd) s ∧
    UnimplementedWord (imm ++ rs1 ++ 0b101#3 ++ rd ++ 0b1110011#7) (.csrrwi imm rs1 rd) s ∧
    UnimplementedWord (imm ++ rs1 ++ 0b110#3 ++ rd ++ 0b1110011#7) (.csrrsi imm rs1 rd) s ∧
    UnimplementedWord (imm ++ rs1 ++ 0b111#3 ++ rd ++ 0b1110011#7) (.csrrci imm rs1 rd) s ∧
    UnimplementedWord (imm ++ rs1 ++ 0b100#3 ++ rd ++ 0b1110011#7) (.systemFunct3_4 imm rs1 rd) s ∧
    UnimplementedWord 0x00200073#32 .uret s ∧
    UnimplementedWord 0x10200073#32 .sret s ∧
    UnimplementedWord 0x30200073#32 .mret s ∧
    UnimplementedWord 0x10500073#32 .wfi s ∧
    UnimplementedWord (0b0001001#7 ++ rs2 ++ rs1 ++ 0b000#3 ++ 0b00000#5 ++ 0b1110011#7) (.sfenceVma rs1 rs2) s ∧
    UnimplementedWord (high ++ 0b0000111#7) (.loadFp high) s ∧
    UnimplementedWord (high ++ 0b0100111#7) (.storeFp high) s ∧
    UnimplementedWord (high ++ 0b1000011#7) (.fmadd high) s ∧
    UnimplementedWord (high ++ 0b1000111#7) (.fmsub high) s ∧
    UnimplementedWord (high ++ 0b1001011#7) (.fnmsub high) s ∧
    UnimplementedWord (high ++ 0b1001111#7) (.fnmadd high) s ∧
    UnimplementedWord (high ++ 0b1010011#7) (.opFp high) s

/-- R321: the 16-bit rows this block has no instruction for (the floating-point loads and stores, the reserved slot of quadrant 0, the
all-zero halfword) fault with `UNIMPLEMENTED_INSTRUCTION` and the halfword, and change nothing else.
Decisions of the spec: D25. -/
def Obligations.UnimplementedHalves : Prop :=
  ∀ (s : State) (mid : BitVec 11), s.params.extC = true →
    UnimplementedHalf (0b001#3 ++ mid ++ 0b00#2) (.cFld mid) s ∧
    UnimplementedHalf (0b101#3 ++ mid ++ 0b00#2) (.cFsd mid) s ∧
    UnimplementedHalf (0b001#3 ++ mid ++ 0b10#2) (.cFldsp mid) s ∧
    UnimplementedHalf (0b101#3 ++ mid ++ 0b10#2) (.cFsdsp mid) s ∧
    UnimplementedHalf (0b100#3 ++ mid ++ 0b00#2) (.cReserved00_4 mid) s ∧
    UnimplementedHalf 0x0000#16 .cIllegal s ∧
    (s.w = .w4 →
      UnimplementedHalf (0b011#3 ++ mid ++ 0b00#2) (.cFlw mid) s ∧
      UnimplementedHalf (0b111#3 ++ mid ++ 0b00#2) (.cFsw mid) s ∧
      UnimplementedHalf (0b011#3 ++ mid ++ 0b10#2) (.cFlwsp mid) s ∧
      UnimplementedHalf (0b111#3 ++ mid ++ 0b10#2) (.cFswsp mid) s)

/-- R301, R305, R306, R308: at an instruction boundary, any word at the pc that is MISC-MEM with `funct3` other than 0, OP or OP-32 with
`funct7 = 0000001`, or SYSTEM other than the two words of ECALL and EBREAK, ends the step with `UNIMPLEMENTED_INSTRUCTION` and the word.
Decisions of the spec: D1, D20, D45. -/
def Obligations.FaultingWordSpaces : Prop :=
  ∀ (s : State) (w : BitVec 32), s.atInstruction = true →
    s.holdsCode [w.extractLsb' 0 8, w.extractLsb' 8 8, w.extractLsb' 16 8, w.extractLsb' 24 8] = true →
    (w.extractLsb' 0 7 = 0b0001111#7 ∧ w.extractLsb' 12 3 ≠ 0b000#3) ∨
      ((w.extractLsb' 0 7 = 0b0110011#7 ∨ w.extractLsb' 0 7 = 0b0111011#7) ∧ w.extractLsb' 25 7 = 0b0000001#7) ∨
      (w.extractLsb' 0 7 = 0b1110011#7 ∧ w ≠ 0x00000073#32 ∧ w ≠ 0x00100073#32) →
    StepFaults s .unimplementedInstruction w.toNat

/-- R121, R321: at an instruction boundary with `EXT_C`, a halfword at the pc that the compressed map marks illegal, reserved, a HINT
(other than C.NOP), floating point, or an RV32 shift with `c[12] = 1`, ends the step with `UNIMPLEMENTED_INSTRUCTION` and the
halfword.
Decisions of the spec: D25. -/
def Obligations.ReservedHalvesFault : Prop :=
  ∀ (s : State) (c : BitVec 16), s.atInstruction = true → s.params.extC = true →
    s.holdsCode [c.extractLsb' 0 8, c.extractLsb' 8 8] = true → reservedHalf s.params c = true →
    StepFaults s .unimplementedInstruction c.toNat

/-! ### Compressed (spec/46_compressed.md) -/

/-- R322, R327, R328, R330 to R333, R336: the compressed instructions with an immediate, where their operands are not reserved or
HINTs (R121), with the pc 2 bytes further. -/
def Obligations.CompressedImmediateResults : Prop :=
  ∀ (s : State) (rd : Reg) (rp : Reg3) (imm : BitVec 6) (spn : BitVec 10), s.counter ≠ counterMax → s.params.extC = true →
    (spn.toNat % 4 = 0 → spn ≠ 0 →
      RunsHalf (0b000#3 ++ spn.extractLsb' 4 2 ++ spn.extractLsb' 6 4 ++ spn.extractLsb' 2 1 ++ spn.extractLsb' 3 1 ++ rp ++ 0b00#2)
        (.cAddi4spn rp spn) (reg3 rp) (s.ux 2 + spn.toNat) s) ∧
    RunsHalf 0x0001#16 .cNop 0 0 s ∧
    (rd ≠ 0 → imm ≠ 0 → RunsHalf (0b000#3 ++ imm.extractLsb' 5 1 ++ rd ++ imm.extractLsb' 0 5 ++ 0b01#2) (.cAddi rd imm) rd (s.ux rd + imm.toInt) s) ∧
    (rd ≠ 0 → s.w = .w8 →
      RunsHalf (0b001#3 ++ imm.extractLsb' 5 1 ++ rd ++ imm.extractLsb' 0 5 ++ 0b01#2) (.cAddiw rd imm) rd (signedOf 32 (s.ux rd + imm.toInt)) s) ∧
    (rd ≠ 0 → RunsHalf (0b010#3 ++ imm.extractLsb' 5 1 ++ rd ++ imm.extractLsb' 0 5 ++ 0b01#2) (.cLi rd imm) rd imm.toInt s) ∧
    (spn.toNat % 16 = 0 → spn ≠ 0 →
      RunsHalf (0b011#3 ++ spn.extractLsb' 9 1 ++ 0b00010#5 ++ spn.extractLsb' 4 1 ++ spn.extractLsb' 6 1 ++ spn.extractLsb' 7 2
          ++ spn.extractLsb' 5 1 ++ 0b01#2)
        (.cAddi16sp spn) 2 (s.ux 2 + spn.toInt) s) ∧
    (rd ≠ 0 → rd ≠ 2 → imm ≠ 0 → RunsHalf (0b011#3 ++ imm.extractLsb' 5 1 ++ rd ++ imm.extractLsb' 0 5 ++ 0b01#2) (.cLui rd imm) rd (imm.toInt * 4096) s) ∧
    RunsHalf (0b100#3 ++ imm.extractLsb' 5 1 ++ 0b10#2 ++ rp ++ imm.extractLsb' 0 5 ++ 0b01#2) (.cAndi rp imm) (reg3 rp) (s.ux (reg3 rp) &&& s.mod imm.toInt : Nat) s

/-- R334, R335, R337 to R342, R346, R350, R353: the compressed shifts, by a nonzero amount below `XLEN`, and the compressed
register instructions. -/
def Obligations.CompressedRegisterResults : Prop :=
  ∀ (s : State) (rd rs2 : Reg) (rp rq : Reg3) (imm : BitVec 6), s.counter ≠ counterMax → s.params.extC = true →
    (imm ≠ 0 → imm.toNat < s.w.xlen →
      RunsHalf (0b100#3 ++ imm.extractLsb' 5 1 ++ 0b00#2 ++ rp ++ imm.extractLsb' 0 5 ++ 0b01#2) (.cSrli rp imm) (reg3 rp) (s.ux (reg3 rp) / 2 ^ imm.toNat : Nat) s ∧
      RunsHalf (0b100#3 ++ imm.extractLsb' 5 1 ++ 0b01#2 ++ rp ++ imm.extractLsb' 0 5 ++ 0b01#2) (.cSrai rp imm) (reg3 rp) (s.sx (reg3 rp) / 2 ^ imm.toNat) s ∧
      (rd ≠ 0 → RunsHalf (0b000#3 ++ imm.extractLsb' 5 1 ++ rd ++ imm.extractLsb' 0 5 ++ 0b10#2) (.cSlli rd imm) rd (s.ux rd * 2 ^ imm.toNat : Nat) s)) ∧
    RunsHalf (0b100011#6 ++ rp ++ 0b00#2 ++ rq ++ 0b01#2) (.cSub rp rq) (reg3 rp) (s.ux (reg3 rp) - s.ux (reg3 rq)) s ∧
    RunsHalf (0b100011#6 ++ rp ++ 0b01#2 ++ rq ++ 0b01#2) (.cXor rp rq) (reg3 rp) (s.ux (reg3 rp) ^^^ s.ux (reg3 rq) : Nat) s ∧
    RunsHalf (0b100011#6 ++ rp ++ 0b10#2 ++ rq ++ 0b01#2) (.cOr rp rq) (reg3 rp) (s.ux (reg3 rp) ||| s.ux (reg3 rq) : Nat) s ∧
    RunsHalf (0b100011#6 ++ rp ++ 0b11#2 ++ rq ++ 0b01#2) (.cAnd rp rq) (reg3 rp) (s.ux (reg3 rp) &&& s.ux (reg3 rq) : Nat) s ∧
    (s.w = .w8 →
      RunsHalf (0b100111#6 ++ rp ++ 0b00#2 ++ rq ++ 0b01#2) (.cSubw rp rq) (reg3 rp) (signedOf 32 (s.ux (reg3 rp) - s.ux (reg3 rq))) s ∧
      RunsHalf (0b100111#6 ++ rp ++ 0b01#2 ++ rq ++ 0b01#2) (.cAddw rp rq) (reg3 rp) (signedOf 32 (s.ux (reg3 rp) + s.ux (reg3 rq))) s) ∧
    (rd ≠ 0 → rs2 ≠ 0 →
      RunsHalf (0b1000#4 ++ rd ++ rs2 ++ 0b10#2) (.cMv rd rs2) rd (s.ux rs2) s ∧
      RunsHalf (0b1001#4 ++ rd ++ rs2 ++ 0b10#2) (.cAdd rd rs2) rd (s.ux rd + s.ux rs2) s)

/-- R329, R343 to R345, R349, R352: the compressed jumps and branches; the link and the untaken pc are `pc + 2`; an odd target of C.JR
and C.JALR is refused.
Decisions of the spec: D32. -/
def Obligations.CompressedJumpResults : Prop :=
  ∀ (s : State) (rs1 : Reg) (rp : Reg3) (o : BitVec 12) (b : BitVec 9), s.counter ≠ counterMax → s.params.extC = true → o.toNat % 2 = 0 →
    b.toNat % 2 = 0 →
    decode16 s.params (0b101#3 ++ o.extractLsb' 11 1 ++ o.extractLsb' 4 1 ++ o.extractLsb' 8 2 ++ o.extractLsb' 10 1 ++ o.extractLsb' 6 1
          ++ o.extractLsb' 7 1 ++ o.extractLsb' 1 3 ++ o.extractLsb' 5 1 ++ 0b01#2) = some (.cJ o) ∧
    Completes (.cJ o) (s.pc.toNat + o.toInt) 0 0 s ∧
    (s.w = .w4 → decode16 s.params (0b001#3 ++ o.extractLsb' 11 1 ++ o.extractLsb' 4 1 ++ o.extractLsb' 8 2 ++ o.extractLsb' 10 1 ++ o.extractLsb' 6 1
          ++ o.extractLsb' 7 1 ++ o.extractLsb' 1 3 ++ o.extractLsb' 5 1 ++ 0b01#2) = some (.cJal o) ∧
      Completes (.cJal o) (s.pc.toNat + o.toInt) 1 (s.pc.toNat + 2) s) ∧
    decode16 s.params (0b110#3 ++ b.extractLsb' 8 1 ++ b.extractLsb' 3 2 ++ rp ++ b.extractLsb' 6 2 ++ b.extractLsb' 1 2
          ++ b.extractLsb' 5 1 ++ 0b01#2) = some (.cBeqz rp b) ∧
    Completes (.cBeqz rp b) (s.pc.toNat + if s.ux (reg3 rp) = 0 then b.toInt else 2) 0 0 s ∧
    decode16 s.params (0b111#3 ++ b.extractLsb' 8 1 ++ b.extractLsb' 3 2 ++ rp ++ b.extractLsb' 6 2 ++ b.extractLsb' 1 2
          ++ b.extractLsb' 5 1 ++ 0b01#2) = some (.cBnez rp b) ∧
    Completes (.cBnez rp b) (s.pc.toNat + if s.ux (reg3 rp) ≠ 0 then b.toInt else 2) 0 0 s ∧
    (rs1 ≠ 0 →
      decode16 s.params (0b1000#4 ++ rs1 ++ 0b00000#5 ++ 0b10#2) = some (.cJr rs1) ∧
      decode16 s.params (0b1001#4 ++ rs1 ++ 0b00000#5 ++ 0b10#2) = some (.cJalr rs1) ∧
      (s.ux rs1 % 2 = 0 → Completes (.cJr rs1) (s.ux rs1) 0 0 s ∧ Completes (.cJalr rs1) (s.ux rs1) 1 (s.pc.toNat + 2) s) ∧
      (s.ux rs1 % 2 = 1 → exec (.cJr rs1) s = .refused .jalrOddTarget ∧ exec (.cJalr rs1) s = .refused .jalrOddTarget))

/-- R323, R324, R347, R348: the compressed loads over readable bytes, at the base plus the zero-extended offset.
Decisions of the spec: D8, D9. -/
def Obligations.CompressedLoadResults : Prop :=
  ∀ (s : State) (rd : Reg) (rp rb : Reg3) (iw : BitVec 7) (id : BitVec 8) (sw : BitVec 8) (sd : BitVec 9), s.counter ≠ counterMax →
    s.params.extC = true →
    (iw.toNat % 4 = 0 → s.canRead (s.eaU (reg3 rb) iw) .b4 = true →
      (s.eaU (reg3 rb) iw).toNat = s.mod (s.ux (reg3 rb) + iw.toNat) ∧
      RunsHalf (0b010#3 ++ iw.extractLsb' 3 3 ++ rb ++ iw.extractLsb' 2 1 ++ iw.extractLsb' 6 1 ++ rp ++ 0b00#2)
        (.cLw rp rb iw) (reg3 rp) (signedOf 32 (s.valueAt (s.eaU (reg3 rb) iw) 4)) s) ∧
    (id.toNat % 8 = 0 → s.w = .w8 → s.canRead (s.eaU (reg3 rb) id) .b8 = true →
      (s.eaU (reg3 rb) id).toNat = s.mod (s.ux (reg3 rb) + id.toNat) ∧
      RunsHalf (0b011#3 ++ id.extractLsb' 3 3 ++ rb ++ id.extractLsb' 6 2 ++ rp ++ 0b00#2)
        (.cLd rp rb id) (reg3 rp) (s.valueAt (s.eaU (reg3 rb) id) 8) s) ∧
    (rd ≠ 0 → sw.toNat % 4 = 0 → s.canRead (s.eaU 2 sw) .b4 = true →
      (s.eaU 2 sw).toNat = s.mod (s.ux 2 + sw.toNat) ∧
      RunsHalf (0b010#3 ++ sw.extractLsb' 5 1 ++ rd ++ sw.extractLsb' 2 3 ++ sw.extractLsb' 6 2 ++ 0b10#2)
        (.cLwsp rd sw) rd (signedOf 32 (s.valueAt (s.eaU 2 sw) 4)) s) ∧
    (rd ≠ 0 → sd.toNat % 8 = 0 → s.w = .w8 → s.canRead (s.eaU 2 sd) .b8 = true →
      (s.eaU 2 sd).toNat = s.mod (s.ux 2 + sd.toNat) ∧
      RunsHalf (0b011#3 ++ sd.extractLsb' 5 1 ++ rd ++ sd.extractLsb' 3 2 ++ sd.extractLsb' 6 3 ++ 0b10#2)
        (.cLdsp rd sd) rd (s.valueAt (s.eaU 2 sd) 8) s)

/-- R325, R326, R354, R355: the compressed stores over storable bytes, at the base plus the zero-extended offset.
Decisions of the spec: D8, D10. -/
def Obligations.CompressedStoreResults : Prop :=
  ∀ (s : State) (rs2 : Reg) (rp rb : Reg3) (iw : BitVec 7) (id : BitVec 8) (sw : BitVec 8) (sd : BitVec 9), s.counter ≠ counterMax →
    s.params.extC = true →
    (iw.toNat % 4 = 0 → s.canStore (s.eaU (reg3 rb) iw) .b4 = true →
      decode16 s.params (0b110#3 ++ iw.extractLsb' 3 3 ++ rb ++ iw.extractLsb' 2 1 ++ iw.extractLsb' 6 1 ++ rp ++ 0b00#2) =
        some (.cSw rb rp iw) ∧
      (s.eaU (reg3 rb) iw).toNat = s.mod (s.ux (reg3 rb) + iw.toNat) ∧
      Stores (.cSw rb rp iw) 2 (s.eaU (reg3 rb) iw) 4 (s.ux (reg3 rp)) 0 0 s) ∧
    (id.toNat % 8 = 0 → s.w = .w8 → s.canStore (s.eaU (reg3 rb) id) .b8 = true →
      decode16 s.params (0b111#3 ++ id.extractLsb' 3 3 ++ rb ++ id.extractLsb' 6 2 ++ rp ++ 0b00#2) = some (.cSd rb rp id) ∧
      (s.eaU (reg3 rb) id).toNat = s.mod (s.ux (reg3 rb) + id.toNat) ∧
      Stores (.cSd rb rp id) 2 (s.eaU (reg3 rb) id) 8 (s.ux (reg3 rp)) 0 0 s) ∧
    (sw.toNat % 4 = 0 → s.canStore (s.eaU 2 sw) .b4 = true →
      decode16 s.params (0b110#3 ++ sw.extractLsb' 2 4 ++ sw.extractLsb' 6 2 ++ rs2 ++ 0b10#2) = some (.cSwsp rs2 sw) ∧
      (s.eaU 2 sw).toNat = s.mod (s.ux 2 + sw.toNat) ∧ Stores (.cSwsp rs2 sw) 2 (s.eaU 2 sw) 4 (s.ux rs2) 0 0 s) ∧
    (sd.toNat % 8 = 0 → s.w = .w8 → s.canStore (s.eaU 2 sd) .b8 = true →
      decode16 s.params (0b111#3 ++ sd.extractLsb' 3 3 ++ sd.extractLsb' 6 3 ++ rs2 ++ 0b10#2) = some (.cSdsp rs2 sd) ∧
      (s.eaU 2 sd).toNat = s.mod (s.ux 2 + sd.toNat) ∧ Stores (.cSdsp rs2 sd) 2 (s.eaU 2 sd) 8 (s.ux rs2) 0 0 s)

/-! ### The step, the loop and the fetch (spec/40_fetch_execute.md) -/

/-- R160, R162, R163, R167: in an active run that is not stopped, has budget left and is not at the exit sentinel, where the bytes at
the pc decode to `i`, a step is the execution of `i`; externally written pages get their free values first, and no other byte changes
then (R438).
Decisions of the spec: D16, D30. -/
def Obligations.StepRunsDecoded : Prop :=
  ∀ s : State,
    (∀ (bs rest : List Byte) (i : Instr), decodeBytes s.params bs = .instr i rest →
      (s.atInstruction = true → s.holdsCode bs = true → step s = exec i s) ∧
      (∀ r, s.run = some r → s.stopped = false → budgetSpent r s = false → s.pc ≠ s.exitAddress →
        (atBoundary s).holdsCode bs = true → step s = exec i (atBoundary s))) ∧
    ExternalWrites s (atBoundary s) ∧ ((∀ e ∈ s.pages, isExternal e.2 = false) → atBoundary s = s)

/-- R161, R162, R240: at an instruction boundary a pc that is not aligned to `IALIGN`, a first parcel that is not inside the execute segment,
and a 32-bit instruction that does not end inside it, each end the step with `EXECUTION_SPACE_PROTECTION_FAULT(pc)`; with
`EXEC_CONSTANT`, outside the segment in a page that overlaps it, the tag is that or `UNIMPLEMENTED_INSTRUCTION` (C7).  A first parcel inside
the segment in an absent page or a Trap page is refused, and so is a second one, whose address is the pc plus 2 modulo `2^XLEN`.  That the
tag is not drawn for a misaligned pc is log entry 37 (DEDUCED).
Decisions of the spec: D8, D17, D26, D27, C7. -/
def Obligations.FetchChecks : Prop :=
  ∀ s : State, s.atInstruction = true →
    (s.pc.toNat % s.params.ialign ≠ 0 → StepFaults s .executionSpaceProtectionFault s.pc.toNat) ∧
    (s.pc.toNat % s.params.ialign = 0 →
      ¬(s.execBase.toNat ≤ s.pc.toNat ∧ s.pc.toNat + 2 ≤ s.execBase.toNat + s.execLen.toNat) →
      (¬(s.params.execConstant = true ∧ s.inExecSegment s.pc.toNat = false ∧ s.pageMeetsExec (pageOf s.pc.toNat) = true) →
        StepFaults s .executionSpaceProtectionFault s.pc.toNat) ∧
      (s.params.execConstant = true → s.inExecSegment s.pc.toNat = false → s.pageMeetsExec (pageOf s.pc.toNat) = true →
        StepFaults s .executionSpaceProtectionFault s.pc.toNat ∨ StepFaults s .unimplementedInstruction s.pc.toNat)) ∧
    (∀ lo hi : Byte, s.holdsCode [lo, hi] = true → lengthOf s.params (hi ++ lo) = some 4 →
      s.execBase.toNat + s.execLen.toNat < s.pc.toNat + 4 → StepFaults s .executionSpaceProtectionFault s.pc.toNat) ∧
    (s.pc.toNat % s.params.ialign = 0 → s.execBase.toNat ≤ s.pc.toNat →
      s.pc.toNat + 2 ≤ s.execBase.toNat + s.execLen.toNat →
      (∀ p, s.pageAt (pageOf (s.byteAddr s.pc 0)) = some p → isTrapPage p = true) → step s = .refused .fetchFromUnbackedExecPage) ∧
    (∀ lo hi : Byte, s.holdsCode [lo, hi] = true → lengthOf s.params (hi ++ lo) = some 4 →
      s.pc.toNat + 4 ≤ s.execBase.toNat + s.execLen.toNat →
      (∀ p, s.pageAt (pageOf (s.byteAddr s.pc 2)) = some p → isTrapPage p = true) → step s = .refused .fetchFromUnbackedExecPage)

/-- R110, R116, R163: bytes at the pc that no rule selects end the step with `UNIMPLEMENTED_INSTRUCTION` and the instruction bits; a first
parcel of a length the block lacks ends it with `UNIMPLEMENTED_INSTRUCTION_LENGTH` and the parcel.  Nothing else changes.
Decisions of the spec: D24. -/
def Obligations.UndecodableFaults : Prop :=
  ∀ (s : State) (bs : List Byte), s.atInstruction = true → s.holdsCode bs = true →
    (∀ bits, decodeBytes s.params bs = .unimplemented bits → StepFaults s .unimplementedInstruction bits.toNat) ∧
    (∀ parcel, decodeBytes s.params bs = .badLength parcel →
      StepFaults s .unimplementedInstructionLength parcel.toNat ∧
      ((parcel.extractLsb' 0 2 ≠ 0b11#2 ∧ s.params.extC = false) ∨ parcel.extractLsb' 0 5 = 0b11111#5))

/-- R26, R167 to R169: the three ways a run ends between instructions, in this order: the stop flag (status Stopped), the budget (status
as it is, or `DEADLOCK(counter)` with `DEADLOCK_ON_BUDGET`), the exit sentinel (stop flag set, status Stopped).  No instruction is
executed: registers, pc and counter are as they were, and memory as the boundary left it (R438).
Decisions of the spec: D16, D30, D31. -/
def Obligations.LoopEnds : Prop :=
  ∀ (s : State) (r : Run), s.run = some r →
    (s.stopped = true → ∃ t, step s = .next t ∧ t.status = .stopped ∧ t.hostResult = .ok ∧ t.run = none ∧
      (∀ q, t.x q = s.x q) ∧ t.pc = s.pc ∧ t.counter = s.counter ∧ t.stopped = true ∧ t.resv = s.resv ∧ (atBoundary s).SameMemory t ∧
      s.SameFixed t) ∧
    (s.stopped = false → r.maxInstr ≠ 0 → r.startCounter.toNat + r.maxInstr ≤ s.counter.toNat →
      (s.params.deadlockOnBudget = false → ∃ t, step s = .next t ∧ t.status = s.status ∧ t.hostResult = .ok ∧
        t.run = none ∧ (∀ q, t.x q = s.x q) ∧ t.pc = s.pc ∧ t.counter = s.counter ∧ t.stopped = false ∧ t.resv = s.resv ∧
        (atBoundary s).SameMemory t ∧ s.SameFixed t) ∧
      (s.params.deadlockOnBudget = true →
        ∃ t, step s = .next t ∧ TrapTaken (atBoundary s) t .deadlock s.counter.toNat ∧ (∀ q, t.x q = s.x q) ∧ t.pc = s.pc)) ∧
    (s.stopped = false → (r.maxInstr = 0 ∨ s.counter.toNat < r.startCounter.toNat + r.maxInstr) → s.pc = s.exitAddress →
      ∃ t, step s = .next t ∧ t.status = .stopped ∧ t.hostResult = .ok ∧ t.run = none ∧ (∀ q, t.x q = s.x q) ∧
        t.pc = s.pc ∧ t.counter = s.counter ∧ t.stopped = true ∧ t.resv = s.resv ∧ (atBoundary s).SameMemory t ∧ s.SameFixed t)

/-- R25, R27, R166, R410: whatever the instruction and the state, an execution that gives a next state either retires (the counter is
exactly one more, without wrapping, and the status and the active run are as they were) or faults (the counter is unchanged, the
status is Trapped and no run is active).
Decisions of the spec: D28, D29. -/
def Obligations.RetireOrTrap : Prop :=
  ∀ (i : Instr) (s t : State), s.wf → exec i s = .next t →
    (t.counter.toNat = s.counter.toNat + 1 ∧ t.status = s.status ∧ t.run = s.run) ∨
    (t.counter = s.counter ∧ t.run = none ∧ ∃ tag detail, t.status = .trapped tag detail ∧ t.hostResult = .failed tag detail)

/-- R410: where no host callback can run (no handler, no Trap page, policy other than `Host`, the default page-write callback), an
execution that faults changes no register, not the pc, not the counter, not the reservation, not the stop flag.
Decisions of the spec: D28. -/
def Obligations.FaultsArePrecise : Prop :=
  ∀ (i : Instr) (s t : State), s.wf → s.handlers = [] → (∀ e ∈ s.pages, isTrapPage e.2 = false) →
    s.params.pageFault ≠ .host → s.pageWriteCallback = none → s.run ≠ none → exec i s = .next t → t.run = none →
    (∀ r, t.x r = s.x r) ∧ t.pc = s.pc ∧ t.counter = s.counter ∧ t.resv = s.resv ∧ t.stopped = s.stopped ∧
      (∃ tag detail, t.status = .trapped tag detail)

/-! ### Reset, the host between runs (spec/70_reset_and_hazards.md, spec/60_exceptions.md) -/

/-- R460, R461: `reset()` between runs: every register 0 but `x2 = stack_address`, `pc = start_address`, counter 0, stop flag
clear, status Init, no reservation; pages, bytes, the fixed addresses, the handlers and the callbacks are as they were (the bytes as
the boundary left them, R438).  Inside a callback, at whatever depth, `reset()` is refused (R430), and so are `simulate` and a `vmcall`
that runs (R171).
Decisions of the spec: D16, D35, D39, C2. -/
def Obligations.ResetState : Prop :=
  (∀ (s : State) (rest : List HostOp), s.run = none → s.hostCalls = .reset :: rest →
    ∃ t, step s = .next t ∧ (∀ r, r ≠ 2 → t.x r = 0) ∧ t.ux 2 = s.mod s.stackAddress.toNat ∧
      t.pc.toNat = s.mod s.startAddress.toNat ∧ t.counter = 0 ∧ t.stopped = false ∧ t.status = .init ∧
      t.resv.valid = false ∧ (atBoundary s).SameMemory t ∧ s.SameFixed t ∧ t.handlers = s.handlers ∧
      t.pageFaultCallback = s.pageFaultCallback ∧ t.pageWriteCallback = s.pageWriteCallback ∧ t.hostCalls = rest) ∧
    ∀ (p : PagePaths) (acts : List HostOp) (s : State) (n : Nat) (a : Word) (args : List Word),
      runScript p (.reset :: acts) s = .refused .reentrantReset ∧
      runScript p (.simulate n :: acts) s = .refused .reentrantSimulate ∧
      (args.length ≤ 8 → runScript p (.vmcall (some a) args true n :: acts) s = .refused .reentrantSimulate)

/-- R465 items 2, 3, 4, 6 and 7: the memory construction leaves.  A page some segment touches has the attributes and the variant of the
last such segment: its flags, or `read` and `write` and its `exec` without `PROTECT_SEGMENTS`; SharedRO for a read-only segment with
`SHARED_RODATA`, else Owned.  Any other page of `[stack_address - STACK_SIZE, stack_address)` is Owned with `read` and `write`; no other
page is mapped.  A byte is the last covering segment's file byte, 0 past its file bytes, and 0 where no segment covers it.  A binary the
engine loads, with no relocation left unrecognised, no cap on memory, and an aligned stack and aligned executable segments, gives a
Machine.  The model's choices in this: that relocations change no byte, that a stack page is made only where no segment page is, and that
no page beyond these is mapped, where R465 item 7 says `at least`, are log entry 28 (DESIGN CHOICE); what `read-only` means is log
entry 16 (DESIGN CHOICE); a stack that would begin below 0 and the file bytes past `memsz` are log entry 31 (DESIGN CHOICE).
Decisions of the spec: D40. -/
def Obligations.ConstructionLoads : Prop :=
  ∀ (img : Image) (o : Options), (∀ g ∈ img.segments, g.vaddr.toNat + g.memsz ≤ 2 ^ o.params.w.xlen) →
    (img.valid o.params.w = true → img.unknownRelocation = none → o.params.memoryMax = none → o.stackAddress.toNat % 16 = 0 →
      (∀ g ∈ img.segments, g.x = true → g.vaddr.toNat % o.params.ialign = 0) → ∃ s, construct img o = .machine s) ∧
    ∀ s, construct img o = .machine s →
      (∀ (before after : List Segment) (g : Segment), img.segments = before ++ g :: after →
        (∀ n, g.touches n → (∀ h ∈ after, ¬h.touches n) →
          s.pageAt n = some
            ⟨if o.params.protectSegments then ⟨g.r, g.w, g.x⟩ else ⟨true, true, g.x⟩,
              if o.params.sharedRodata ∧ g.r = true ∧ g.w = false ∧ g.x = false then .sharedRO else .owned⟩) ∧
        (∀ k < g.memsz, (∀ h ∈ after, ¬h.covers (g.vaddr.toNat + k)) →
          s.byte (g.vaddr.toNat + k) = g.bytes.getD k 0)) ∧
      (∀ n, (∀ g ∈ img.segments, ¬g.touches n) →
        ((∃ q, s.stackAddress.toNat - o.stackSize ≤ q ∧ q < s.stackAddress.toNat ∧ pageOf q = n) →
          s.pageAt n = some ⟨⟨true, true, false⟩, .owned⟩) ∧
        ((¬∃ q, s.stackAddress.toNat - o.stackSize ≤ q ∧ q < s.stackAddress.toNat ∧ pageOf q = n) → s.pageAt n = none)) ∧
      ∀ q, (∀ g ∈ img.segments, ¬g.covers q) → s.byte q = 0

/-- R167, R421, R440: `simulate(max)` between runs clears the stop flag and any Trapped status, and the run goes on at the current pc
with the budget counted from the current counter; registers, pc, counter and reservation are as they were, and memory as the boundary left it
(R438).
Decisions of the spec: D16, D30, D38. -/
def Obligations.SimulateStarts : Prop :=
  ∀ (s : State) (max : Nat) (rest : List HostOp), s.run = none → s.hostCalls = .simulate max :: rest →
    ∃ t, step s = .next t ∧ t.stopped = false ∧ t.status = .running ∧ t.run = some ⟨s.counter, max⟩ ∧
      (∀ r, t.x r = s.x r) ∧ t.pc = s.pc ∧ t.counter = s.counter ∧ t.resv = s.resv ∧ (atBoundary s).SameMemory t ∧
      s.SameFixed t ∧ t.handlers = s.handlers ∧ t.hostCalls = rest

/-- R443: `setup_call(call, return, args)` between runs, with at most 8 arguments and with more; R440: `stop()`.
Decisions of the spec: D42. -/
def Obligations.SetupCallResult : Prop :=
  ∀ (s : State) (call ret : Word) (args : List Word) (rest : List HostOp), s.run = none →
    (s.hostCalls = .setupCall call ret args :: rest → args.length ≤ 8 →
      ∃ t, step s = .next t ∧ HostAnswered s t rest .ok ∧ CallSet s t call.toNat ret.toNat args) ∧
    (s.hostCalls = .setupCall call ret args :: rest → 8 < args.length →
      ∃ t, step s = .next t ∧ HostAnswered s t rest (.failed .invalidArgument args.length) ∧ (∀ r, t.x r = s.x r) ∧
        t.pc = s.pc) ∧
    (s.hostCalls = .stop :: rest →
      ∃ t, step s = .next t ∧ t.stopped = true ∧ (∀ r, t.x r = s.x r) ∧ t.pc = s.pc ∧ t.counter = s.counter ∧
        t.status = s.status ∧ t.run = none ∧ (atBoundary s).SameMemory t)

/-- R443: `vmcall` between runs: more than 8 arguments fail, an unknown name is refused, else the guest call to `exit_address` is set up
and, when asked for, the run starts.
Decisions of the spec: D42. -/
def Obligations.VmcallResult : Prop :=
  ∀ (s : State) (target : Option Word) (args : List Word) (max : Nat) (run : Bool) (rest : List HostOp), s.run = none →
    s.hostCalls = .vmcall target args run max :: rest →
    (8 < args.length → ∃ t, step s = .next t ∧ HostAnswered s t rest (.failed .invalidArgument args.length) ∧
      (∀ r, t.x r = s.x r) ∧ t.pc = s.pc) ∧
    (args.length ≤ 8 → target = none → step s = .refused .unresolvedSymbol) ∧
    (args.length ≤ 8 → ∀ a, target = some a → ∃ t, step s = .next t ∧ CallSet s t a.toNat s.exitAddress.toNat args ∧
      t.counter = s.counter ∧ (atBoundary s).SameMemory t ∧ s.SameFixed t ∧ t.hostCalls = rest ∧
      (run = true → t.status = .running ∧ t.stopped = false ∧ t.run = some ⟨s.counter, max⟩) ∧
      (run = false → t.status = s.status ∧ t.stopped = s.stopped ∧ t.run = none ∧ t.hostResult = .ok))

/-- R444: `realign_stack(align)` rounds `sp` down to a multiple of 4, 8 or 16; any other value fails with `INVALID_ALIGNMENT(align)`
and `sp` is unchanged.
Decisions of the spec: D43. -/
def Obligations.RealignStackResult : Prop :=
  ∀ (s : State) (align : Nat) (rest : List HostOp), s.run = none → s.hostCalls = .realignStack align :: rest →
    (align = 4 ∨ align = 8 ∨ align = 16 →
      ∃ t, step s = .next t ∧ HostAnswered s t rest .ok ∧ t.ux 2 = s.ux 2 - s.ux 2 % align ∧
        (∀ r, r ≠ 2 → t.x r = s.x r) ∧ t.pc = s.pc) ∧
    (¬(align = 4 ∨ align = 8 ∨ align = 16) →
      ∃ t, step s = .next t ∧ HostAnswered s t rest (.failed .invalidAlignment align) ∧ (∀ r, t.x r = s.x r) ∧
        t.pc = s.pc)

/-- R446: `memstring` and `strlen` over mapped pages that are not Trap pages, read without a permission check: the bytes before the
first NUL among the first `maxlen`, as the boundary left them (R438), and their count; without a NUL there,
`STRING_OVER_LIMIT(addr)`.
Decisions of the spec: D16, D41. -/
def Obligations.StringReadResult : Prop :=
  ∀ (s : State) (a : Word) (maxlen k : Nat) (rest : List HostOp), s.run = none →
    (∀ j < maxlen, ∃ p, s.pageAt (pageOf (s.byteAddr a j)) = some p ∧ isTrapPage p = false) →
    (∀ j < k, (atBoundary s).byte (s.byteAddr a j) ≠ 0) →
    (s.hostCalls = .memstring a maxlen :: rest →
      (k < maxlen → (atBoundary s).byte (s.byteAddr a k) = 0 → ∃ t, step s = .next t ∧
        HostAnswered s t rest (.data ((List.range k).map fun j => (atBoundary s).byte (s.byteAddr a j))) ∧ (∀ r, t.x r = s.x r) ∧
        t.pc = s.pc) ∧
      (k = maxlen → ∃ t, step s = .next t ∧ HostAnswered s t rest (.failed .stringOverLimit (s.mod a.toNat)) ∧
        (∀ r, t.x r = s.x r) ∧ t.pc = s.pc)) ∧
    (s.hostCalls = .strlen a maxlen :: rest →
      (k < maxlen → (atBoundary s).byte (s.byteAddr a k) = 0 → ∃ t, step s = .next t ∧ HostAnswered s t rest (.value k) ∧
        (∀ r, t.x r = s.x r) ∧ t.pc = s.pc) ∧
      (k = maxlen → ∃ t, step s = .next t ∧ HostAnswered s t rest (.failed .stringOverLimit (s.mod a.toNat)) ∧
        (∀ r, t.x r = s.x r) ∧ t.pc = s.pc))

/-- R92, R93, R96: `trap` makes the page of an address a Trap page, keeping the attributes and the backing of a mapped page and giving a
new one `read` and `write`; `free_pages` removes exactly the pages its range meets; `set_page_attr`, where `MEMORY_MAX` is unbounded,
gives every mapped page its range meets the new attributes, makes every other page of the address space it meets an Owned zero page
with them, and leaves every page outside as it was, mapped or not.  That a range which passes the top of the address space ends there
is log entry 23 (DESIGN CHOICE).
Decisions of the spec: D15, D16, D40. -/
def Obligations.HostPageOperations : Prop :=
  ∀ (s : State) (a : Word) (len cb : Nat) (attr : PageAttr) (rest : List HostOp), s.run = none → s.PagesWf →
    (s.hostCalls = .trapPage a cb :: rest → ∃ t, step s = .next t ∧
      t.pageAt (pageOf (s.mod a.toNat)) =
        some ⟨((s.pageAt (pageOf (s.mod a.toNat))).map (·.attr)).getD ⟨true, true, false⟩,
          .trap cb ((s.pageAt (pageOf (s.mod a.toNat))).bind (·.variant.buffer?))⟩ ∧
      (∀ n, n ≠ pageOf (s.mod a.toNat) → t.pageAt n = s.pageAt n) ∧ (∀ q, t.byte q = (atBoundary s).byte q) ∧
      (∀ r, t.x r = s.x r)) ∧
    (s.hostCalls = .freePages a len :: rest → ∃ t, step s = .next t ∧ (∀ r, t.x r = s.x r) ∧
      ∀ n, ((∃ q, s.mod a.toNat ≤ q ∧ q < s.mod a.toNat + len ∧ pageOf q = n) → t.pageAt n = none) ∧
        ((¬∃ q, s.mod a.toNat ≤ q ∧ q < s.mod a.toNat + len ∧ pageOf q = n) → t.pageAt n = s.pageAt n ∧
          ∀ q, pageOf q = n → t.byte q = (atBoundary s).byte q)) ∧
    (s.hostCalls = .setPageAttr a len attr :: rest → s.params.memoryMax = none → ∃ t, step s = .next t ∧
      (∀ r, t.x r = s.x r) ∧ (∀ q, t.byte q = (atBoundary s).byte q) ∧
      ∀ n, ((∃ q, s.mod a.toNat ≤ q ∧ q < s.mod a.toNat + len ∧ pageOf q = n) → n < pageCount s.w →
          (∀ p, s.pageAt n = some p → t.pageAt n = some ⟨attr, p.variant⟩) ∧
          (s.pageAt n = none → t.pageAt n = some ⟨attr, .owned⟩ ∧ ∀ q, pageOf q = n → t.byte q = 0)) ∧
        ((¬∃ q, s.mod a.toNat ≤ q ∧ q < s.mod a.toNat + len ∧ pageOf q = n) → t.pageAt n = s.pageAt n))

/-- R447: restoring the snapshot of a Machine whose pages are Owned, SharedRO, NonOwned with backing from the host, or Trap with a callback
from it gives the same registers, pc, counter, addresses, pages with their attributes and variants, and the bytes of the Owned and
SharedRO pages; the stop flag clear, no reservation, status Init, and the execute segment, the parameters, the handlers and the
callbacks of the restoring host; a NonOwned page without backing refuses the restore.  Which pages carry bytes, and that the host
says with the backing whether a page is externally written, is the model's choice (log entry 15); so is the snapshot's `W` where the
host names another (log entry 33).
Decisions of the spec: D44. -/
def Obligations.SnapshotRestores : Prop :=
  ∀ (s : State) (h : Restorer), s.PagesWf →
    ((∀ e ∈ s.pages, (isNonOwned e.2 = true → SMap.find h.backing e.1 ≠ none) ∧
        (isTrapPage e.2 = true → SMap.find h.trapCallbacks e.1 ≠ none)) →
      ∃ t, restore (serialize s) h = .next t ∧ (∀ r, t.x r = s.x r) ∧ t.pc = s.pc ∧ t.counter = s.counter ∧
        t.startAddress = s.startAddress ∧ t.stackAddress = s.stackAddress ∧ t.exitAddress = s.exitAddress ∧
        (∀ n, s.pageAt n = none → t.pageAt n = none) ∧
        (∀ n p, s.pageAt n = some p →
          (p.variant = .owned ∨ p.variant = .sharedRO →
            t.pageAt n = some p ∧ ∀ a, pageOf a = n → t.byte a = s.byte a) ∧
          (∀ k, isNonOwned p = true → SMap.find h.backing n = some k →
            t.pageAt n = some ⟨p.attr, .nonOwned k.buffer k.external⟩ ∧
            (h.backing = [(n, k)] → k.bytes.length ≤ pageSize →
              ∀ i (hi : i < k.bytes.length), t.byte (n * pageSize + i) = k.bytes[i]'hi)) ∧
          (∀ cb, isTrapPage p = true → SMap.find h.trapCallbacks n = some cb →
            t.pageAt n = some ⟨p.attr, .trap cb none⟩)) ∧
        t.stopped = false ∧ t.resv.valid = false ∧ t.status = .init ∧ t.execBase = h.execBase ∧ t.execLen = h.execLen ∧
        t.handlers = h.handlers ∧ t.pageFaultCallback = h.pageFaultCallback ∧ t.pageWriteCallback = h.pageWriteCallback ∧
        t.params = { h.params with w := s.w }) ∧
    (∀ n p, s.pageAt n = some p → isNonOwned p = true → SMap.find h.backing n = none →
      restore (serialize s) h = .refused .snapshotPageWithoutBacking)

/-- R6, R57, R465, R466: a binary the engine does not load gives no Machine; a Machine that construction gives has the CPU state of R460
with the entry point and the stack address, a multiple of 16, no handler, and the execute segment of the lowest executable segment,
aligned to `IALIGN` and backed by pages that are no Trap pages.  Which of two executable segments at the lowest address gives the
length, and that launch arguments which do not give such a state give no Machine, is log entry 31 (DESIGN CHOICE); that `exec_len` is
`memsz` modulo `2^XLEN` is log entry 28 (DESIGN CHOICE).
Decisions of the spec: D18, D31, D39, D40, D47. -/
def Obligations.ConstructionLeaves : Prop :=
  ∀ (img : Image) (o : Options),
    (img.valid o.params.w = false → construct img o = .rejected) ∧
    ∀ s, construct img o = .machine s →
      img.unknownRelocation = none ∧ s.params = o.params ∧ (∀ r, r ≠ 2 → s.x r = 0) ∧ s.ux 2 = s.mod o.stackAddress.toNat ∧
      s.pc.toNat = s.mod img.entry.toNat ∧ s.startAddress.toNat = s.mod img.entry.toNat ∧
      s.stackAddress.toNat = s.mod o.stackAddress.toNat ∧ s.stackAddress.toNat % 16 = 0 ∧
      s.exitAddress.toNat = s.mod o.exitAddress.toNat ∧
      s.counter = 0 ∧ s.stopped = false ∧ s.status = .init ∧ s.resv.valid = false ∧ s.handlers = [] ∧ s.run = none ∧
      s.execBase.toNat % s.params.ialign = 0 ∧
      (∀ q, s.inExecSegment q = true → q < 2 ^ s.w.xlen → ∃ p, s.pageAt (pageOf q) = some p ∧ isTrapPage p = false) ∧
      (∀ before after g, img.segments = before ++ g :: after → g.x = true →
        (∀ h ∈ before, h.x = true → g.vaddr.toNat < h.vaddr.toNat) → (∀ h ∈ after, h.x = true → g.vaddr.toNat ≤ h.vaddr.toNat) →
        s.execBase.toNat = s.mod g.vaddr.toNat ∧ s.execLen.toNat = s.mod g.memsz)

/-! ### Encoding (spec/30_encoding.md) -/

/-- R111, R112, R119, R120: for every well-formed instruction, with every operand at every value its encoding admits, the decoder reads
it back from its bytes and leaves the bytes after it. -/
def Obligations.DecodeEncode : Prop :=
  ∀ (p : Params) (i : Instr) (rest : List Byte), i.wf p = true → decodeBytes p ((encode i).bytes ++ rest) = .instr i rest

/-- R115, R116, R121: what the decoder reads from a word or a halfword is well formed, and its encoding is that word or halfword: no bit of
an encoding is ignored, and no reserved encoding falls to a neighbour.
Decisions of the spec: D24, D25. -/
def Obligations.DecodeUnambiguous : Prop :=
  ∀ (p : Params),
    (∀ (w : BitVec 32) (i : Instr), decode32 p w = some i → encode i = .word w ∧ i.wf p = true) ∧
    (∀ (c : BitVec 16) (i : Instr), decode16 p c = some i → encode i = .half c ∧ i.wf p = true)

/-- Words written out in the examples of the spec decode to the instructions the examples name, one or more of each family (R193, R241 to
R243, R263, R272, R283, R284, R286, R300, R302, R305, R306, R322, R323, R329, R344, R355). -/
def Obligations.SpecWordsDecode : Prop :=
  decode32 Params.default 0x00700513#32 = some (.addi 10 0 7) ∧ decode32 Params.default 0x000202B7#32 = some (.lui 5 0x20) ∧
    decode32 Params.default 0x00C000EF#32 = some (.jal 1 12) ∧ decode32 Params.default 0x008280E7#32 = some (.jalr 1 5 8) ∧
    decode32 Params.default 0x00B50463#32 = some (.beq 10 11 8) ∧ decode32 Params.default 0x0002A503#32 = some (.lw 10 5 0) ∧
    decode32 Params.default 0x0062A023#32 = some (.sw 5 6 0) ∧
    decode32 Params.default 0x100525AF#32 = some (.lrW 11 10 false false) ∧
    decode32 Params.default 0x18D5262F#32 = some (.scW 12 10 13 false false) ∧
    decode32 Params.default 0x00C525AF#32 = some (.amoaddW 11 10 12 false false) ∧
    decode32 Params.default 0x00000073#32 = some .ecall ∧
    decode32 Params.default 0x0FF0000F#32 = some (.fence 0 15 15 0 0) ∧
    decode32 Params.default 0x02B50533#32 = some (.mulDiv 0 10 10 11) ∧
    decode32 Params.default 0xC0202573#32 = some (.csrrs 0xC02 0 10) ∧
    decode16 Params.default 0x0808#16 = some (.cAddi4spn 2 16) ∧ decode16 Params.default 0x41C8#16 = some (.cLw 2 3 4) ∧
    decode16 Params.default 0xC501#16 = some (.cBeqz 2 8) ∧ decode16 Params.default 0xE42A#16 = some (.cSdsp 10 8) ∧
    decode16 { Params.default with w := .w4 } 0x2021#16 = some (.cJal 8)

/-! ### Invariants -/

/-- R20, R21, R24, R25, R27, R29, R50 to R52: every step keeps the machine's invariant: x0 is 0, every register and the pc are `XLEN`-bit
values, one page at most per page number and inside the address space, both memories in their canonical form and the Machine's only in
mapped pages, a reservation only with `EXT_A`, aligned and of a width the machine has, an active run only with status Running, the
stack address a multiple of 16 and the execute segment aligned (R57, R466). -/
def Obligations.StepKeepsInvariant : Prop :=
  ∀ s t : State, s.wf → step s = .next t → t.wf

/-- The state after reset meets the invariant that every step keeps (R20, R24 to R27, R29, R35, R461, R466): registers 0 but
`x2 = stack_address`, a multiple of 16, `pc = start_address`, counter 0, stop flag clear, status Init, no reservation, and between
runs.  The values of the addresses are the model's (log entry 4). -/
def Obligations.ResetMeetsInvariant : Prop :=
  State.reset.wf ∧ (∀ r, r ≠ 2 → State.reset.x r = 0) ∧ State.reset.x 2 = State.reset.stackAddress ∧
    State.reset.stackAddress.toNat % 16 = 0 ∧ State.reset.pc = State.reset.startAddress ∧ State.reset.counter = 0 ∧
    State.reset.stopped = false ∧ State.reset.status = .init ∧ State.reset.resv.valid = false ∧ State.reset.run = none

/-- R7, R32, R56, R439: no step changes a parameter, the execute segment or the three addresses. -/
def Obligations.StepKeepsFixed : Prop :=
  ∀ s t : State, s.wf → step s = .next t → s.SameFixed t
end

