-- ==== Sys2Proof/Laws/Exec.lean ====
section
/-! SUPPORT. What `exec` calls for each constructor: true by definition, so that no proof unfolds the dispatch. -/

namespace Sys2Proof.Laws

open Sys2Proof.Machine

@[simp] theorem exec_lui (rd : Reg) (imm : BitVec 20) (s : State) :
    exec (.lui rd imm) s = execLui rd imm s := rfl
@[simp] theorem exec_auipc (rd : Reg) (imm : BitVec 20) (s : State) :
    exec (.auipc rd imm) s = execAuipc rd imm s := rfl
@[simp] theorem exec_addi (rd rs1 : Reg) (imm : BitVec 12) (s : State) :
    exec (.addi rd rs1 imm) s = execAddi rd rs1 imm s := rfl
@[simp] theorem exec_slti (rd rs1 : Reg) (imm : BitVec 12) (s : State) :
    exec (.slti rd rs1 imm) s = execSlti rd rs1 imm s := rfl
@[simp] theorem exec_sltiu (rd rs1 : Reg) (imm : BitVec 12) (s : State) :
    exec (.sltiu rd rs1 imm) s = execSltiu rd rs1 imm s := rfl
@[simp] theorem exec_xori (rd rs1 : Reg) (imm : BitVec 12) (s : State) :
    exec (.xori rd rs1 imm) s = execXori rd rs1 imm s := rfl
@[simp] theorem exec_ori (rd rs1 : Reg) (imm : BitVec 12) (s : State) :
    exec (.ori rd rs1 imm) s = execOri rd rs1 imm s := rfl
@[simp] theorem exec_andi (rd rs1 : Reg) (imm : BitVec 12) (s : State) :
    exec (.andi rd rs1 imm) s = execAndi rd rs1 imm s := rfl
@[simp] theorem exec_slli (rd rs1 : Reg) (shamt : BitVec 6) (s : State) :
    exec (.slli rd rs1 shamt) s = execSlli rd rs1 shamt s := rfl
@[simp] theorem exec_srli (rd rs1 : Reg) (shamt : BitVec 6) (s : State) :
    exec (.srli rd rs1 shamt) s = execSrli rd rs1 shamt s := rfl
@[simp] theorem exec_srai (rd rs1 : Reg) (shamt : BitVec 6) (s : State) :
    exec (.srai rd rs1 shamt) s = execSrai rd rs1 shamt s := rfl
@[simp] theorem exec_add (rd rs1 rs2 : Reg) (s : State) :
    exec (.add rd rs1 rs2) s = execAdd rd rs1 rs2 s := rfl
@[simp] theorem exec_sub (rd rs1 rs2 : Reg) (s : State) :
    exec (.sub rd rs1 rs2) s = execSub rd rs1 rs2 s := rfl
@[simp] theorem exec_sll (rd rs1 rs2 : Reg) (s : State) :
    exec (.sll rd rs1 rs2) s = execSll rd rs1 rs2 s := rfl
@[simp] theorem exec_slt (rd rs1 rs2 : Reg) (s : State) :
    exec (.slt rd rs1 rs2) s = execSlt rd rs1 rs2 s := rfl
@[simp] theorem exec_sltu (rd rs1 rs2 : Reg) (s : State) :
    exec (.sltu rd rs1 rs2) s = execSltu rd rs1 rs2 s := rfl
@[simp] theorem exec_xor (rd rs1 rs2 : Reg) (s : State) :
    exec (.xor rd rs1 rs2) s = execXor rd rs1 rs2 s := rfl
@[simp] theorem exec_srl (rd rs1 rs2 : Reg) (s : State) :
    exec (.srl rd rs1 rs2) s = execSrl rd rs1 rs2 s := rfl
@[simp] theorem exec_sra (rd rs1 rs2 : Reg) (s : State) :
    exec (.sra rd rs1 rs2) s = execSra rd rs1 rs2 s := rfl
@[simp] theorem exec_or (rd rs1 rs2 : Reg) (s : State) :
    exec (.or rd rs1 rs2) s = execOr rd rs1 rs2 s := rfl
@[simp] theorem exec_and (rd rs1 rs2 : Reg) (s : State) :
    exec (.and rd rs1 rs2) s = execAnd rd rs1 rs2 s := rfl
@[simp] theorem exec_addiw (rd rs1 : Reg) (imm : BitVec 12) (s : State) :
    exec (.addiw rd rs1 imm) s = execAddiw rd rs1 imm s := rfl
@[simp] theorem exec_slliw (rd rs1 : Reg) (shamt : BitVec 5) (s : State) :
    exec (.slliw rd rs1 shamt) s = execSlliw rd rs1 shamt s := rfl
@[simp] theorem exec_srliw (rd rs1 : Reg) (shamt : BitVec 5) (s : State) :
    exec (.srliw rd rs1 shamt) s = execSrliw rd rs1 shamt s := rfl
@[simp] theorem exec_sraiw (rd rs1 : Reg) (shamt : BitVec 5) (s : State) :
    exec (.sraiw rd rs1 shamt) s = execSraiw rd rs1 shamt s := rfl
@[simp] theorem exec_addw (rd rs1 rs2 : Reg) (s : State) :
    exec (.addw rd rs1 rs2) s = execAddw rd rs1 rs2 s := rfl
@[simp] theorem exec_subw (rd rs1 rs2 : Reg) (s : State) :
    exec (.subw rd rs1 rs2) s = execSubw rd rs1 rs2 s := rfl
@[simp] theorem exec_sllw (rd rs1 rs2 : Reg) (s : State) :
    exec (.sllw rd rs1 rs2) s = execSllw rd rs1 rs2 s := rfl
@[simp] theorem exec_srlw (rd rs1 rs2 : Reg) (s : State) :
    exec (.srlw rd rs1 rs2) s = execSrlw rd rs1 rs2 s := rfl
@[simp] theorem exec_sraw (rd rs1 rs2 : Reg) (s : State) :
    exec (.sraw rd rs1 rs2) s = execSraw rd rs1 rs2 s := rfl
@[simp] theorem exec_jal (rd : Reg) (offset : BitVec 21) (s : State) :
    exec (.jal rd offset) s = execJal rd offset s := rfl
@[simp] theorem exec_jalr (rd rs1 : Reg) (imm : BitVec 12) (s : State) :
    exec (.jalr rd rs1 imm) s = execJalr rd rs1 imm s := rfl
@[simp] theorem exec_beq (rs1 rs2 : Reg) (offset : BitVec 13) (s : State) :
    exec (.beq rs1 rs2 offset) s = execBeq rs1 rs2 offset s := rfl
@[simp] theorem exec_bne (rs1 rs2 : Reg) (offset : BitVec 13) (s : State) :
    exec (.bne rs1 rs2 offset) s = execBne rs1 rs2 offset s := rfl
@[simp] theorem exec_blt (rs1 rs2 : Reg) (offset : BitVec 13) (s : State) :
    exec (.blt rs1 rs2 offset) s = execBlt rs1 rs2 offset s := rfl
@[simp] theorem exec_bge (rs1 rs2 : Reg) (offset : BitVec 13) (s : State) :
    exec (.bge rs1 rs2 offset) s = execBge rs1 rs2 offset s := rfl
@[simp] theorem exec_bltu (rs1 rs2 : Reg) (offset : BitVec 13) (s : State) :
    exec (.bltu rs1 rs2 offset) s = execBltu rs1 rs2 offset s := rfl
@[simp] theorem exec_bgeu (rs1 rs2 : Reg) (offset : BitVec 13) (s : State) :
    exec (.bgeu rs1 rs2 offset) s = execBgeu rs1 rs2 offset s := rfl
@[simp] theorem exec_lb (rd rs1 : Reg) (imm : BitVec 12) (s : State) :
    exec (.lb rd rs1 imm) s = execLb rd rs1 imm s := rfl
@[simp] theorem exec_lh (rd rs1 : Reg) (imm : BitVec 12) (s : State) :
    exec (.lh rd rs1 imm) s = execLh rd rs1 imm s := rfl
@[simp] theorem exec_lw (rd rs1 : Reg) (imm : BitVec 12) (s : State) :
    exec (.lw rd rs1 imm) s = execLw rd rs1 imm s := rfl
@[simp] theorem exec_ld (rd rs1 : Reg) (imm : BitVec 12) (s : State) :
    exec (.ld rd rs1 imm) s = execLd rd rs1 imm s := rfl
@[simp] theorem exec_lbu (rd rs1 : Reg) (imm : BitVec 12) (s : State) :
    exec (.lbu rd rs1 imm) s = execLbu rd rs1 imm s := rfl
@[simp] theorem exec_lhu (rd rs1 : Reg) (imm : BitVec 12) (s : State) :
    exec (.lhu rd rs1 imm) s = execLhu rd rs1 imm s := rfl
@[simp] theorem exec_lwu (rd rs1 : Reg) (imm : BitVec 12) (s : State) :
    exec (.lwu rd rs1 imm) s = execLwu rd rs1 imm s := rfl
@[simp] theorem exec_sb (rs1 rs2 : Reg) (imm : BitVec 12) (s : State) :
    exec (.sb rs1 rs2 imm) s = execSb rs1 rs2 imm s := rfl
@[simp] theorem exec_sh (rs1 rs2 : Reg) (imm : BitVec 12) (s : State) :
    exec (.sh rs1 rs2 imm) s = execSh rs1 rs2 imm s := rfl
@[simp] theorem exec_sw (rs1 rs2 : Reg) (imm : BitVec 12) (s : State) :
    exec (.sw rs1 rs2 imm) s = execSw rs1 rs2 imm s := rfl
@[simp] theorem exec_sd (rs1 rs2 : Reg) (imm : BitVec 12) (s : State) :
    exec (.sd rs1 rs2 imm) s = execSd rs1 rs2 imm s := rfl
@[simp] theorem exec_lrW (rd rs1 : Reg) (aq rl : Bool) (s : State) :
    exec (.lrW rd rs1 aq rl) s = execLrW rd rs1 aq rl s := rfl
@[simp] theorem exec_scW (rd rs1 rs2 : Reg) (aq rl : Bool) (s : State) :
    exec (.scW rd rs1 rs2 aq rl) s = execScW rd rs1 rs2 aq rl s := rfl
@[simp] theorem exec_amoswapW (rd rs1 rs2 : Reg) (aq rl : Bool) (s : State) :
    exec (.amoswapW rd rs1 rs2 aq rl) s = execAmoswapW rd rs1 rs2 aq rl s := rfl
@[simp] theorem exec_amoaddW (rd rs1 rs2 : Reg) (aq rl : Bool) (s : State) :
    exec (.amoaddW rd rs1 rs2 aq rl) s = execAmoaddW rd rs1 rs2 aq rl s := rfl
@[simp] theorem exec_amoxorW (rd rs1 rs2 : Reg) (aq rl : Bool) (s : State) :
    exec (.amoxorW rd rs1 rs2 aq rl) s = execAmoxorW rd rs1 rs2 aq rl s := rfl
@[simp] theorem exec_amoandW (rd rs1 rs2 : Reg) (aq rl : Bool) (s : State) :
    exec (.amoandW rd rs1 rs2 aq rl) s = execAmoandW rd rs1 rs2 aq rl s := rfl
@[simp] theorem exec_amoorW (rd rs1 rs2 : Reg) (aq rl : Bool) (s : State) :
    exec (.amoorW rd rs1 rs2 aq rl) s = execAmoorW rd rs1 rs2 aq rl s := rfl
@[simp] theorem exec_amominW (rd rs1 rs2 : Reg) (aq rl : Bool) (s : State) :
    exec (.amominW rd rs1 rs2 aq rl) s = execAmominW rd rs1 rs2 aq rl s := rfl
@[simp] theorem exec_amomaxW (rd rs1 rs2 : Reg) (aq rl : Bool) (s : State) :
    exec (.amomaxW rd rs1 rs2 aq rl) s = execAmomaxW rd rs1 rs2 aq rl s := rfl
@[simp] theorem exec_amominuW (rd rs1 rs2 : Reg) (aq rl : Bool) (s : State) :
    exec (.amominuW rd rs1 rs2 aq rl) s = execAmominuW rd rs1 rs2 aq rl s := rfl
@[simp] theorem exec_amomaxuW (rd rs1 rs2 : Reg) (aq rl : Bool) (s : State) :
    exec (.amomaxuW rd rs1 rs2 aq rl) s = execAmomaxuW rd rs1 rs2 aq rl s := rfl
@[simp] theorem exec_lrD (rd rs1 : Reg) (aq rl : Bool) (s : State) :
    exec (.lrD rd rs1 aq rl) s = execLrD rd rs1 aq rl s := rfl
@[simp] theorem exec_scD (rd rs1 rs2 : Reg) (aq rl : Bool) (s : State) :
    exec (.scD rd rs1 rs2 aq rl) s = execScD rd rs1 rs2 aq rl s := rfl
@[simp] theorem exec_amoswapD (rd rs1 rs2 : Reg) (aq rl : Bool) (s : State) :
    exec (.amoswapD rd rs1 rs2 aq rl) s = execAmoswapD rd rs1 rs2 aq rl s := rfl
@[simp] theorem exec_amoaddD (rd rs1 rs2 : Reg) (aq rl : Bool) (s : State) :
    exec (.amoaddD rd rs1 rs2 aq rl) s = execAmoaddD rd rs1 rs2 aq rl s := rfl
@[simp] theorem exec_amoxorD (rd rs1 rs2 : Reg) (aq rl : Bool) (s : State) :
    exec (.amoxorD rd rs1 rs2 aq rl) s = execAmoxorD rd rs1 rs2 aq rl s := rfl
@[simp] theorem exec_amoandD (rd rs1 rs2 : Reg) (aq rl : Bool) (s : State) :
    exec (.amoandD rd rs1 rs2 aq rl) s = execAmoandD rd rs1 rs2 aq rl s := rfl
@[simp] theorem exec_amoorD (rd rs1 rs2 : Reg) (aq rl : Bool) (s : State) :
    exec (.amoorD rd rs1 rs2 aq rl) s = execAmoorD rd rs1 rs2 aq rl s := rfl
@[simp] theorem exec_amominD (rd rs1 rs2 : Reg) (aq rl : Bool) (s : State) :
    exec (.amominD rd rs1 rs2 aq rl) s = execAmominD rd rs1 rs2 aq rl s := rfl
@[simp] theorem exec_amomaxD (rd rs1 rs2 : Reg) (aq rl : Bool) (s : State) :
    exec (.amomaxD rd rs1 rs2 aq rl) s = execAmomaxD rd rs1 rs2 aq rl s := rfl
@[simp] theorem exec_amominuD (rd rs1 rs2 : Reg) (aq rl : Bool) (s : State) :
    exec (.amominuD rd rs1 rs2 aq rl) s = execAmominuD rd rs1 rs2 aq rl s := rfl
@[simp] theorem exec_amomaxuD (rd rs1 rs2 : Reg) (aq rl : Bool) (s : State) :
    exec (.amomaxuD rd rs1 rs2 aq rl) s = execAmomaxuD rd rs1 rs2 aq rl s := rfl
@[simp] theorem exec_fence (fm pred succ : BitVec 4) (rs1 rd : Reg) (s : State) :
    exec (.fence fm pred succ rs1 rd) s = execFence fm pred succ rs1 rd s := rfl
@[simp] theorem exec_ecall (s : State) :
    exec .ecall s = execEcall s := rfl
@[simp] theorem exec_ebreak (s : State) :
    exec .ebreak s = execEbreak s := rfl
@[simp] theorem exec_fenceI (imm : BitVec 12) (rs1 rd : Reg) (s : State) :
    exec (.fenceI imm rs1 rd) s = execFenceI imm rs1 rd s := rfl
@[simp] theorem exec_mulDiv (funct3 : BitVec 3) (rd rs1 rs2 : Reg) (s : State) :
    exec (.mulDiv funct3 rd rs1 rs2) s = execMulDiv funct3 rd rs1 rs2 s := rfl
@[simp] theorem exec_mulDivW (funct3 : BitVec 3) (rd rs1 rs2 : Reg) (s : State) :
    exec (.mulDivW funct3 rd rs1 rs2) s = execMulDivW funct3 rd rs1 rs2 s := rfl
@[simp] theorem exec_csrrw (csr : BitVec 12) (src rd : Reg) (s : State) :
    exec (.csrrw csr src rd) s = execCsrrw csr src rd s := rfl
@[simp] theorem exec_csrrs (csr : BitVec 12) (src rd : Reg) (s : State) :
    exec (.csrrs csr src rd) s = execCsrrs csr src rd s := rfl
@[simp] theorem exec_csrrc (csr : BitVec 12) (src rd : Reg) (s : State) :
    exec (.csrrc csr src rd) s = execCsrrc csr src rd s := rfl
@[simp] theorem exec_csrrwi (csr : BitVec 12) (src rd : Reg) (s : State) :
    exec (.csrrwi csr src rd) s = execCsrrwi csr src rd s := rfl
@[simp] theorem exec_csrrsi (csr : BitVec 12) (src rd : Reg) (s : State) :
    exec (.csrrsi csr src rd) s = execCsrrsi csr src rd s := rfl
@[simp] theorem exec_csrrci (csr : BitVec 12) (src rd : Reg) (s : State) :
    exec (.csrrci csr src rd) s = execCsrrci csr src rd s := rfl
@[simp] theorem exec_systemFunct3_4 (imm : BitVec 12) (rs1 rd : Reg) (s : State) :
    exec (.systemFunct3_4 imm rs1 rd) s = execSystemFunct3_4 imm rs1 rd s := rfl
@[simp] theorem exec_uret (s : State) :
    exec .uret s = execUret s := rfl
@[simp] theorem exec_sret (s : State) :
    exec .sret s = execSret s := rfl
@[simp] theorem exec_mret (s : State) :
    exec .mret s = execMret s := rfl
@[simp] theorem exec_wfi (s : State) :
    exec .wfi s = execWfi s := rfl
@[simp] theorem exec_sfenceVma (rs1 rs2 : Reg) (s : State) :
    exec (.sfenceVma rs1 rs2) s = execSfenceVma rs1 rs2 s := rfl
@[simp] theorem exec_loadFp (high : BitVec 25) (s : State) :
    exec (.loadFp high) s = execLoadFp high s := rfl
@[simp] theorem exec_storeFp (high : BitVec 25) (s : State) :
    exec (.storeFp high) s = execStoreFp high s := rfl
@[simp] theorem exec_fmadd (high : BitVec 25) (s : State) :
    exec (.fmadd high) s = execFmadd high s := rfl
@[simp] theorem exec_fmsub (high : BitVec 25) (s : State) :
    exec (.fmsub high) s = execFmsub high s := rfl
@[simp] theorem exec_fnmsub (high : BitVec 25) (s : State) :
    exec (.fnmsub high) s = execFnmsub high s := rfl
@[simp] theorem exec_fnmadd (high : BitVec 25) (s : State) :
    exec (.fnmadd high) s = execFnmadd high s := rfl
@[simp] theorem exec_opFp (high : BitVec 25) (s : State) :
    exec (.opFp high) s = execOpFp high s := rfl
@[simp] theorem exec_cAddi4spn (rd : Reg3) (imm : BitVec 10) (s : State) :
    exec (.cAddi4spn rd imm) s = execCAddi4spn rd imm s := rfl
@[simp] theorem exec_cLw (rd rs1 : Reg3) (imm : BitVec 7) (s : State) :
    exec (.cLw rd rs1 imm) s = execCLw rd rs1 imm s := rfl
@[simp] theorem exec_cLd (rd rs1 : Reg3) (imm : BitVec 8) (s : State) :
    exec (.cLd rd rs1 imm) s = execCLd rd rs1 imm s := rfl
@[simp] theorem exec_cSw (rs1 rs2 : Reg3) (imm : BitVec 7) (s : State) :
    exec (.cSw rs1 rs2 imm) s = execCSw rs1 rs2 imm s := rfl
@[simp] theorem exec_cSd (rs1 rs2 : Reg3) (imm : BitVec 8) (s : State) :
    exec (.cSd rs1 rs2 imm) s = execCSd rs1 rs2 imm s := rfl
@[simp] theorem exec_cNop (s : State) :
    exec .cNop s = execCNop s := rfl
@[simp] theorem exec_cAddi (rd : Reg) (imm : BitVec 6) (s : State) :
    exec (.cAddi rd imm) s = execCAddi rd imm s := rfl
@[simp] theorem exec_cJal (offset : BitVec 12) (s : State) :
    exec (.cJal offset) s = execCJal offset s := rfl
@[simp] theorem exec_cAddiw (rd : Reg) (imm : BitVec 6) (s : State) :
    exec (.cAddiw rd imm) s = execCAddiw rd imm s := rfl
@[simp] theorem exec_cLi (rd : Reg) (imm : BitVec 6) (s : State) :
    exec (.cLi rd imm) s = execCLi rd imm s := rfl
@[simp] theorem exec_cAddi16sp (imm : BitVec 10) (s : State) :
    exec (.cAddi16sp imm) s = execCAddi16sp imm s := rfl
@[simp] theorem exec_cLui (rd : Reg) (imm : BitVec 6) (s : State) :
    exec (.cLui rd imm) s = execCLui rd imm s := rfl
@[simp] theorem exec_cSrli (rd : Reg3) (shamt : BitVec 6) (s : State) :
    exec (.cSrli rd shamt) s = execCSrli rd shamt s := rfl
@[simp] theorem exec_cSrai (rd : Reg3) (shamt : BitVec 6) (s : State) :
    exec (.cSrai rd shamt) s = execCSrai rd shamt s := rfl
@[simp] theorem exec_cAndi (rd : Reg3) (imm : BitVec 6) (s : State) :
    exec (.cAndi rd imm) s = execCAndi rd imm s := rfl
@[simp] theorem exec_cSub (rd rs2 : Reg3) (s : State) :
    exec (.cSub rd rs2) s = execCSub rd rs2 s := rfl
@[simp] theorem exec_cXor (rd rs2 : Reg3) (s : State) :
    exec (.cXor rd rs2) s = execCXor rd rs2 s := rfl
@[simp] theorem exec_cOr (rd rs2 : Reg3) (s : State) :
    exec (.cOr rd rs2) s = execCOr rd rs2 s := rfl
@[simp] theorem exec_cAnd (rd rs2 : Reg3) (s : State) :
    exec (.cAnd rd rs2) s = execCAnd rd rs2 s := rfl
@[simp] theorem exec_cSubw (rd rs2 : Reg3) (s : State) :
    exec (.cSubw rd rs2) s = execCSubw rd rs2 s := rfl
@[simp] theorem exec_cAddw (rd rs2 : Reg3) (s : State) :
    exec (.cAddw rd rs2) s = execCAddw rd rs2 s := rfl
@[simp] theorem exec_cJ (offset : BitVec 12) (s : State) :
    exec (.cJ offset) s = execCJ offset s := rfl
@[simp] theorem exec_cBeqz (rs1 : Reg3) (offset : BitVec 9) (s : State) :
    exec (.cBeqz rs1 offset) s = execCBeqz rs1 offset s := rfl
@[simp] theorem exec_cBnez (rs1 : Reg3) (offset : BitVec 9) (s : State) :
    exec (.cBnez rs1 offset) s = execCBnez rs1 offset s := rfl
@[simp] theorem exec_cSlli (rd : Reg) (shamt : BitVec 6) (s : State) :
    exec (.cSlli rd shamt) s = execCSlli rd shamt s := rfl
@[simp] theorem exec_cLwsp (rd : Reg) (imm : BitVec 8) (s : State) :
    exec (.cLwsp rd imm) s = execCLwsp rd imm s := rfl
@[simp] theorem exec_cLdsp (rd : Reg) (imm : BitVec 9) (s : State) :
    exec (.cLdsp rd imm) s = execCLdsp rd imm s := rfl
@[simp] theorem exec_cJr (rs1 : Reg) (s : State) :
    exec (.cJr rs1) s = execCJr rs1 s := rfl
@[simp] theorem exec_cMv (rd rs2 : Reg) (s : State) :
    exec (.cMv rd rs2) s = execCMv rd rs2 s := rfl
@[simp] theorem exec_cEbreak (s : State) :
    exec .cEbreak s = execCEbreak s := rfl
@[simp] theorem exec_cJalr (rs1 : Reg) (s : State) :
    exec (.cJalr rs1) s = execCJalr rs1 s := rfl
@[simp] theorem exec_cAdd (rd rs2 : Reg) (s : State) :
    exec (.cAdd rd rs2) s = execCAdd rd rs2 s := rfl
@[simp] theorem exec_cSwsp (rs2 : Reg) (imm : BitVec 8) (s : State) :
    exec (.cSwsp rs2 imm) s = execCSwsp rs2 imm s := rfl
@[simp] theorem exec_cSdsp (rs2 : Reg) (imm : BitVec 9) (s : State) :
    exec (.cSdsp rs2 imm) s = execCSdsp rs2 imm s := rfl
@[simp] theorem exec_cFld (mid : BitVec 11) (s : State) :
    exec (.cFld mid) s = execCFld mid s := rfl
@[simp] theorem exec_cFsd (mid : BitVec 11) (s : State) :
    exec (.cFsd mid) s = execCFsd mid s := rfl
@[simp] theorem exec_cFldsp (mid : BitVec 11) (s : State) :
    exec (.cFldsp mid) s = execCFldsp mid s := rfl
@[simp] theorem exec_cFsdsp (mid : BitVec 11) (s : State) :
    exec (.cFsdsp mid) s = execCFsdsp mid s := rfl
@[simp] theorem exec_cFlw (mid : BitVec 11) (s : State) :
    exec (.cFlw mid) s = execCFlw mid s := rfl
@[simp] theorem exec_cFsw (mid : BitVec 11) (s : State) :
    exec (.cFsw mid) s = execCFsw mid s := rfl
@[simp] theorem exec_cFlwsp (mid : BitVec 11) (s : State) :
    exec (.cFlwsp mid) s = execCFlwsp mid s := rfl
@[simp] theorem exec_cFswsp (mid : BitVec 11) (s : State) :
    exec (.cFswsp mid) s = execCFswsp mid s := rfl
@[simp] theorem exec_cReserved00_4 (mid : BitVec 11) (s : State) :
    exec (.cReserved00_4 mid) s = execCReserved00_4 mid s := rfl
@[simp] theorem exec_cIllegal (s : State) :
    exec .cIllegal s = execCIllegal s := rfl

end Sys2Proof.Laws
end

