-- ==== Sys2Proof/Laws/Memory.lean ====
section
/-! SUPPORT. The laws of the finite maps and of the byte memory: read after write, frames, and the canonical form. -/

namespace Sys2Proof.Laws

open Sys2Proof.Machine

/-! ### Maps: what a key gives after an update -/

theorem find_insert_self {α : Type} (m : List (Nat × α)) (k : Nat) (v : α) : SMap.find (SMap.insert k v m) k = some v := by
  induction m with
  | nil => simp [SMap.insert, SMap.find]
  | cons e t ih =>
    obtain ⟨k', v'⟩ := e
    unfold SMap.insert
    split
    · simp [SMap.find]
    · split
      · simp [SMap.find]
      · rename_i h
        simp [SMap.find, h, ih]

theorem find_insert_ne {α : Type} (m : List (Nat × α)) (k q : Nat) (v : α) (h : q ≠ k) :
    SMap.find (SMap.insert k v m) q = SMap.find m q := by
  induction m with
  | nil => simp [SMap.insert, SMap.find, h]
  | cons e t ih =>
    obtain ⟨k', v'⟩ := e
    unfold SMap.insert
    split
    · simp [SMap.find, h]
    · split
      · rename_i hk
        subst hk
        simp [SMap.find, h]
      · simp [SMap.find, ih]

theorem find_insert {α : Type} (m : List (Nat × α)) (k q : Nat) (v : α) :
    SMap.find (SMap.insert k v m) q = if q = k then some v else SMap.find m q := by
  by_cases h : q = k
  · subst h; simp [find_insert_self]
  · simp [h, find_insert_ne]

theorem find_dropKeys {α : Type} (m : List (Nat × α)) (p : Nat → Bool) (q : Nat) :
    SMap.find (SMap.dropKeys p m) q = if p q then none else SMap.find m q := by
  induction m with
  | nil => simp [SMap.dropKeys, SMap.find]
  | cons e t ih =>
    obtain ⟨k, v⟩ := e
    simp only [SMap.dropKeys] at ih ⊢
    by_cases hk : p k
    · simp only [List.filter_cons, hk, Bool.not_true, Bool.false_eq_true, if_false, ih, SMap.find]
      by_cases hq : q = k
      · subst hq; simp [hk]
      · simp [hq]
    · simp only [List.filter_cons, hk, Bool.not_false, if_true, SMap.find, ih]
      by_cases hq : q = k
      · subst hq; simp [hk]
      · simp [hq]

theorem find_erase {α : Type} (m : List (Nat × α)) (k q : Nat) :
    SMap.find (SMap.erase k m) q = if q = k then none else SMap.find m q := by
  simp [SMap.erase, find_dropKeys]

/-! ### Maps: the canonical form is kept -/

theorem mem_insert {α : Type} {m : List (Nat × α)} {k : Nat} {v : α} {e : Nat × α} (h : e ∈ SMap.insert k v m) :
    e = (k, v) ∨ e ∈ m := by
  induction m with
  | nil => simpa [SMap.insert] using h
  | cons a t ih =>
    obtain ⟨k', v'⟩ := a
    unfold SMap.insert at h
    split at h
    · simpa using h
    · split at h
      · rcases List.mem_cons.mp h with h | h
        · exact .inl h
        · exact .inr (List.mem_cons_of_mem _ h)
      · rcases List.mem_cons.mp h with h | h
        · exact .inr (h ▸ List.mem_cons_self ..)
        · exact (ih h).imp id (List.mem_cons_of_mem _)

theorem sorted_insert {α : Type} {m : List (Nat × α)} (k : Nat) (v : α) (h : SMap.sorted m) :
    SMap.sorted (SMap.insert k v m) := by
  induction m with
  | nil => simp [SMap.sorted, SMap.insert]
  | cons a t ih =>
    obtain ⟨k', v'⟩ := a
    obtain ⟨h1, h2⟩ := List.pairwise_cons.mp h
    unfold SMap.insert
    split
    · rename_i hk
      refine List.pairwise_cons.mpr ⟨fun e he => ?_, h⟩
      rcases List.mem_cons.mp he with he | he
      · exact he ▸ hk
      · exact Nat.lt_trans hk (h1 e he)
    · split
      · rename_i hk
        subst hk
        exact List.pairwise_cons.mpr ⟨h1, h2⟩
      · refine List.pairwise_cons.mpr ⟨fun e he => ?_, ih h2⟩
        rcases mem_insert he with he | he
        · subst he; show k' < k; omega
        · exact h1 e he

theorem sorted_dropKeys {α : Type} {m : List (Nat × α)} (p : Nat → Bool) (h : SMap.sorted m) :
    SMap.sorted (SMap.dropKeys p m) := List.Pairwise.filter _ h

theorem mem_dropKeys {α : Type} {m : List (Nat × α)} {p : Nat → Bool} {e : Nat × α} :
    e ∈ SMap.dropKeys p m ↔ e ∈ m ∧ p e.1 = false := by
  simp [SMap.dropKeys, List.mem_filter]

theorem find_isSome_of_mem {α : Type} {m : List (Nat × α)} {e : Nat × α} (h : e ∈ m) : (SMap.find m e.1).isSome = true := by
  induction m with
  | nil => simp at h
  | cons a t ih =>
    obtain ⟨k', v'⟩ := a
    unfold SMap.find
    split
    · rfl
    · rename_i hk
      rcases List.mem_cons.mp h with h | h
      · subst h; exact absurd rfl hk
      · exact ih h

/-- In a sorted map the value found at a key is the one listed. -/
theorem find_of_mem {α : Type} {m : List (Nat × α)} {e : Nat × α} (hs : SMap.sorted m) (h : e ∈ m) :
    SMap.find m e.1 = some e.2 := by
  induction m with
  | nil => simp at h
  | cons a t ih =>
    obtain ⟨h1, h2⟩ := List.pairwise_cons.mp hs
    unfold SMap.find
    rcases List.mem_cons.mp h with h | h
    · subst h; simp
    · have := h1 e h
      rw [if_neg (by omega)]
      exact ih h2 h

/-! ### Memory -/

/-- Read after write at the same address (R80). -/
theorem read_write_self (m : List Host.Cell) (a : Nat) (b : Byte) : Memory.read (Memory.write a b m) a = b := by
  unfold Memory.read Memory.write
  split
  · rename_i h; subst h; simp [find_erase]
  · simp [find_insert_self]

/-- A write leaves every other address alone. -/
theorem read_write_ne (m : List Host.Cell) (a q : Nat) (b : Byte) (h : q ≠ a) :
    Memory.read (Memory.write a b m) q = Memory.read m q := by
  unfold Memory.read Memory.write
  split
  · simp [find_erase, h]
  · simp [find_insert_ne, h]

/-- A write keeps the canonical form. -/
theorem wf_write {m : List Host.Cell} (a : Nat) (b : Byte) (h : Memory.wf m) : Memory.wf (Memory.write a b m) := by
  unfold Memory.write
  split
  · exact ⟨sorted_dropKeys _ h.1, fun c hc => h.2 c (mem_dropKeys.mp hc).1⟩
  · rename_i hb
    refine ⟨sorted_insert a b h.1, fun c hc => ?_⟩
    rcases mem_insert hc with e | e
    · subst e; exact hb
    · exact h.2 c e

theorem wf_dropKeys {m : List Host.Cell} (p : Nat → Bool) (h : Memory.wf m) : Memory.wf (SMap.dropKeys p m) :=
  ⟨sorted_dropKeys _ h.1, fun c hc => h.2 c (mem_dropKeys.mp hc).1⟩

/-- Writing bytes keeps the canonical form. -/
theorem wf_writeBytes {m : List Host.Cell} (a : Nat) (bs : List Byte) (h : Memory.wf m) :
    Memory.wf (Memory.writeBytes a bs m) := by
  induction bs generalizing a m with
  | nil => exact h
  | cons b t ih => exact ih (a + 1) (wf_write a b h)

/-- Where two memories in canonical form read alike they are equal. -/
theorem memory_ext {m n : List Host.Cell} (hm : Memory.wf m) (hn : Memory.wf n)
    (h : ∀ a, Memory.read m a = Memory.read n a) : m = n := by
  have key : ∀ {m n : List Host.Cell}, Memory.wf m → Memory.wf n → (∀ a, Memory.read m a = Memory.read n a) →
      ∀ c ∈ m, c ∈ n := by
    intro m n hm hn h c hc
    have h1 : Memory.read m c.1 = c.2 := by simp [Memory.read, find_of_mem hm.1 hc]
    have h2 : Memory.read n c.1 = c.2 := by rw [← h, h1]
    unfold Memory.read at h2
    cases hf : SMap.find n c.1 with
    | none => rw [hf] at h2; exact absurd h2.symm (hm.2 c hc)
    | some b =>
      rw [hf] at h2
      have aux : ∀ (l : List Host.Cell), SMap.find l c.1 = some b → (c.1, b) ∈ l := by
        intro l
        induction l with
        | nil => simp [SMap.find]
        | cons e t ih =>
          obtain ⟨k, v⟩ := e
          unfold SMap.find
          split
          · rename_i hk; intro hv; cases hv; rw [hk]; exact List.mem_cons_self ..
          · intro hv; exact List.mem_cons_of_mem _ (ih hv)
      have hb : c = (c.1, b) := Prod.ext rfl h2.symm
      rw [hb]; exact aux n hf
  have nd : ∀ {m : List Host.Cell}, Memory.wf m → m.Nodup := fun {m} hm =>
    hm.1.imp fun {a b} hab e => by subst e; exact Nat.lt_irrefl _ hab
  have perm : m.Perm n := (List.perm_ext_iff_of_nodup (nd hm) (nd hn)).mpr fun c => ⟨key hm hn h c, key hn hm (fun a => (h a).symm) c⟩
  exact perm.eq_of_pairwise (le := fun a b : Host.Cell => a.1 < b.1)
    (fun a b _ _ h1 h2 => absurd (Nat.lt_trans h1 h2) (Nat.lt_irrefl _)) hm.1 hn.1

/-- A byte written by a block write reads as its byte of the block. -/
theorem read_writeBytes (m : List Host.Cell) (a : Nat) (bs : List Byte) (q : Nat) :
    Memory.read (Memory.writeBytes a bs m) q =
      if a ≤ q ∧ q < a + bs.length then bs.getD (q - a) 0 else Memory.read m q := by
  induction bs generalizing a m with
  | nil => simp [Memory.writeBytes]
  | cons b t ih =>
    simp only [Memory.writeBytes, ih, List.length_cons]
    by_cases h : q = a
    · subst h
      simp [read_write_self]
    · rw [read_write_ne _ _ _ _ h]
      by_cases h2 : a + 1 ≤ q ∧ q < a + 1 + t.length
      · obtain ⟨k, rfl⟩ : ∃ k, q = a + 1 + k := ⟨q - (a + 1), by omega⟩
        have e1 : a + 1 + k - a = k + 1 := by omega
        have e2 : a + 1 + k - (a + 1) = k := by omega
        rw [if_pos h2, if_pos (by omega), e1, e2]
        simp
      · rw [if_neg h2, if_neg (by omega)]

@[simp] theorem length_readBytes (m : List Host.Cell) (a n : Nat) : (Memory.readBytes m a n).length = n := by
  simp [Memory.readBytes]

/-- Every listed address after a write was listed before or is the one written. -/
theorem mem_write {m : List Host.Cell} {a : Nat} {b : Byte} {c : Host.Cell} (h : c ∈ Memory.write a b m) : c ∈ m ∨ c = (a, b) := by
  unfold Memory.write at h
  split at h
  · exact .inl (mem_dropKeys.mp h).1
  · exact (mem_insert h).symm

/-- Every listed address after a block write was listed before or is inside the block. -/
theorem mem_writeBytes {m : List Host.Cell} {a : Nat} {bs : List Byte} {c : Host.Cell}
    (h : c ∈ Memory.writeBytes a bs m) : c ∈ m ∨ a ≤ c.1 ∧ c.1 < a + bs.length := by
  induction bs generalizing a m with
  | nil => exact .inl h
  | cons b t ih =>
    rcases ih h with h | h
    · rcases mem_write h with e | rfl
      · exact .inl e
      · right; simp
    · right; simp only [List.length_cons]; omega

end Sys2Proof.Laws
end

