-- ==== Sys2Proof/Laws/State.lean ====
section
/-! SUPPORT. What each update of the state leaves: one lemma per field per update, and the laws of the registers. -/

namespace Sys2Proof.Laws

open Sys2Proof.Machine

/-! ### setPc -/

@[simp] theorem setPc_params (s : State) (t : Word) : (s.setPc t).params = s.params := rfl
@[simp] theorem setPc_regs (s : State) (t : Word) : (s.setPc t).regs = s.regs := rfl
@[simp] theorem setPc_counter (s : State) (t : Word) : (s.setPc t).counter = s.counter := rfl
@[simp] theorem setPc_stopped (s : State) (t : Word) : (s.setPc t).stopped = s.stopped := rfl
@[simp] theorem setPc_status (s : State) (t : Word) : (s.setPc t).status = s.status := rfl
@[simp] theorem setPc_resv (s : State) (t : Word) : (s.setPc t).resv = s.resv := rfl
@[simp] theorem setPc_pages (s : State) (t : Word) : (s.setPc t).pages = s.pages := rfl
@[simp] theorem setPc_mem (s : State) (t : Word) : (s.setPc t).mem = s.mem := rfl
@[simp] theorem setPc_hostMem (s : State) (t : Word) : (s.setPc t).hostMem = s.hostMem := rfl
@[simp] theorem setPc_execBase (s : State) (t : Word) : (s.setPc t).execBase = s.execBase := rfl
@[simp] theorem setPc_execLen (s : State) (t : Word) : (s.setPc t).execLen = s.execLen := rfl
@[simp] theorem setPc_startAddress (s : State) (t : Word) : (s.setPc t).startAddress = s.startAddress := rfl
@[simp] theorem setPc_stackAddress (s : State) (t : Word) : (s.setPc t).stackAddress = s.stackAddress := rfl
@[simp] theorem setPc_exitAddress (s : State) (t : Word) : (s.setPc t).exitAddress = s.exitAddress := rfl
@[simp] theorem setPc_handlers (s : State) (t : Word) : (s.setPc t).handlers = s.handlers := rfl
@[simp] theorem setPc_pageFaultCallback (s : State) (t : Word) : (s.setPc t).pageFaultCallback = s.pageFaultCallback := rfl
@[simp] theorem setPc_pageWriteCallback (s : State) (t : Word) : (s.setPc t).pageWriteCallback = s.pageWriteCallback := rfl
@[simp] theorem setPc_scripts (s : State) (t : Word) : (s.setPc t).scripts = s.scripts := rfl
@[simp] theorem setPc_run (s : State) (t : Word) : (s.setPc t).run = s.run := rfl
@[simp] theorem setPc_hostCalls (s : State) (t : Word) : (s.setPc t).hostCalls = s.hostCalls := rfl
@[simp] theorem setPc_hostResult (s : State) (t : Word) : (s.setPc t).hostResult = s.hostResult := rfl
@[simp] theorem setPc_draws (s : State) (t : Word) : (s.setPc t).draws = s.draws := rfl
@[simp] theorem setPc_undo (s : State) (t : Word) : (s.setPc t).undo = s.undo := rfl
@[simp] theorem setPc_pc (s : State) (t : Word) : (s.setPc t).pc = wrap s.w t := rfl

/-! ### takeTrap -/

@[simp] theorem takeTrap_params (tag : Tag) (detail : Nat) (s : State) : (takeTrap tag detail s).params = s.params := rfl
@[simp] theorem takeTrap_regs (tag : Tag) (detail : Nat) (s : State) : (takeTrap tag detail s).regs = s.regs := rfl
@[simp] theorem takeTrap_pc (tag : Tag) (detail : Nat) (s : State) : (takeTrap tag detail s).pc = s.pc := rfl
@[simp] theorem takeTrap_counter (tag : Tag) (detail : Nat) (s : State) : (takeTrap tag detail s).counter = s.counter := rfl
@[simp] theorem takeTrap_stopped (tag : Tag) (detail : Nat) (s : State) : (takeTrap tag detail s).stopped = s.stopped := rfl
@[simp] theorem takeTrap_resv (tag : Tag) (detail : Nat) (s : State) : (takeTrap tag detail s).resv = s.resv := rfl
@[simp] theorem takeTrap_pages (tag : Tag) (detail : Nat) (s : State) : (takeTrap tag detail s).pages = s.pages := rfl
@[simp] theorem takeTrap_mem (tag : Tag) (detail : Nat) (s : State) : (takeTrap tag detail s).mem = s.mem := rfl
@[simp] theorem takeTrap_hostMem (tag : Tag) (detail : Nat) (s : State) : (takeTrap tag detail s).hostMem = s.hostMem := rfl
@[simp] theorem takeTrap_execBase (tag : Tag) (detail : Nat) (s : State) : (takeTrap tag detail s).execBase = s.execBase := rfl
@[simp] theorem takeTrap_execLen (tag : Tag) (detail : Nat) (s : State) : (takeTrap tag detail s).execLen = s.execLen := rfl
@[simp] theorem takeTrap_startAddress (tag : Tag) (detail : Nat) (s : State) : (takeTrap tag detail s).startAddress = s.startAddress := rfl
@[simp] theorem takeTrap_stackAddress (tag : Tag) (detail : Nat) (s : State) : (takeTrap tag detail s).stackAddress = s.stackAddress := rfl
@[simp] theorem takeTrap_exitAddress (tag : Tag) (detail : Nat) (s : State) : (takeTrap tag detail s).exitAddress = s.exitAddress := rfl
@[simp] theorem takeTrap_handlers (tag : Tag) (detail : Nat) (s : State) : (takeTrap tag detail s).handlers = s.handlers := rfl
@[simp] theorem takeTrap_pageFaultCallback (tag : Tag) (detail : Nat) (s : State) : (takeTrap tag detail s).pageFaultCallback = s.pageFaultCallback := rfl
@[simp] theorem takeTrap_pageWriteCallback (tag : Tag) (detail : Nat) (s : State) : (takeTrap tag detail s).pageWriteCallback = s.pageWriteCallback := rfl
@[simp] theorem takeTrap_scripts (tag : Tag) (detail : Nat) (s : State) : (takeTrap tag detail s).scripts = s.scripts := rfl
@[simp] theorem takeTrap_hostCalls (tag : Tag) (detail : Nat) (s : State) : (takeTrap tag detail s).hostCalls = s.hostCalls := rfl
@[simp] theorem takeTrap_draws (tag : Tag) (detail : Nat) (s : State) : (takeTrap tag detail s).draws = s.draws := rfl
@[simp] theorem takeTrap_undo (tag : Tag) (detail : Nat) (s : State) : (takeTrap tag detail s).undo = s.undo := rfl
@[simp] theorem takeTrap_status (tag : Tag) (detail : Nat) (s : State) :
    (takeTrap tag detail s).status = .trapped tag detail := rfl
@[simp] theorem takeTrap_run (tag : Tag) (detail : Nat) (s : State) : (takeTrap tag detail s).run = none := rfl
@[simp] theorem takeTrap_hostResult (tag : Tag) (detail : Nat) (s : State) :
    (takeTrap tag detail s).hostResult = .failed tag detail := rfl

/-! ### enterSimulate -/

@[simp] theorem enterSimulate_params (n : Nat) (s : State) : (enterSimulate n s).params = s.params := rfl
@[simp] theorem enterSimulate_regs (n : Nat) (s : State) : (enterSimulate n s).regs = s.regs := rfl
@[simp] theorem enterSimulate_pc (n : Nat) (s : State) : (enterSimulate n s).pc = s.pc := rfl
@[simp] theorem enterSimulate_counter (n : Nat) (s : State) : (enterSimulate n s).counter = s.counter := rfl
@[simp] theorem enterSimulate_resv (n : Nat) (s : State) : (enterSimulate n s).resv = s.resv := rfl
@[simp] theorem enterSimulate_pages (n : Nat) (s : State) : (enterSimulate n s).pages = s.pages := rfl
@[simp] theorem enterSimulate_mem (n : Nat) (s : State) : (enterSimulate n s).mem = s.mem := rfl
@[simp] theorem enterSimulate_hostMem (n : Nat) (s : State) : (enterSimulate n s).hostMem = s.hostMem := rfl
@[simp] theorem enterSimulate_execBase (n : Nat) (s : State) : (enterSimulate n s).execBase = s.execBase := rfl
@[simp] theorem enterSimulate_execLen (n : Nat) (s : State) : (enterSimulate n s).execLen = s.execLen := rfl
@[simp] theorem enterSimulate_startAddress (n : Nat) (s : State) : (enterSimulate n s).startAddress = s.startAddress := rfl
@[simp] theorem enterSimulate_stackAddress (n : Nat) (s : State) : (enterSimulate n s).stackAddress = s.stackAddress := rfl
@[simp] theorem enterSimulate_exitAddress (n : Nat) (s : State) : (enterSimulate n s).exitAddress = s.exitAddress := rfl
@[simp] theorem enterSimulate_handlers (n : Nat) (s : State) : (enterSimulate n s).handlers = s.handlers := rfl
@[simp] theorem enterSimulate_pageFaultCallback (n : Nat) (s : State) : (enterSimulate n s).pageFaultCallback = s.pageFaultCallback := rfl
@[simp] theorem enterSimulate_pageWriteCallback (n : Nat) (s : State) : (enterSimulate n s).pageWriteCallback = s.pageWriteCallback := rfl
@[simp] theorem enterSimulate_scripts (n : Nat) (s : State) : (enterSimulate n s).scripts = s.scripts := rfl
@[simp] theorem enterSimulate_hostCalls (n : Nat) (s : State) : (enterSimulate n s).hostCalls = s.hostCalls := rfl
@[simp] theorem enterSimulate_draws (n : Nat) (s : State) : (enterSimulate n s).draws = s.draws := rfl
@[simp] theorem enterSimulate_undo (n : Nat) (s : State) : (enterSimulate n s).undo = s.undo := rfl
@[simp] theorem enterSimulate_stopped (n : Nat) (s : State) : (enterSimulate n s).stopped = false := rfl
@[simp] theorem enterSimulate_status (n : Nat) (s : State) : (enterSimulate n s).status = .running := rfl
@[simp] theorem enterSimulate_run (n : Nat) (s : State) : (enterSimulate n s).run = some ⟨s.counter, n⟩ := rfl
@[simp] theorem enterSimulate_hostResult (n : Nat) (s : State) : (enterSimulate n s).hostResult = .pending := rfl

/-! ### endRun -/

@[simp] theorem endRun_params (st : Status) (s : State) : (endRun st s).params = s.params := rfl
@[simp] theorem endRun_regs (st : Status) (s : State) : (endRun st s).regs = s.regs := rfl
@[simp] theorem endRun_pc (st : Status) (s : State) : (endRun st s).pc = s.pc := rfl
@[simp] theorem endRun_counter (st : Status) (s : State) : (endRun st s).counter = s.counter := rfl
@[simp] theorem endRun_stopped (st : Status) (s : State) : (endRun st s).stopped = s.stopped := rfl
@[simp] theorem endRun_resv (st : Status) (s : State) : (endRun st s).resv = s.resv := rfl
@[simp] theorem endRun_pages (st : Status) (s : State) : (endRun st s).pages = s.pages := rfl
@[simp] theorem endRun_mem (st : Status) (s : State) : (endRun st s).mem = s.mem := rfl
@[simp] theorem endRun_hostMem (st : Status) (s : State) : (endRun st s).hostMem = s.hostMem := rfl
@[simp] theorem endRun_execBase (st : Status) (s : State) : (endRun st s).execBase = s.execBase := rfl
@[simp] theorem endRun_execLen (st : Status) (s : State) : (endRun st s).execLen = s.execLen := rfl
@[simp] theorem endRun_startAddress (st : Status) (s : State) : (endRun st s).startAddress = s.startAddress := rfl
@[simp] theorem endRun_stackAddress (st : Status) (s : State) : (endRun st s).stackAddress = s.stackAddress := rfl
@[simp] theorem endRun_exitAddress (st : Status) (s : State) : (endRun st s).exitAddress = s.exitAddress := rfl
@[simp] theorem endRun_handlers (st : Status) (s : State) : (endRun st s).handlers = s.handlers := rfl
@[simp] theorem endRun_pageFaultCallback (st : Status) (s : State) : (endRun st s).pageFaultCallback = s.pageFaultCallback := rfl
@[simp] theorem endRun_pageWriteCallback (st : Status) (s : State) : (endRun st s).pageWriteCallback = s.pageWriteCallback := rfl
@[simp] theorem endRun_scripts (st : Status) (s : State) : (endRun st s).scripts = s.scripts := rfl
@[simp] theorem endRun_hostCalls (st : Status) (s : State) : (endRun st s).hostCalls = s.hostCalls := rfl
@[simp] theorem endRun_draws (st : Status) (s : State) : (endRun st s).draws = s.draws := rfl
@[simp] theorem endRun_undo (st : Status) (s : State) : (endRun st s).undo = s.undo := rfl
@[simp] theorem endRun_status (st : Status) (s : State) : (endRun st s).status = st := rfl
@[simp] theorem endRun_run (st : Status) (s : State) : (endRun st s).run = none := rfl
@[simp] theorem endRun_hostResult (st : Status) (s : State) : (endRun st s).hostResult = .ok := rfl

/-! ### setPage -/

@[simp] theorem setPage_params (s : State) (n : Nat) (p : Page) : (s.setPage n p).params = s.params := rfl
@[simp] theorem setPage_regs (s : State) (n : Nat) (p : Page) : (s.setPage n p).regs = s.regs := rfl
@[simp] theorem setPage_pc (s : State) (n : Nat) (p : Page) : (s.setPage n p).pc = s.pc := rfl
@[simp] theorem setPage_counter (s : State) (n : Nat) (p : Page) : (s.setPage n p).counter = s.counter := rfl
@[simp] theorem setPage_stopped (s : State) (n : Nat) (p : Page) : (s.setPage n p).stopped = s.stopped := rfl
@[simp] theorem setPage_status (s : State) (n : Nat) (p : Page) : (s.setPage n p).status = s.status := rfl
@[simp] theorem setPage_resv (s : State) (n : Nat) (p : Page) : (s.setPage n p).resv = s.resv := rfl
@[simp] theorem setPage_mem (s : State) (n : Nat) (p : Page) : (s.setPage n p).mem = s.mem := rfl
@[simp] theorem setPage_hostMem (s : State) (n : Nat) (p : Page) : (s.setPage n p).hostMem = s.hostMem := rfl
@[simp] theorem setPage_execBase (s : State) (n : Nat) (p : Page) : (s.setPage n p).execBase = s.execBase := rfl
@[simp] theorem setPage_execLen (s : State) (n : Nat) (p : Page) : (s.setPage n p).execLen = s.execLen := rfl
@[simp] theorem setPage_startAddress (s : State) (n : Nat) (p : Page) : (s.setPage n p).startAddress = s.startAddress := rfl
@[simp] theorem setPage_stackAddress (s : State) (n : Nat) (p : Page) : (s.setPage n p).stackAddress = s.stackAddress := rfl
@[simp] theorem setPage_exitAddress (s : State) (n : Nat) (p : Page) : (s.setPage n p).exitAddress = s.exitAddress := rfl
@[simp] theorem setPage_handlers (s : State) (n : Nat) (p : Page) : (s.setPage n p).handlers = s.handlers := rfl
@[simp] theorem setPage_pageFaultCallback (s : State) (n : Nat) (p : Page) : (s.setPage n p).pageFaultCallback = s.pageFaultCallback := rfl
@[simp] theorem setPage_pageWriteCallback (s : State) (n : Nat) (p : Page) : (s.setPage n p).pageWriteCallback = s.pageWriteCallback := rfl
@[simp] theorem setPage_scripts (s : State) (n : Nat) (p : Page) : (s.setPage n p).scripts = s.scripts := rfl
@[simp] theorem setPage_run (s : State) (n : Nat) (p : Page) : (s.setPage n p).run = s.run := rfl
@[simp] theorem setPage_hostCalls (s : State) (n : Nat) (p : Page) : (s.setPage n p).hostCalls = s.hostCalls := rfl
@[simp] theorem setPage_hostResult (s : State) (n : Nat) (p : Page) : (s.setPage n p).hostResult = s.hostResult := rfl
@[simp] theorem setPage_draws (s : State) (n : Nat) (p : Page) : (s.setPage n p).draws = s.draws := rfl
@[simp] theorem setPage_undo (s : State) (n : Nat) (p : Page) : (s.setPage n p).undo = s.undo := rfl
@[simp] theorem setPage_pages (s : State) (n : Nat) (p : Page) : (s.setPage n p).pages = SMap.insert n p s.pages := rfl

/-! ### installPage -/

@[simp] theorem installPage_params (s : State) (n : Nat) (p : Page) (bs : List Byte) : (s.installPage n p bs).params = s.params := rfl
@[simp] theorem installPage_regs (s : State) (n : Nat) (p : Page) (bs : List Byte) : (s.installPage n p bs).regs = s.regs := rfl
@[simp] theorem installPage_pc (s : State) (n : Nat) (p : Page) (bs : List Byte) : (s.installPage n p bs).pc = s.pc := rfl
@[simp] theorem installPage_counter (s : State) (n : Nat) (p : Page) (bs : List Byte) : (s.installPage n p bs).counter = s.counter := rfl
@[simp] theorem installPage_stopped (s : State) (n : Nat) (p : Page) (bs : List Byte) : (s.installPage n p bs).stopped = s.stopped := rfl
@[simp] theorem installPage_status (s : State) (n : Nat) (p : Page) (bs : List Byte) : (s.installPage n p bs).status = s.status := rfl
@[simp] theorem installPage_resv (s : State) (n : Nat) (p : Page) (bs : List Byte) : (s.installPage n p bs).resv = s.resv := rfl
@[simp] theorem installPage_hostMem (s : State) (n : Nat) (p : Page) (bs : List Byte) : (s.installPage n p bs).hostMem = s.hostMem := rfl
@[simp] theorem installPage_execBase (s : State) (n : Nat) (p : Page) (bs : List Byte) : (s.installPage n p bs).execBase = s.execBase := rfl
@[simp] theorem installPage_execLen (s : State) (n : Nat) (p : Page) (bs : List Byte) : (s.installPage n p bs).execLen = s.execLen := rfl
@[simp] theorem installPage_startAddress (s : State) (n : Nat) (p : Page) (bs : List Byte) : (s.installPage n p bs).startAddress = s.startAddress := rfl
@[simp] theorem installPage_stackAddress (s : State) (n : Nat) (p : Page) (bs : List Byte) : (s.installPage n p bs).stackAddress = s.stackAddress := rfl
@[simp] theorem installPage_exitAddress (s : State) (n : Nat) (p : Page) (bs : List Byte) : (s.installPage n p bs).exitAddress = s.exitAddress := rfl
@[simp] theorem installPage_handlers (s : State) (n : Nat) (p : Page) (bs : List Byte) : (s.installPage n p bs).handlers = s.handlers := rfl
@[simp] theorem installPage_pageFaultCallback (s : State) (n : Nat) (p : Page) (bs : List Byte) : (s.installPage n p bs).pageFaultCallback = s.pageFaultCallback := rfl
@[simp] theorem installPage_pageWriteCallback (s : State) (n : Nat) (p : Page) (bs : List Byte) : (s.installPage n p bs).pageWriteCallback = s.pageWriteCallback := rfl
@[simp] theorem installPage_scripts (s : State) (n : Nat) (p : Page) (bs : List Byte) : (s.installPage n p bs).scripts = s.scripts := rfl
@[simp] theorem installPage_run (s : State) (n : Nat) (p : Page) (bs : List Byte) : (s.installPage n p bs).run = s.run := rfl
@[simp] theorem installPage_hostCalls (s : State) (n : Nat) (p : Page) (bs : List Byte) : (s.installPage n p bs).hostCalls = s.hostCalls := rfl
@[simp] theorem installPage_hostResult (s : State) (n : Nat) (p : Page) (bs : List Byte) : (s.installPage n p bs).hostResult = s.hostResult := rfl
@[simp] theorem installPage_draws (s : State) (n : Nat) (p : Page) (bs : List Byte) : (s.installPage n p bs).draws = s.draws := rfl
@[simp] theorem installPage_pages (s : State) (n : Nat) (p : Page) (bs : List Byte) :
    (s.installPage n p bs).pages = SMap.insert n p s.pages := rfl
@[simp] theorem installPage_mem (s : State) (n : Nat) (p : Page) (bs : List Byte) :
    (s.installPage n p bs).mem =
      Memory.writeBytes (n * pageSize) (if p.variant.buffer?.isSome then [] else bs.take pageSize)
        (Memory.clearPage n s.mem) := rfl

/-! ### removePages -/

@[simp] theorem removePages_params (s : State) (q : Nat → Bool) : (s.removePages q).params = s.params := rfl
@[simp] theorem removePages_regs (s : State) (q : Nat → Bool) : (s.removePages q).regs = s.regs := rfl
@[simp] theorem removePages_pc (s : State) (q : Nat → Bool) : (s.removePages q).pc = s.pc := rfl
@[simp] theorem removePages_counter (s : State) (q : Nat → Bool) : (s.removePages q).counter = s.counter := rfl
@[simp] theorem removePages_stopped (s : State) (q : Nat → Bool) : (s.removePages q).stopped = s.stopped := rfl
@[simp] theorem removePages_status (s : State) (q : Nat → Bool) : (s.removePages q).status = s.status := rfl
@[simp] theorem removePages_resv (s : State) (q : Nat → Bool) : (s.removePages q).resv = s.resv := rfl
@[simp] theorem removePages_hostMem (s : State) (q : Nat → Bool) : (s.removePages q).hostMem = s.hostMem := rfl
@[simp] theorem removePages_execBase (s : State) (q : Nat → Bool) : (s.removePages q).execBase = s.execBase := rfl
@[simp] theorem removePages_execLen (s : State) (q : Nat → Bool) : (s.removePages q).execLen = s.execLen := rfl
@[simp] theorem removePages_startAddress (s : State) (q : Nat → Bool) : (s.removePages q).startAddress = s.startAddress := rfl
@[simp] theorem removePages_stackAddress (s : State) (q : Nat → Bool) : (s.removePages q).stackAddress = s.stackAddress := rfl
@[simp] theorem removePages_exitAddress (s : State) (q : Nat → Bool) : (s.removePages q).exitAddress = s.exitAddress := rfl
@[simp] theorem removePages_handlers (s : State) (q : Nat → Bool) : (s.removePages q).handlers = s.handlers := rfl
@[simp] theorem removePages_pageFaultCallback (s : State) (q : Nat → Bool) : (s.removePages q).pageFaultCallback = s.pageFaultCallback := rfl
@[simp] theorem removePages_pageWriteCallback (s : State) (q : Nat → Bool) : (s.removePages q).pageWriteCallback = s.pageWriteCallback := rfl
@[simp] theorem removePages_scripts (s : State) (q : Nat → Bool) : (s.removePages q).scripts = s.scripts := rfl
@[simp] theorem removePages_run (s : State) (q : Nat → Bool) : (s.removePages q).run = s.run := rfl
@[simp] theorem removePages_hostCalls (s : State) (q : Nat → Bool) : (s.removePages q).hostCalls = s.hostCalls := rfl
@[simp] theorem removePages_hostResult (s : State) (q : Nat → Bool) : (s.removePages q).hostResult = s.hostResult := rfl
@[simp] theorem removePages_draws (s : State) (q : Nat → Bool) : (s.removePages q).draws = s.draws := rfl
@[simp] theorem removePages_pages (s : State) (q : Nat → Bool) :
    (s.removePages q).pages = SMap.dropKeys q s.pages := rfl
@[simp] theorem removePages_mem (s : State) (q : Nat → Bool) :
    (s.removePages q).mem = SMap.dropKeys (fun a => q (pageOf a)) s.mem := rfl

/-! ### put -/

@[simp] theorem put_params (s : State) (p : Place) (b : Byte) : (s.put p b).params = s.params := by cases p <;> rfl
@[simp] theorem put_regs (s : State) (p : Place) (b : Byte) : (s.put p b).regs = s.regs := by cases p <;> rfl
@[simp] theorem put_pc (s : State) (p : Place) (b : Byte) : (s.put p b).pc = s.pc := by cases p <;> rfl
@[simp] theorem put_counter (s : State) (p : Place) (b : Byte) : (s.put p b).counter = s.counter := by cases p <;> rfl
@[simp] theorem put_stopped (s : State) (p : Place) (b : Byte) : (s.put p b).stopped = s.stopped := by cases p <;> rfl
@[simp] theorem put_status (s : State) (p : Place) (b : Byte) : (s.put p b).status = s.status := by cases p <;> rfl
@[simp] theorem put_resv (s : State) (p : Place) (b : Byte) : (s.put p b).resv = s.resv := by cases p <;> rfl
@[simp] theorem put_pages (s : State) (p : Place) (b : Byte) : (s.put p b).pages = s.pages := by cases p <;> rfl
@[simp] theorem put_execBase (s : State) (p : Place) (b : Byte) : (s.put p b).execBase = s.execBase := by cases p <;> rfl
@[simp] theorem put_execLen (s : State) (p : Place) (b : Byte) : (s.put p b).execLen = s.execLen := by cases p <;> rfl
@[simp] theorem put_startAddress (s : State) (p : Place) (b : Byte) : (s.put p b).startAddress = s.startAddress := by cases p <;> rfl
@[simp] theorem put_stackAddress (s : State) (p : Place) (b : Byte) : (s.put p b).stackAddress = s.stackAddress := by cases p <;> rfl
@[simp] theorem put_exitAddress (s : State) (p : Place) (b : Byte) : (s.put p b).exitAddress = s.exitAddress := by cases p <;> rfl
@[simp] theorem put_handlers (s : State) (p : Place) (b : Byte) : (s.put p b).handlers = s.handlers := by cases p <;> rfl
@[simp] theorem put_pageFaultCallback (s : State) (p : Place) (b : Byte) : (s.put p b).pageFaultCallback = s.pageFaultCallback := by cases p <;> rfl
@[simp] theorem put_pageWriteCallback (s : State) (p : Place) (b : Byte) : (s.put p b).pageWriteCallback = s.pageWriteCallback := by cases p <;> rfl
@[simp] theorem put_scripts (s : State) (p : Place) (b : Byte) : (s.put p b).scripts = s.scripts := by cases p <;> rfl
@[simp] theorem put_run (s : State) (p : Place) (b : Byte) : (s.put p b).run = s.run := by cases p <;> rfl
@[simp] theorem put_hostCalls (s : State) (p : Place) (b : Byte) : (s.put p b).hostCalls = s.hostCalls := by cases p <;> rfl
@[simp] theorem put_hostResult (s : State) (p : Place) (b : Byte) : (s.put p b).hostResult = s.hostResult := by cases p <;> rfl
@[simp] theorem put_draws (s : State) (p : Place) (b : Byte) : (s.put p b).draws = s.draws := by cases p <;> rfl
@[simp] theorem put_undo (s : State) (p : Place) (b : Byte) : (s.put p b).undo = s.undo := by cases p <;> rfl

/-! ### hostPut -/

@[simp] theorem hostPut_params (s : State) (p : Place) (b : Byte) : (s.hostPut p b).params = s.params := put_params ..
@[simp] theorem hostPut_regs (s : State) (p : Place) (b : Byte) : (s.hostPut p b).regs = s.regs := put_regs ..
@[simp] theorem hostPut_pc (s : State) (p : Place) (b : Byte) : (s.hostPut p b).pc = s.pc := put_pc ..
@[simp] theorem hostPut_counter (s : State) (p : Place) (b : Byte) : (s.hostPut p b).counter = s.counter := put_counter ..
@[simp] theorem hostPut_stopped (s : State) (p : Place) (b : Byte) : (s.hostPut p b).stopped = s.stopped := put_stopped ..
@[simp] theorem hostPut_status (s : State) (p : Place) (b : Byte) : (s.hostPut p b).status = s.status := put_status ..
@[simp] theorem hostPut_resv (s : State) (p : Place) (b : Byte) : (s.hostPut p b).resv = s.resv := put_resv ..
@[simp] theorem hostPut_pages (s : State) (p : Place) (b : Byte) : (s.hostPut p b).pages = s.pages := put_pages ..
@[simp] theorem hostPut_execBase (s : State) (p : Place) (b : Byte) : (s.hostPut p b).execBase = s.execBase := put_execBase ..
@[simp] theorem hostPut_execLen (s : State) (p : Place) (b : Byte) : (s.hostPut p b).execLen = s.execLen := put_execLen ..
@[simp] theorem hostPut_startAddress (s : State) (p : Place) (b : Byte) : (s.hostPut p b).startAddress = s.startAddress := put_startAddress ..
@[simp] theorem hostPut_stackAddress (s : State) (p : Place) (b : Byte) : (s.hostPut p b).stackAddress = s.stackAddress := put_stackAddress ..
@[simp] theorem hostPut_exitAddress (s : State) (p : Place) (b : Byte) : (s.hostPut p b).exitAddress = s.exitAddress := put_exitAddress ..
@[simp] theorem hostPut_handlers (s : State) (p : Place) (b : Byte) : (s.hostPut p b).handlers = s.handlers := put_handlers ..
@[simp] theorem hostPut_pageFaultCallback (s : State) (p : Place) (b : Byte) : (s.hostPut p b).pageFaultCallback = s.pageFaultCallback := put_pageFaultCallback ..
@[simp] theorem hostPut_pageWriteCallback (s : State) (p : Place) (b : Byte) : (s.hostPut p b).pageWriteCallback = s.pageWriteCallback := put_pageWriteCallback ..
@[simp] theorem hostPut_scripts (s : State) (p : Place) (b : Byte) : (s.hostPut p b).scripts = s.scripts := put_scripts ..
@[simp] theorem hostPut_run (s : State) (p : Place) (b : Byte) : (s.hostPut p b).run = s.run := put_run ..
@[simp] theorem hostPut_hostCalls (s : State) (p : Place) (b : Byte) : (s.hostPut p b).hostCalls = s.hostCalls := put_hostCalls ..
@[simp] theorem hostPut_hostResult (s : State) (p : Place) (b : Byte) : (s.hostPut p b).hostResult = s.hostResult := put_hostResult ..
@[simp] theorem hostPut_draws (s : State) (p : Place) (b : Byte) : (s.hostPut p b).draws = s.draws := put_draws ..

/-! ### putNoted -/

@[simp] theorem putNoted_params (s : State) (p : Place) (b : Byte) : (s.putNoted p b).params = s.params := put_params ..
@[simp] theorem putNoted_regs (s : State) (p : Place) (b : Byte) : (s.putNoted p b).regs = s.regs := put_regs ..
@[simp] theorem putNoted_pc (s : State) (p : Place) (b : Byte) : (s.putNoted p b).pc = s.pc := put_pc ..
@[simp] theorem putNoted_counter (s : State) (p : Place) (b : Byte) : (s.putNoted p b).counter = s.counter := put_counter ..
@[simp] theorem putNoted_stopped (s : State) (p : Place) (b : Byte) : (s.putNoted p b).stopped = s.stopped := put_stopped ..
@[simp] theorem putNoted_status (s : State) (p : Place) (b : Byte) : (s.putNoted p b).status = s.status := put_status ..
@[simp] theorem putNoted_resv (s : State) (p : Place) (b : Byte) : (s.putNoted p b).resv = s.resv := put_resv ..
@[simp] theorem putNoted_pages (s : State) (p : Place) (b : Byte) : (s.putNoted p b).pages = s.pages := put_pages ..
@[simp] theorem putNoted_execBase (s : State) (p : Place) (b : Byte) : (s.putNoted p b).execBase = s.execBase := put_execBase ..
@[simp] theorem putNoted_execLen (s : State) (p : Place) (b : Byte) : (s.putNoted p b).execLen = s.execLen := put_execLen ..
@[simp] theorem putNoted_startAddress (s : State) (p : Place) (b : Byte) : (s.putNoted p b).startAddress = s.startAddress := put_startAddress ..
@[simp] theorem putNoted_stackAddress (s : State) (p : Place) (b : Byte) : (s.putNoted p b).stackAddress = s.stackAddress := put_stackAddress ..
@[simp] theorem putNoted_exitAddress (s : State) (p : Place) (b : Byte) : (s.putNoted p b).exitAddress = s.exitAddress := put_exitAddress ..
@[simp] theorem putNoted_handlers (s : State) (p : Place) (b : Byte) : (s.putNoted p b).handlers = s.handlers := put_handlers ..
@[simp] theorem putNoted_pageFaultCallback (s : State) (p : Place) (b : Byte) : (s.putNoted p b).pageFaultCallback = s.pageFaultCallback := put_pageFaultCallback ..
@[simp] theorem putNoted_pageWriteCallback (s : State) (p : Place) (b : Byte) : (s.putNoted p b).pageWriteCallback = s.pageWriteCallback := put_pageWriteCallback ..
@[simp] theorem putNoted_scripts (s : State) (p : Place) (b : Byte) : (s.putNoted p b).scripts = s.scripts := put_scripts ..
@[simp] theorem putNoted_run (s : State) (p : Place) (b : Byte) : (s.putNoted p b).run = s.run := put_run ..
@[simp] theorem putNoted_hostCalls (s : State) (p : Place) (b : Byte) : (s.putNoted p b).hostCalls = s.hostCalls := put_hostCalls ..
@[simp] theorem putNoted_hostResult (s : State) (p : Place) (b : Byte) : (s.putNoted p b).hostResult = s.hostResult := put_hostResult ..
@[simp] theorem putNoted_draws (s : State) (p : Place) (b : Byte) : (s.putNoted p b).draws = s.draws := put_draws ..

/-! ### storeBytes -/

/-- What every `put` leaves, a store of bytes leaves. -/
theorem storeBytes_keeps {α : Type} (f : State → α) (hf : ∀ t p b, f (t.put p b) = f t) (s : State) (a : Nat) (bs : List Byte) :
    f (s.storeBytes a bs) = f s := by
  induction bs generalizing s a with
  | nil => rfl
  | cons b t ih => exact (ih _ _).trans (hf ..)

@[simp] theorem storeBytes_params (s : State) (a : Nat) (bs : List Byte) : (s.storeBytes a bs).params = s.params := storeBytes_keeps (·.params) (fun t p b => put_params t p b) ..
@[simp] theorem storeBytes_regs (s : State) (a : Nat) (bs : List Byte) : (s.storeBytes a bs).regs = s.regs := storeBytes_keeps (·.regs) (fun t p b => put_regs t p b) ..
@[simp] theorem storeBytes_pc (s : State) (a : Nat) (bs : List Byte) : (s.storeBytes a bs).pc = s.pc := storeBytes_keeps (·.pc) (fun t p b => put_pc t p b) ..
@[simp] theorem storeBytes_counter (s : State) (a : Nat) (bs : List Byte) : (s.storeBytes a bs).counter = s.counter := storeBytes_keeps (·.counter) (fun t p b => put_counter t p b) ..
@[simp] theorem storeBytes_stopped (s : State) (a : Nat) (bs : List Byte) : (s.storeBytes a bs).stopped = s.stopped := storeBytes_keeps (·.stopped) (fun t p b => put_stopped t p b) ..
@[simp] theorem storeBytes_status (s : State) (a : Nat) (bs : List Byte) : (s.storeBytes a bs).status = s.status := storeBytes_keeps (·.status) (fun t p b => put_status t p b) ..
@[simp] theorem storeBytes_resv (s : State) (a : Nat) (bs : List Byte) : (s.storeBytes a bs).resv = s.resv := storeBytes_keeps (·.resv) (fun t p b => put_resv t p b) ..
@[simp] theorem storeBytes_pages (s : State) (a : Nat) (bs : List Byte) : (s.storeBytes a bs).pages = s.pages := storeBytes_keeps (·.pages) (fun t p b => put_pages t p b) ..
@[simp] theorem storeBytes_execBase (s : State) (a : Nat) (bs : List Byte) : (s.storeBytes a bs).execBase = s.execBase := storeBytes_keeps (·.execBase) (fun t p b => put_execBase t p b) ..
@[simp] theorem storeBytes_execLen (s : State) (a : Nat) (bs : List Byte) : (s.storeBytes a bs).execLen = s.execLen := storeBytes_keeps (·.execLen) (fun t p b => put_execLen t p b) ..
@[simp] theorem storeBytes_startAddress (s : State) (a : Nat) (bs : List Byte) : (s.storeBytes a bs).startAddress = s.startAddress := storeBytes_keeps (·.startAddress) (fun t p b => put_startAddress t p b) ..
@[simp] theorem storeBytes_stackAddress (s : State) (a : Nat) (bs : List Byte) : (s.storeBytes a bs).stackAddress = s.stackAddress := storeBytes_keeps (·.stackAddress) (fun t p b => put_stackAddress t p b) ..
@[simp] theorem storeBytes_exitAddress (s : State) (a : Nat) (bs : List Byte) : (s.storeBytes a bs).exitAddress = s.exitAddress := storeBytes_keeps (·.exitAddress) (fun t p b => put_exitAddress t p b) ..
@[simp] theorem storeBytes_handlers (s : State) (a : Nat) (bs : List Byte) : (s.storeBytes a bs).handlers = s.handlers := storeBytes_keeps (·.handlers) (fun t p b => put_handlers t p b) ..
@[simp] theorem storeBytes_pageFaultCallback (s : State) (a : Nat) (bs : List Byte) : (s.storeBytes a bs).pageFaultCallback = s.pageFaultCallback := storeBytes_keeps (·.pageFaultCallback) (fun t p b => put_pageFaultCallback t p b) ..
@[simp] theorem storeBytes_pageWriteCallback (s : State) (a : Nat) (bs : List Byte) : (s.storeBytes a bs).pageWriteCallback = s.pageWriteCallback := storeBytes_keeps (·.pageWriteCallback) (fun t p b => put_pageWriteCallback t p b) ..
@[simp] theorem storeBytes_scripts (s : State) (a : Nat) (bs : List Byte) : (s.storeBytes a bs).scripts = s.scripts := storeBytes_keeps (·.scripts) (fun t p b => put_scripts t p b) ..
@[simp] theorem storeBytes_run (s : State) (a : Nat) (bs : List Byte) : (s.storeBytes a bs).run = s.run := storeBytes_keeps (·.run) (fun t p b => put_run t p b) ..
@[simp] theorem storeBytes_hostCalls (s : State) (a : Nat) (bs : List Byte) : (s.storeBytes a bs).hostCalls = s.hostCalls := storeBytes_keeps (·.hostCalls) (fun t p b => put_hostCalls t p b) ..
@[simp] theorem storeBytes_hostResult (s : State) (a : Nat) (bs : List Byte) : (s.storeBytes a bs).hostResult = s.hostResult := storeBytes_keeps (·.hostResult) (fun t p b => put_hostResult t p b) ..
@[simp] theorem storeBytes_draws (s : State) (a : Nat) (bs : List Byte) : (s.storeBytes a bs).draws = s.draws := storeBytes_keeps (·.draws) (fun t p b => put_draws t p b) ..
@[simp] theorem storeBytes_undo (s : State) (a : Nat) (bs : List Byte) : (s.storeBytes a bs).undo = s.undo := storeBytes_keeps (·.undo) (fun t p b => put_undo t p b) ..

/-! ### clearResv -/

@[simp] theorem clearResv_params (s : State) : s.clearResv.params = s.params := rfl
@[simp] theorem clearResv_regs (s : State) : s.clearResv.regs = s.regs := rfl
@[simp] theorem clearResv_pc (s : State) : s.clearResv.pc = s.pc := rfl
@[simp] theorem clearResv_counter (s : State) : s.clearResv.counter = s.counter := rfl
@[simp] theorem clearResv_stopped (s : State) : s.clearResv.stopped = s.stopped := rfl
@[simp] theorem clearResv_status (s : State) : s.clearResv.status = s.status := rfl
@[simp] theorem clearResv_pages (s : State) : s.clearResv.pages = s.pages := rfl
@[simp] theorem clearResv_mem (s : State) : s.clearResv.mem = s.mem := rfl
@[simp] theorem clearResv_hostMem (s : State) : s.clearResv.hostMem = s.hostMem := rfl
@[simp] theorem clearResv_execBase (s : State) : s.clearResv.execBase = s.execBase := rfl
@[simp] theorem clearResv_execLen (s : State) : s.clearResv.execLen = s.execLen := rfl
@[simp] theorem clearResv_startAddress (s : State) : s.clearResv.startAddress = s.startAddress := rfl
@[simp] theorem clearResv_stackAddress (s : State) : s.clearResv.stackAddress = s.stackAddress := rfl
@[simp] theorem clearResv_exitAddress (s : State) : s.clearResv.exitAddress = s.exitAddress := rfl
@[simp] theorem clearResv_handlers (s : State) : s.clearResv.handlers = s.handlers := rfl
@[simp] theorem clearResv_pageFaultCallback (s : State) : s.clearResv.pageFaultCallback = s.pageFaultCallback := rfl
@[simp] theorem clearResv_pageWriteCallback (s : State) : s.clearResv.pageWriteCallback = s.pageWriteCallback := rfl
@[simp] theorem clearResv_scripts (s : State) : s.clearResv.scripts = s.scripts := rfl
@[simp] theorem clearResv_run (s : State) : s.clearResv.run = s.run := rfl
@[simp] theorem clearResv_hostCalls (s : State) : s.clearResv.hostCalls = s.hostCalls := rfl
@[simp] theorem clearResv_hostResult (s : State) : s.clearResv.hostResult = s.hostResult := rfl
@[simp] theorem clearResv_draws (s : State) : s.clearResv.draws = s.draws := rfl
@[simp] theorem clearResv_undo (s : State) : s.clearResv.undo = s.undo := rfl
@[simp] theorem clearResv_valid (s : State) : s.clearResv.resv.valid = false := rfl
@[simp] theorem clearResv_addr (s : State) : s.clearResv.resv.addr = s.resv.addr := rfl
@[simp] theorem clearResv_width (s : State) : s.clearResv.resv.width = s.resv.width := rfl

/-! ### drawn -/

@[simp] theorem drawn_params (s : State) : s.drawn.params = s.params := rfl
@[simp] theorem drawn_regs (s : State) : s.drawn.regs = s.regs := rfl
@[simp] theorem drawn_pc (s : State) : s.drawn.pc = s.pc := rfl
@[simp] theorem drawn_counter (s : State) : s.drawn.counter = s.counter := rfl
@[simp] theorem drawn_stopped (s : State) : s.drawn.stopped = s.stopped := rfl
@[simp] theorem drawn_status (s : State) : s.drawn.status = s.status := rfl
@[simp] theorem drawn_resv (s : State) : s.drawn.resv = s.resv := rfl
@[simp] theorem drawn_pages (s : State) : s.drawn.pages = s.pages := rfl
@[simp] theorem drawn_mem (s : State) : s.drawn.mem = s.mem := rfl
@[simp] theorem drawn_hostMem (s : State) : s.drawn.hostMem = s.hostMem := rfl
@[simp] theorem drawn_execBase (s : State) : s.drawn.execBase = s.execBase := rfl
@[simp] theorem drawn_execLen (s : State) : s.drawn.execLen = s.execLen := rfl
@[simp] theorem drawn_startAddress (s : State) : s.drawn.startAddress = s.startAddress := rfl
@[simp] theorem drawn_stackAddress (s : State) : s.drawn.stackAddress = s.stackAddress := rfl
@[simp] theorem drawn_exitAddress (s : State) : s.drawn.exitAddress = s.exitAddress := rfl
@[simp] theorem drawn_handlers (s : State) : s.drawn.handlers = s.handlers := rfl
@[simp] theorem drawn_pageFaultCallback (s : State) : s.drawn.pageFaultCallback = s.pageFaultCallback := rfl
@[simp] theorem drawn_pageWriteCallback (s : State) : s.drawn.pageWriteCallback = s.pageWriteCallback := rfl
@[simp] theorem drawn_scripts (s : State) : s.drawn.scripts = s.scripts := rfl
@[simp] theorem drawn_run (s : State) : s.drawn.run = s.run := rfl
@[simp] theorem drawn_hostCalls (s : State) : s.drawn.hostCalls = s.hostCalls := rfl
@[simp] theorem drawn_hostResult (s : State) : s.drawn.hostResult = s.hostResult := rfl
@[simp] theorem drawn_undo (s : State) : s.drawn.undo = s.undo := rfl
@[simp] theorem drawn_draws (s : State) : s.drawn.draws = s.draws + 1 := rfl

/-! ### drawReservation -/

@[simp] theorem drawReservation_params (s : State) : (drawReservation s).params = s.params := rfl
@[simp] theorem drawReservation_regs (s : State) : (drawReservation s).regs = s.regs := rfl
@[simp] theorem drawReservation_pc (s : State) : (drawReservation s).pc = s.pc := rfl
@[simp] theorem drawReservation_counter (s : State) : (drawReservation s).counter = s.counter := rfl
@[simp] theorem drawReservation_stopped (s : State) : (drawReservation s).stopped = s.stopped := rfl
@[simp] theorem drawReservation_status (s : State) : (drawReservation s).status = s.status := rfl
@[simp] theorem drawReservation_pages (s : State) : (drawReservation s).pages = s.pages := rfl
@[simp] theorem drawReservation_mem (s : State) : (drawReservation s).mem = s.mem := rfl
@[simp] theorem drawReservation_hostMem (s : State) : (drawReservation s).hostMem = s.hostMem := rfl
@[simp] theorem drawReservation_execBase (s : State) : (drawReservation s).execBase = s.execBase := rfl
@[simp] theorem drawReservation_execLen (s : State) : (drawReservation s).execLen = s.execLen := rfl
@[simp] theorem drawReservation_startAddress (s : State) : (drawReservation s).startAddress = s.startAddress := rfl
@[simp] theorem drawReservation_stackAddress (s : State) : (drawReservation s).stackAddress = s.stackAddress := rfl
@[simp] theorem drawReservation_exitAddress (s : State) : (drawReservation s).exitAddress = s.exitAddress := rfl
@[simp] theorem drawReservation_handlers (s : State) : (drawReservation s).handlers = s.handlers := rfl
@[simp] theorem drawReservation_pageFaultCallback (s : State) : (drawReservation s).pageFaultCallback = s.pageFaultCallback := rfl
@[simp] theorem drawReservation_pageWriteCallback (s : State) : (drawReservation s).pageWriteCallback = s.pageWriteCallback := rfl
@[simp] theorem drawReservation_scripts (s : State) : (drawReservation s).scripts = s.scripts := rfl
@[simp] theorem drawReservation_run (s : State) : (drawReservation s).run = s.run := rfl
@[simp] theorem drawReservation_hostCalls (s : State) : (drawReservation s).hostCalls = s.hostCalls := rfl
@[simp] theorem drawReservation_hostResult (s : State) : (drawReservation s).hostResult = s.hostResult := rfl
@[simp] theorem drawReservation_undo (s : State) : (drawReservation s).undo = s.undo := rfl
@[simp] theorem drawReservation_valid (s : State) :
    (drawReservation s).resv.valid = (s.resv.valid && Config.freeBool s.draws) := rfl
@[simp] theorem drawReservation_addr (s : State) : (drawReservation s).resv.addr = s.resv.addr := rfl
@[simp] theorem drawReservation_width (s : State) : (drawReservation s).resv.width = s.resv.width := rfl
@[simp] theorem drawReservation_draws (s : State) : (drawReservation s).draws = s.draws + 1 := rfl

/-! ### setReg -/

@[simp] theorem setReg_params (s : State) (r : Reg) (v : Word) : (s.setReg r v).params = s.params := by unfold State.setReg; split <;> rfl
@[simp] theorem setReg_pc (s : State) (r : Reg) (v : Word) : (s.setReg r v).pc = s.pc := by unfold State.setReg; split <;> rfl
@[simp] theorem setReg_counter (s : State) (r : Reg) (v : Word) : (s.setReg r v).counter = s.counter := by unfold State.setReg; split <;> rfl
@[simp] theorem setReg_stopped (s : State) (r : Reg) (v : Word) : (s.setReg r v).stopped = s.stopped := by unfold State.setReg; split <;> rfl
@[simp] theorem setReg_status (s : State) (r : Reg) (v : Word) : (s.setReg r v).status = s.status := by unfold State.setReg; split <;> rfl
@[simp] theorem setReg_resv (s : State) (r : Reg) (v : Word) : (s.setReg r v).resv = s.resv := by unfold State.setReg; split <;> rfl
@[simp] theorem setReg_pages (s : State) (r : Reg) (v : Word) : (s.setReg r v).pages = s.pages := by unfold State.setReg; split <;> rfl
@[simp] theorem setReg_mem (s : State) (r : Reg) (v : Word) : (s.setReg r v).mem = s.mem := by unfold State.setReg; split <;> rfl
@[simp] theorem setReg_hostMem (s : State) (r : Reg) (v : Word) : (s.setReg r v).hostMem = s.hostMem := by unfold State.setReg; split <;> rfl
@[simp] theorem setReg_execBase (s : State) (r : Reg) (v : Word) : (s.setReg r v).execBase = s.execBase := by unfold State.setReg; split <;> rfl
@[simp] theorem setReg_execLen (s : State) (r : Reg) (v : Word) : (s.setReg r v).execLen = s.execLen := by unfold State.setReg; split <;> rfl
@[simp] theorem setReg_startAddress (s : State) (r : Reg) (v : Word) : (s.setReg r v).startAddress = s.startAddress := by unfold State.setReg; split <;> rfl
@[simp] theorem setReg_stackAddress (s : State) (r : Reg) (v : Word) : (s.setReg r v).stackAddress = s.stackAddress := by unfold State.setReg; split <;> rfl
@[simp] theorem setReg_exitAddress (s : State) (r : Reg) (v : Word) : (s.setReg r v).exitAddress = s.exitAddress := by unfold State.setReg; split <;> rfl
@[simp] theorem setReg_handlers (s : State) (r : Reg) (v : Word) : (s.setReg r v).handlers = s.handlers := by unfold State.setReg; split <;> rfl
@[simp] theorem setReg_pageFaultCallback (s : State) (r : Reg) (v : Word) : (s.setReg r v).pageFaultCallback = s.pageFaultCallback := by unfold State.setReg; split <;> rfl
@[simp] theorem setReg_pageWriteCallback (s : State) (r : Reg) (v : Word) : (s.setReg r v).pageWriteCallback = s.pageWriteCallback := by unfold State.setReg; split <;> rfl
@[simp] theorem setReg_scripts (s : State) (r : Reg) (v : Word) : (s.setReg r v).scripts = s.scripts := by unfold State.setReg; split <;> rfl
@[simp] theorem setReg_run (s : State) (r : Reg) (v : Word) : (s.setReg r v).run = s.run := by unfold State.setReg; split <;> rfl
@[simp] theorem setReg_hostCalls (s : State) (r : Reg) (v : Word) : (s.setReg r v).hostCalls = s.hostCalls := by unfold State.setReg; split <;> rfl
@[simp] theorem setReg_hostResult (s : State) (r : Reg) (v : Word) : (s.setReg r v).hostResult = s.hostResult := by unfold State.setReg; split <;> rfl
@[simp] theorem setReg_draws (s : State) (r : Reg) (v : Word) : (s.setReg r v).draws = s.draws := by unfold State.setReg; split <;> rfl
@[simp] theorem setReg_undo (s : State) (r : Reg) (v : Word) : (s.setReg r v).undo = s.undo := by unfold State.setReg; split <;> rfl

/-! ### Registers -/

@[simp] theorem wrap_wrap (w : Width) (v : Word) : wrap w (wrap w v) = wrap w v := by
  cases w <;> simp [wrap]

@[simp] theorem x_zero (s : State) : s.x 0 = 0 := by simp [State.x]

@[simp] theorem wrap_x (s : State) (r : Reg) : wrap s.w (s.x r) = s.x r := by
  unfold State.x; split
  · cases s.w <;> rfl
  · simp

/-- Reading the register just written: the value modulo `2^XLEN`; x0 keeps 0 (R21). -/
theorem x_setReg_self (s : State) (r : Reg) (v : Word) : (s.setReg r v).x r = if r = 0#5 then 0 else wrap s.w v := by
  by_cases h : r = 0#5
  · simp [State.x, h]
  · simp [State.x, State.setReg, h]

/-- Reading any other register. -/
theorem x_setReg_ne (s : State) (r q : Reg) (v : Word) (h : q ≠ r) : (s.setReg r v).x q = s.x q := by
  unfold State.x State.setReg
  by_cases hr : r = 0#5
  · simp [hr]
  · have hn : r.toNat ≠ q.toNat := fun e => h (BitVec.eq_of_toNat_eq e.symm)
    simp [hr, hn]

@[simp] theorem setReg_zero (s : State) (v : Word) : s.setReg 0 v = s := by simp [State.setReg]

@[simp] theorem setReg_w (s : State) (r : Reg) (v : Word) : (s.setReg r v).w = s.w := by simp [State.w]

/-- Any update that keeps the registers and the parameters keeps what a register reads as. -/
theorem x_congr {s t : State} (hr : t.regs = s.regs) (hp : t.params = s.params) (r : Reg) : t.x r = s.x r := by
  simp [State.x, State.w, hr, hp]

/-- Any update that keeps the pages keeps which page an address is in. -/
theorem pageAt_congr {s t : State} (h : t.pages = s.pages) (n : Nat) : t.pageAt n = s.pageAt n := by
  simp [State.pageAt, h]

end Sys2Proof.Laws
end

