-- ==== Sys2Proof/Laws/Bytes.lean ====
section
/-! SUPPORT. The bytes a guest address shows: where they stand, reading after writing, and what each way of storing bytes leaves. -/

namespace Sys2Proof.Laws

open Sys2Proof.Machine

/-! ### Places -/

/-- Where a byte stands depends on the page map alone. -/
theorem place_congr {s t : State} (h : t.pages = s.pages) (a : Nat) : t.place a = s.place a := by
  simp [State.place, pageAt_congr h]

theorem backed_congr {s t : State} (h : t.pages = s.pages) (p : Place) : t.backed p = s.backed p := by
  cases p <;> simp [State.backed, pageAt_congr h]

theorem get_congr {s t : State} (hm : t.mem = s.mem) (hh : t.hostMem = s.hostMem) (p : Place) : t.get p = s.get p := by
  cases p <;> simp [State.get, hm, hh]

theorem byte_congr {s t : State} (hp : t.pages = s.pages) (hm : t.mem = s.mem) (hh : t.hostMem = s.hostMem) (a : Nat) :
    t.byte a = s.byte a := by
  rw [State.byte, place_congr hp, get_congr hm hh, State.byte]

/-- A byte of a mapped page stands in the host's memory or at its own address there. -/
theorem backed_place {s : State} {a : Nat} (h : (s.pageAt (pageOf a)).isSome = true) : s.backed (s.place a) = true := by
  unfold State.place
  split
  · split
    · rfl
    · exact h
  · exact h

/-- A place in the Machine's own memory is the address itself. -/
theorem place_guest {s : State} {a q : Nat} (h : s.place a = .guest q) : q = a := by
  unfold State.place at h
  split at h
  · split at h <;> cases h; rfl
  · cases h; rfl

/-! ### One byte -/

/-- Reading a place after writing one (R80). -/
theorem get_put (s : State) (p q : Place) (b : Byte) : (s.put p b).get q = if q = p then b else s.get q := by
  by_cases h : q = p
  · subst h; cases q <;> simp [State.get, State.put, read_write_self]
  · rw [if_neg h]
    cases p with
    | guest a =>
      cases q with
      | guest c => exact read_write_ne _ _ _ _ fun e => h (by rw [e])
      | host c => rfl
    | host a =>
      cases q with
      | guest c => rfl
      | host c => exact read_write_ne _ _ _ _ fun e => h (by rw [e])

theorem get_hostPut (s : State) (p q : Place) (b : Byte) : (s.hostPut p b).get q = if q = p then b else s.get q :=
  (get_congr rfl rfl q).trans (get_put s p q b)

theorem get_putNoted (s : State) (p q : Place) (b : Byte) : (s.putNoted p b).get q = if q = p then b else s.get q :=
  (get_congr rfl rfl q).trans (get_put s p q b)

@[simp] theorem place_put (s : State) (p : Place) (b : Byte) (a : Nat) : (s.put p b).place a = s.place a :=
  place_congr (put_pages ..) a

@[simp] theorem place_putNoted (s : State) (p : Place) (b : Byte) (a : Nat) : (s.putNoted p b).place a = s.place a :=
  place_congr (putNoted_pages ..) a

@[simp] theorem putNoted_undo (s : State) (p : Place) (b : Byte) : (s.putNoted p b).undo = (p, s.get p) :: s.undo := rfl

/-- The byte an address shows after a write of a place: the one written where it stands there. -/
theorem byte_put (s : State) (p : Place) (b : Byte) (a : Nat) : (s.put p b).byte a = if s.place a = p then b else s.byte a := by
  rw [State.byte, place_put, get_put]; rfl

theorem byte_hostPut (s : State) (p : Place) (b : Byte) (a : Nat) :
    (s.hostPut p b).byte a = if s.place a = p then b else s.byte a :=
  (byte_congr rfl rfl rfl a).trans (byte_put s p b a)

/-! ### Several bytes -/

/-- The same machine with other bytes and other notes. -/
def withBytes (s : State) (m hm : List Host.Cell) (u : List (Place × Byte)) : State :=
  { s with mem := m, hostMem := hm, undo := u }

theorem put_withBytes (s : State) (p : Place) (b : Byte) : ∃ m hm, s.put p b = withBytes s m hm s.undo := by
  cases p <;> exact ⟨_, _, rfl⟩

theorem putNoted_withBytes (s : State) (p : Place) (b : Byte) :
    ∃ m hm, s.putNoted p b = withBytes s m hm ((p, s.get p) :: s.undo) := by
  cases p <;> exact ⟨_, _, rfl⟩

theorem storeBytes_withBytes (s : State) (a : Nat) (bs : List Byte) :
    ∃ m hm, s.storeBytes a bs = withBytes s m hm s.undo := by
  induction bs generalizing s a with
  | nil => exact ⟨s.mem, s.hostMem, rfl⟩
  | cons b t ih =>
    obtain ⟨m, hm, e⟩ := ih (s.put (s.place a) b) (a + 1)
    obtain ⟨m', hm', e'⟩ := put_withBytes s (s.place a) b
    exact ⟨m, hm, (show s.storeBytes a (b :: t) = _ from e).trans (by rw [e']; rfl)⟩

/-- `at k` is where byte `k` of `bs` stands; the places hold the bytes, the last written where two stand at one place, and every
other place what it held. -/
def StoredAt (s t : State) (at' : Nat → Place) (bs : List Byte) : Prop :=
  (∀ k, (h : k < bs.length) → (∀ j, k < j → j < bs.length → at' j ≠ at' k) → t.get (at' k) = bs[k]'h) ∧
    ∀ p, (∀ k < bs.length, p ≠ at' k) → t.get p = s.get p

theorem storedAt_nil (s : State) (f : Nat → Place) : StoredAt s s f [] := ⟨fun k h => by simp at h, fun _ _ => rfl⟩

/-- A byte, then the others. -/
theorem storedAt_cons {s s' t : State} {f : Nat → Place} {b : Byte} {bs : List Byte}
    (hs : ∀ p, s'.get p = if p = f 0 then b else s.get p) (h : StoredAt s' t (fun k => f (k + 1)) bs) :
    StoredAt s t f (b :: bs) := by
  obtain ⟨h1, h2⟩ := h
  constructor
  · intro k hk hl
    cases k with
    | zero =>
      rw [h2 _ fun j hj e => hl (j + 1) (by omega) (by simpa using hj) e.symm, hs, if_pos rfl]; rfl
    | succ k =>
      exact h1 k (by simpa using hk) fun j h3 h4 => hl (j + 1) (by omega) (by simpa using h4)
  · intro p hp
    rw [h2 p fun k hk => hp (k + 1) (by simpa using hk), hs, if_neg (hp 0 (by simp))]

/-- A store of bytes in ascending order, without wrapping (R72). -/
theorem storedAt_storeBytes (s : State) (a : Nat) (bs : List Byte) :
    StoredAt s (s.storeBytes a bs) (fun k => s.place (a + k)) bs := by
  induction bs generalizing s a with
  | nil => exact storedAt_nil ..
  | cons b t ih =>
    refine storedAt_cons (s' := s.put (s.place a) b) (fun p => get_put ..) ?_
    have h := ih (s.put (s.place a) b) (a + 1)
    have e : (fun k => (s.put (s.place a) b).place (a + 1 + k)) = fun k => s.place (a + (k + 1)) := by
      funext k; rw [place_put]; congr 1; omega
    rwa [e] at h

/-- A place where none of the bytes stands keeps what it held. -/
theorem get_storeBytes_ne (s : State) (a : Nat) (bs : List Byte) (p : Place) (h : ∀ k < bs.length, p ≠ s.place (a + k)) :
    (s.storeBytes a bs).get p = s.get p := (storedAt_storeBytes s a bs).2 p h

/-! ### Giving noted bytes back (R78) -/

theorem restoreBytes_append (x y : List (Place × Byte)) (s : State) :
    restoreBytes (x ++ y) s = restoreBytes y (restoreBytes x s) := by
  induction x generalizing s with
  | nil => rfl
  | cons c t ih => exact ih _

theorem restoreBytes_withBytes (notes : List (Place × Byte)) (s : State) :
    ∃ m hm, restoreBytes notes s = withBytes s m hm s.undo := by
  induction notes generalizing s with
  | nil => exact ⟨s.mem, s.hostMem, rfl⟩
  | cons c t ih =>
    obtain ⟨p, b⟩ := c
    unfold restoreBytes
    split
    · obtain ⟨m, hm, e⟩ := ih (s.put p b)
      obtain ⟨m', hm', e'⟩ := put_withBytes s p b
      exact ⟨m, hm, e.trans (by rw [e']; rfl)⟩
    · exact ih s

/-! ### External writers (R438) -/

theorem redrawPage_withBytes (n : Nat) (s : State) :
    ∃ m hm, redrawPage n s = { withBytes s m hm s.undo with draws := s.draws + 1 } := by
  obtain ⟨m, hm, e⟩ := storeBytes_withBytes s (n * pageSize) (externalPage s.draws n)
  exact ⟨m, hm, by rw [redrawPage, e]; rfl⟩

theorem length_externalPage (d n : Nat) : (externalPage d n).length = pageSize := by simp [externalPage]

theorem redrawPage_pages (n : Nat) (s : State) : (redrawPage n s).pages = s.pages := by
  obtain ⟨_, _, e⟩ := redrawPage_withBytes n s
  rw [e]; rfl

theorem get_drawn (s : State) (p : Place) : s.drawn.get p = s.get p := by cases p <;> rfl

/-- A place none of the page's bytes stands at keeps what it held. -/
theorem get_redrawPage_ne (n : Nat) (s : State) (p : Place) (h : ∀ o < pageSize, p ≠ s.place (n * pageSize + o)) :
    (redrawPage n s).get p = s.get p := by
  rw [redrawPage, get_drawn, get_storeBytes_ne]
  exact fun k hk => h k (by rwa [length_externalPage] at hk)

/-- Over the listed pages only bytes of externally written ones change (R438). -/
theorem get_redrawPages_ne (ps : List (Nat × Page)) (s : State) (p : Place)
    (h : ∀ e ∈ ps, isExternal e.2 = true → ∀ o < pageSize, p ≠ s.place (e.1 * pageSize + o)) :
    (redrawPages ps s).get p = s.get p := by
  induction ps generalizing s with
  | nil => rfl
  | cons e ps ih =>
    have tail := fun e he => h e (List.mem_cons_of_mem _ he)
    unfold redrawPages
    split
    · rfl
    · rename_i q; cases q
      rw [ih _ fun e he hx o ho => by rw [place_congr (redrawPage_pages ..)]; exact tail e he hx o ho]
      refine get_redrawPage_ne _ _ _ fun o ho => ?_
      have := h _ (List.mem_cons_self ..) rfl o ho
      exact this
    · rename_i q; cases q; exact ih s tail

/-- At a boundary bytes and the count of draws change, nothing else. -/
theorem redrawPages_withBytes (ps : List (Nat × Page)) (s : State) :
    ∃ m hm d, redrawPages ps s = { withBytes s m hm s.undo with draws := d } := by
  induction ps generalizing s with
  | nil => exact ⟨s.mem, s.hostMem, s.draws, rfl⟩
  | cons e ps ih =>
    unfold redrawPages
    split
    · exact ⟨s.mem, s.hostMem, s.draws, rfl⟩
    · rename_i npage a b t h
      obtain ⟨m, hm, d, e1⟩ := ih (redrawPage npage s)
      obtain ⟨m', hm', e2⟩ := redrawPage_withBytes npage s
      cases h
      exact ⟨m, hm, d, e1.trans (by rw [e2]; rfl)⟩
    · rename_i h; cases h; exact ih s

theorem atBoundary_withBytes (s : State) : ∃ m hm d, atBoundary s = { withBytes s m hm s.undo with draws := d } :=
  redrawPages_withBytes s.pages s

@[simp] theorem atBoundary_params (s : State) : (atBoundary s).params = s.params := by
  obtain ⟨_, _, _, e⟩ := atBoundary_withBytes s; rw [e]; rfl
@[simp] theorem atBoundary_regs (s : State) : (atBoundary s).regs = s.regs := by
  obtain ⟨_, _, _, e⟩ := atBoundary_withBytes s; rw [e]; rfl
@[simp] theorem atBoundary_pc (s : State) : (atBoundary s).pc = s.pc := by
  obtain ⟨_, _, _, e⟩ := atBoundary_withBytes s; rw [e]; rfl
@[simp] theorem atBoundary_counter (s : State) : (atBoundary s).counter = s.counter := by
  obtain ⟨_, _, _, e⟩ := atBoundary_withBytes s; rw [e]; rfl
@[simp] theorem atBoundary_stopped (s : State) : (atBoundary s).stopped = s.stopped := by
  obtain ⟨_, _, _, e⟩ := atBoundary_withBytes s; rw [e]; rfl
@[simp] theorem atBoundary_status (s : State) : (atBoundary s).status = s.status := by
  obtain ⟨_, _, _, e⟩ := atBoundary_withBytes s; rw [e]; rfl
@[simp] theorem atBoundary_resv (s : State) : (atBoundary s).resv = s.resv := by
  obtain ⟨_, _, _, e⟩ := atBoundary_withBytes s; rw [e]; rfl
@[simp] theorem atBoundary_pages (s : State) : (atBoundary s).pages = s.pages := by
  obtain ⟨_, _, _, e⟩ := atBoundary_withBytes s; rw [e]; rfl
@[simp] theorem atBoundary_execBase (s : State) : (atBoundary s).execBase = s.execBase := by
  obtain ⟨_, _, _, e⟩ := atBoundary_withBytes s; rw [e]; rfl
@[simp] theorem atBoundary_execLen (s : State) : (atBoundary s).execLen = s.execLen := by
  obtain ⟨_, _, _, e⟩ := atBoundary_withBytes s; rw [e]; rfl
@[simp] theorem atBoundary_startAddress (s : State) : (atBoundary s).startAddress = s.startAddress := by
  obtain ⟨_, _, _, e⟩ := atBoundary_withBytes s; rw [e]; rfl
@[simp] theorem atBoundary_stackAddress (s : State) : (atBoundary s).stackAddress = s.stackAddress := by
  obtain ⟨_, _, _, e⟩ := atBoundary_withBytes s; rw [e]; rfl
@[simp] theorem atBoundary_exitAddress (s : State) : (atBoundary s).exitAddress = s.exitAddress := by
  obtain ⟨_, _, _, e⟩ := atBoundary_withBytes s; rw [e]; rfl
@[simp] theorem atBoundary_handlers (s : State) : (atBoundary s).handlers = s.handlers := by
  obtain ⟨_, _, _, e⟩ := atBoundary_withBytes s; rw [e]; rfl
@[simp] theorem atBoundary_pageFaultCallback (s : State) : (atBoundary s).pageFaultCallback = s.pageFaultCallback := by
  obtain ⟨_, _, _, e⟩ := atBoundary_withBytes s; rw [e]; rfl
@[simp] theorem atBoundary_pageWriteCallback (s : State) : (atBoundary s).pageWriteCallback = s.pageWriteCallback := by
  obtain ⟨_, _, _, e⟩ := atBoundary_withBytes s; rw [e]; rfl
@[simp] theorem atBoundary_scripts (s : State) : (atBoundary s).scripts = s.scripts := by
  obtain ⟨_, _, _, e⟩ := atBoundary_withBytes s; rw [e]; rfl
@[simp] theorem atBoundary_run (s : State) : (atBoundary s).run = s.run := by
  obtain ⟨_, _, _, e⟩ := atBoundary_withBytes s; rw [e]; rfl
@[simp] theorem atBoundary_hostCalls (s : State) : (atBoundary s).hostCalls = s.hostCalls := by
  obtain ⟨_, _, _, e⟩ := atBoundary_withBytes s; rw [e]; rfl
@[simp] theorem atBoundary_hostResult (s : State) : (atBoundary s).hostResult = s.hostResult := by
  obtain ⟨_, _, _, e⟩ := atBoundary_withBytes s; rw [e]; rfl
@[simp] theorem atBoundary_undo (s : State) : (atBoundary s).undo = s.undo := by
  obtain ⟨_, _, _, e⟩ := atBoundary_withBytes s; rw [e]; rfl

/-- Where no page is externally written a boundary changes nothing. -/
theorem redrawPages_internal (ps : List (Nat × Page)) (s : State) (h : ∀ e ∈ ps, isExternal e.2 = false) :
    redrawPages ps s = s := by
  induction ps with
  | nil => rfl
  | cons e ps ih =>
    have h0 := h e (List.mem_cons_self ..)
    have ih := ih fun e he => h e (List.mem_cons_of_mem _ he)
    unfold redrawPages
    split
    · rfl
    · rename_i q; cases q; simp [isExternal] at h0
    · rename_i q; cases q; exact ih

theorem atBoundary_internal {s : State} (h : ∀ e ∈ s.pages, isExternal e.2 = false) : atBoundary s = s :=
  redrawPages_internal _ _ h

end Sys2Proof.Laws
end

