-- ==== Sys2Proof/Laws/Effect.lean ====
section
/-! SUPPORT. The laws of the parts of a step: sequencing, retirement, the guard, and what it takes for a predicate to survive
them. -/

namespace Sys2Proof.Laws

open Sys2Proof.Machine

/-! ### Sequencing -/

@[simp] theorem bind_trapped {α β : Type} (tag : Tag) (detail : Nat) (s : State) (f : α → State → Effect β) :
    (Effect.trapped tag detail s).bind f = .trapped tag detail s := rfl
@[simp] theorem bind_refused {α β : Type} (r : Refusal) (f : α → State → Effect β) :
    (Effect.refused r : Effect α).bind f = .refused r := rfl
@[simp] theorem orWrote_false {α : Type} (e : Effect α) : e.orWrote false = e := by cases e <;> rfl
@[simp] theorem orWrote_done {α : Type} (w w' : Bool) (a : α) (s : State) :
    (Effect.done a s w').orWrote w = .done a s (w || w') := rfl
@[simp] theorem orWrote_trapped {α : Type} (w : Bool) (tag : Tag) (detail : Nat) (s : State) :
    (Effect.trapped tag detail s : Effect α).orWrote w = .trapped tag detail s := rfl
@[simp] theorem orWrote_refused {α : Type} (w : Bool) (r : Refusal) :
    (Effect.refused r : Effect α).orWrote w = .refused r := rfl
@[simp] theorem bind_pure {α β : Type} (a : α) (s : State) (f : α → State → Effect β) :
    (Effect.pure a s).bind f = f a s := by
  show (f a s).orWrote false = f a s
  cases f a s <;> rfl
@[simp] theorem bind_done {α β : Type} (a : α) (s : State) (w : Bool) (f : α → State → Effect β) :
    (Effect.done a s w).bind f = (f a s).orWrote w := rfl

/-! ### Ending an instruction -/

@[simp] theorem finish_trapped (len : Nat) (tag : Tag) (detail : Nat) (s : State) :
    finish len (.trapped tag detail s) = .next (takeTrap tag detail s) := rfl
@[simp] theorem finish_refused (len : Nat) (r : Refusal) : finish len (.refused r) = .refused r := rfl
@[simp] theorem finish_done (len : Nat) (s : State) (w : Bool) : finish len (.done () s w) = retire len w s := rfl
@[simp] theorem finish_pure (len : Nat) (s : State) : finish len (.pure () s) = retire len false s := rfl

/-- Retirement below the counter's end (R164, R166). -/
theorem retire_next (len : Nat) (w : Bool) (s : State) (h : s.counter ≠ counterMax) :
    retire len w s = .next { s with pc := if w then s.pc else s.pcNext len, counter := s.counter + 1 } := by
  simp [retire, h]

/-- Retirement at the counter's end is refused (R25). -/
theorem retire_refused (len : Nat) (w : Bool) (s : State) (h : s.counter = counterMax) :
    retire len w s = .refused .counterOverflow := by
  simp [retire, h]

theorem writeBack_next (len : Nat) (rd : Reg) (v : Word) (s : State) (h : s.counter ≠ counterMax) :
    writeBack len rd v s =
      .next { s.setReg rd v with pc := s.pcNext len, counter := s.counter + 1 } := by
  rw [writeBack, retire_next _ _ _ (by simpa using h)]
  simp [State.pcNext]

theorem jumpTo_next (len : Nat) (t : Word) (s : State) (h : s.counter ≠ counterMax) :
    jumpTo len t s = .next { s with pc := wrap s.w t, counter := s.counter + 1 } := by
  rw [jumpTo, retire_next _ _ _ (by simpa using h)]
  simp [State.setPc]

theorem guarded_wf {i : Instr} {s : State} (run : Host.Outcome State Fault Refusal) (h : i.wf s.params = true) :
    guarded i s run = run := by simp [guarded, h]

theorem guarded_not_wf {i : Instr} {s : State} (run : Host.Outcome State Fault Refusal) (h : i.wf s.params = false) :
    guarded i s run = unimplemented i s := by simp [guarded, h]

/-! ### Predicates that survive -/

/-- Wherever the part ends with a state, the state satisfies `P`. -/
def Keeps {α : Type} (P : State → Prop) (e : Effect α) : Prop :=
  match e with
  | .done _ s _ => P s
  | .trapped _ _ s => P s
  | .refused _ => True

@[simp] theorem keeps_pure {α : Type} (P : State → Prop) (a : α) (s : State) : Keeps P (.pure a s) ↔ P s := Iff.rfl
@[simp] theorem keeps_done {α : Type} (P : State → Prop) (a : α) (s : State) (w : Bool) :
    Keeps P (.done a s w) ↔ P s := Iff.rfl
@[simp] theorem keeps_trapped {α : Type} (P : State → Prop) (tag : Tag) (detail : Nat) (s : State) :
    Keeps P (.trapped tag detail s : Effect α) ↔ P s := Iff.rfl
@[simp] theorem keeps_refused {α : Type} (P : State → Prop) (r : Refusal) : Keeps P (.refused r : Effect α) := trivial

theorem Keeps.orWrote {α : Type} {P : State → Prop} {e : Effect α} (h : Keeps P e) (w : Bool) : Keeps P (e.orWrote w) := by
  cases e <;> exact h

theorem Keeps.bind {α β : Type} {P : State → Prop} {e : Effect α} {f : α → State → Effect β} (he : Keeps P e)
    (hf : ∀ a s, P s → Keeps P (f a s)) : Keeps P (e.bind f) := by
  cases e with
  | trapped tag detail s => exact he
  | refused r => trivial
  | done a s w =>
    exact (hf a s he).orWrote w

/-- As `Keeps.bind`, where the value matters: `Q` is what is known of the value and the state when the first part is done. -/
theorem Keeps.bindWith {α β : Type} {P : State → Prop} {e : Effect α} {f : α → State → Effect β} (Q : α → State → Prop)
    (he : Keeps P e) (hq : ∀ a s w, e = .done a s w → Q a s) (hf : ∀ a s, P s → Q a s → Keeps P (f a s)) :
    Keeps P (e.bind f) := by
  cases e with
  | trapped tag detail s => exact he
  | refused r => trivial
  | done a s w =>
    exact (hf a s he (hq a s w rfl)).orWrote w

theorem Keeps.mono {α : Type} {P Q : State → Prop} {e : Effect α} (h : ∀ s, P s → Q s) (he : Keeps P e) : Keeps Q e := by
  cases e with
  | done a s w => exact h _ he
  | trapped tag detail s => exact h _ he
  | refused r => trivial

/-- The outcome's next state, where there is one, satisfies `P`. -/
def KeepsOutcome (P : State → Prop) (o : Host.Outcome State Fault Refusal) : Prop := ∀ t, o = .next t → P t

theorem keepsOutcome_next {P : State → Prop} {s : State} (h : P s) : KeepsOutcome P (.next s) := fun t e => by
  cases e; exact h

theorem keepsOutcome_refused (P : State → Prop) (r : Refusal) : KeepsOutcome P (.refused r) := fun t e => by cases e

end Sys2Proof.Laws
end

