-- ==== Sys2Proof/Laws/Invariant.lean ====
section
/-! SUPPORT. The invariant `State.wf` survives each shared operation, each host operation, each callback and each guest access, which
also keep what only the loop and the host change: the parameters, the execute segment, the three addresses, the counter, the
status, the active run and the pending calls. -/

namespace Sys2Proof.Laws

open Sys2Proof.Machine

/-- What no part of an instruction changes. -/
structure Kept (s t : State) : Prop where
  fixed : s.SameFixed t
  counter : t.counter = s.counter
  status : t.status = s.status
  run : t.run = s.run
  hostCalls : t.hostCalls = s.hostCalls
  scripts : t.scripts = s.scripts

/-- The invariant, and what no part of an instruction that began in `s` changes. -/
structure Good (s t : State) : Prop where
  wf : t.wf
  kept : Kept s t

theorem sameFixed_refl (s : State) : s.SameFixed s := ⟨rfl, rfl, rfl, rfl, rfl, rfl⟩
theorem kept_refl (s : State) : Kept s s := ⟨sameFixed_refl s, rfl, rfl, rfl, rfl, rfl⟩
theorem good_refl {s : State} (h : s.wf) : Good s s := ⟨h, kept_refl s⟩

theorem Good.w {s t : State} (h : Good s t) : t.w = s.w := by rw [State.w, h.kept.fixed.params]

/-! ### The parts of the invariant read only some fields -/

theorem cpuWf_congr {s t : State} (h : s.CpuWf) (e1 : t.params = s.params := by rfl) (e2 : t.regs = s.regs := by rfl)
    (e3 : t.pc = s.pc := by rfl) : t.CpuWf := by
  have hw : t.w = s.w := by simp [State.w, e1]
  exact ⟨by rw [e2]; exact h.x0, by rw [e2, hw]; exact h.regs, by rw [e3, hw]; exact h.pc⟩

theorem addrWf_congr {s t : State} (h : s.AddrWf) (e1 : t.params = s.params := by rfl) (e2 : t.execBase = s.execBase := by rfl)
    (e3 : t.execLen = s.execLen := by rfl) (e4 : t.startAddress = s.startAddress := by rfl)
    (e5 : t.stackAddress = s.stackAddress := by rfl) (e6 : t.exitAddress = s.exitAddress := by rfl) : t.AddrWf := by
  have hw : t.w = s.w := by simp [State.w, e1]
  refine ⟨?_, ?_, ?_, ?_, ?_, ?_⟩
  · rw [e4, hw]; exact h.start
  · rw [e5, hw]; exact h.stack
  · rw [e6, hw]; exact h.exit
  · rw [e2, e3, hw]; exact h.exec
  · rw [e5]; exact h.stackAligned
  · rw [e2, e1]; exact h.execAligned

theorem pagesWf_congr {s t : State} (h : s.PagesWf) (e1 : t.params = s.params := by rfl) (e2 : t.pages = s.pages := by rfl)
    (e3 : t.mem = s.mem := by rfl) (e4 : t.hostMem = s.hostMem := by rfl) : t.PagesWf := by
  have hw : t.w = s.w := by simp [State.w, e1]
  refine ⟨?_, ?_, ?_, ?_, ?_⟩
  · rw [e2]; exact h.sorted
  · rw [e2, hw]; exact h.inSpace
  · rw [e3]; exact h.mem
  · rw [e4]; exact h.hostMem
  · rw [e3]; intro c hc; rw [pageAt_congr e2]; exact h.backed c hc

theorem resvWf_congr {s t : State} (h : s.ResvWf) (e1 : t.params = s.params := by rfl) (e2 : t.resv = s.resv := by rfl) :
    t.ResvWf := by
  have hw : t.w = s.w := by simp [State.w, e1]
  exact ⟨by rw [e2, e1]; exact h.ext, by rw [e2]; exact h.aligned, by rw [e2, hw]; exact h.width⟩

theorem runWf_congr {s t : State} (h : s.RunWf) (e1 : t.run = s.run := by rfl) (e2 : t.status = s.status := by rfl)
    (e3 : t.counter = s.counter := by rfl) : t.RunWf :=
  ⟨by rw [e1, e2]; exact h.running, by rw [e1, e3]; exact h.started⟩

theorem sameFixed_congr {s t u : State} (h : s.SameFixed t) (e1 : u.params = t.params := by rfl)
    (e2 : u.execBase = t.execBase := by rfl) (e3 : u.execLen = t.execLen := by rfl)
    (e4 : u.startAddress = t.startAddress := by rfl) (e5 : u.stackAddress = t.stackAddress := by rfl)
    (e6 : u.exitAddress = t.exitAddress := by rfl) : s.SameFixed u :=
  ⟨e1.trans h.params, e2.trans h.execBase, e3.trans h.execLen, e4.trans h.startAddress, e5.trans h.stackAddress,
    e6.trans h.exitAddress⟩

theorem kept_congr {s t u : State} (h : Kept s t) (f : s.SameFixed u) (e1 : u.counter = t.counter := by rfl)
    (e2 : u.status = t.status := by rfl) (e3 : u.run = t.run := by rfl) (e4 : u.hostCalls = t.hostCalls := by rfl)
    (e5 : u.scripts = t.scripts := by rfl) : Kept s u :=
  ⟨f, e1.trans h.counter, e2.trans h.status, e3.trans h.run, e4.trans h.hostCalls, e5.trans h.scripts⟩

/-- An update that keeps every field the invariant and `Kept` read keeps `Good`. -/
theorem Good.congr {s t u : State} (h : Good s t)
    (e : u.params = t.params ∧ u.regs = t.regs ∧ u.pc = t.pc ∧ u.counter = t.counter ∧ u.status = t.status ∧
      u.resv = t.resv ∧ u.pages = t.pages ∧ u.mem = t.mem ∧ u.hostMem = t.hostMem ∧ u.execBase = t.execBase ∧
      u.execLen = t.execLen ∧ u.startAddress = t.startAddress ∧ u.stackAddress = t.stackAddress ∧
      u.exitAddress = t.exitAddress ∧ u.handlers = t.handlers ∧ u.run = t.run ∧ u.hostCalls = t.hostCalls ∧
      u.scripts = t.scripts) : Good s u := by
  obtain ⟨e1, e2, e3, e4, e5, e6, e7, e8, e9, e10, e11, e12, e13, e14, e15, e16, e17, e18⟩ := e
  exact ⟨⟨cpuWf_congr h.wf.cpu e1 e2 e3, addrWf_congr h.wf.addr e1 e10 e11 e12 e13 e14, pagesWf_congr h.wf.pages e1 e7 e8 e9,
      resvWf_congr h.wf.resv e1 e6, runWf_congr h.wf.run e16 e5 e4, by rw [e15]; exact h.wf.handlers⟩,
    kept_congr h.kept (sameFixed_congr h.kept.fixed e1 e10 e11 e12 e13 e14) e4 e5 e16 e17 e18⟩

/-! ### Registers, pc, reservation, counters -/

theorem canonical_wrap (w : Width) (v : Word) : canonical w (wrap w v) := wrap_wrap w v

theorem good_setReg {s t : State} (h : Good s t) (r : Reg) (v : Word) : Good s (t.setReg r v) := by
  unfold State.setReg
  split
  · exact h
  · rename_i hr
    refine ⟨⟨⟨?_, ?_, h.wf.cpu.pc⟩, addrWf_congr h.wf.addr, pagesWf_congr h.wf.pages, resvWf_congr h.wf.resv,
      runWf_congr h.wf.run, h.wf.handlers⟩, kept_congr h.kept (sameFixed_congr h.kept.fixed)⟩
    · have : r.toNat ≠ 0 := fun e => hr (BitVec.eq_of_toNat_eq e)
      simp [this, h.wf.cpu.x0]
    · intro i
      show canonical t.w _
      simp only [Fin.getElem_fin, Vector.getElem_set]
      split
      · exact canonical_wrap _ _
      · exact h.wf.cpu.regs i

theorem good_setPc {s t : State} (h : Good s t) (v : Word) : Good s (t.setPc v) :=
  ⟨⟨⟨h.wf.cpu.x0, h.wf.cpu.regs, canonical_wrap _ _⟩, addrWf_congr h.wf.addr, pagesWf_congr h.wf.pages,
    resvWf_congr h.wf.resv, runWf_congr h.wf.run, h.wf.handlers⟩, kept_congr h.kept (sameFixed_congr h.kept.fixed)⟩

theorem good_resv {s t : State} (h : Good s t) (rv' : Reservation)
    (hrv : rv'.valid = true → t.params.extA = true ∧ rv'.addr.toNat % (sizeOfWidth rv'.width).bytes = 0 ∧
      (rv'.width = .w8 → t.w = .w8)) : Good s { t with resv := rv' } :=
  ⟨⟨cpuWf_congr h.wf.cpu, addrWf_congr h.wf.addr, pagesWf_congr h.wf.pages,
    ⟨fun e => (hrv e).1, fun e => (hrv e).2.1, fun e => (hrv e).2.2⟩, runWf_congr h.wf.run, h.wf.handlers⟩,
    kept_congr h.kept (sameFixed_congr h.kept.fixed)⟩

theorem good_clearResv {s t : State} (h : Good s t) : Good s t.clearResv := good_resv h _ (by simp)

theorem good_drawn {s t : State} (h : Good s t) : Good s t.drawn := h.congr (by simp)

theorem good_drawReservation {s t : State} (h : Good s t) : Good s (drawReservation t) := by
  have := good_resv h { t.resv with valid := t.resv.valid && Config.freeBool t.draws } (by
    intro e
    have e' : t.resv.valid = true := by simp at e; exact e.1
    exact ⟨h.wf.resv.ext e', h.wf.resv.aligned e', h.wf.resv.width e'⟩)
  exact this.congr (by simp [drawReservation])

theorem good_stopped {s t : State} (h : Good s t) (b : Bool) : Good s { t with stopped := b } := h.congr (by simp)
theorem good_hostResult {s t : State} (h : Good s t) (r : HostResult) : Good s { t with hostResult := r } := h.congr (by simp)
theorem good_undo {s t : State} (h : Good s t) (u : List (Place × Byte)) : Good s { t with undo := u } := h.congr (by simp)

theorem good_handlers {s t : State} (h : Good s t) (m : List (Nat × Nat)) (hm : SMap.sorted m) :
    Good s { t with handlers := m } :=
  ⟨⟨cpuWf_congr h.wf.cpu, addrWf_congr h.wf.addr, pagesWf_congr h.wf.pages, resvWf_congr h.wf.resv, runWf_congr h.wf.run, hm⟩,
    kept_congr h.kept (sameFixed_congr h.kept.fixed)⟩

/-! ### Pages and bytes -/

theorem good_pages {s t : State} (h : Good s t) (ps : List (Nat × Page)) (m hm : List Host.Cell) (u : List (Place × Byte))
    (hs : SMap.sorted ps) (hi : ∀ e ∈ ps, e.1 < pageCount t.w) (hw : Memory.wf m) (hh : Memory.wf hm)
    (hb : ∀ c ∈ m, (SMap.find ps (pageOf c.1)).isSome = true) :
    Good s { t with pages := ps, mem := m, hostMem := hm, undo := u } :=
  ⟨⟨cpuWf_congr h.wf.cpu, addrWf_congr h.wf.addr, ⟨hs, hi, hw, hh, hb⟩, resvWf_congr h.wf.resv, runWf_congr h.wf.run,
    h.wf.handlers⟩, kept_congr h.kept (sameFixed_congr h.kept.fixed)⟩

theorem isSome_find_insert {α : Type} {m : List (Nat × α)} (k q : Nat) (v : α) (h : (SMap.find m q).isSome = true) :
    (SMap.find (SMap.insert k v m) q).isSome = true := by
  rw [find_insert]; split <;> simp [h]

theorem lt_of_mem_insert {α : Type} {m : List (Nat × α)} {k b : Nat} {v : α} (hk : k < b) (h : ∀ e ∈ m, e.1 < b) :
    ∀ e ∈ SMap.insert k v m, e.1 < b := by
  intro e he
  rcases mem_insert he with rfl | he
  · exact hk
  · exact h e he

theorem good_setPage {s t : State} (h : Good s t) (n : Nat) (p : Page) (hn : n < pageCount t.w) : Good s (t.setPage n p) :=
  good_pages h _ _ _ _ (sorted_insert _ _ h.wf.pages.sorted) (lt_of_mem_insert hn h.wf.pages.inSpace) h.wf.pages.mem
    h.wf.pages.hostMem fun c hc => isSome_find_insert _ _ _ (h.wf.pages.backed c hc)

/-- A page that is mapped has a page number of the address space. -/
theorem page_lt {s : State} (h : s.PagesWf) {n : Nat} {p : Page} (hp : s.pageAt n = some p) : n < pageCount s.w := by
  have aux : ∀ (m : List (Nat × Page)), (∀ e ∈ m, e.1 < pageCount s.w) → SMap.find m n = some p → n < pageCount s.w := by
    intro m
    induction m with
    | nil => simp [SMap.find]
    | cons e t ih =>
      obtain ⟨k, v⟩ := e
      intro hm hf
      unfold SMap.find at hf
      split at hf
      · rename_i hk; rw [hk]; exact hm (k, v) (List.mem_cons_self ..)
      · exact ih (fun e he => hm e (List.mem_cons_of_mem _ he)) hf
  exact aux _ h.inSpace hp

theorem pageOf_in (n o : Nat) (ho : o < pageSize) : pageOf (n * pageSize + o) = n := by
  simp only [pageOf, pageSize] at *
  omega

theorem good_installPage {s t : State} (h : Good s t) (n : Nat) (p : Page) (bs : List Byte) (hn : n < pageCount t.w) :
    Good s (t.installPage n p bs) := by
  refine good_pages h _ _ _ _ (sorted_insert _ _ h.wf.pages.sorted) (lt_of_mem_insert hn h.wf.pages.inSpace)
    (wf_writeBytes _ _ (wf_dropKeys _ h.wf.pages.mem)) h.wf.pages.hostMem fun c hc => ?_
  rcases mem_writeBytes hc with hc | ⟨h1, h2⟩
  · exact isSome_find_insert _ _ _ (h.wf.pages.backed c (mem_dropKeys.mp hc).1)
  · have hl : (if p.variant.buffer?.isSome then [] else bs.take pageSize).length ≤ pageSize := by split <;> simp
    obtain ⟨o, ho⟩ : ∃ o, c.1 = n * pageSize + o := ⟨c.1 - n * pageSize, by omega⟩
    rw [ho, pageOf_in n o (by omega), find_insert_self]; rfl

theorem good_removePages {s t : State} (h : Good s t) (q : Nat → Bool) : Good s (t.removePages q) := by
  refine good_pages h _ _ _ _ (sorted_dropKeys _ h.wf.pages.sorted)
    (fun e he => h.wf.pages.inSpace e (mem_dropKeys.mp he).1) (wf_dropKeys _ h.wf.pages.mem) h.wf.pages.hostMem fun c hc => ?_
  obtain ⟨h1, h2⟩ := mem_dropKeys.mp hc
  rw [find_dropKeys, h2]
  exact h.wf.pages.backed c h1

/-- A byte put where a page or the host backs it. -/
theorem good_put {s t : State} (h : Good s t) (p : Place) (b : Byte) (hp : t.backed p = true) : Good s (t.put p b) := by
  cases p with
  | guest a =>
    refine good_pages h _ _ _ _ h.wf.pages.sorted h.wf.pages.inSpace (wf_write _ _ h.wf.pages.mem) h.wf.pages.hostMem
      fun c hc => ?_
    rcases mem_write hc with hc | rfl
    · exact h.wf.pages.backed c hc
    · exact hp
  | host a =>
    exact good_pages h _ _ _ _ h.wf.pages.sorted h.wf.pages.inSpace h.wf.pages.mem (wf_write _ _ h.wf.pages.hostMem)
      h.wf.pages.backed

theorem good_hostPut {s t : State} (h : Good s t) (p : Place) (b : Byte) (hp : t.backed p = true) : Good s (t.hostPut p b) :=
  good_undo (good_put h p b hp) _

theorem good_putNoted {s t : State} (h : Good s t) (p : Place) (b : Byte) (hp : t.backed p = true) :
    Good s (t.putNoted p b) := good_undo (good_put h p b hp) _

/-- Bytes stored in pages that are mapped. -/
theorem good_storeBytes {s : State} (bs : List Byte) {t : State} (a : Nat) (h : Good s t)
    (hp : ∀ q, a ≤ q → q < a + bs.length → (t.pageAt (pageOf q)).isSome = true) : Good s (t.storeBytes a bs) := by
  induction bs generalizing t a with
  | nil => exact h
  | cons b bs ih =>
    simp only [List.length_cons] at hp
    refine ih (a + 1) (good_put h _ _ (backed_place (hp a (by omega) (by omega)))) fun q h1 h2 => ?_
    rw [pageAt_congr (put_pages ..)]
    exact hp q (by omega) (by omega)

/-- The host's own memory is always there. -/
theorem good_writeBuffer {s : State} (bs : List Byte) {t : State} (p : HostAddr) (h : Good s t) : Good s (writeBuffer p bs t) := by
  induction bs generalizing t p with
  | nil => exact h
  | cons b bs ih => exact ih _ (good_hostPut h _ _ rfl)

/-- Notes are given back where their place is still backed. -/
theorem good_restoreBytes {s : State} (notes : List (Place × Byte)) {t : State} (h : Good s t) :
    Good s (restoreBytes notes t) := by
  induction notes generalizing t with
  | nil => exact h
  | cons c notes ih =>
    obtain ⟨p, b⟩ := c
    unfold restoreBytes
    split
    · rename_i hb; exact ih (good_put h _ _ hb)
    · exact ih h

theorem pageCount_pos (w : Width) : 0 < pageCount w := by simp [pageCount]

/-- The page number of an `XLEN`-bit address is one of the address space. -/
theorem pageOf_lt (w : Width) (v : Word) (h : canonical w v) : pageOf v.toNat < pageCount w := by
  have hv : v.toNat < 2 ^ w.xlen := by
    cases w with
    | w4 => rw [← h]; simp [wrap, Width.xlen, Width.bytes]; omega
    | w8 => exact v.isLt
  cases w <;> simp [pageOf, pageSize, pageCount, Width.xlen, Width.bytes] at hv ⊢ <;> omega

theorem pagesTouched_lt {w : Width} {base len n : Nat} (h : n ∈ pagesTouched w base len) : n < pageCount w := by
  unfold pagesTouched at h
  split at h
  · simp at h
  · simp only [List.mem_map, List.mem_range] at h
    obtain ⟨k, hk, rfl⟩ := h
    have := pageCount_pos w
    omega

theorem keeps_createOwned {s t : State} (h : Good s t) (n : Nat) (attr : PageAttr) (hn : n < pageCount t.w) :
    Keeps (Good s) (createOwned n attr t) := by
  unfold createOwned; split
  · exact h
  · exact good_installPage h _ _ _ hn

theorem keeps_promoteOwned {s t : State} (h : Good s t) (n : Nat) (p : Page) (hn : n < pageCount t.w) :
    Keeps (Good s) (promoteOwned n p t) := by
  unfold promoteOwned; split
  · exact h
  · exact good_setPage h _ _ hn

end Sys2Proof.Laws
end

