-- ==== Sys2Proof/Laws/Host.lean ====
section
/-! SUPPORT. What the page paths, the bulk operations, the host operations and the callbacks can do: the page an access proceeds
with is mapped, and the invariant survives. -/

namespace Sys2Proof.Laws

open Sys2Proof.Machine

/-- What a way of calling the host must keep. -/
structure PathsKeep (p : PagePaths) : Prop where
  fault : ∀ {s t : State} {n : Nat}, Good s t → n < pageCount t.w → Keeps (Good s) (p.pageFault n t)
  faultMapped : ∀ {t t' : State} {n : Nat} {page : Page} {w : Bool},
    p.pageFault n t = .done page t' w → t'.pageAt n = some page
  write : ∀ {s t : State} {c n : Nat}, Good s t → n < pageCount t.w → Keeps (Good s) (p.pageWrite c n t)
  writeMapped : ∀ {t t' : State} {c n : Nat} {page : Page} {w : Bool},
    p.pageWrite c n t = .done page t' w → t'.pageAt n = some page
  view : ∀ {s t : State} {c : Nat} {args : List Nat}, Good s t → Keeps (Good s) (p.view c args t)

theorem bind_done_cases {α β : Type} {e : Effect α} {f : α → State → Effect β} {b : β} {u : State} {w : Bool}
    (h : e.bind f = .done b u w) : ∃ a t w1 w2, e = .done a t w1 ∧ f a t = .done b u w2 ∧ w = (w1 || w2) := by
  cases e with
  | trapped tag detail s => cases h
  | refused r => cases h
  | done a t w1 =>
    simp only [bind_done] at h
    cases hf : f a t with
    | trapped tag detail s => rw [hf] at h; cases h
    | refused r => rw [hf] at h; cases h
    | done b' u' w2 =>
      rw [hf] at h
      simp only [orWrote_done, Effect.done.injEq] at h
      obtain ⟨rfl, rfl, rfl⟩ := h
      exact ⟨a, t, w1, w2, rfl, hf, rfl⟩

theorem pageAt_installPage (s : State) (n : Nat) (p : Page) (bs : List Byte) : (s.installPage n p bs).pageAt n = some p := by
  simp [State.pageAt, find_insert_self]

theorem pageAt_setPage (s : State) (n : Nat) (p : Page) : (s.setPage n p).pageAt n = some p := by
  simp [State.pageAt, find_insert_self]

theorem createOwned_mapped {n : Nat} {attr : PageAttr} {t t' : State} {page : Page} {w : Bool}
    (h : createOwned n attr t = .done page t' w) : t'.pageAt n = some page := by
  unfold createOwned at h
  split at h
  · cases h
  · cases h; exact pageAt_installPage ..

theorem promoteOwned_mapped {n : Nat} {p : Page} {t t' : State} {page : Page} {w : Bool}
    (h : promoteOwned n p t = .done page t' w) : t'.pageAt n = some page := by
  unfold promoteOwned at h
  split at h
  · cases h
  · cases h; exact pageAt_setPage ..

/-- A mapped page is found, and nothing changes (R60). -/
theorem lookupWith_mapped (p : PagePaths) {a : Nat} {s : State} {page : Page} (h : s.pageAt (pageOf a) = some page) :
    lookupWith p a s = .pure page s := by
  unfold lookupWith; rw [h]

/-- After a lookup the page is mapped (R60). -/
theorem lookupWith_done {p : PagePaths} (hp : PathsKeep p) {a : Nat} {s t : State} {page : Page} {w : Bool}
    (h : lookupWith p a s = .done page t w) : t.pageAt (pageOf a) = some page := by
  unfold lookupWith at h
  split at h
  · rename_i hq; cases h; exact hq
  · split at h
    · cases h
    · exact createOwned_mapped h
    · exact hp.faultMapped h

theorem keeps_lookupWith {p : PagePaths} (hp : PathsKeep p) {s t : State} {a : Nat} (h : Good s t)
    (ha : pageOf a < pageCount t.w) : Keeps (Good s) (lookupWith p a t) := by
  unfold lookupWith
  split
  · exact h
  · split
    · exact h
    · exact keeps_createOwned h _ _ ha
    · exact hp.fault h ha

/-- After the write promotion the page the write proceeds with is mapped (R77). -/
theorem writableWith_done {p : PagePaths} (hp : PathsKeep p) {n : Nat} {s t : State} {page page' : Page} {w : Bool}
    (hm : s.pageAt n = some page) (h : writableWith p n page s = .done page' t w) : t.pageAt n = some page' := by
  unfold writableWith at h
  split at h
  · split at h
    · exact promoteOwned_mapped h
    · obtain ⟨a, t1, w1, w2, h1, h2, rfl⟩ := bind_done_cases h
      split at h2
      · exact promoteOwned_mapped h2
      · cases h2; exact hp.writeMapped h1
  · cases h; exact hm

theorem keeps_writableWith {p : PagePaths} (hp : PathsKeep p) {s t : State} {n : Nat} {page : Page} (h : Good s t)
    (hn : n < pageCount t.w) : Keeps (Good s) (writableWith p n page t) := by
  unfold writableWith
  split
  · split
    · exact keeps_promoteOwned h _ _ hn
    · refine (hp.write h hn).bind fun page' t' h' => ?_
      have hn' : n < pageCount t'.w := by rw [h'.w, ← h.w]; exact hn
      split
      · exact keeps_promoteOwned h' _ _ hn'
      · exact h'
  · exact h

/-! ### Bulk operations -/

theorem keeps_bulkReadByte {p : PagePaths} (hp : PathsKeep p) {s t : State} {a : Nat} (h : Good s t)
    (ha : pageOf a < pageCount t.w) : Keeps (Good s) (bulkReadByte p a t) := by
  unfold bulkReadByte
  refine (keeps_lookupWith hp h ha).bind fun page t' h' => ?_
  split
  · trivial
  · exact h'

theorem keeps_bulkWriteByte {p : PagePaths} (hp : PathsKeep p) {s t : State} {a : Nat} {b : Byte} (h : Good s t)
    (ha : pageOf a < pageCount t.w) : Keeps (Good s) (bulkWriteByte p a b t) := by
  unfold bulkWriteByte
  refine (keeps_lookupWith hp h ha).bindWith (fun page t' => t'.pageAt (pageOf a) = some page)
    (fun _ _ _ e => lookupWith_done hp e) fun page t' h' hm => ?_
  split
  · trivial
  · split
    · trivial
    · have ha' : pageOf a < pageCount t'.w := by rw [h'.w, ← h.w]; exact ha
      refine (keeps_writableWith hp h' ha').bindWith (fun page t' => t'.pageAt (pageOf a) = some page)
        (fun _ _ _ e => writableWith_done hp hm e) fun page' t'' h'' hm' => ?_
      split
      · trivial
      · exact good_hostPut h'' _ _ (backed_place (by rw [hm']; rfl))

theorem keeps_bulkRead {p : PagePaths} (hp : PathsKeep p) (n : Nat) {s t : State} {a : Word} (h : Good s t)
    (ha : canonical t.w a) : Keeps (Good s) (bulkRead p n a t) := by
  induction n generalizing t a with
  | zero => exact h
  | succ k ih =>
    refine (keeps_bulkReadByte hp h (pageOf_lt _ _ ha)).bind fun b t' h' => ?_
    exact (ih h' (canonical_wrap _ _)).bind fun bs t'' h'' => h''

theorem keeps_bulkWrite {p : PagePaths} (hp : PathsKeep p) (bs : List Byte) {s t : State} {a : Word} (h : Good s t)
    (ha : canonical t.w a) : Keeps (Good s) (bulkWrite p bs a t) := by
  induction bs generalizing t a with
  | nil => exact h
  | cons b bs ih =>
    exact (keeps_bulkWriteByte hp h (pageOf_lt _ _ ha)).bind fun _ t' h' => ih h' (canonical_wrap _ _)

theorem keeps_bulkCopyOut {p : PagePaths} (hp : PathsKeep p) (n : Nat) {s t : State} {dst : HostAddr} {a : Word} (h : Good s t)
    (ha : canonical t.w a) : Keeps (Good s) (bulkCopyOut p n dst a t) := by
  induction n generalizing t a dst with
  | zero => exact h
  | succ k ih =>
    refine (keeps_bulkReadByte hp h (pageOf_lt _ _ ha)).bind fun b t' h' => ?_
    exact ih (good_hostPut h' _ _ rfl) (canonical_wrap _ _)

theorem keeps_readString {p : PagePaths} (hp : PathsKeep p) (n : Nat) {s t : State} {a : Word} (h : Good s t)
    (ha : canonical t.w a) : Keeps (Good s) (readString p n a t) := by
  induction n generalizing t a with
  | zero => exact h
  | succ k ih =>
    refine (keeps_bulkReadByte hp h (pageOf_lt _ _ ha)).bind fun b t' h' => ?_
    split
    · exact h'
    · exact (ih h' (canonical_wrap _ _)).bind fun bs t'' h'' => h''

theorem keeps_forPages {f : Nat → State → Effect Unit} {s : State} (ns : List Nat)
    (hf : ∀ n ∈ ns, ∀ t, Good s t → Keeps (Good s) (f n t)) {t : State} (h : Good s t) :
    Keeps (Good s) (forPages f ns t) := by
  induction ns generalizing t with
  | nil => exact h
  | cons n ns ih =>
    exact (hf n (List.mem_cons_self ..) t h).bind fun _ t' h' =>
      ih (fun m hm => hf m (List.mem_cons_of_mem _ hm)) h'

theorem good_setArgs {s : State} (args : List Word) {t : State} (r : Nat) (h : Good s t) : Good s (setArgs r args t) := by
  induction args generalizing t r with
  | nil => exact h
  | cons v args ih => exact ih _ (good_setReg h _ _)

theorem keeps_setupCall {s t : State} (call ret : Word) (args : List Word) (h : Good s t) :
    Keeps (Good s) (setupCall call ret args t) := by
  unfold setupCall; split
  · exact h
  · exact good_setPc (good_setArgs _ _ (good_setReg h _ _)) _

theorem keeps_vmcallSetup {s t : State} (target : Option Word) (args : List Word) (h : Good s t) :
    Keeps (Good s) (vmcallSetup target args t) := by
  unfold vmcallSetup; split
  · exact h
  · cases target with
    | none => trivial
    | some a => exact keeps_setupCall _ _ _ h

theorem pageMod_lt (w : Width) (n : Nat) : n % pageCount w < pageCount w := Nat.mod_lt _ (pageCount_pos w)

theorem pageOf_mul (n : Nat) : pageOf (n * pageSize) = n := by simp [pageOf, pageSize]

/-- Every host operation keeps the invariant (R439). -/
theorem keeps_hostAct {p : PagePaths} (hp : PathsKeep p) (op : HostOp) {s t : State} (h : Good s t) :
    Keeps (Good s) (hostAct p op t) := by
  have cw : ∀ v, canonical t.w (wrap t.w v) := canonical_wrap t.w
  cases op with
  | simulate n => trivial
  | reset => trivial
  | stop => exact good_stopped h true
  | setReg r v => exact good_setReg h _ _
  | setPc v => exact good_setPc h _
  | setupCall call ret args => exact keeps_setupCall _ _ _ h
  | vmcall target args exec n =>
    refine (keeps_vmcallSetup target args h).bind fun r t' h' => ?_
    split
    · trivial
    · exact h'
  | realignStack align =>
    show Keeps _ (realignStack align t)
    unfold realignStack; split
    · exact good_setReg h _ _
    · exact h
  | memcpy dst bytes => exact (keeps_bulkWrite hp _ h (cw _)).bind fun _ _ h' => h'
  | copyToGuest dst bytes => exact (keeps_bulkWrite hp _ h (cw _)).bind fun _ _ h' => h'
  | memset dst value len => exact (keeps_bulkWrite hp _ h (cw _)).bind fun _ _ h' => h'
  | memcpyOut dst src len => exact (keeps_bulkCopyOut hp _ h (cw _)).bind fun _ _ h' => h'
  | memcmp src bytes => exact (keeps_bulkRead hp _ h (cw _)).bind fun _ _ h' => h'
  | memview src len callback =>
    exact (keeps_bulkRead hp _ h (cw _)).bind fun _ _ h' => (hp.view h').bind fun _ _ h'' => h''
  | memstring src maxlen =>
    refine (keeps_readString hp _ h (cw _)).bind fun r t' h' => ?_
    cases r <;> exact h'
  | strlen src maxlen =>
    refine (keeps_readString hp _ h (cw _)).bind fun r t' h' => ?_
    cases r <;> exact h'
  | getPage n =>
    exact (keeps_lookupWith hp h (by rw [pageOf_mul]; exact pageMod_lt _ _)).bind fun _ _ h' => h'
  | createPage n =>
    refine Keeps.bind ?_ fun _ _ h' => h'
    unfold createPage; split
    · exact h
    · exact keeps_createOwned (good_drawn h) _ _ (pageMod_lt _ _)
  | freePages addr len => exact good_removePages h _
  | setPageAttr base len attr =>
    refine (keeps_forPages _ (fun n hn t' h' => ?_) h).bind fun _ _ h' => h'
    have hn' : n < pageCount t'.w := by rw [h'.w, ← h.w]; exact pagesTouched_lt hn
    unfold setOnePageAttr; split
    · exact good_setPage h' _ _ hn'
    · exact (keeps_createOwned h' _ _ hn').bind fun _ _ h'' => h''
  | installShared n attr bytes => exact good_installPage h _ _ _ (pageMod_lt _ _)
  | insertNonOwned dst ptr size attr =>
    refine (keeps_forPages _ (fun n hn t' h' => ?_) h).bind fun _ _ h' => h'
    exact good_installPage h' _ _ _ (by rw [h'.w, ← h.w]; exact pagesTouched_lt hn)
  | writeBuffer ptr bytes => exact good_writeBuffer bytes ptr h
  | trapPage addr callback =>
    have hn := pageOf_lt _ _ (cw addr)
    show Good s (trapPage (wrap t.w addr) callback t)
    unfold trapPage; dsimp only; split
    · exact good_setPage h _ _ hn
    · exact good_installPage h _ _ _ hn
  | declareExternal n external =>
    show Good s (declareExternal n external t)
    unfold declareExternal; split
    · rename_i hq; exact good_setPage h _ _ (page_lt h.wf.pages hq)
    · exact h
  | installHandler n handler => exact good_handlers h _ (sorted_insert _ _ h.wf.handlers)
  | getHandler n => exact h
  | removeHandler n => exact good_handlers h _ (sorted_dropKeys _ h.wf.handlers)
  | setPageFaultCallback callback => exact h.congr (by simp)
  | setPageWriteCallback callback => exact h.congr (by simp)

/-! ### Callbacks -/

theorem keeps_answered {s t : State} (answer : HostAnswer) (h : Good s t) : Keeps (Good s) (answered answer t) := by
  unfold answered; split <;> exact h

theorem installImage_mapped {n : Nat} {image : PageImage} {t t' : State} {page : Page} {w : Bool}
    (h : installImage n image t = .done page t' w) : t'.pageAt n = some page := by
  cases h; exact pageAt_installPage ..

theorem bind_installImage_mapped {α : Type} {e : Effect α} {g : α → PageImage} {n : Nat} {t' : State} {page : Page} {w : Bool}
    (h : e.bind (fun a s => installImage n (g a) s) = .done page t' w) : t'.pageAt n = some page := by
  obtain ⟨a, t1, w1, w2, _, h2, rfl⟩ := bind_done_cases h
  exact installImage_mapped h2

theorem keeps_runScript {p : PagePaths} (hp : PathsKeep p) {s : State} (acts : List HostOp) {t : State} (h : Good s t) :
    Keeps (Good s) (runScript p acts t) := by
  induction acts generalizing t with
  | nil => exact h
  | cons op acts ih => exact (keeps_hostAct hp op h).bind fun r t' h' => ih (good_hostResult h' r)

theorem keeps_afterHost {s : State} {e : Effect Unit} (h : Keeps (Good s) e) : Keeps (Good s) (afterHost e) := by
  cases e with
  | done a t w => exact good_drawReservation h
  | trapped tag detail t => exact good_drawReservation h
  | refused r => trivial

/-- A call of the host keeps the invariant (R430, R439). -/
theorem keeps_callHostWith {p : PagePaths} (hp : PathsKeep p) {s t : State} (callback : Nat) (args : List Nat) (h : Good s t) :
    Keeps (Good s) (callHostWith p callback args t) :=
  (keeps_afterHost (keeps_runScript hp _ (good_drawn h))).bind fun _ _ h' => keeps_answered _ h'

/-- The host's callbacks keep the invariant, however deep they call one another (R430). -/
theorem pathsKeep_nested (depth : Nat) : PathsKeep (.nested depth) := by
  induction depth with
  | zero => exact ⟨fun _ _ => trivial, nofun, fun _ _ => trivial, nofun, fun _ => trivial⟩
  | succ depth ih =>
    exact
      { fault := fun h hn => (keeps_callHostWith ih _ _ h).bind fun _ _ h' =>
          good_installPage h' _ _ _ (by rw [h'.w, ← h.w]; exact hn)
        faultMapped := fun h => bind_installImage_mapped h
        write := fun h hn => (keeps_callHostWith ih _ _ h).bind fun _ _ h' =>
          good_installPage h' _ _ _ (by rw [h'.w, ← h.w]; exact hn)
        writeMapped := fun h => bind_installImage_mapped h
        view := fun h => (keeps_callHostWith ih _ _ h).bind fun _ _ h' => h' }

theorem keeps_callHost {s t : State} (callback : Nat) (args : List Nat) (h : Good s t) :
    Keeps (Good s) (callHost callback args t) := keeps_callHostWith (pathsKeep_nested _) callback args h

theorem pathsKeep_outer : PathsKeep .outer := pathsKeep_nested _

/-- The draw after a host action (R281). -/
theorem resvDrawn_drawReservation (s : State) : s.ResvDrawn (drawReservation s) := by
  unfold State.ResvDrawn drawReservation
  cases Config.freeBool s.draws
  · exact .inr (by simp)
  · exact .inl (by simp)

/-- A callback that the host declares to do nothing but answer. -/
theorem callHost_quiet {s : State} {callback : Nat} {answer : HostAnswer} (args : List Nat)
    (h : SMap.find s.scripts callback = some answer) (ha : answer.acts = []) (hf : answer.failure = none) :
    callHost callback args s = .pure answer (drawReservation s.drawn) := by
  simp [callHost, callHostWith, answerOf, h, ha, runScript, afterHost, answered, hf, Effect.pure]

/-- A callback, declared or free, whose script writes one register. -/
theorem callHost_setReg {s : State} {callback : Nat} {args : List Nat} {answer : HostAnswer} {q : Reg} {u : Word}
    (h : answerOf callback args s = answer) (ha : answer.acts = [.setReg q u]) :
    callHost callback args s = answered answer (drawReservation { s.drawn.setReg q u with hostResult := .ok }) := by
  simp [callHost, callHostWith, h, ha, runScript, hostAct, afterHost, Effect.pure, Effect.bind]

end Sys2Proof.Laws
end

