-- ==== Sys2Proof/Laws/AccessKeeps.lean ====
section
/-! SUPPORT. The guest's accesses, the fetch and the instructions keep the invariant. -/

namespace Sys2Proof.Laws

open Sys2Proof.Machine

theorem canonical_x (s : State) (r : Reg) : canonical s.w (s.x r) := wrap_x s r

theorem Good.pageLt {s t : State} (h : Good s t) {n : Nat} (hn : n < pageCount s.w) : n < pageCount t.w := by
  rw [h.w]; exact hn

theorem keeps_readPage {s t : State} {a n : Nat} (h : Good s t) (ha : pageOf a < pageCount s.w) :
    Keeps (Good s) (readPage a n t) := by
  unfold readPage
  refine (keeps_lookupWith pathsKeep_outer h (h.pageLt ha)).bind fun page t' h' => ?_
  split
  · split
    · exact (keeps_callHost _ _ h').bind fun _ _ h'' => h''
    all_goals exact h'
  · exact h'

theorem keeps_readStraddling {s : State} (n : Nat) {t : State} {a : Word} (h : Good s t) (ha : canonical s.w a) :
    Keeps (Good s) (readStraddling n a t) := by
  induction n generalizing t a with
  | zero => exact h
  | succ k ih =>
    refine (keeps_readPage h (pageOf_lt _ _ ha)).bind fun b t' h' => ?_
    exact (ih h' (by rw [h'.w]; exact canonical_wrap _ _)).bind fun _ _ h'' => h''

theorem keeps_memRead {s t : State} {a : Word} {z : Size} (h : Good s t) (ha : canonical s.w a) :
    Keeps (Good s) (memRead a z t) := by
  unfold memRead
  split
  · exact h
  · split
    · exact (keeps_readPage h (pageOf_lt _ _ ha)).bind fun _ _ h' => h'
    · exact (keeps_readStraddling _ h ha).bind fun _ _ h' => h'

theorem inOnePage_iff {a n : Nat} : inOnePage a n = true ↔ a % 4096 + n ≤ 4096 := decide_eq_true_iff

theorem pageOf_same {a n q : Nat} (hp : inOnePage a n = true) (h1 : a ≤ q) (h2 : q < a + n) : pageOf q = pageOf a := by
  rw [inOnePage_iff] at hp
  simp only [pageOf, pageSize]
  omega

/-- A way of storing bytes keeps the invariant where their pages are mapped. -/
def StoreKeeps (store : Nat → List Byte → State → State) : Prop :=
  ∀ {s t : State} (a : Nat) (bs : List Byte), Good s t →
    (∀ q, a ≤ q → q < a + bs.length → (t.pageAt (pageOf q)).isSome = true) → Good s (store a bs t)

theorem storeKeeps_inPage : StoreKeeps storeInPage := fun a bs h hp => good_storeBytes bs a h hp

theorem storeKeeps_noted : StoreKeeps storeNoted := fun {s t} a bs h hp => by
  induction bs generalizing t a with
  | nil => exact h
  | cons b bs ih =>
    simp only [List.length_cons] at hp
    refine ih (a + 1) (good_putNoted h _ _ (backed_place (hp a (by omega) (by omega)))) fun q h1 h2 => ?_
    rw [pageAt_congr (putNoted_pages ..)]
    exact hp q (by omega) (by omega)

theorem keeps_writePage {store : Nat → List Byte → State → State} (hst : StoreKeeps store) {s t : State} {a : Nat}
    {bs : List Byte} (h : Good s t) (ha : pageOf a < pageCount s.w) (hp : inOnePage a bs.length = true) :
    Keeps (Good s) (writePage store a bs t) := by
  unfold writePage
  refine (keeps_lookupWith pathsKeep_outer h (h.pageLt ha)).bindWith (fun page t' => t'.pageAt (pageOf a) = some page)
    (fun _ _ _ e => lookupWith_done pathsKeep_outer e) fun page t1 h1 hm => ?_
  refine (keeps_writableWith pathsKeep_outer h1 (h1.pageLt ha)).bindWith
    (fun page t' => t'.pageAt (pageOf a) = some page)
    (fun _ _ _ e => writableWith_done pathsKeep_outer hm e) fun page' t2 h2 hm' => ?_
  have stored : Good s (store a bs t2) := hst _ _ h2 fun q q1 q2 => by
    rw [pageOf_same hp q1 q2, hm']; rfl
  split
  · split
    · trivial
    · split
      · exact (keeps_callHost _ _ h2).bind fun _ _ h3 => h3
      all_goals exact stored
  · exact h2

theorem good_drawPartialStore {s t : State} (h : Good s t) : Good s (drawPartialStore t) := by
  unfold drawPartialStore
  split
  · exact h
  · split
    · exact good_undo (good_drawn h) _
    · exact good_undo (good_restoreBytes _ (good_drawn h)) _

theorem keeps_writeStraddling {s : State} (bs : List Byte) {t : State} {a : Word} (h : Good s t)
    (ha : canonical s.w a) : Keeps (Good s) (writeStraddling bs a t) := by
  induction bs generalizing t a with
  | nil => exact h
  | cons b bs ih =>
    refine (keeps_writePage storeKeeps_noted (bs := [b]) h (pageOf_lt _ _ ha) (inOnePage_iff.mpr (by
      simp only [List.length_singleton]; omega))).bind fun _ t' h' => ?_
    exact ih h' (by rw [h'.w]; exact canonical_wrap _ _)

theorem keeps_writeNoted {s : State} (bs : List Byte) {t : State} {a : Word} (h : Good s t)
    (ha : canonical s.w a) : Keeps (Good s) (writeNoted bs a t) := by
  have := keeps_writeStraddling bs (good_undo h []) ha
  unfold writeNoted
  split
  · rename_i e; rw [e] at this; exact good_undo this _
  · rename_i e; rw [e] at this; exact good_drawPartialStore this
  · trivial

theorem length_leBytes (n : Nat) (v : Word) : (leBytes n v).length = n := by simp [leBytes]

theorem keeps_memWrite {s t : State} {a : Word} {z : Size} {v : Word} (h : Good s t) (ha : canonical s.w a) :
    Keeps (Good s) (memWrite a z v t) := by
  unfold memWrite
  split
  · exact h
  · split
    · rename_i hp
      exact (keeps_writePage storeKeeps_inPage h (pageOf_lt _ _ ha) (by rw [length_leBytes]; exact hp)).bind fun _ _ h' => good_clearResv h'
    · exact (keeps_writeNoted _ h ha).bind fun _ _ h' => good_clearResv h'

/-! ### Instructions -/

/-- The invariant, and what no step changes. -/
structure Stepped (s t : State) : Prop where
  wf : t.wf
  fixed : s.SameFixed t

theorem Good.stepped {s t : State} (h : Good s t) : Stepped s t := ⟨h.wf, h.kept.fixed⟩

theorem counter_succ {c : BitVec 64} (h : c ≠ counterMax) : (c + 1).toNat = c.toNat + 1 := by
  have h1 : c.toNat ≠ 2 ^ 64 - 1 := fun e => h (BitVec.eq_of_toNat_eq (by rw [e]; rfl))
  have := c.isLt
  rw [BitVec.toNat_add]
  have e1 : (1 : BitVec 64).toNat = 1 := rfl
  rw [e1, Nat.mod_eq_of_lt (by omega)]

theorem steps_retire {s t : State} (len : Nat) (wrote : Bool) (h : Good s t) : KeepsOutcome (Stepped s) (retire len wrote t) := by
  unfold retire
  split
  · exact keepsOutcome_refused _ _
  · rename_i hc
    refine keepsOutcome_next ?_
    refine ⟨⟨⟨h.wf.cpu.x0, h.wf.cpu.regs, ?_⟩, addrWf_congr h.wf.addr, pagesWf_congr h.wf.pages, resvWf_congr h.wf.resv,
      ⟨h.wf.run.running, ?_⟩, h.wf.handlers⟩, sameFixed_congr h.kept.fixed⟩
    · show canonical t.w _
      dsimp only
      split
      · exact h.wf.cpu.pc
      · exact canonical_wrap _ _
    · intro r hr
      have := h.wf.run.started r hr
      show _ ≤ (t.counter + 1).toNat
      rw [counter_succ hc]; omega

theorem steps_takeTrap {s t : State} (tag : Tag) (detail : Nat) (h : Good s t) : Stepped s (takeTrap tag detail t) :=
  ⟨⟨cpuWf_congr h.wf.cpu, addrWf_congr h.wf.addr, pagesWf_congr h.wf.pages, resvWf_congr h.wf.resv, ⟨by simp, by simp⟩,
    h.wf.handlers⟩, sameFixed_congr h.kept.fixed⟩

theorem steps_finish {s : State} (len : Nat) {e : Effect Unit} (h : Keeps (Good s) e) :
    KeepsOutcome (Stepped s) (finish len e) := by
  cases e with
  | done a t w => exact steps_retire len w h
  | trapped tag detail t => exact keepsOutcome_next (steps_takeTrap _ _ h)
  | refused r => exact keepsOutcome_refused _ _

theorem steps_unimplemented {s t : State} (i : Instr) (h : Good s t) : KeepsOutcome (Stepped s) (unimplemented i t) := by
  unfold unimplemented
  split
  · split <;> exact keepsOutcome_next (steps_takeTrap _ _ h)
  · exact keepsOutcome_next (steps_takeTrap _ _ h)

theorem steps_guarded {s t : State} (i : Instr) {o : Host.Outcome State Fault Refusal} (h : Good s t)
    (ho : i.wf t.params = true → KeepsOutcome (Stepped s) o) : KeepsOutcome (Stepped s) (guarded i t o) := by
  unfold guarded
  split
  · rename_i hw; exact ho hw
  · exact steps_unimplemented i h

theorem steps_writeBack {s t : State} (len : Nat) (rd : Reg) (v : Word) (h : Good s t) :
    KeepsOutcome (Stepped s) (writeBack len rd v t) := steps_retire _ _ (good_setReg h _ _)

theorem steps_jumpTo {s t : State} (len : Nat) (v : Word) (h : Good s t) : KeepsOutcome (Stepped s) (jumpTo len v t) :=
  steps_retire _ _ (good_setPc h _)

theorem steps_jumpRelative {s t : State} {n : Nat} (len : Nat) (rd : Reg) (o : BitVec n) (h : Good s t) :
    KeepsOutcome (Stepped s) (jumpRelative len rd o t) := steps_jumpTo _ _ (good_setReg h _ _)

theorem steps_jumpRegister {s t : State} {n : Nat} (len : Nat) (rd rs1 : Reg) (o : BitVec n) (h : Good s t) :
    KeepsOutcome (Stepped s) (jumpRegister len rd rs1 o t) := by
  unfold jumpRegister
  split
  · exact keepsOutcome_refused _ _
  · exact steps_jumpTo _ _ (good_setReg h _ _)

theorem steps_branchIf {s t : State} {n : Nat} (len : Nat) (c : Bool) (o : BitVec n) (h : Good s t) :
    KeepsOutcome (Stepped s) (branchIf len c o t) := by
  unfold branchIf
  split
  · exact steps_jumpTo _ _ h
  · exact steps_retire _ _ h

theorem steps_loadFrom {s t : State} (len : Nat) (z : Size) (sg : Bool) (rd : Reg) (ea : Word) (h : Good s t)
    (ha : canonical s.w ea) : KeepsOutcome (Stepped s) (loadFrom len z sg rd ea t) :=
  steps_finish _ ((keeps_memRead h ha).bind fun _ _ h' => good_setReg h' _ _)

theorem steps_storeTo {s t : State} (len : Nat) (z : Size) (ea v : Word) (h : Good s t) (ha : canonical s.w ea) :
    KeepsOutcome (Stepped s) (storeTo len z ea v t) := steps_finish _ (keeps_memWrite h ha)

theorem keeps_loadReserved {s : State} (width : Width) (rd rs1 : Reg) (h : s.wf) (he : s.params.extA = true)
    (hw : width = .w8 → s.w = .w8) : Keeps (Good s) (loadReserved width rd rs1 s) := by
  unfold loadReserved
  split
  · exact good_refl h
  · rename_i hm
    refine (keeps_memRead (good_refl h) (canonical_x _ _)).bind fun v t' h' => ?_
    refine good_resv (good_setReg h' _ _) _ fun _ => ⟨?_, ?_, ?_⟩
    · simp [h'.kept.fixed.params, he]
    · simpa [atomicMisaligned] using hm
    · intro e; rw [setReg_w, h'.w]; exact hw e

theorem keeps_storeConditional {s : State} (width : Width) (rd rs1 rs2 : Reg) (h : s.wf) :
    Keeps (Good s) (storeConditional width rd rs1 rs2 s) := by
  unfold storeConditional
  split
  · exact good_refl h
  · split
    · exact (keeps_memWrite (good_refl h) (canonical_x _ _)).bind fun _ _ h' => good_clearResv (good_setReg h' _ _)
    · exact good_clearResv (good_setReg (good_refl h) _ _)

theorem keeps_atomicOp {s : State} (op : AmoOp) (z : Size) (rd rs1 rs2 : Reg) (h : s.wf) :
    Keeps (Good s) (atomicOp op z rd rs1 rs2 s) := by
  unfold atomicOp
  split
  · exact good_refl h
  · exact (keeps_memRead (good_refl h) (canonical_x _ _)).bind fun _ _ h' =>
      (keeps_memWrite h' (canonical_x _ _)).bind fun _ _ h'' => good_setReg h'' _ _

theorem keeps_systemCall {s : State} (n : Word) (h : s.wf) : Keeps (Good s) (systemCall n s) := by
  have g := good_refl h
  unfold systemCall
  split
  · refine (keeps_callHost _ _ g).bind fun _ _ h' => ?_
    split
    · exact h'
    · exact good_setReg h' _ _
  · split
    · exact g
    · split
      · split
        · exact good_drawn g
        · exact good_setReg (good_drawn g) _ _
      · exact good_setReg g _ _

end Sys2Proof.Laws
end

