-- ==== Sys2Proof/Laws/Access.lean ====
section
/-! SUPPORT. What the guest's accesses answer: the read and write paths over bytes that are readable or storable, and where they
stop. -/

namespace Sys2Proof.Laws

open Sys2Proof.Machine

/-! ### Values -/

theorem toNat_wrap (w : Width) (v : Word) : (wrap w v).toNat = v.toNat % 2 ^ w.xlen := by
  cases w
  · simp [wrap, Width.xlen, Width.bytes]; omega
  · simp only [wrap, Width.xlen, Width.bytes]; omega

theorem canonical_iff {w : Width} {v : Word} : canonical w v ↔ v.toNat < 2 ^ w.xlen := by
  constructor
  · intro h
    rw [← h, toNat_wrap]
    exact Nat.mod_lt _ (by positivity)
  · intro h
    apply BitVec.eq_of_toNat_eq
    rw [toNat_wrap, Nat.mod_eq_of_lt h]

theorem xlen_le (w : Width) : 32 ≤ w.xlen := by cases w <;> simp [Width.xlen, Width.bytes]
theorem xlen_dvd (w : Width) : (2 ^ w.xlen : Nat) ∣ 2 ^ 64 := by cases w <;> simp [Width.xlen, Width.bytes]

/-- The number a little-endian list of bytes holds (R72). -/
def numOf (bs : List Byte) : Nat :=
  match bs with
  | [] => 0
  | b :: t => b.toNat + 256 * numOf t

theorem numOf_lt (bs : List Byte) : numOf bs < 256 ^ bs.length := by
  induction bs with
  | nil => simp [numOf]
  | cons b t ih =>
    have := b.isLt
    simp only [numOf, List.length_cons, Nat.pow_succ]
    omega

theorem numOf_append (bs cs : List Byte) : numOf (bs ++ cs) = numOf bs + 256 ^ bs.length * numOf cs := by
  induction bs with
  | nil => simp [numOf]
  | cons b t ih => simp only [List.cons_append, numOf, ih, List.length_cons, Nat.pow_succ]; ring

theorem numOf_map_range (b : Nat → Byte) (n : Nat) : numOf ((List.range n).map b) = littleEndian b n := by
  induction n with
  | zero => rfl
  | succ k ih =>
    rw [List.range_succ, List.map_append, numOf_append, ih]
    simp [numOf, littleEndian, Nat.mul_comm]

theorem leWord_toNat (bs : List Byte) (h : bs.length ≤ 8) : (leWord bs).toNat = numOf bs := by
  induction bs with
  | nil => rfl
  | cons b t ih =>
    simp only [List.length_cons] at h
    have it := ih (by omega)
    have ht := numOf_lt t
    have hp : 256 ^ t.length ≤ 256 ^ 7 := Nat.pow_le_pow_right (by norm_num) (by omega)
    have hb := b.isLt
    simp only [leWord, numOf, BitVec.toNat_or, BitVec.toNat_shiftLeft, BitVec.toNat_setWidth, it]
    rw [Nat.mod_eq_of_lt (a := b.toNat) (by omega), Nat.shiftLeft_eq,
      Nat.mod_eq_of_lt (a := numOf t * 2 ^ 8) (by norm_num at hp ⊢; omega), ← Nat.shiftLeft_eq,
      ← Nat.shiftLeft_add_eq_or_of_lt (by omega), Nat.shiftLeft_eq]
    omega

theorem littleEndian_lt (b : Nat → Byte) (n : Nat) : littleEndian b n < 256 ^ n := by
  rw [← numOf_map_range]
  simpa using numOf_lt ((List.range n).map b)

theorem littleEndian_congr {b c : Nat → Byte} {n : Nat} (h : ∀ k < n, b k = c k) : littleEndian b n = littleEndian c n := by
  induction n with
  | zero => rfl
  | succ k ih => simp only [littleEndian]; rw [ih fun j hj => h j (by omega), h k (by omega)]

theorem byteOf_eq (v : Word) (k : Nat) : byteOf v k = BitVec.ofNat 8 (v.toNat / 256 ^ k) := by
  apply BitVec.eq_of_toNat_eq
  simp only [byteOf, BitVec.extractLsb'_toNat, BitVec.toNat_ofNat, Nat.shiftRight_eq_div_pow]
  rw [Nat.pow_mul]

theorem size_le (z : Size) : z.bytes ≤ 8 := by cases z <;> simp [Size.bytes]
theorem size_pos (z : Size) : 0 < z.bytes := by cases z <;> simp [Size.bytes]

/-! ### Addresses -/

theorem byteAddr_zero {s : State} {a : Word} (h : canonical s.w a) : s.byteAddr a 0 = a.toNat := by
  simp only [State.byteAddr, Nat.add_zero]
  exact Nat.mod_eq_of_lt (canonical_iff.mp h)

/-- Inside one page the addresses of an access do not wrap. -/
theorem byteAddr_inPage {s : State} {a : Word} {n k : Nat} (h : canonical s.w a) (hp : inOnePage a.toNat n = true) (hk : k < n) :
    s.byteAddr a k = a.toNat + k := by
  have hc := canonical_iff.mp h
  rw [inOnePage_iff] at hp
  refine Nat.mod_eq_of_lt ?_
  have : (4096 : Nat) ∣ 2 ^ s.w.xlen := by cases s.w <;> decide
  obtain ⟨m, hm⟩ := this
  rw [hm] at hc ⊢
  omega

theorem byteAddr_succ (s : State) (a : Word) (k : Nat) : s.byteAddr (wrap s.w (a + 1)) k = s.byteAddr a (k + 1) := by
  simp only [State.byteAddr, toNat_wrap, BitVec.toNat_add]
  rw [Nat.mod_mod_of_dvd _ (xlen_dvd _), Nat.mod_add_mod]
  congr 1
  show a.toNat + 1 + k = a.toNat + (k + 1)
  omega

theorem toNat_wrap_add (s : State) (a : Word) (k : Nat) : (wrap s.w (a + BitVec.ofNat 64 k)).toNat = s.byteAddr a k := by
  rw [toNat_wrap, BitVec.toNat_add, BitVec.toNat_ofNat, Nat.add_mod_mod, Nat.mod_mod_of_dvd _ (xlen_dvd _)]
  rfl

theorem byteAddr_congr {s t : State} (h : t.params = s.params) (a : Word) (k : Nat) : t.byteAddr a k = s.byteAddr a k := by
  simp only [State.byteAddr, State.w, h]

/-- The bytes of an access of at most 8 bytes have different addresses. -/
theorem byteAddr_inj (s : State) (a : Word) {j k : Nat} (hj : j < 8) (hk : k < 8) (h : s.byteAddr a j = s.byteAddr a k) : j = k := by
  simp only [State.byteAddr] at h
  have : (2 : Nat) ^ 32 ≤ 2 ^ s.w.xlen := Nat.pow_le_pow_right (by norm_num) (xlen_le _)
  generalize (2 : Nat) ^ s.w.xlen = m at *
  have hm : 8 ≤ m := by norm_num at this; omega
  rcases Nat.lt_trichotomy j k with hlt | he | hlt
  · exfalso
    have h1 : m ∣ (a.toNat + k) - (a.toNat + j) := (Nat.modEq_iff_dvd' (by omega)).mp h
    have := Nat.le_of_dvd (by omega) h1
    omega
  · exact he
  · exfalso
    have h1 : m ∣ (a.toNat + j) - (a.toNat + k) := (Nat.modEq_iff_dvd' (by omega)).mp h.symm
    have := Nat.le_of_dvd (by omega) h1
    omega

/-! ### Lookup -/

theorem lookup_mapped {s : State} {a : Nat} {p : Page} (h : s.pageAt (pageOf a) = some p) : lookup a s = .pure p s := by
  simp [lookup, lookupWith, h]

theorem lookup_missing {s : State} {a : Nat} (h : s.pageAt (pageOf a) = none) (hp : s.params.pageFault = .fault) :
    lookup a s = .trapped .protectionFault a s := by
  simp [lookup, lookupWith, h, hp]

/-! ### Reading -/

theorem readPage_backed {s : State} {a : Nat} (n : Nat) {p : Page} (h : s.pageAt (pageOf a) = some p) (hr : p.attr.read = true)
    (ht : isTrapPage p = false) : readPage a n s = .pure (s.bytes a n) s := by
  unfold readPage
  rw [lookup_mapped h, bind_pure, if_pos hr]
  cases hv : p.variant <;> simp [isTrapPage, hv] at ht ⊢

theorem readPage_noRead {s : State} {a : Nat} (n : Nat) {p : Page} (h : s.pageAt (pageOf a) = some p) (hr : p.attr.read = false) :
    readPage a n s = .trapped .protectionFault a s := by
  unfold readPage
  rw [lookup_mapped h, bind_pure, if_neg (by simp [hr])]

theorem readPage_missing {s : State} {a : Nat} (n : Nat) (h : s.pageAt (pageOf a) = none) (hp : s.params.pageFault = .fault) :
    readPage a n s = .trapped .protectionFault a s := by
  unfold readPage
  rw [lookup_missing h hp, bind_trapped]

theorem readable_iff {s : State} {a : Nat} :
    s.readable a = true ↔ ∃ p, s.pageAt (pageOf a) = some p ∧ p.attr.read = true ∧ isTrapPage p = false := by
  unfold State.readable
  cases s.pageAt (pageOf a) <;> simp

theorem storable_iff {s : State} {a : Nat} :
    s.storable a = true ↔ ∃ p, s.pageAt (pageOf a) = some p ∧ p.attr.write = true ∧ p.variant ≠ .sharedRO ∧
      isTrapPage p = false ∧ (s.params.execConstant && s.inExecSegment a) = false := by
  unfold State.storable
  cases s.pageAt (pageOf a)
  · simp
  · cases s.params.execConstant <;> simp [and_assoc]

theorem readStraddling_readable {s : State} (n : Nat) {a : Word} (ha : canonical s.w a)
    (h : ∀ k < n, s.readable (s.byteAddr a k) = true) :
    readStraddling n a s = .pure ((List.range n).map fun k => s.byte (s.byteAddr a k)) s := by
  induction n generalizing a with
  | zero => rfl
  | succ m ih =>
    obtain ⟨p, h1, h2, h3⟩ := readable_iff.mp (h 0 (by omega))
    rw [byteAddr_zero ha] at h1
    unfold readStraddling
    rw [readPage_backed 1 h1 h2 h3, bind_pure, ih (canonical_wrap _ _) (fun k hk => by rw [byteAddr_succ]; exact h _ (by omega)),
      bind_pure, List.range_succ_eq_map, List.map_cons, List.map_map]
    congr 1
    simp only [State.bytes, List.range_one, List.map_cons, List.map_nil, Nat.add_zero, List.singleton_append,
      byteAddr_zero ha]
    congr 1
    apply List.map_congr_left
    intro k _
    exact congrArg s.byte (byteAddr_succ s a k)

/-- The first byte that stops a byte-wise read. -/
theorem readStraddling_stops {s : State} (n : Nat) {a : Word} {k : Nat} (ha : canonical s.w a) (hk : k < n)
    (h : ∀ j < k, s.readable (s.byteAddr a j) = true)
    (hs : readPage (s.byteAddr a k) 1 s = .trapped .protectionFault (s.byteAddr a k) s) :
    readStraddling n a s = .trapped .protectionFault (s.byteAddr a k) s := by
  induction n generalizing a k with
  | zero => omega
  | succ m ih =>
    unfold readStraddling
    cases k with
    | zero =>
      rw [byteAddr_zero ha] at hs ⊢
      rw [hs, bind_trapped]
    | succ j =>
      obtain ⟨p, h1, h2, h3⟩ := readable_iff.mp (h 0 (by omega))
      rw [byteAddr_zero ha] at h1
      rw [readPage_backed 1 h1 h2 h3, bind_pure,
        ih (k := j) (canonical_wrap _ _) (by omega) (fun i hi => by rw [byteAddr_succ]; exact h _ (by omega))
          (by rw [byteAddr_succ]; exact hs), bind_trapped, byteAddr_succ]

theorem canRead_iff {s : State} {a : Word} {z : Size} :
    s.canRead a z = true ↔ misaligned a z s = false ∧ ∀ k < z.bytes, s.readable (s.byteAddr a k) = true := by
  simp [State.canRead]

theorem canStore_iff {s : State} {a : Word} {z : Size} :
    s.canStore a z = true ↔ misaligned a z s = false ∧ ∀ k < z.bytes, s.storable (s.byteAddr a k) = true := by
  simp [State.canStore]

/-- A read of readable bytes gives their little-endian number and changes nothing (R70 to R73). -/
theorem memRead_readable {s : State} {a : Word} {z : Size} (ha : canonical s.w a) (h : s.canRead a z = true) :
    memRead a z s = .pure (BitVec.ofNat 64 (s.valueAt a z.bytes)) s := by
  obtain ⟨hm, hr⟩ := canRead_iff.mp h
  have hl : ∀ (bs : List Byte), bs = (List.range z.bytes).map (fun k => s.byte (s.byteAddr a k)) →
      leWord bs = BitVec.ofNat 64 (s.valueAt a z.bytes) := by
    rintro _ rfl
    apply BitVec.eq_of_toNat_eq
    rw [leWord_toNat _ (by simpa using size_le z), numOf_map_range, BitVec.toNat_ofNat]
    refine (Nat.mod_eq_of_lt ?_).symm
    exact lt_of_lt_of_le (littleEndian_lt _ _) (le_trans (Nat.pow_le_pow_right (by norm_num) (size_le z)) (by norm_num))
  unfold memRead
  rw [if_neg (by simp [hm])]
  split
  · rename_i hp
    obtain ⟨p, h1, h2, h3⟩ := readable_iff.mp (hr 0 (size_pos z))
    rw [byteAddr_zero ha] at h1
    rw [readPage_backed _ h1 h2 h3, bind_pure, hl]
    apply List.map_congr_left
    intro k hk
    rw [byteAddr_inPage ha hp (List.mem_range.mp hk)]
  · rw [readStraddling_readable _ ha hr, bind_pure, hl _ rfl]

/-- A read stops at the first byte whose page is missing or may not be read (R60, R71, R73). -/
theorem memRead_stops {s : State} {a : Word} {z : Size} {k : Nat} (ha : canonical s.w a) (hm : misaligned a z s = false)
    (hk : k < z.bytes) (h : ∀ j < k, s.readable (s.byteAddr a j) = true)
    (hs : (s.pageAt (pageOf (s.byteAddr a k)) = none ∧ s.params.pageFault = .fault) ∨
      ∃ p, s.pageAt (pageOf (s.byteAddr a k)) = some p ∧ p.attr.read = false) :
    memRead a z s = .trapped .protectionFault (s.byteAddr a k) s := by
  have stop : ∀ n, readPage (s.byteAddr a k) n s = .trapped .protectionFault (s.byteAddr a k) s := fun n => by
    rcases hs with ⟨h1, h2⟩ | ⟨p, h1, h2⟩
    · exact readPage_missing n h1 h2
    · exact readPage_noRead n h1 h2
  unfold memRead
  rw [if_neg (by simp [hm])]
  split
  · rename_i hp
    cases k with
    | zero => rw [byteAddr_zero ha] at stop ⊢; rw [stop, bind_trapped]
    | succ j =>
      exfalso
      obtain ⟨p, h1, h2, h3⟩ := readable_iff.mp (h 0 (by omega))
      have e : pageOf (s.byteAddr a (j + 1)) = pageOf (s.byteAddr a 0) := by
        rw [byteAddr_zero ha, byteAddr_inPage ha hp hk]
        exact pageOf_same hp (by omega) (by omega)
      rw [e, h1] at hs
      simp [h2] at hs
  · rw [readStraddling_stops _ ha hk h (stop 1), bind_trapped]

theorem memRead_misaligned {s : State} {a : Word} {z : Size} (h : misaligned a z s = true) :
    memRead a z s = .trapped .misalignedAccess a.toNat s := by
  simp [memRead, h]

/-! ### Writing -/

theorem writePage_storable (store : Nat → List Byte → State → State) {s : State} {a : Nat} {bs : List Byte} {p : Page}
    (h : s.pageAt (pageOf a) = some p) (hw : p.attr.write = true) (hv : p.variant ≠ .sharedRO) (ht : isTrapPage p = false)
    (he : (s.params.execConstant && s.meetsExecSegment a bs.length) = false) :
    writePage store a bs s = .pure () (store a bs s) := by
  unfold writePage
  rw [lookup_mapped h, bind_pure]
  simp only [writableWith, if_neg hv, bind_pure, if_pos hw, he, Bool.false_eq_true, if_false]
  cases hp : p.variant <;> simp [isTrapPage, hp] at ht ⊢

theorem writePage_noWrite (store : Nat → List Byte → State → State) {s : State} {a : Nat} (bs : List Byte) {p : Page} (h : s.pageAt (pageOf a) = some p)
    (hw : p.attr.write = false) (hv : p.variant ≠ .sharedRO) : writePage store a bs s = .trapped .protectionFault a s := by
  unfold writePage
  rw [lookup_mapped h, bind_pure]
  simp [writableWith, hv, hw]

theorem writePage_missing (store : Nat → List Byte → State → State) {s : State} {a : Nat} (bs : List Byte) (h : s.pageAt (pageOf a) = none)
    (hp : s.params.pageFault = .fault) : writePage store a bs s = .trapped .protectionFault a s := by
  unfold writePage
  rw [lookup_missing h hp, bind_trapped]

theorem writePage_constant (store : Nat → List Byte → State → State) {s : State} {a : Nat} {bs : List Byte} {p : Page} (h : s.pageAt (pageOf a) = some p)
    (hw : p.attr.write = true) (hv : p.variant ≠ .sharedRO) (he : (s.params.execConstant && s.meetsExecSegment a bs.length) = true) :
    writePage store a bs s = .refused .storeToConstantExecSegment := by
  unfold writePage
  rw [lookup_mapped h, bind_pure]
  simp only [writableWith, if_neg hv, bind_pure, if_pos hw, he, if_true]

theorem meetsExec_iff {s : State} {a n : Nat} :
    s.meetsExecSegment a n = true ↔ ∃ k < n, s.inExecSegment (a + k) = true := by
  simp only [State.meetsExecSegment, State.inExecSegment, decide_eq_true_eq, Bool.and_eq_true]
  constructor
  · intro h
    exact ⟨max a s.execBase.toNat - a, by omega, by omega, by omega⟩
  · rintro ⟨k, h1, h2, h3⟩
    omega

/-- The bytes of a straddling access go out one at a time, each with its note. -/
theorem writePage_one {s : State} {a : Nat} (b : Byte) (h : s.storable a = true) :
    writePage storeNoted a [b] s = .pure () (s.putNoted (s.place a) b) := by
  obtain ⟨p, h1, h2, h3, h4, h5⟩ := storable_iff.mp h
  rw [writePage_storable storeNoted h1 h2 h3 h4]
  · rfl
  · cases hc : s.params.execConstant
    · rfl
    · rw [hc] at h5
      cases hm : s.meetsExecSegment a [b].length
      · rfl
      · obtain ⟨k, hk, he⟩ := meetsExec_iff.mp hm
        have : k = 0 := by simp at hk; omega
        rw [this, Nat.add_zero] at he
        simp [he] at h5

theorem storable_mapped {s : State} {a : Nat} (h : s.storable a = true) : (s.pageAt (pageOf a)).isSome = true := by
  obtain ⟨p, h1, -⟩ := storable_iff.mp h
  rw [h1]; rfl

/-- Where byte `k` of the access at `a` stands. -/
def placeOf (s : State) (a : Word) (k : Nat) : Place := s.place (s.byteAddr a k)

/-- The first `k` bytes of a byte-wise write: they are stored and noted, and giving the notes back undoes them (R78). -/
theorem writeStraddling_prefix (k : Nat) {s : State} {bs : List Byte} {a : Word} (ha : canonical s.w a) (hk : k ≤ bs.length)
    (h : ∀ j < k, s.storable (s.byteAddr a j) = true) :
    ∃ m hm notes, notes.length = k ∧
      writeStraddling bs a s =
        writeStraddling (bs.drop k) (wrap s.w (a + BitVec.ofNat 64 k)) (withBytes s m hm (notes ++ s.undo)) ∧
      StoredAt s (withBytes s m hm (notes ++ s.undo)) (placeOf s a) (bs.take k) ∧
      ∀ p, (restoreBytes notes (withBytes s m hm (notes ++ s.undo))).get p = s.get p := by
  induction k generalizing s bs a with
  | zero =>
    refine ⟨s.mem, s.hostMem, [], rfl, ?_, by rw [List.take_zero]; exact storedAt_nil .., fun p => rfl⟩
    rw [List.drop_zero, show a + BitVec.ofNat 64 0 = a from BitVec.add_zero a, show wrap s.w a = a from ha]
    rfl
  | succ k ih =>
    cases bs with
    | nil => simp at hk
    | cons b t =>
      simp only [List.length_cons] at hk
      have h0 := h 0 (by omega)
      rw [byteAddr_zero ha] at h0
      obtain ⟨m0, hm0, e0⟩ := putNoted_withBytes s (s.place a.toNat) b
      have ba : ∀ j, (s.putNoted (s.place a.toNat) b).byteAddr (wrap s.w (a + 1)) j = s.byteAddr a (j + 1) := fun j =>
        (byteAddr_congr (by rw [e0]; rfl) _ _).trans (byteAddr_succ s a j)
      have hw : (s.putNoted (s.place a.toNat) b).w = s.w := by rw [e0]; rfl
      have pg : (s.putNoted (s.place a.toNat) b).pages = s.pages := putNoted_pages ..
      obtain ⟨m, hm, notes, hl, e, st, un⟩ := ih (s := s.putNoted (s.place a.toNat) b) (bs := t) (a := wrap s.w (a + 1))
        (by rw [hw]; exact canonical_wrap _ _) (by omega) (fun j hj => by
          rw [ba]
          have := h (j + 1) (by omega)
          rw [e0]; exact this)
      have et : withBytes (s.putNoted (s.place a.toNat) b) m hm (notes ++ (s.putNoted (s.place a.toNat) b).undo) =
          withBytes s m hm ((notes ++ [(s.place a.toNat, s.get (s.place a.toNat))]) ++ s.undo) := by
        rw [putNoted_undo, List.append_assoc, e0]; rfl
      rw [et] at e st un
      refine ⟨m, hm, notes ++ [(s.place a.toNat, s.get (s.place a.toNat))], by simp [hl], ?_, ?_, fun p => ?_⟩
      · show (writePage storeNoted a.toNat [b] s).bind _ = _
        rw [writePage_one b h0, bind_pure, hw, e, hw, List.drop_succ_cons]
        congr 1
        apply BitVec.eq_of_toNat_eq
        rw [toNat_wrap_add, toNat_wrap_add, byteAddr_succ]
      · refine storedAt_cons (s' := s.putNoted (s.place a.toNat) b) (fun q => ?_) ?_
        · rw [get_putNoted, placeOf, byteAddr_zero ha]
        · have : placeOf (s.putNoted (s.place a.toNat) b) (wrap s.w (a + 1)) = fun k => placeOf s a (k + 1) := by
            funext j; rw [placeOf, ba, place_putNoted]; rfl
          rw [this] at st
          exact st
      · rw [restoreBytes_append]
        obtain ⟨m1, hm1, e1⟩ := restoreBytes_withBytes notes
          (withBytes s m hm ((notes ++ [(s.place a.toNat, s.get (s.place a.toNat))]) ++ s.undo))
        have bk : (restoreBytes notes
            (withBytes s m hm ((notes ++ [(s.place a.toNat, s.get (s.place a.toNat))]) ++ s.undo))).backed
              (s.place a.toNat) = true := by
          rw [backed_congr (s := s) (by rw [e1]; rfl)]
          exact backed_place (storable_mapped h0)
        simp only [restoreBytes, bk, if_true]
        rw [get_put, un, get_putNoted]
        split <;> simp_all

theorem restoreBytes_drawn (notes : List (Place × Byte)) (s : State) :
    restoreBytes notes s.drawn = (restoreBytes notes s).drawn := by
  induction notes generalizing s with
  | nil => rfl
  | cons c t ih =>
    obtain ⟨p, b⟩ := c
    have e1 : s.drawn.backed p = s.backed p := by cases p <;> rfl
    have e2 : s.drawn.put p b = (s.put p b).drawn := by cases p <;> rfl
    simp only [restoreBytes, e1, e2]
    split
    · exact ih _
    · exact ih _

/-- A write of storable bytes stores them and ends the reservation (R75, R76, R78, R79). -/
theorem memWrite_storable {s : State} {a : Word} {z : Size} (v : Word) (ha : canonical s.w a) (h : s.canStore a z = true) :
    ∃ m hm u, memWrite a z v s = .pure () (withBytes s m hm u).clearResv ∧
      StoredAt s (withBytes s m hm u) (placeOf s a) (leBytes z.bytes v) := by
  obtain ⟨hm, hs⟩ := canStore_iff.mp h
  have hl : (leBytes z.bytes v).length = z.bytes := length_leBytes ..
  unfold memWrite
  rw [if_neg (by simp [hm])]
  split
  · rename_i hp
    have h0 := hs 0 (size_pos z)
    rw [byteAddr_zero ha] at h0
    obtain ⟨p, h1, h2, h3, h4, -⟩ := storable_iff.mp h0
    have he : (s.params.execConstant && s.meetsExecSegment a.toNat (leBytes z.bytes v).length) = false := by
      cases hc : s.params.execConstant
      · rfl
      · cases hx : s.meetsExecSegment a.toNat (leBytes z.bytes v).length
        · rfl
        · obtain ⟨k, hk, e⟩ := meetsExec_iff.mp hx
          rw [hl] at hk
          obtain ⟨_, _, _, _, _, h5⟩ := storable_iff.mp (hs k hk)
          rw [byteAddr_inPage ha hp hk, hc, e] at h5
          simp at h5
    obtain ⟨m, hm', e⟩ := storeBytes_withBytes s a.toNat (leBytes z.bytes v)
    refine ⟨m, hm', s.undo, ?_, ?_⟩
    · rw [writePage_storable storeInPage h1 h2 h3 h4 he, bind_pure, storeInPage, e]
    · have st := storedAt_storeBytes s a.toNat (leBytes z.bytes v)
      rw [e] at st
      have pl : ∀ k < z.bytes, s.place (a.toNat + k) = placeOf s a k := fun k hk => by
        rw [placeOf, byteAddr_inPage ha hp hk]
      constructor
      · intro k hk hlast
        rw [hl] at hk hlast
        rw [← pl k hk]
        refine st.1 k (by rw [hl]; exact hk) fun j h5 h6 => ?_
        rw [hl] at h6
        show s.place (a.toNat + j) ≠ s.place (a.toNat + k)
        rw [pl j h6, pl k hk]
        exact hlast j h5 h6
      · intro q hq
        refine st.2 q fun k hk => ?_
        show q ≠ s.place (a.toNat + k)
        rw [pl k (by rw [hl] at hk; exact hk)]
        exact hq k hk
  · obtain ⟨m, hm', notes, -, e, st, -⟩ := writeStraddling_prefix (s := withBytes s s.mem s.hostMem []) z.bytes (bs := leBytes z.bytes v)
      ha (by rw [hl]) hs
    rw [List.take_of_length_le (by rw [hl])] at st
    rw [List.drop_of_length_le (by rw [hl])] at e
    refine ⟨m, hm', [], ?_, st⟩
    unfold writeNoted
    rw [show ({ s with undo := [] } : State) = withBytes s s.mem s.hostMem [] from rfl, e]
    rfl

/-- The store that faults at byte `k > 0` (R78, R410): the bytes before it all written or all unchanged. -/
theorem memWrite_partial {s : State} {a : Word} {z : Size} {v : Word} {k : Nat} (ha : canonical s.w a)
    (hm : misaligned a z s = false) (h0 : 0 < k) (hk : k < z.bytes) (h : ∀ j < k, s.storable (s.byteAddr a j) = true)
    (hs : (s.pageAt (pageOf (s.byteAddr a k)) = none ∧ s.params.pageFault = .fault) ∨
      ∃ p, s.pageAt (pageOf (s.byteAddr a k)) = some p ∧ p.attr.write = false ∧ p.variant ≠ .sharedRO) :
    ∃ m hm, memWrite a z v s = .trapped .protectionFault (s.byteAddr a k) (withBytes s m hm []).drawn ∧
      (StoredAt s (withBytes s m hm []) (placeOf s a) ((leBytes z.bytes v).take k) ∨
        ∀ p, (withBytes s m hm []).get p = s.get p) := by
  have hl : (leBytes z.bytes v).length = z.bytes := length_leBytes ..
  have hp : inOnePage a.toNat z.bytes = false := by
    cases hp : inOnePage a.toNat z.bytes
    · rfl
    · exfalso
      obtain ⟨p, h1, h2, h3, h4, -⟩ := storable_iff.mp (h 0 h0)
      have e : pageOf (s.byteAddr a k) = pageOf (s.byteAddr a 0) := by
        rw [byteAddr_zero ha, byteAddr_inPage ha hp hk]
        exact pageOf_same hp (by omega) (by omega)
      rw [e, h1] at hs
      simp [h2] at hs
  obtain ⟨m, hm', notes, hn, e, st, un⟩ := writeStraddling_prefix (s := withBytes s s.mem s.hostMem []) k (bs := leBytes z.bytes v)
    ha (by omega) h
  rw [show notes ++ (withBytes s s.mem s.hostMem []).undo = notes from List.append_nil _,
    show ∀ m hm u, withBytes (withBytes s s.mem s.hostMem []) m hm u = withBytes s m hm u from fun _ _ _ => rfl] at e st un
  have ek : (wrap s.w (a + BitVec.ofNat 64 k)).toNat = s.byteAddr a k := toNat_wrap_add s a k
  obtain ⟨b, t, ed⟩ : ∃ b t, (leBytes z.bytes v).drop k = b :: t := by
    cases hd : (leBytes z.bytes v).drop k with
    | nil => rw [List.drop_eq_nil_iff, hl] at hd; omega
    | cons b t => exact ⟨b, t, rfl⟩
  have stop : writePage storeNoted (s.byteAddr a k) [b] (withBytes s m hm' notes) =
      .trapped .protectionFault (s.byteAddr a k) (withBytes s m hm' notes) := by
    rcases hs with ⟨h1, h2⟩ | ⟨p, h1, h2, h3⟩
    · exact writePage_missing (s := withBytes s m hm' notes) _ _ h1 h2
    · exact writePage_noWrite (s := withBytes s m hm' notes) _ _ h1 h2 h3
  have e2 : writeStraddling (leBytes z.bytes v) a (withBytes s s.mem s.hostMem []) =
      .trapped .protectionFault (s.byteAddr a k) (withBytes s m hm' notes) := by
    rw [e, ed]
    unfold writeStraddling
    show (writePage storeNoted (wrap s.w (a + BitVec.ofNat 64 k)).toNat [b] (withBytes s m hm' notes)).bind _ = _
    rw [ek, stop, bind_trapped]
  unfold memWrite
  rw [if_neg (by simp [hm]), if_neg (by simp [hp])]
  unfold writeNoted
  rw [show ({ s with undo := [] } : State) = withBytes s s.mem s.hostMem [] from rfl, e2]
  dsimp only
  rw [bind_trapped]
  obtain ⟨c, l, rfl⟩ : ∃ c l, notes = c :: l := by
    cases notes with
    | nil => simp at hn; omega
    | cons c l => exact ⟨c, l, rfl⟩
  simp only [drawPartialStore, show (withBytes s m hm' (c :: l)).undo = c :: l from rfl]
  split
  · exact ⟨m, hm', rfl, .inl st⟩
  · obtain ⟨m1, hm1, e1⟩ := restoreBytes_withBytes (c :: l) (withBytes s m hm' (c :: l))
    refine ⟨m1, hm1, ?_, .inr fun p => ?_⟩
    · rw [restoreBytes_drawn, e1]; rfl
    · have := un p
      rw [e1] at this
      exact this

/-- A write stops at its first byte when that byte's page is missing or may not be written; nothing changes (R60, R76). -/
theorem memWrite_stops {s : State} {a : Word} {z : Size} {v : Word} (hm : misaligned a z s = false)
    (hs : (s.pageAt (pageOf a.toNat) = none ∧ s.params.pageFault = .fault) ∨
      ∃ p, s.pageAt (pageOf a.toNat) = some p ∧ p.attr.write = false ∧ p.variant ≠ .sharedRO) :
    ∃ u, memWrite a z v s = .trapped .protectionFault a.toNat { s with undo := u } := by
  have stop : ∀ store bs u, writePage store a.toNat bs { s with undo := u } =
      .trapped .protectionFault a.toNat { s with undo := u } := fun store bs u => by
    rcases hs with ⟨h1, h2⟩ | ⟨p, h1, h2, h3⟩
    · exact writePage_missing (s := { s with undo := u }) store bs h1 h2
    · exact writePage_noWrite (s := { s with undo := u }) store bs h1 h2 h3
  unfold memWrite
  rw [if_neg (by simp [hm])]
  split
  · exact ⟨s.undo, by rw [stop _ _ s.undo, bind_trapped]⟩
  · have : ∃ b t, leBytes z.bytes v = b :: t := by
      obtain ⟨n, hn⟩ : ∃ n, z.bytes = n + 1 := ⟨z.bytes - 1, by have := size_pos z; omega⟩
      rw [hn, leBytes, List.range_succ_eq_map]
      exact ⟨_, _, rfl⟩
    obtain ⟨b, t, e⟩ := this
    refine ⟨[], ?_⟩
    unfold writeNoted
    rw [e]
    unfold writeStraddling
    rw [stop]
    rfl

theorem memWrite_misaligned {s : State} {a : Word} {z : Size} {v : Word} (h : misaligned a z s = true) :
    memWrite a z v s = .trapped .misalignedAccess a.toNat s := by
  simp [memWrite, h]

end Sys2Proof.Laws
end

