-- ==== Sys2Proof/Laws/ExecKeeps.lean ====
section
/-! SUPPORT. Each instruction, the fetch, the boundary, the turns of the loop and of the host keep the invariant and the fields no
step changes. -/

namespace Sys2Proof.Laws

open Sys2Proof.Machine

theorem canonical_ea (s : State) {n : Nat} (r : Reg) (imm : BitVec n) : canonical s.w (s.ea r imm) := canonical_wrap _ _
theorem canonical_eaU (s : State) {n : Nat} (r : Reg) (imm : BitVec n) : canonical s.w (s.eaU r imm) := canonical_wrap _ _

theorem steps_execLui (rd : Reg) (imm : BitVec 20) {s : State} (h : s.wf) :
    KeepsOutcome (Stepped s) (execLui rd imm s) :=
  steps_writeBack _ _ _ (good_refl h)
theorem steps_execAuipc (rd : Reg) (imm : BitVec 20) {s : State} (h : s.wf) :
    KeepsOutcome (Stepped s) (execAuipc rd imm s) :=
  steps_writeBack _ _ _ (good_refl h)
theorem steps_execAddi (rd rs1 : Reg) (imm : BitVec 12) {s : State} (h : s.wf) :
    KeepsOutcome (Stepped s) (execAddi rd rs1 imm s) :=
  steps_writeBack _ _ _ (good_refl h)
theorem steps_execSlti (rd rs1 : Reg) (imm : BitVec 12) {s : State} (h : s.wf) :
    KeepsOutcome (Stepped s) (execSlti rd rs1 imm s) :=
  steps_writeBack _ _ _ (good_refl h)
theorem steps_execSltiu (rd rs1 : Reg) (imm : BitVec 12) {s : State} (h : s.wf) :
    KeepsOutcome (Stepped s) (execSltiu rd rs1 imm s) :=
  steps_writeBack _ _ _ (good_refl h)
theorem steps_execXori (rd rs1 : Reg) (imm : BitVec 12) {s : State} (h : s.wf) :
    KeepsOutcome (Stepped s) (execXori rd rs1 imm s) :=
  steps_writeBack _ _ _ (good_refl h)
theorem steps_execOri (rd rs1 : Reg) (imm : BitVec 12) {s : State} (h : s.wf) :
    KeepsOutcome (Stepped s) (execOri rd rs1 imm s) :=
  steps_writeBack _ _ _ (good_refl h)
theorem steps_execAndi (rd rs1 : Reg) (imm : BitVec 12) {s : State} (h : s.wf) :
    KeepsOutcome (Stepped s) (execAndi rd rs1 imm s) :=
  steps_writeBack _ _ _ (good_refl h)
theorem steps_execSlli (rd rs1 : Reg) (shamt : BitVec 6) {s : State} (h : s.wf) :
    KeepsOutcome (Stepped s) (execSlli rd rs1 shamt s) :=
  steps_guarded _ (good_refl h) fun _ => steps_writeBack _ _ _ (good_refl h)
theorem steps_execSrli (rd rs1 : Reg) (shamt : BitVec 6) {s : State} (h : s.wf) :
    KeepsOutcome (Stepped s) (execSrli rd rs1 shamt s) :=
  steps_guarded _ (good_refl h) fun _ => steps_writeBack _ _ _ (good_refl h)
theorem steps_execSrai (rd rs1 : Reg) (shamt : BitVec 6) {s : State} (h : s.wf) :
    KeepsOutcome (Stepped s) (execSrai rd rs1 shamt s) :=
  steps_guarded _ (good_refl h) fun _ => steps_writeBack _ _ _ (good_refl h)
theorem steps_execAdd (rd rs1 rs2 : Reg) {s : State} (h : s.wf) :
    KeepsOutcome (Stepped s) (execAdd rd rs1 rs2 s) :=
  steps_writeBack _ _ _ (good_refl h)
theorem steps_execSub (rd rs1 rs2 : Reg) {s : State} (h : s.wf) :
    KeepsOutcome (Stepped s) (execSub rd rs1 rs2 s) :=
  steps_writeBack _ _ _ (good_refl h)
theorem steps_execSll (rd rs1 rs2 : Reg) {s : State} (h : s.wf) :
    KeepsOutcome (Stepped s) (execSll rd rs1 rs2 s) :=
  steps_writeBack _ _ _ (good_refl h)
theorem steps_execSlt (rd rs1 rs2 : Reg) {s : State} (h : s.wf) :
    KeepsOutcome (Stepped s) (execSlt rd rs1 rs2 s) :=
  steps_writeBack _ _ _ (good_refl h)
theorem steps_execSltu (rd rs1 rs2 : Reg) {s : State} (h : s.wf) :
    KeepsOutcome (Stepped s) (execSltu rd rs1 rs2 s) :=
  steps_writeBack _ _ _ (good_refl h)
theorem steps_execXor (rd rs1 rs2 : Reg) {s : State} (h : s.wf) :
    KeepsOutcome (Stepped s) (execXor rd rs1 rs2 s) :=
  steps_writeBack _ _ _ (good_refl h)
theorem steps_execSrl (rd rs1 rs2 : Reg) {s : State} (h : s.wf) :
    KeepsOutcome (Stepped s) (execSrl rd rs1 rs2 s) :=
  steps_writeBack _ _ _ (good_refl h)
theorem steps_execSra (rd rs1 rs2 : Reg) {s : State} (h : s.wf) :
    KeepsOutcome (Stepped s) (execSra rd rs1 rs2 s) :=
  steps_writeBack _ _ _ (good_refl h)
theorem steps_execOr (rd rs1 rs2 : Reg) {s : State} (h : s.wf) :
    KeepsOutcome (Stepped s) (execOr rd rs1 rs2 s) :=
  steps_writeBack _ _ _ (good_refl h)
theorem steps_execAnd (rd rs1 rs2 : Reg) {s : State} (h : s.wf) :
    KeepsOutcome (Stepped s) (execAnd rd rs1 rs2 s) :=
  steps_writeBack _ _ _ (good_refl h)
theorem steps_execAddiw (rd rs1 : Reg) (imm : BitVec 12) {s : State} (h : s.wf) :
    KeepsOutcome (Stepped s) (execAddiw rd rs1 imm s) :=
  steps_guarded _ (good_refl h) fun _ => steps_writeBack _ _ _ (good_refl h)
theorem steps_execSlliw (rd rs1 : Reg) (shamt : BitVec 5) {s : State} (h : s.wf) :
    KeepsOutcome (Stepped s) (execSlliw rd rs1 shamt s) :=
  steps_guarded _ (good_refl h) fun _ => steps_writeBack _ _ _ (good_refl h)
theorem steps_execSrliw (rd rs1 : Reg) (shamt : BitVec 5) {s : State} (h : s.wf) :
    KeepsOutcome (Stepped s) (execSrliw rd rs1 shamt s) :=
  steps_guarded _ (good_refl h) fun _ => steps_writeBack _ _ _ (good_refl h)
theorem steps_execSraiw (rd rs1 : Reg) (shamt : BitVec 5) {s : State} (h : s.wf) :
    KeepsOutcome (Stepped s) (execSraiw rd rs1 shamt s) :=
  steps_guarded _ (good_refl h) fun _ => steps_writeBack _ _ _ (good_refl h)
theorem steps_execAddw (rd rs1 rs2 : Reg) {s : State} (h : s.wf) :
    KeepsOutcome (Stepped s) (execAddw rd rs1 rs2 s) :=
  steps_guarded _ (good_refl h) fun _ => steps_writeBack _ _ _ (good_refl h)
theorem steps_execSubw (rd rs1 rs2 : Reg) {s : State} (h : s.wf) :
    KeepsOutcome (Stepped s) (execSubw rd rs1 rs2 s) :=
  steps_guarded _ (good_refl h) fun _ => steps_writeBack _ _ _ (good_refl h)
theorem steps_execSllw (rd rs1 rs2 : Reg) {s : State} (h : s.wf) :
    KeepsOutcome (Stepped s) (execSllw rd rs1 rs2 s) :=
  steps_guarded _ (good_refl h) fun _ => steps_writeBack _ _ _ (good_refl h)
theorem steps_execSrlw (rd rs1 rs2 : Reg) {s : State} (h : s.wf) :
    KeepsOutcome (Stepped s) (execSrlw rd rs1 rs2 s) :=
  steps_guarded _ (good_refl h) fun _ => steps_writeBack _ _ _ (good_refl h)
theorem steps_execSraw (rd rs1 rs2 : Reg) {s : State} (h : s.wf) :
    KeepsOutcome (Stepped s) (execSraw rd rs1 rs2 s) :=
  steps_guarded _ (good_refl h) fun _ => steps_writeBack _ _ _ (good_refl h)
theorem steps_execJal (rd : Reg) (offset : BitVec 21) {s : State} (h : s.wf) :
    KeepsOutcome (Stepped s) (execJal rd offset s) :=
  steps_jumpRelative _ _ _ (good_refl h)
theorem steps_execJalr (rd rs1 : Reg) (imm : BitVec 12) {s : State} (h : s.wf) :
    KeepsOutcome (Stepped s) (execJalr rd rs1 imm s) :=
  steps_jumpRegister _ _ _ _ (good_refl h)
theorem steps_execBeq (rs1 rs2 : Reg) (offset : BitVec 13) {s : State} (h : s.wf) :
    KeepsOutcome (Stepped s) (execBeq rs1 rs2 offset s) :=
  steps_branchIf _ _ _ (good_refl h)
theorem steps_execBne (rs1 rs2 : Reg) (offset : BitVec 13) {s : State} (h : s.wf) :
    KeepsOutcome (Stepped s) (execBne rs1 rs2 offset s) :=
  steps_branchIf _ _ _ (good_refl h)
theorem steps_execBlt (rs1 rs2 : Reg) (offset : BitVec 13) {s : State} (h : s.wf) :
    KeepsOutcome (Stepped s) (execBlt rs1 rs2 offset s) :=
  steps_branchIf _ _ _ (good_refl h)
theorem steps_execBge (rs1 rs2 : Reg) (offset : BitVec 13) {s : State} (h : s.wf) :
    KeepsOutcome (Stepped s) (execBge rs1 rs2 offset s) :=
  steps_branchIf _ _ _ (good_refl h)
theorem steps_execBltu (rs1 rs2 : Reg) (offset : BitVec 13) {s : State} (h : s.wf) :
    KeepsOutcome (Stepped s) (execBltu rs1 rs2 offset s) :=
  steps_branchIf _ _ _ (good_refl h)
theorem steps_execBgeu (rs1 rs2 : Reg) (offset : BitVec 13) {s : State} (h : s.wf) :
    KeepsOutcome (Stepped s) (execBgeu rs1 rs2 offset s) :=
  steps_branchIf _ _ _ (good_refl h)
theorem steps_execLb (rd rs1 : Reg) (imm : BitVec 12) {s : State} (h : s.wf) :
    KeepsOutcome (Stepped s) (execLb rd rs1 imm s) :=
  steps_loadFrom _ _ _ _ _ (good_refl h) (canonical_ea ..)
theorem steps_execLh (rd rs1 : Reg) (imm : BitVec 12) {s : State} (h : s.wf) :
    KeepsOutcome (Stepped s) (execLh rd rs1 imm s) :=
  steps_loadFrom _ _ _ _ _ (good_refl h) (canonical_ea ..)
theorem steps_execLw (rd rs1 : Reg) (imm : BitVec 12) {s : State} (h : s.wf) :
    KeepsOutcome (Stepped s) (execLw rd rs1 imm s) :=
  steps_loadFrom _ _ _ _ _ (good_refl h) (canonical_ea ..)
theorem steps_execLd (rd rs1 : Reg) (imm : BitVec 12) {s : State} (h : s.wf) :
    KeepsOutcome (Stepped s) (execLd rd rs1 imm s) :=
  steps_guarded _ (good_refl h) fun _ => steps_loadFrom _ _ _ _ _ (good_refl h) (canonical_ea ..)
theorem steps_execLbu (rd rs1 : Reg) (imm : BitVec 12) {s : State} (h : s.wf) :
    KeepsOutcome (Stepped s) (execLbu rd rs1 imm s) :=
  steps_loadFrom _ _ _ _ _ (good_refl h) (canonical_ea ..)
theorem steps_execLhu (rd rs1 : Reg) (imm : BitVec 12) {s : State} (h : s.wf) :
    KeepsOutcome (Stepped s) (execLhu rd rs1 imm s) :=
  steps_loadFrom _ _ _ _ _ (good_refl h) (canonical_ea ..)
theorem steps_execLwu (rd rs1 : Reg) (imm : BitVec 12) {s : State} (h : s.wf) :
    KeepsOutcome (Stepped s) (execLwu rd rs1 imm s) :=
  steps_guarded _ (good_refl h) fun _ => steps_loadFrom _ _ _ _ _ (good_refl h) (canonical_ea ..)
theorem steps_execSb (rs1 rs2 : Reg) (imm : BitVec 12) {s : State} (h : s.wf) :
    KeepsOutcome (Stepped s) (execSb rs1 rs2 imm s) :=
  steps_storeTo _ _ _ _ (good_refl h) (canonical_ea ..)
theorem steps_execSh (rs1 rs2 : Reg) (imm : BitVec 12) {s : State} (h : s.wf) :
    KeepsOutcome (Stepped s) (execSh rs1 rs2 imm s) :=
  steps_storeTo _ _ _ _ (good_refl h) (canonical_ea ..)
theorem steps_execSw (rs1 rs2 : Reg) (imm : BitVec 12) {s : State} (h : s.wf) :
    KeepsOutcome (Stepped s) (execSw rs1 rs2 imm s) :=
  steps_storeTo _ _ _ _ (good_refl h) (canonical_ea ..)
theorem steps_execSd (rs1 rs2 : Reg) (imm : BitVec 12) {s : State} (h : s.wf) :
    KeepsOutcome (Stepped s) (execSd rs1 rs2 imm s) :=
  steps_guarded _ (good_refl h) fun _ => steps_storeTo _ _ _ _ (good_refl h) (canonical_ea ..)
theorem steps_execLrW (rd rs1 : Reg) (aq rl : Bool) {s : State} (h : s.wf) :
    KeepsOutcome (Stepped s) (execLrW rd rs1 aq rl s) :=
  steps_guarded _ (good_refl h) fun hw => steps_finish _ (keeps_loadReserved _ _ _ h (by
    change (Needs.met s.params .atomic && true) = true at hw; simpa [Needs.met] using hw) (by simp))
theorem steps_execScW (rd rs1 rs2 : Reg) (aq rl : Bool) {s : State} (h : s.wf) :
    KeepsOutcome (Stepped s) (execScW rd rs1 rs2 aq rl s) :=
  steps_guarded _ (good_refl h) fun _ => steps_finish _ (keeps_storeConditional _ _ _ _ h)
theorem steps_execAmoswapW (rd rs1 rs2 : Reg) (aq rl : Bool) {s : State} (h : s.wf) :
    KeepsOutcome (Stepped s) (execAmoswapW rd rs1 rs2 aq rl s) :=
  steps_guarded _ (good_refl h) fun _ => steps_finish _ (keeps_atomicOp _ _ _ _ _ h)
theorem steps_execAmoaddW (rd rs1 rs2 : Reg) (aq rl : Bool) {s : State} (h : s.wf) :
    KeepsOutcome (Stepped s) (execAmoaddW rd rs1 rs2 aq rl s) :=
  steps_guarded _ (good_refl h) fun _ => steps_finish _ (keeps_atomicOp _ _ _ _ _ h)
theorem steps_execAmoxorW (rd rs1 rs2 : Reg) (aq rl : Bool) {s : State} (h : s.wf) :
    KeepsOutcome (Stepped s) (execAmoxorW rd rs1 rs2 aq rl s) :=
  steps_guarded _ (good_refl h) fun _ => steps_finish _ (keeps_atomicOp _ _ _ _ _ h)
theorem steps_execAmoandW (rd rs1 rs2 : Reg) (aq rl : Bool) {s : State} (h : s.wf) :
    KeepsOutcome (Stepped s) (execAmoandW rd rs1 rs2 aq rl s) :=
  steps_guarded _ (good_refl h) fun _ => steps_finish _ (keeps_atomicOp _ _ _ _ _ h)
theorem steps_execAmoorW (rd rs1 rs2 : Reg) (aq rl : Bool) {s : State} (h : s.wf) :
    KeepsOutcome (Stepped s) (execAmoorW rd rs1 rs2 aq rl s) :=
  steps_guarded _ (good_refl h) fun _ => steps_finish _ (keeps_atomicOp _ _ _ _ _ h)
theorem steps_execAmominW (rd rs1 rs2 : Reg) (aq rl : Bool) {s : State} (h : s.wf) :
    KeepsOutcome (Stepped s) (execAmominW rd rs1 rs2 aq rl s) :=
  steps_guarded _ (good_refl h) fun _ => steps_finish _ (keeps_atomicOp _ _ _ _ _ h)
theorem steps_execAmomaxW (rd rs1 rs2 : Reg) (aq rl : Bool) {s : State} (h : s.wf) :
    KeepsOutcome (Stepped s) (execAmomaxW rd rs1 rs2 aq rl s) :=
  steps_guarded _ (good_refl h) fun _ => steps_finish _ (keeps_atomicOp _ _ _ _ _ h)
theorem steps_execAmominuW (rd rs1 rs2 : Reg) (aq rl : Bool) {s : State} (h : s.wf) :
    KeepsOutcome (Stepped s) (execAmominuW rd rs1 rs2 aq rl s) :=
  steps_guarded _ (good_refl h) fun _ => steps_finish _ (keeps_atomicOp _ _ _ _ _ h)
theorem steps_execAmomaxuW (rd rs1 rs2 : Reg) (aq rl : Bool) {s : State} (h : s.wf) :
    KeepsOutcome (Stepped s) (execAmomaxuW rd rs1 rs2 aq rl s) :=
  steps_guarded _ (good_refl h) fun _ => steps_finish _ (keeps_atomicOp _ _ _ _ _ h)
theorem steps_execLrD (rd rs1 : Reg) (aq rl : Bool) {s : State} (h : s.wf) :
    KeepsOutcome (Stepped s) (execLrD rd rs1 aq rl s) :=
  steps_guarded _ (good_refl h) fun hw => by
    change (Needs.met s.params .atomic64 && true) = true at hw
    simp only [Needs.met, Bool.and_true, Bool.and_eq_true, beq_iff_eq] at hw
    exact steps_finish _ (keeps_loadReserved _ _ _ h hw.1 fun _ => hw.2)
theorem steps_execScD (rd rs1 rs2 : Reg) (aq rl : Bool) {s : State} (h : s.wf) :
    KeepsOutcome (Stepped s) (execScD rd rs1 rs2 aq rl s) :=
  steps_guarded _ (good_refl h) fun _ => steps_finish _ (keeps_storeConditional _ _ _ _ h)
theorem steps_execAmoswapD (rd rs1 rs2 : Reg) (aq rl : Bool) {s : State} (h : s.wf) :
    KeepsOutcome (Stepped s) (execAmoswapD rd rs1 rs2 aq rl s) :=
  steps_guarded _ (good_refl h) fun _ => steps_finish _ (keeps_atomicOp _ _ _ _ _ h)
theorem steps_execAmoaddD (rd rs1 rs2 : Reg) (aq rl : Bool) {s : State} (h : s.wf) :
    KeepsOutcome (Stepped s) (execAmoaddD rd rs1 rs2 aq rl s) :=
  steps_guarded _ (good_refl h) fun _ => steps_finish _ (keeps_atomicOp _ _ _ _ _ h)
theorem steps_execAmoxorD (rd rs1 rs2 : Reg) (aq rl : Bool) {s : State} (h : s.wf) :
    KeepsOutcome (Stepped s) (execAmoxorD rd rs1 rs2 aq rl s) :=
  steps_guarded _ (good_refl h) fun _ => steps_finish _ (keeps_atomicOp _ _ _ _ _ h)
theorem steps_execAmoandD (rd rs1 rs2 : Reg) (aq rl : Bool) {s : State} (h : s.wf) :
    KeepsOutcome (Stepped s) (execAmoandD rd rs1 rs2 aq rl s) :=
  steps_guarded _ (good_refl h) fun _ => steps_finish _ (keeps_atomicOp _ _ _ _ _ h)
theorem steps_execAmoorD (rd rs1 rs2 : Reg) (aq rl : Bool) {s : State} (h : s.wf) :
    KeepsOutcome (Stepped s) (execAmoorD rd rs1 rs2 aq rl s) :=
  steps_guarded _ (good_refl h) fun _ => steps_finish _ (keeps_atomicOp _ _ _ _ _ h)
theorem steps_execAmominD (rd rs1 rs2 : Reg) (aq rl : Bool) {s : State} (h : s.wf) :
    KeepsOutcome (Stepped s) (execAmominD rd rs1 rs2 aq rl s) :=
  steps_guarded _ (good_refl h) fun _ => steps_finish _ (keeps_atomicOp _ _ _ _ _ h)
theorem steps_execAmomaxD (rd rs1 rs2 : Reg) (aq rl : Bool) {s : State} (h : s.wf) :
    KeepsOutcome (Stepped s) (execAmomaxD rd rs1 rs2 aq rl s) :=
  steps_guarded _ (good_refl h) fun _ => steps_finish _ (keeps_atomicOp _ _ _ _ _ h)
theorem steps_execAmominuD (rd rs1 rs2 : Reg) (aq rl : Bool) {s : State} (h : s.wf) :
    KeepsOutcome (Stepped s) (execAmominuD rd rs1 rs2 aq rl s) :=
  steps_guarded _ (good_refl h) fun _ => steps_finish _ (keeps_atomicOp _ _ _ _ _ h)
theorem steps_execAmomaxuD (rd rs1 rs2 : Reg) (aq rl : Bool) {s : State} (h : s.wf) :
    KeepsOutcome (Stepped s) (execAmomaxuD rd rs1 rs2 aq rl s) :=
  steps_guarded _ (good_refl h) fun _ => steps_finish _ (keeps_atomicOp _ _ _ _ _ h)
theorem steps_execFence (_fm _pred _succ : BitVec 4) (_rs1 _rd : Reg) {s : State} (h : s.wf) :
    KeepsOutcome (Stepped s) (execFence _fm _pred _succ _rs1 _rd s) :=
  steps_retire _ _ (good_refl h)
theorem steps_execEcall {s : State} (h : s.wf) :
    KeepsOutcome (Stepped s) (execEcall s) :=
  steps_finish _ (keeps_systemCall _ h)
theorem steps_execEbreak {s : State} (h : s.wf) :
    KeepsOutcome (Stepped s) (execEbreak s) :=
  steps_finish _ (keeps_systemCall _ h)
theorem steps_execFenceI (imm : BitVec 12) (rs1 rd : Reg) {s : State} (h : s.wf) :
    KeepsOutcome (Stepped s) (execFenceI imm rs1 rd s) :=
  steps_unimplemented _ (good_refl h)
theorem steps_execMulDiv (funct3 : BitVec 3) (rd rs1 rs2 : Reg) {s : State} (h : s.wf) :
    KeepsOutcome (Stepped s) (execMulDiv funct3 rd rs1 rs2 s) :=
  steps_unimplemented _ (good_refl h)
theorem steps_execMulDivW (funct3 : BitVec 3) (rd rs1 rs2 : Reg) {s : State} (h : s.wf) :
    KeepsOutcome (Stepped s) (execMulDivW funct3 rd rs1 rs2 s) :=
  steps_unimplemented _ (good_refl h)
theorem steps_execCsrrw (csr : BitVec 12) (src rd : Reg) {s : State} (h : s.wf) :
    KeepsOutcome (Stepped s) (execCsrrw csr src rd s) :=
  steps_unimplemented _ (good_refl h)
theorem steps_execCsrrs (csr : BitVec 12) (src rd : Reg) {s : State} (h : s.wf) :
    KeepsOutcome (Stepped s) (execCsrrs csr src rd s) :=
  steps_unimplemented _ (good_refl h)
theorem steps_execCsrrc (csr : BitVec 12) (src rd : Reg) {s : State} (h : s.wf) :
    KeepsOutcome (Stepped s) (execCsrrc csr src rd s) :=
  steps_unimplemented _ (good_refl h)
theorem steps_execCsrrwi (csr : BitVec 12) (src rd : Reg) {s : State} (h : s.wf) :
    KeepsOutcome (Stepped s) (execCsrrwi csr src rd s) :=
  steps_unimplemented _ (good_refl h)
theorem steps_execCsrrsi (csr : BitVec 12) (src rd : Reg) {s : State} (h : s.wf) :
    KeepsOutcome (Stepped s) (execCsrrsi csr src rd s) :=
  steps_unimplemented _ (good_refl h)
theorem steps_execCsrrci (csr : BitVec 12) (src rd : Reg) {s : State} (h : s.wf) :
    KeepsOutcome (Stepped s) (execCsrrci csr src rd s) :=
  steps_unimplemented _ (good_refl h)
theorem steps_execSystemFunct3_4 (imm : BitVec 12) (rs1 rd : Reg) {s : State} (h : s.wf) :
    KeepsOutcome (Stepped s) (execSystemFunct3_4 imm rs1 rd s) :=
  steps_unimplemented _ (good_refl h)
theorem steps_execUret {s : State} (h : s.wf) :
    KeepsOutcome (Stepped s) (execUret s) :=
  steps_unimplemented _ (good_refl h)
theorem steps_execSret {s : State} (h : s.wf) :
    KeepsOutcome (Stepped s) (execSret s) :=
  steps_unimplemented _ (good_refl h)
theorem steps_execMret {s : State} (h : s.wf) :
    KeepsOutcome (Stepped s) (execMret s) :=
  steps_unimplemented _ (good_refl h)
theorem steps_execWfi {s : State} (h : s.wf) :
    KeepsOutcome (Stepped s) (execWfi s) :=
  steps_unimplemented _ (good_refl h)
theorem steps_execSfenceVma (rs1 rs2 : Reg) {s : State} (h : s.wf) :
    KeepsOutcome (Stepped s) (execSfenceVma rs1 rs2 s) :=
  steps_unimplemented _ (good_refl h)
theorem steps_execLoadFp (high : BitVec 25) {s : State} (h : s.wf) :
    KeepsOutcome (Stepped s) (execLoadFp high s) :=
  steps_unimplemented _ (good_refl h)
theorem steps_execStoreFp (high : BitVec 25) {s : State} (h : s.wf) :
    KeepsOutcome (Stepped s) (execStoreFp high s) :=
  steps_unimplemented _ (good_refl h)
theorem steps_execFmadd (high : BitVec 25) {s : State} (h : s.wf) :
    KeepsOutcome (Stepped s) (execFmadd high s) :=
  steps_unimplemented _ (good_refl h)
theorem steps_execFmsub (high : BitVec 25) {s : State} (h : s.wf) :
    KeepsOutcome (Stepped s) (execFmsub high s) :=
  steps_unimplemented _ (good_refl h)
theorem steps_execFnmsub (high : BitVec 25) {s : State} (h : s.wf) :
    KeepsOutcome (Stepped s) (execFnmsub high s) :=
  steps_unimplemented _ (good_refl h)
theorem steps_execFnmadd (high : BitVec 25) {s : State} (h : s.wf) :
    KeepsOutcome (Stepped s) (execFnmadd high s) :=
  steps_unimplemented _ (good_refl h)
theorem steps_execOpFp (high : BitVec 25) {s : State} (h : s.wf) :
    KeepsOutcome (Stepped s) (execOpFp high s) :=
  steps_unimplemented _ (good_refl h)
theorem steps_execCFld (mid : BitVec 11) {s : State} (h : s.wf) :
    KeepsOutcome (Stepped s) (execCFld mid s) :=
  steps_unimplemented _ (good_refl h)
theorem steps_execCFsd (mid : BitVec 11) {s : State} (h : s.wf) :
    KeepsOutcome (Stepped s) (execCFsd mid s) :=
  steps_unimplemented _ (good_refl h)
theorem steps_execCFldsp (mid : BitVec 11) {s : State} (h : s.wf) :
    KeepsOutcome (Stepped s) (execCFldsp mid s) :=
  steps_unimplemented _ (good_refl h)
theorem steps_execCFsdsp (mid : BitVec 11) {s : State} (h : s.wf) :
    KeepsOutcome (Stepped s) (execCFsdsp mid s) :=
  steps_unimplemented _ (good_refl h)
theorem steps_execCFlw (mid : BitVec 11) {s : State} (h : s.wf) :
    KeepsOutcome (Stepped s) (execCFlw mid s) :=
  steps_unimplemented _ (good_refl h)
theorem steps_execCFsw (mid : BitVec 11) {s : State} (h : s.wf) :
    KeepsOutcome (Stepped s) (execCFsw mid s) :=
  steps_unimplemented _ (good_refl h)
theorem steps_execCFlwsp (mid : BitVec 11) {s : State} (h : s.wf) :
    KeepsOutcome (Stepped s) (execCFlwsp mid s) :=
  steps_unimplemented _ (good_refl h)
theorem steps_execCFswsp (mid : BitVec 11) {s : State} (h : s.wf) :
    KeepsOutcome (Stepped s) (execCFswsp mid s) :=
  steps_unimplemented _ (good_refl h)
theorem steps_execCReserved00_4 (mid : BitVec 11) {s : State} (h : s.wf) :
    KeepsOutcome (Stepped s) (execCReserved00_4 mid s) :=
  steps_unimplemented _ (good_refl h)
theorem steps_execCIllegal {s : State} (h : s.wf) :
    KeepsOutcome (Stepped s) (execCIllegal s) :=
  steps_unimplemented _ (good_refl h)
theorem steps_execCAddi4spn (rd : Reg3) (imm : BitVec 10) {s : State} (h : s.wf) :
    KeepsOutcome (Stepped s) (execCAddi4spn rd imm s) :=
  steps_guarded _ (good_refl h) fun _ => steps_writeBack _ _ _ (good_refl h)
theorem steps_execCLw (rd rs1 : Reg3) (imm : BitVec 7) {s : State} (h : s.wf) :
    KeepsOutcome (Stepped s) (execCLw rd rs1 imm s) :=
  steps_guarded _ (good_refl h) fun _ => steps_loadFrom _ _ _ _ _ (good_refl h) (canonical_eaU ..)
theorem steps_execCLd (rd rs1 : Reg3) (imm : BitVec 8) {s : State} (h : s.wf) :
    KeepsOutcome (Stepped s) (execCLd rd rs1 imm s) :=
  steps_guarded _ (good_refl h) fun _ => steps_loadFrom _ _ _ _ _ (good_refl h) (canonical_eaU ..)
theorem steps_execCSw (rs1 rs2 : Reg3) (imm : BitVec 7) {s : State} (h : s.wf) :
    KeepsOutcome (Stepped s) (execCSw rs1 rs2 imm s) :=
  steps_guarded _ (good_refl h) fun _ => steps_storeTo _ _ _ _ (good_refl h) (canonical_eaU ..)
theorem steps_execCSd (rs1 rs2 : Reg3) (imm : BitVec 8) {s : State} (h : s.wf) :
    KeepsOutcome (Stepped s) (execCSd rs1 rs2 imm s) :=
  steps_guarded _ (good_refl h) fun _ => steps_storeTo _ _ _ _ (good_refl h) (canonical_eaU ..)
theorem steps_execCNop {s : State} (h : s.wf) :
    KeepsOutcome (Stepped s) (execCNop s) :=
  steps_guarded _ (good_refl h) fun _ => steps_retire _ _ (good_refl h)
theorem steps_execCAddi (rd : Reg) (imm : BitVec 6) {s : State} (h : s.wf) :
    KeepsOutcome (Stepped s) (execCAddi rd imm s) :=
  steps_guarded _ (good_refl h) fun _ => steps_writeBack _ _ _ (good_refl h)
theorem steps_execCJal (offset : BitVec 12) {s : State} (h : s.wf) :
    KeepsOutcome (Stepped s) (execCJal offset s) :=
  steps_guarded _ (good_refl h) fun _ => steps_jumpRelative _ _ _ (good_refl h)
theorem steps_execCAddiw (rd : Reg) (imm : BitVec 6) {s : State} (h : s.wf) :
    KeepsOutcome (Stepped s) (execCAddiw rd imm s) :=
  steps_guarded _ (good_refl h) fun _ => steps_writeBack _ _ _ (good_refl h)
theorem steps_execCLi (rd : Reg) (imm : BitVec 6) {s : State} (h : s.wf) :
    KeepsOutcome (Stepped s) (execCLi rd imm s) :=
  steps_guarded _ (good_refl h) fun _ => steps_writeBack _ _ _ (good_refl h)
theorem steps_execCAddi16sp (imm : BitVec 10) {s : State} (h : s.wf) :
    KeepsOutcome (Stepped s) (execCAddi16sp imm s) :=
  steps_guarded _ (good_refl h) fun _ => steps_writeBack _ _ _ (good_refl h)
theorem steps_execCLui (rd : Reg) (imm : BitVec 6) {s : State} (h : s.wf) :
    KeepsOutcome (Stepped s) (execCLui rd imm s) :=
  steps_guarded _ (good_refl h) fun _ => steps_writeBack _ _ _ (good_refl h)
theorem steps_execCSrli (rd : Reg3) (shamt : BitVec 6) {s : State} (h : s.wf) :
    KeepsOutcome (Stepped s) (execCSrli rd shamt s) :=
  steps_guarded _ (good_refl h) fun _ => steps_writeBack _ _ _ (good_refl h)
theorem steps_execCSrai (rd : Reg3) (shamt : BitVec 6) {s : State} (h : s.wf) :
    KeepsOutcome (Stepped s) (execCSrai rd shamt s) :=
  steps_guarded _ (good_refl h) fun _ => steps_writeBack _ _ _ (good_refl h)
theorem steps_execCAndi (rd : Reg3) (imm : BitVec 6) {s : State} (h : s.wf) :
    KeepsOutcome (Stepped s) (execCAndi rd imm s) :=
  steps_guarded _ (good_refl h) fun _ => steps_writeBack _ _ _ (good_refl h)
theorem steps_execCSub (rd rs2 : Reg3) {s : State} (h : s.wf) :
    KeepsOutcome (Stepped s) (execCSub rd rs2 s) :=
  steps_guarded _ (good_refl h) fun _ => steps_writeBack _ _ _ (good_refl h)
theorem steps_execCXor (rd rs2 : Reg3) {s : State} (h : s.wf) :
    KeepsOutcome (Stepped s) (execCXor rd rs2 s) :=
  steps_guarded _ (good_refl h) fun _ => steps_writeBack _ _ _ (good_refl h)
theorem steps_execCOr (rd rs2 : Reg3) {s : State} (h : s.wf) :
    KeepsOutcome (Stepped s) (execCOr rd rs2 s) :=
  steps_guarded _ (good_refl h) fun _ => steps_writeBack _ _ _ (good_refl h)
theorem steps_execCAnd (rd rs2 : Reg3) {s : State} (h : s.wf) :
    KeepsOutcome (Stepped s) (execCAnd rd rs2 s) :=
  steps_guarded _ (good_refl h) fun _ => steps_writeBack _ _ _ (good_refl h)
theorem steps_execCSubw (rd rs2 : Reg3) {s : State} (h : s.wf) :
    KeepsOutcome (Stepped s) (execCSubw rd rs2 s) :=
  steps_guarded _ (good_refl h) fun _ => steps_writeBack _ _ _ (good_refl h)
theorem steps_execCAddw (rd rs2 : Reg3) {s : State} (h : s.wf) :
    KeepsOutcome (Stepped s) (execCAddw rd rs2 s) :=
  steps_guarded _ (good_refl h) fun _ => steps_writeBack _ _ _ (good_refl h)
theorem steps_execCJ (offset : BitVec 12) {s : State} (h : s.wf) :
    KeepsOutcome (Stepped s) (execCJ offset s) :=
  steps_guarded _ (good_refl h) fun _ => steps_jumpRelative _ _ _ (good_refl h)
theorem steps_execCBeqz (rs1 : Reg3) (offset : BitVec 9) {s : State} (h : s.wf) :
    KeepsOutcome (Stepped s) (execCBeqz rs1 offset s) :=
  steps_guarded _ (good_refl h) fun _ => steps_branchIf _ _ _ (good_refl h)
theorem steps_execCBnez (rs1 : Reg3) (offset : BitVec 9) {s : State} (h : s.wf) :
    KeepsOutcome (Stepped s) (execCBnez rs1 offset s) :=
  steps_guarded _ (good_refl h) fun _ => steps_branchIf _ _ _ (good_refl h)
theorem steps_execCSlli (rd : Reg) (shamt : BitVec 6) {s : State} (h : s.wf) :
    KeepsOutcome (Stepped s) (execCSlli rd shamt s) :=
  steps_guarded _ (good_refl h) fun _ => steps_writeBack _ _ _ (good_refl h)
theorem steps_execCLwsp (rd : Reg) (imm : BitVec 8) {s : State} (h : s.wf) :
    KeepsOutcome (Stepped s) (execCLwsp rd imm s) :=
  steps_guarded _ (good_refl h) fun _ => steps_loadFrom _ _ _ _ _ (good_refl h) (canonical_eaU ..)
theorem steps_execCLdsp (rd : Reg) (imm : BitVec 9) {s : State} (h : s.wf) :
    KeepsOutcome (Stepped s) (execCLdsp rd imm s) :=
  steps_guarded _ (good_refl h) fun _ => steps_loadFrom _ _ _ _ _ (good_refl h) (canonical_eaU ..)
theorem steps_execCJr (rs1 : Reg) {s : State} (h : s.wf) :
    KeepsOutcome (Stepped s) (execCJr rs1 s) :=
  steps_guarded _ (good_refl h) fun _ => steps_jumpRegister _ _ _ _ (good_refl h)
theorem steps_execCMv (rd rs2 : Reg) {s : State} (h : s.wf) :
    KeepsOutcome (Stepped s) (execCMv rd rs2 s) :=
  steps_guarded _ (good_refl h) fun _ => steps_writeBack _ _ _ (good_refl h)
theorem steps_execCEbreak {s : State} (h : s.wf) :
    KeepsOutcome (Stepped s) (execCEbreak s) :=
  steps_guarded _ (good_refl h) fun _ => steps_finish _ (keeps_systemCall _ h)
theorem steps_execCJalr (rs1 : Reg) {s : State} (h : s.wf) :
    KeepsOutcome (Stepped s) (execCJalr rs1 s) :=
  steps_guarded _ (good_refl h) fun _ => steps_jumpRegister _ _ _ _ (good_refl h)
theorem steps_execCAdd (rd rs2 : Reg) {s : State} (h : s.wf) :
    KeepsOutcome (Stepped s) (execCAdd rd rs2 s) :=
  steps_guarded _ (good_refl h) fun _ => steps_writeBack _ _ _ (good_refl h)
theorem steps_execCSwsp (rs2 : Reg) (imm : BitVec 8) {s : State} (h : s.wf) :
    KeepsOutcome (Stepped s) (execCSwsp rs2 imm s) :=
  steps_guarded _ (good_refl h) fun _ => steps_storeTo _ _ _ _ (good_refl h) (canonical_eaU ..)
theorem steps_execCSdsp (rs2 : Reg) (imm : BitVec 9) {s : State} (h : s.wf) :
    KeepsOutcome (Stepped s) (execCSdsp rs2 imm s) :=
  steps_guarded _ (good_refl h) fun _ => steps_storeTo _ _ _ _ (good_refl h) (canonical_eaU ..)

/-! ### Fetch and boundary -/

theorem keeps_fetch {s : State} (h : s.wf) : Keeps (Good s) (fetch s) := by
  have g := good_refl h
  unfold fetch; dsimp only
  split
  · exact g
  split
  · unfold outsideExecSegment; split
    · exact good_drawn g
    · exact g
  split
  · trivial
  split
  · exact g
  split
  · exact g
  split
  · unfold decodedHalf; split <;> exact g
  split
  · trivial
  · unfold decodedWord; split <;> exact g

theorem good_redrawPage {s t : State} (n : Nat) (h : Good s t) (hn : (t.pageAt n).isSome = true) :
    Good s (redrawPage n t) := by
  refine good_drawn (good_storeBytes _ _ h fun q q1 q2 => ?_)
  rw [length_externalPage] at q2
  obtain ⟨o, ho⟩ : ∃ o, q = n * pageSize + o := ⟨q - n * pageSize, by omega⟩
  rw [ho, pageOf_in n o (by omega)]
  exact hn

theorem good_redrawPages {s : State} (ps : List (Nat × Page)) {t : State} (h : Good s t)
    (hp : ∀ e ∈ ps, (t.pageAt e.1).isSome = true) : Good s (redrawPages ps t) := by
  induction ps generalizing t with
  | nil => exact h
  | cons e ps ih =>
    have tail : ∀ e ∈ ps, (t.pageAt e.1).isSome = true := fun e he => hp e (List.mem_cons_of_mem _ he)
    unfold redrawPages
    split
    · exact h
    · rename_i e'; cases e'
      refine ih (good_redrawPage _ h (hp _ (List.mem_cons_self ..))) fun e he => ?_
      rw [pageAt_congr (redrawPage_pages ..)]
      exact tail e he
    · rename_i e'; cases e'
      exact ih h tail

theorem good_atBoundary {s : State} (h : s.wf) : Good s (atBoundary s) :=
  good_redrawPages _ (good_refl h) fun _ he => find_isSome_of_mem he

/-! ### Turns -/

theorem Good.steps {s t : State} (h : Good s t) {o : Host.Outcome State Fault Refusal} (ho : KeepsOutcome (Stepped t) o) :
    KeepsOutcome (Stepped s) o := fun u e => by
  have f := (ho u e).fixed
  have k := h.kept.fixed
  exact ⟨(ho u e).wf, ⟨f.params.trans k.params, f.execBase.trans k.execBase, f.execLen.trans k.execLen,
    f.startAddress.trans k.startAddress, f.stackAddress.trans k.stackAddress, f.exitAddress.trans k.exitAddress⟩⟩

theorem stepped_endRun {s t : State} (st : Status) (b : Bool) (h : Good s t) : Stepped s (endRun st { t with stopped := b }) :=
  ⟨⟨cpuWf_congr h.wf.cpu, addrWf_congr h.wf.addr, pagesWf_congr h.wf.pages, resvWf_congr h.wf.resv, ⟨by simp, by simp⟩,
    h.wf.handlers⟩, sameFixed_congr h.kept.fixed⟩

theorem stepped_enterSimulate {s t : State} (n : Nat) (h : Good s t) : Stepped s (enterSimulate n t) := by
  refine ⟨⟨cpuWf_congr h.wf.cpu, addrWf_congr h.wf.addr, pagesWf_congr h.wf.pages, resvWf_congr h.wf.resv,
    ⟨fun _ => rfl, fun r hr => ?_⟩, h.wf.handlers⟩, sameFixed_congr h.kept.fixed⟩
  cases hr
  exact Nat.le_refl _

theorem canonical_resetRegs (w : Width) (v : Word) (h : canonical w v) (i : Fin 32) : canonical w (resetRegs v)[i] := by
  simp only [resetRegs, Fin.getElem_fin, Vector.getElem_set, Vector.getElem_replicate]
  split
  · exact h
  · cases w <;> rfl

theorem stepped_reset {s t : State} (r : HostResult) (h : Good s t) (hr : s.run = none) :
    Stepped s { resetCpu t with hostResult := r } := by
  have ht : t.run = none := h.kept.run.trans hr
  refine ⟨⟨⟨rfl, fun i => canonical_resetRegs _ _ (canonical_wrap _ _) i, canonical_wrap _ _⟩, addrWf_congr h.wf.addr,
    pagesWf_congr h.wf.pages, ⟨nofun, nofun, nofun⟩, ⟨fun e => ?_, fun q hq => ?_⟩, h.wf.handlers⟩,
    sameFixed_congr h.kept.fixed⟩
  · have : t.run.isSome = true := e
    rw [ht] at this; cases this
  · have : t.run = some q := hq
    rw [ht] at this; cases this

theorem steps_answerHost {s : State} {e : Effect HostResult} (h : Keeps (Good s) e) :
    KeepsOutcome (Stepped s) (answerHost e) := by
  cases e with
  | done r t w => exact keepsOutcome_next (good_hostResult (good_drawReservation h) _).stepped
  | trapped tag detail t => exact keepsOutcome_next (good_hostResult (good_drawReservation h) _).stepped
  | refused r => exact keepsOutcome_refused _ _

theorem steps_vmcall {s : State} (target : Option Word) (args : List Word) (exec : Bool) (n : Nat) (h : s.wf) :
    KeepsOutcome (Stepped s) (vmcall target args exec n s) := by
  have := keeps_vmcallSetup target args (good_refl h)
  unfold vmcall
  split
  · rename_i e; rw [e] at this
    split
    · exact keepsOutcome_next (stepped_enterSimulate _ (good_drawReservation this))
    · exact steps_answerHost this
  · rename_i e; rw [e] at this
    exact steps_answerHost (e := .trapped _ _ _) this
  · exact keepsOutcome_refused _ _

/-- A call of the host outside a run. -/
theorem steps_hostCall (op : HostOp) {s : State} (h : s.wf) (hr : s.run = none) :
    KeepsOutcome (Stepped s) (hostCall op s) := by
  have key (op : HostOp) := steps_answerHost (keeps_hostAct pathsKeep_outer op (good_refl h))
  exact match op with
  | .simulate _ => keepsOutcome_next (stepped_enterSimulate _ (good_refl h))
  | .reset => keepsOutcome_next (stepped_reset _ (good_refl h) hr)
  | .vmcall .. => steps_vmcall _ _ _ _ h
  | .stop => key (.stop)
  | .setReg r v => key (.setReg r v)
  | .setPc v => key (.setPc v)
  | .setupCall c r a => key (.setupCall c r a)
  | .realignStack a => key (.realignStack a)
  | .memcpy d b => key (.memcpy d b)
  | .copyToGuest d b => key (.copyToGuest d b)
  | .memset d v n => key (.memset d v n)
  | .memcpyOut d a n => key (.memcpyOut d a n)
  | .memcmp a b => key (.memcmp a b)
  | .memview a n c => key (.memview a n c)
  | .memstring a n => key (.memstring a n)
  | .strlen a n => key (.strlen a n)
  | .getPage n => key (.getPage n)
  | .createPage n => key (.createPage n)
  | .freePages a n => key (.freePages a n)
  | .setPageAttr a n t => key (.setPageAttr a n t)
  | .installShared n a b => key (.installShared n a b)
  | .insertNonOwned d n a b => key (.insertNonOwned d n a b)
  | .writeBuffer p b => key (.writeBuffer p b)
  | .trapPage a c => key (.trapPage a c)
  | .declareExternal n e => key (.declareExternal n e)
  | .installHandler n k => key (.installHandler n k)
  | .getHandler n => key (.getHandler n)
  | .removeHandler n => key (.removeHandler n)
  | .setPageFaultCallback c => key (.setPageFaultCallback c)
  | .setPageWriteCallback c => key (.setPageWriteCallback c)

/-- Taking a call from the queue. -/
theorem wf_hostCalls {s : State} (h : s.wf) (ops : List HostOp) : ({ s with hostCalls := ops } : State).wf :=
  ⟨cpuWf_congr h.cpu, addrWf_congr h.addr, pagesWf_congr h.pages, resvWf_congr h.resv, runWf_congr h.run, h.handlers⟩

end Sys2Proof.Laws
end

