-- ==== Sys2Proof/Laws/Shapes.lean ====
section
/-! SUPPORT. The shapes of the statements (`Completes`, `Stores`, `Faults`, …) for the shared operations: a write-back, a jump, a load,
a store, a fault. -/

namespace Sys2Proof.Laws

open Sys2Proof.Machine

theorem sameControl_refl (s : State) : s.SameControl s := ⟨sameFixed_refl s, rfl, rfl, rfl, rfl, rfl, rfl, rfl, rfl, rfl⟩
theorem sameMemory_refl (s : State) : s.SameMemory s := ⟨rfl, fun _ => rfl, fun _ => rfl⟩

/-- Where neither the page map nor a memory changed, no byte did. -/
theorem sameMemory_of {s t : State} (hp : t.pages = s.pages) (hm : t.mem = s.mem) (hh : t.hostMem = s.hostMem) :
    s.SameMemory t := ⟨hp, byte_congr hp hm hh, fun _ => get_congr hm hh _⟩

theorem mod_natCast (s : State) (n : Nat) : s.mod n = n % 2 ^ s.w.xlen := by
  simp only [State.mod]
  rw [← Int.natCast_emod, Int.toNat_natCast]

theorem toNat_pcNext (s : State) (len : Nat) (h : len < 2 ^ 32) : (s.pcNext len).toNat = s.mod (s.pc.toNat + len) := by
  have := mod_natCast s (s.pc.toNat + len)
  push_cast at this
  rw [this, State.pcNext, toNat_wrap, BitVec.toNat_add, Nat.mod_mod_of_dvd _ (xlen_dvd _), BitVec.toNat_ofNat,
    Nat.mod_eq_of_lt (a := len) (by omega)]

/-- What the end of an instruction leaves: the pc `len` bytes further and the counter one more, over a state in which only `rd`
differs from `s`. -/
theorem retired_of {s t u : State} {len : Nat} {rd : Reg} {V : Int} (hl : len < 2 ^ 32) (hc : s.counter ≠ counterMax)
    (hp : t.params = s.params) (hpc : t.pc = s.pcNext len) (hcnt : t.counter = s.counter + 1) (hr : t.regs = u.regs)
    (hu : u.params = s.params) (hx : ∀ r, r ≠ rd → u.x r = s.x r) (hd : rd ≠ 0 → u.ux rd = s.mod V) :
    Retired s t (s.pc.toNat + len) rd V := by
  have e : ∀ r, t.x r = u.x r := fun r => x_congr hr (hp.trans hu.symm) r
  refine ⟨?_, ?_, fun h => ?_, ?_, fun r h => (e r).trans (hx r h)⟩
  · rw [hpc]; exact toNat_pcNext s len hl
  · rw [hcnt]; exact counter_succ hc
  · show (t.x rd).toNat = _
    rw [e]; exact hd h
  · exact x_zero _

/-- A computation that writes back `v` completes with the value `V` where the low `XLEN` bits of `v` are `V` modulo `2^XLEN`. -/
theorem completes_writeBack {i : Instr} {s : State} {len : Nat} {rd : Reg} {v : Word} {V : Int} (hl : len < 2 ^ 32)
    (hc : s.counter ≠ counterMax) (e : exec i s = writeBack len rd v s) (hv : (wrap s.w v).toNat = s.mod V) :
    Completes i (s.pc.toNat + len) rd V s := by
  rw [writeBack_next _ _ _ _ hc] at e
  refine ⟨_, e, ?_, ?_, sameMemory_of ?_ ?_ ?_, ⟨⟨?_, ?_, ?_, ?_, ?_, ?_⟩, ?_, ?_, ?_, ?_, ?_, ?_, ?_, ?_, ?_⟩⟩
  · refine retired_of (u := s.setReg rd v) hl hc (by simp) rfl rfl rfl (by simp) (fun r h => ?_) fun h => ?_
    · exact x_setReg_ne _ _ _ _ h
    · rw [State.ux, x_setReg_self, if_neg (show ¬rd = 0#5 from h)]; exact hv
  all_goals simp

/-- A retirement that writes nothing. -/
theorem completes_retire {i : Instr} {s : State} {len : Nat} (hl : len < 2 ^ 32) (hc : s.counter ≠ counterMax)
    (e : exec i s = retire len false s) : Completes i (s.pc.toNat + len) 0 0 s := by
  rw [retire_next _ _ _ hc] at e
  refine ⟨_, e, ?_, rfl, sameMemory_of rfl rfl rfl, ⟨⟨rfl, rfl, rfl, rfl, rfl, rfl⟩, rfl, rfl, rfl, rfl, rfl, rfl, rfl, rfl, rfl⟩⟩
  exact retired_of (u := s) hl hc rfl rfl rfl rfl rfl (fun _ _ => rfl) fun h => absurd rfl h

/-- A jump that links `link` in `rd` and goes to `target`. -/
theorem completes_jumpTo {i : Instr} {s : State} {len : Nat} {rd : Reg} {link target : Word} {L T : Int}
    (hc : s.counter ≠ counterMax) (e : exec i s = jumpTo len target (s.setReg rd link))
    (hl : (wrap s.w link).toNat = s.mod L) (ht : (wrap s.w target).toNat = s.mod T) : Completes i T rd L s := by
  rw [jumpTo_next _ _ _ (by simpa using hc)] at e
  refine ⟨_, e, ⟨?_, ?_, fun h => ?_, ?_, fun r h => ?_⟩, ?_, sameMemory_of ?_ ?_ ?_,
    ⟨⟨?_, ?_, ?_, ?_, ?_, ?_⟩, ?_, ?_, ?_, ?_, ?_, ?_, ?_, ?_, ?_⟩⟩
  · simpa [State.w] using ht
  · simpa using counter_succ hc
  · refine (congrArg BitVec.toNat ((x_congr (s := s.setReg rd link) rfl rfl rd).trans (x_setReg_self s rd link))).trans ?_
    rw [if_neg (show ¬rd = 0#5 from h)]; exact hl
  · exact x_zero _
  · exact (x_congr (s := s.setReg rd link) rfl rfl r).trans (x_setReg_ne _ _ _ _ h)
  all_goals simp

/-- A fault that changed nothing before it. -/
theorem trapTaken_takeTrap (tag : Tag) (detail : Nat) (s : State) (u : List (Place × Byte)) :
    TrapTaken s (takeTrap tag detail { s with undo := u }) tag detail :=
  ⟨rfl, rfl, rfl, fun _ => rfl, rfl, rfl, rfl, rfl, sameMemory_of rfl rfl rfl, ⟨rfl, rfl, rfl, rfl, rfl, rfl⟩, rfl, rfl, rfl,
    rfl, rfl⟩

theorem faults_of {i : Instr} {s : State} {tag : Tag} {detail : Nat} (e : exec i s = .next (takeTrap tag detail s)) :
    Faults i tag detail s := ⟨_, e, trapTaken_takeTrap tag detail s s.undo⟩

theorem faults_finish {i : Instr} {s : State} {len : Nat} {tag : Tag} {detail : Nat}
    {u : List (Place × Byte)} (e : exec i s = finish len (.trapped tag detail { s with undo := u })) : Faults i tag detail s :=
  ⟨_, e, trapTaken_takeTrap tag detail s u⟩

/-- A load of readable bytes (R260 to R267). -/
theorem completes_loadFrom {i : Instr} {s : State} {len : Nat} {z : Size} {signed : Bool} {rd : Reg} {ea : Word} {V : Int}
    (hl : len < 2 ^ 32) (hc : s.counter ≠ counterMax) (ha : canonical s.w ea) (h : s.canRead ea z = true)
    (e : exec i s = loadFrom len z signed rd ea s)
    (hv : (wrap s.w (if signed then z.sext (BitVec.ofNat 64 (s.valueAt ea z.bytes))
      else BitVec.ofNat 64 (s.valueAt ea z.bytes))).toNat = s.mod V) :
    Completes i (s.pc.toNat + len) rd V s := by
  refine completes_writeBack hl hc (e.trans ?_) hv
  rw [loadFrom, memRead_readable ha h, bind_pure]
  rfl

/-- Bytes stored at their places are the bytes the guest reads there (R76, R78). -/
theorem bytesStored_of {s t : State} {a : Word} {n v : Nat} {bs : List Byte} (hp : t.pages = s.pages)
    (st : StoredAt s t (placeOf s a) bs) (hl : bs.length = n) (hn : ∀ k, (h : k < bs.length) → bs[k]'h = BitVec.ofNat 8 (v / 256 ^ k)) :
    s.BytesStored t a n v := by
  obtain ⟨h1, h2⟩ := st
  subst hl
  have get : ∀ q, t.byte q = t.get (s.place q) := fun q => by rw [State.byte, place_congr hp]
  refine ⟨fun k hk hlast => ?_, fun q hq => ?_, fun h hh => h2 _ fun k hk e => hh k hk e.symm⟩
  · rw [get, ← hn k hk]; exact h1 k hk hlast
  · rw [get]; exact h2 _ hq

/-- A store of storable bytes, that leaves `v'` in `rd` (R270 to R274, R284, R294). -/
theorem stores_memWrite {i : Instr} {s : State} {len : Nat} {z : Size} {ea v : Word} {rd : Reg} {w : Word} {n : Nat} {V : Int}
    (hl : len < 2 ^ 32) (hc : s.counter ≠ counterMax) (ha : canonical s.w ea) (h : s.canStore ea z = true)
    (e : exec i s = finish len ((memWrite ea z v s).bind fun _ s' => .pure () (s'.setReg rd w)))
    (hn : ∀ k < z.bytes, byteOf v k = BitVec.ofNat 8 (n / 256 ^ k)) (hv : (wrap s.w w).toNat = s.mod V) :
    Stores i len ea z.bytes n rd V s := by
  obtain ⟨m, hm', u0, hm, st⟩ := memWrite_storable v ha h
  obtain ⟨u, hu⟩ : ∃ u : State, u = (withBytes s m hm' u0).clearResv := ⟨_, rfl⟩
  rw [hm, bind_pure, ← hu] at e
  have hw : u.w = s.w := by rw [hu]; rfl
  have hcnt : u.counter ≠ counterMax := by rw [hu]; exact hc
  rw [show finish len (Effect.pure () (u.setReg rd w)) = writeBack len rd w u from rfl, writeBack_next _ _ _ _ hcnt] at e
  have hlen : (leBytes z.bytes v).length = z.bytes := by simp [leBytes]
  refine ⟨_, e, ?_, ?_, ?_, bytesStored_of (bs := leBytes z.bytes v) ?_ ?_ hlen fun k hk => ?_,
    ⟨⟨?_, ?_, ?_, ?_, ?_, ?_⟩, ?_, ?_, ?_, ?_, ?_, ?_, ?_, ?_, ?_⟩⟩
  · refine retired_of (u := u.setReg rd w) hl hc (by simp [hu, withBytes]) (by simp [State.pcNext, hu, withBytes, State.w])
      (by simp [hu, withBytes]) rfl (by simp [hu, withBytes])
      (fun r hr => (x_setReg_ne _ _ _ _ hr).trans (by rw [hu]; rfl)) fun hr => ?_
    rw [State.ux, x_setReg_self, if_neg (show ¬rd = 0#5 from hr), hw]; exact hv
  · simp [hu, withBytes, State.clearResv]
  · simp [hu, withBytes]
  · simp [hu, withBytes]
  · refine ⟨fun k hk hlast => (get_congr ?_ ?_ _).trans (st.1 k hk hlast), fun p hp => (get_congr ?_ ?_ _).trans (st.2 p hp)⟩ <;>
      simp [hu, withBytes]
  · simp only [leBytes, List.getElem_map, List.getElem_range]
    exact hn k (by rw [hlen] at hk; exact hk)
  all_goals simp [hu, withBytes]

/-- Every load is `loadFrom` at a canonical address. -/
theorem load_form {s : State} {i : Instr} {len : Nat} {ea : Word} {z : Size} {sg : Bool} {rd : Reg}
    (h : IsLoad s i len ea z sg rd) (w : i.wf s.params = true) :
    canonical s.w ea ∧ exec i s = loadFrom len z sg rd ea s := by
  cases h <;> refine ⟨canonical_wrap _ _, ?_⟩ <;> first | rfl | exact guarded_wf _ w

/-- Every store is `storeTo` at a canonical address. -/
theorem store_form {s : State} {i : Instr} {len : Nat} {ea : Word} {z : Size} {v : Word} (h : IsStore s i len ea z v)
    (w : i.wf s.params = true) : canonical s.w ea ∧ exec i s = storeTo len z ea v s := by
  cases h <;> refine ⟨canonical_wrap _ _, ?_⟩ <;> first | rfl | exact guarded_wf _ w

end Sys2Proof.Laws
end

