-- ==== Sys2Proof/Tests/Slice0.lean ====
section
/-! SUPPORT. The model's own tests, and a witness for the hypotheses of every obligation that has any.

Expected results come from the spec: the words and end states of spec/95_test_vectors.md, the examples of its rules, the fields of
spec/30_encoding.md.  A test on fixed values checks the model; it is no statement for the provers. -/

namespace Sys2Proof.Tests

open Sys2Proof Sys2Proof.Machine

/-! ### Small states -/

def rv (w : Width) (c a : Bool) : Params := { Params.default with w := w, extC := c, extA := a }
abbrev rv32 : Params := rv .w4 false false
abbrev rv32c : Params := rv .w4 true false
abbrev rv32a : Params := rv .w4 false true
abbrev rv64 : Params := rv .w8 false false
abbrev rv64c : Params := rv .w8 true false
abbrev rv64a : Params := rv .w8 false true

/-- Bytes from address `a` on. -/
def bytesAt (a : Nat) (bs : List Byte) : List Host.Cell := (List.range bs.length).map fun k => (a + k, bs.getD k 0)

/-- The state with these registers written. -/
def withRegs (s : State) (regs : List (Reg × Word)) : State := regs.foldl (fun t e => t.setReg e.1 e.2) s

/-- The memory with these bytes written. -/
def withCells (m : List Host.Cell) (cells : List Host.Cell) : List Host.Cell :=
  cells.foldl (fun t c => Memory.write c.1 c.2 t) m

/-- The launch state of spec/95_test_vectors.md section 0, inside an unbounded `simulate`: the code at 0x1000 and nothing else in the
execute segment, data pages 0x20000 and 0x21000, a read-only page 0x30000, the stack page. -/
def bench (p : Params) (code : List Byte) (regs : List (Reg × Word)) (cells : List Host.Cell) : State :=
  withRegs
    { State.reset with
      params := p
      pages := [(0x1, ⟨⟨true, false, true⟩, .owned⟩), (0x20, ⟨.rw, .owned⟩), (0x21, ⟨.rw, .owned⟩),
        (0x30, ⟨⟨true, false, false⟩, .owned⟩), (0x7F, ⟨.rw, .owned⟩)]
      mem := withCells (Memory.writeBytes 0x1000 code []) cells
      execLen := BitVec.ofNat 64 code.length
      status := .running
      run := some ⟨0, 0⟩ }
    regs

/-- A bench without code. -/
def idle0 : State := bench rv32 [] [] []

/-- A host callback that performs `acts` and returns `value`. -/
def answer (acts : List HostOp) (value : HostValue) : HostAnswer := ⟨acts, none, value, default⟩

/-- The step from `s` retires with exactly these registers and bytes changed and this pc. -/
def retires (s : State) (regs : List (Reg × Word)) (pc : Word) (cells : List Host.Cell) : Bool :=
  match step s with
  | .next t =>
    t.pc == pc && t.counter == s.counter + 1 && t.status == .running && t.regs == (withRegs s regs).regs &&
      t.mem == withCells s.mem cells
  | _ => false

/-- The step from `s` ends in the fault and changes no register, not the pc, not the counter, no byte and no page. -/
def traps (s : State) (tag : Tag) (detail : Nat) : Bool :=
  match step s with
  | .next t =>
    t.status == .trapped tag detail && t.run == none && t.pc == s.pc && t.counter == s.counter && t.regs == s.regs &&
      t.mem == s.mem && t.pages == s.pages
  | _ => false

/-- The step from `s` is refused. -/
def refuses (s : State) (r : Refusal) : Bool :=
  match step s with
  | .refused q => q == r
  | _ => false

/-- The step from `s` gives a next state with this property. -/
def steps (s : State) (f : State → Bool) : Bool :=
  match step s with
  | .next t => f t
  | _ => false

/-- A machine between runs whose host makes this call next. -/
def called (s : State) (op : HostOp) : State := { s with run := none, status := .init, hostCalls := [op] }

/-! ### Well-formedness: for each check an instruction it refuses -/

theorem test_wf_refuses_what_the_configuration_lacks :
    (Instr.addiw 10 10 1).wf rv32 = false ∧ (Instr.lrW 11 10 false false).wf rv64 = false ∧
    (Instr.lrD 11 10 false false).wf rv32a = false ∧ (Instr.lrD 11 10 false false).wf rv64 = false ∧ Instr.cNop.wf rv64 = false ∧
    (Instr.cJal 8).wf rv64c = false ∧ (Instr.cJal 8).wf rv32 = false ∧ (Instr.cAddw 2 3).wf rv32c = false ∧
    (Instr.cAddw 2 3).wf rv64 = false := by decide

theorem test_wf_refuses_shift_amounts :
    (Instr.slli 10 10 32).wf rv32 = false ∧ (Instr.srli 10 10 32).wf rv32 = false ∧ (Instr.srai 10 10 63).wf rv32 = false ∧
    (Instr.cSrli 2 0).wf rv64c = false ∧ (Instr.cSrai 2 32).wf rv32c = false ∧ (Instr.cSlli 10 0).wf rv64c = false ∧
    (Instr.cSlli 10 32).wf rv32c = false := by decide

theorem test_wf_refuses_odd_offsets :
    (Instr.jal 1 3).wf rv64 = false ∧ (Instr.beq 1 2 1).wf rv64 = false ∧ (Instr.cJ 1).wf rv64c = false ∧
    (Instr.cJal 3).wf rv32c = false ∧ (Instr.cBeqz 2 5).wf rv64c = false := by decide

theorem test_wf_refuses_unscaled_offsets :
    (Instr.cLw 2 3 2).wf rv64c = false ∧ (Instr.cSw 2 3 1).wf rv64c = false ∧ (Instr.cLd 2 3 4).wf rv64c = false ∧
    (Instr.cSd 2 3 4).wf rv64c = false ∧ (Instr.cLwsp 1 2).wf rv64c = false ∧ (Instr.cLdsp 1 4).wf rv64c = false ∧
    (Instr.cSwsp 1 2).wf rv64c = false ∧ (Instr.cSdsp 1 4).wf rv64c = false ∧ (Instr.cAddi4spn 2 2).wf rv64c = false ∧
    (Instr.cAddi16sp 8).wf rv64c = false := by decide

theorem test_wf_refuses_reserved_operands :
    (Instr.cAddi4spn 2 0).wf rv64c = false ∧ (Instr.cAddi 0 1).wf rv64c = false ∧ (Instr.cAddi 1 0).wf rv64c = false ∧
    (Instr.cAddiw 0 1).wf rv64c = false ∧ (Instr.cLi 0 1).wf rv64c = false ∧ (Instr.cAddi16sp 0).wf rv64c = false ∧
    (Instr.cLui 0 1).wf rv64c = false ∧ (Instr.cLui 2 1).wf rv64c = false ∧ (Instr.cLui 1 0).wf rv64c = false ∧
    (Instr.cSlli 0 1).wf rv64c = false ∧ (Instr.cLwsp 0 4).wf rv64c = false ∧ (Instr.cLdsp 0 8).wf rv64c = false ∧
    (Instr.cJr 0).wf rv64c = false ∧ (Instr.cJalr 0).wf rv64c = false ∧ (Instr.cMv 0 1).wf rv64c = false ∧
    (Instr.cMv 1 0).wf rv64c = false ∧ (Instr.cAdd 0 1).wf rv64c = false ∧ (Instr.cAdd 1 0).wf rv64c = false := by decide

/-! ### Decoding: a word of every row.  Words in hexadecimal are those of spec/95_test_vectors.md and the rules' examples; words in
binary are written field by field from spec/30_encoding.md, spec/45_system.md and spec/46_compressed.md. -/

theorem test_decode_upper_immediates :
    decode32 rv32 0b00000000000000100000_00101_0110111#32 = some (.lui 5 0x20) ∧
    decode32 rv32 0x00001517#32 = some (.auipc 10 1) := by decide

theorem test_decode_register_immediate :
    decode32 rv32 0b000000000111_00000_000_01010_0010011#32 = some (.addi 10 0 7) ∧
    decode32 rv32 0x00052593#32 = some (.slti 11 10 0) ∧ decode32 rv32 0xFFF53593#32 = some (.sltiu 11 10 0xFFF) ∧
    decode32 rv32 0xFFF54513#32 = some (.xori 10 10 0xFFF) ∧ decode32 rv32 0x00F56513#32 = some (.ori 10 10 15) ∧
    decode32 rv32 0x7FF57513#32 = some (.andi 10 10 0x7FF) ∧ decode32 rv64 0x03F51513#32 = some (.slli 10 10 63) ∧
    decode32 rv32 0x01F55513#32 = some (.srli 10 10 31) ∧ decode32 rv64 0x43F55513#32 = some (.srai 10 10 63) := by decide

theorem test_decode_register_register :
    decode32 rv32 0b0000000_01011_01010_000_01100_0110011#32 = some (.add 12 10 11) ∧
    decode32 rv32 0x40B50633#32 = some (.sub 12 10 11) ∧ decode32 rv32 0x00B51633#32 = some (.sll 12 10 11) ∧
    decode32 rv32 0x00B52633#32 = some (.slt 12 10 11) ∧ decode32 rv32 0x00B53633#32 = some (.sltu 12 10 11) ∧
    decode32 rv32 0x00B54633#32 = some (.xor 12 10 11) ∧ decode32 rv32 0x00B55633#32 = some (.srl 12 10 11) ∧
    decode32 rv32 0x40B55633#32 = some (.sra 12 10 11) ∧ decode32 rv32 0x00B56633#32 = some (.or 12 10 11) ∧
    decode32 rv32 0x00B57633#32 = some (.and 12 10 11) := by decide

theorem test_decode_word_forms :
    decode32 rv64 0b000000000001_01010_000_01010_0011011#32 = some (.addiw 10 10 1) ∧
    decode32 rv64 0x01F5151B#32 = some (.slliw 10 10 31) ∧ decode32 rv64 0x01F5551B#32 = some (.srliw 10 10 31) ∧
    decode32 rv64 0x4045551B#32 = some (.sraiw 10 10 4) ∧ decode32 rv64 0x00B5063B#32 = some (.addw 12 10 11) ∧
    decode32 rv64 0x40B5063B#32 = some (.subw 12 10 11) ∧ decode32 rv64 0x00B5163B#32 = some (.sllw 12 10 11) ∧
    decode32 rv64 0x00B5563B#32 = some (.srlw 12 10 11) ∧ decode32 rv64 0x40B5563B#32 = some (.sraw 12 10 11) := by decide

theorem test_decode_control_transfer :
    decode32 rv32 0b0_0000000110_0_00000000_00001_1101111#32 = some (.jal 1 12) ∧
    decode32 rv32 0xFF9FF06F#32 = some (.jal 0 0x1FFFF8) ∧ decode32 rv32 0x008280E7#32 = some (.jalr 1 5 8) ∧
    decode32 rv32 0b0_000000_01011_01010_000_0100_0_1100011#32 = some (.beq 10 11 8) ∧
    decode32 rv32 0xFEB51EE3#32 = some (.bne 10 11 0x1FFC) ∧ decode32 rv32 0x00B54463#32 = some (.blt 10 11 8) ∧
    decode32 rv32 0x00B55463#32 = some (.bge 10 11 8) ∧ decode32 rv32 0x00B56463#32 = some (.bltu 10 11 8) ∧
    decode32 rv32 0x00B57463#32 = some (.bgeu 10 11 8) := by decide

theorem test_decode_loads_and_stores :
    decode32 rv32 0b111111111110_00101_010_01010_0000011#32 = some (.lw 10 5 0xFFE) ∧
    decode32 rv32 0x00028503#32 = some (.lb 10 5 0) ∧ decode32 rv32 0x00129503#32 = some (.lh 10 5 1) ∧
    decode32 rv64 0x0002B503#32 = some (.ld 10 5 0) ∧ decode32 rv32 0x0002C503#32 = some (.lbu 10 5 0) ∧
    decode32 rv32 0x0012D503#32 = some (.lhu 10 5 1) ∧ decode32 rv64 0x0032E503#32 = some (.lwu 10 5 3) ∧
    decode32 rv32 0b1111111_01011_00101_010_11110_0100011#32 = some (.sw 5 11 0xFFE) ∧
    decode32 rv32 0x00B28023#32 = some (.sb 5 11 0) ∧ decode32 rv32 0x00B290A3#32 = some (.sh 5 11 1) ∧
    decode32 rv64 0x00B2B023#32 = some (.sd 5 11 0) := by decide

theorem test_decode_atomic_words :
    decode32 rv32a 0b00010_0_0_00000_01010_010_01011_0101111#32 = some (.lrW 11 10 false false) ∧
    decode32 rv32a 0x18D5262F#32 = some (.scW 12 10 13 false false) ∧
    decode32 rv32a 0b00001_1_0_01100_01010_010_01011_0101111#32 = some (.amoswapW 11 10 12 true false) ∧
    decode32 rv32a 0b00000_0_1_01100_01010_010_01011_0101111#32 = some (.amoaddW 11 10 12 false true) ∧
    decode32 rv32a 0x20C525AF#32 = some (.amoxorW 11 10 12 false false) ∧
    decode32 rv32a 0x60C525AF#32 = some (.amoandW 11 10 12 false false) ∧
    decode32 rv32a 0x40C525AF#32 = some (.amoorW 11 10 12 false false) ∧
    decode32 rv32a 0x80C525AF#32 = some (.amominW 11 10 12 false false) ∧
    decode32 rv32a 0xA0C525AF#32 = some (.amomaxW 11 10 12 false false) ∧
    decode32 rv32a 0xC0C525AF#32 = some (.amominuW 11 10 12 false false) ∧
    decode32 rv32a 0xE0C525AF#32 = some (.amomaxuW 11 10 12 false false) := by decide

theorem test_decode_atomic_doublewords :
    decode32 rv64a 0b00010_0_0_00000_01010_011_01011_0101111#32 = some (.lrD 11 10 false false) ∧
    decode32 rv64a 0x18D5362F#32 = some (.scD 12 10 13 false false) ∧
    decode32 rv64a 0x08C535AF#32 = some (.amoswapD 11 10 12 false false) ∧
    decode32 rv64a 0x00C535AF#32 = some (.amoaddD 11 10 12 false false) ∧
    decode32 rv64a 0x20C535AF#32 = some (.amoxorD 11 10 12 false false) ∧
    decode32 rv64a 0x60C535AF#32 = some (.amoandD 11 10 12 false false) ∧
    decode32 rv64a 0x40C535AF#32 = some (.amoorD 11 10 12 false false) ∧
    decode32 rv64a 0x80C535AF#32 = some (.amominD 11 10 12 false false) ∧
    decode32 rv64a 0xA0C535AF#32 = some (.amomaxD 11 10 12 false false) ∧
    decode32 rv64a 0xC0C535AF#32 = some (.amominuD 11 10 12 false false) ∧
    decode32 rv64a 0xE0C535AF#32 = some (.amomaxuD 11 10 12 false false) := by decide

theorem test_decode_system :
    decode32 rv32 0b0000_1111_1111_00000_000_00000_0001111#32 = some (.fence 0 15 15 0 0) ∧
    decode32 rv32 0x00000073#32 = some .ecall ∧ decode32 rv32 0x00100073#32 = some .ebreak ∧
    decode32 rv32 0x0000100F#32 = some (.fenceI 0 0 0) ∧ decode32 rv32 0x02B50533#32 = some (.mulDiv 0 10 10 11) ∧
    decode32 rv64 0b0000001_01011_01010_100_01010_0111011#32 = some (.mulDivW 4 10 10 11) ∧
    decode32 rv32 0b110000000010_00000_001_01010_1110011#32 = some (.csrrw 0xC02 0 10) ∧
    decode32 rv32 0xC0202573#32 = some (.csrrs 0xC02 0 10) ∧
    decode32 rv32 0b110000000010_00000_011_01010_1110011#32 = some (.csrrc 0xC02 0 10) ∧
    decode32 rv32 0b110000000010_00001_101_01010_1110011#32 = some (.csrrwi 0xC02 1 10) ∧
    decode32 rv32 0b110000000010_00001_110_01010_1110011#32 = some (.csrrsi 0xC02 1 10) ∧
    decode32 rv32 0b110000000010_00001_111_01010_1110011#32 = some (.csrrci 0xC02 1 10) ∧
    decode32 rv32 0b000000000000_00000_100_00000_1110011#32 = some (.systemFunct3_4 0 0 0) ∧
    decode32 rv32 0x00200073#32 = some .uret ∧ decode32 rv32 0x10200073#32 = some .sret ∧
    decode32 rv32 0x30200073#32 = some .mret ∧ decode32 rv32 0x10500073#32 = some .wfi ∧
    decode32 rv32 0b0001001_01011_01010_000_00000_1110011#32 = some (.sfenceVma 10 11) ∧
    decode32 rv32 0x00052007#32 = some (.loadFp 0xA40) ∧ decode32 rv32 0x00052027#32 = some (.storeFp 0xA40) ∧
    decode32 rv32 0b0000000000000000000000001_1000011#32 = some (.fmadd 1) ∧
    decode32 rv32 0b0000000000000000000000001_1000111#32 = some (.fmsub 1) ∧
    decode32 rv32 0b0000000000000000000000001_1001011#32 = some (.fnmsub 1) ∧
    decode32 rv32 0b0000000000000000000000001_1001111#32 = some (.fnmadd 1) ∧
    decode32 rv32 0b0000000000000000000000001_1010011#32 = some (.opFp 1) := by decide

theorem test_decode_compressed_quadrant_0 :
    decode16 rv32c 0b000_01_0000_0_0_010_00#16 = some (.cAddi4spn 2 16) ∧ decode16 rv32c 0x41C8#16 = some (.cLw 2 3 4) ∧
    decode16 rv64c 0x6588#16 = some (.cLd 2 3 8) ∧ decode16 rv32c 0xC1C8#16 = some (.cSw 3 2 4) ∧
    decode16 rv64c 0xE588#16 = some (.cSd 3 2 8) := by decide

theorem test_decode_compressed_quadrant_1 :
    decode16 rv32c 0x0001#16 = some .cNop ∧ decode16 rv32c 0x157D#16 = some (.cAddi 10 0x3F) ∧
    decode16 rv32c 0x2021#16 = some (.cJal 8) ∧ decode16 rv64c 0x2505#16 = some (.cAddiw 10 1) ∧
    decode16 rv32c 0x557D#16 = some (.cLi 10 0x3F) ∧ decode16 rv32c 0x7139#16 = some (.cAddi16sp 0x3C0) ∧
    decode16 rv32c 0x757D#16 = some (.cLui 10 0x3F) ∧ decode16 rv32c 0x8105#16 = some (.cSrli 2 1) ∧
    decode16 rv32c 0x8505#16 = some (.cSrai 2 1) ∧ decode16 rv32c 0x893D#16 = some (.cAndi 2 15) ∧
    decode16 rv32c 0b100_0_11_010_00_011_01#16 = some (.cSub 2 3) ∧ decode16 rv32c 0x8D2D#16 = some (.cXor 2 3) ∧
    decode16 rv32c 0x8D4D#16 = some (.cOr 2 3) ∧ decode16 rv32c 0x8D6D#16 = some (.cAnd 2 3) ∧
    decode16 rv64c 0x9D0D#16 = some (.cSubw 2 3) ∧ decode16 rv64c 0x9D2D#16 = some (.cAddw 2 3) ∧
    decode16 rv32c 0xBFF5#16 = some (.cJ 0xFFC) ∧ decode16 rv32c 0xC111#16 = some (.cBeqz 2 4) ∧
    decode16 rv32c 0xFD7D#16 = some (.cBnez 2 0x1FE) := by decide

theorem test_decode_compressed_quadrant_2 :
    decode16 rv32c 0b000_0_01010_00010_10#16 = some (.cSlli 10 2) ∧ decode16 rv32c 0x4532#16 = some (.cLwsp 10 12) ∧
    decode16 rv64c 0x6522#16 = some (.cLdsp 10 8) ∧ decode16 rv32c 0x8082#16 = some (.cJr 1) ∧
    decode16 rv32c 0x852E#16 = some (.cMv 10 11) ∧ decode16 rv32c 0x9002#16 = some .cEbreak ∧
    decode16 rv32c 0x9282#16 = some (.cJalr 5) ∧ decode16 rv32c 0x952E#16 = some (.cAdd 10 11) ∧
    decode16 rv32c 0xC62A#16 = some (.cSwsp 10 12) ∧ decode16 rv64c 0xE42A#16 = some (.cSdsp 10 8) := by decide

theorem test_decode_compressed_faulting_rows :
    decode16 rv32c 0b001_00001000000_00#16 = some (.cFld 0x40) ∧ decode16 rv32c 0b101_00001000000_00#16 = some (.cFsd 0x40) ∧
    decode16 rv32c 0b001_00001000000_10#16 = some (.cFldsp 0x40) ∧ decode16 rv32c 0b101_00001000000_10#16 = some (.cFsdsp 0x40) ∧
    decode16 rv32c 0b011_00001000000_00#16 = some (.cFlw 0x40) ∧ decode16 rv32c 0b111_00001000000_00#16 = some (.cFsw 0x40) ∧
    decode16 rv32c 0b011_00001000000_10#16 = some (.cFlwsp 0x40) ∧ decode16 rv32c 0b111_00001000000_10#16 = some (.cFswsp 0x40) ∧
    decode16 rv32c 0b100_00001000000_00#16 = some (.cReserved00_4 0x40) ∧ decode16 rv32c 0x0000#16 = some .cIllegal := by decide

/-- Words no rule selects (R114, R116, R121). -/
theorem test_decode_refuses_reserved_words :
    decode32 rv32 0x02051513#32 = none ∧ decode32 rv64 0x0205151B#32 = none ∧ decode32 rv32 0x00B5063B#32 = none ∧
    decode32 rv32 0x0002B503#32 = none ∧ decode32 rv32a 0b00010_0_0_00001_01010_010_01011_0101111#32 = none ∧
    decode32 rv32a 0x00C535AF#32 = none ∧ decode32 rv32 0x000000F3#32 = none ∧ decode32 rv32 0x0000000B#32 = none ∧
    decode16 rv32c 0x4015#16 = none ∧ decode16 rv32c 0x0004#16 = none ∧ decode16 rv64c 0x2021#16 = none ∧
    decode16 rv32c 0x1502#16 = none ∧ decode16 rv32c 0x8002#16 = none := by decide

/-- The two names the host uses: a row of spec/opcode_table.json decodes and the next step runs it. -/
theorem test_table_words :
    decodeTableWord 32 0x00700513 = some (.addi 10 0 7) ∧ decodeTableWord 16 0x2021 = some (.cJal 8) ∧
    steps (State.reset.withFetchWord 32 0x00700513) (fun t => t.x 10 == 7 && t.pc == 0x1004 && t.counter == 1) = true ∧
    steps (State.reset.withFetchWord 16 0x2021) (fun t => t.x 1 == 0x1002 && t.pc == 0x1008) = true := by decide

/-! ### Integer computation (spec/95_test_vectors.md, the vectors I-…) -/

theorem test_lui_sign_extends :
    retires (bench rv64 (leBytes 4 0x80000537) [] []) [(10, 0xFFFFFFFF80000000)] 0x1004 [] = true := by decide
theorem test_auipc_wraps : retires (bench rv32 (leBytes 4 0xFFFFF517) [] []) [(10, 0x0)] 0x1004 [] = true := by decide
theorem test_addi_overflow_wraps :
    retires (bench rv32 (leBytes 4 0x00150513) [(10, 0x7FFFFFFF)] []) [(10, 0x80000000)] 0x1004 [] = true := by decide
theorem test_addi_to_x0_is_dropped : retires (bench rv32 (leBytes 4 0x00500013) [] []) [] 0x1004 [] = true := by decide
theorem test_slti_compares_signed :
    retires (bench rv32 (leBytes 4 0x00052593) [(10, 0xFFFFFFFF)] []) [(11, 0x1)] 0x1004 [] = true := by decide
theorem test_slti_equal_is_not_less :
    retires (bench rv32 (leBytes 4 0xFFF52593) [(10, 0xFFFFFFFF)] []) [(11, 0x0)] 0x1004 [] = true := by decide
theorem test_sltiu_extends_the_immediate_first :
    retires (bench rv32 (leBytes 4 0xFFF53593) [(10, 0xFFFFFFFE)] []) [(11, 0x1)] 0x1004 [] = true := by decide
theorem test_xori_is_not :
    retires (bench rv32 (leBytes 4 0xFFF54513) [(10, 0xF)] []) [(10, 0xFFFFFFF0)] 0x1004 [] = true := by decide
theorem test_ori : retires (bench rv32 (leBytes 4 0x00F56513) [(10, 0xF0)] []) [(10, 0xFF)] 0x1004 [] = true := by decide
theorem test_andi_sign_extends :
    retires (bench rv32 (leBytes 4 0x80057513) [(10, 0xFFFFFFFF)] []) [(10, 0xFFFFF800)] 0x1004 [] = true := by decide
theorem test_slli_by_63 :
    retires (bench rv64 (leBytes 4 0x03F51513) [(10, 0x1)] []) [(10, 0x8000000000000000)] 0x1004 [] = true := by decide
theorem test_slli_by_32_on_rv32_faults :
    traps (bench rv32 (leBytes 4 0x02051513) [(10, 0x1)] []) .unimplementedInstruction 0x2051513 = true := by decide
theorem test_srli_shifts_in_zeros :
    retires (bench rv32 (leBytes 4 0x01F55513) [(10, 0x80000000)] []) [(10, 0x1)] 0x1004 [] = true := by decide
theorem test_srai_shifts_in_the_sign :
    retires (bench rv32 (leBytes 4 0x41F55513) [(10, 0x80000000)] []) [(10, 0xFFFFFFFF)] 0x1004 [] = true := by decide
theorem test_srai_of_a_positive_value :
    retires (bench rv32 (leBytes 4 0x40455513) [(10, 0x70000000)] []) [(10, 0x7000000)] 0x1004 [] = true := by decide
theorem test_add_wraps :
    retires (bench rv32 (leBytes 4 0x00B50633) [(10, 0xFFFFFFFF), (11, 0x1)] []) [(12, 0x0)] 0x1004 [] = true := by decide
theorem test_add_reads_both_sources_first :
    retires (bench rv32 (leBytes 4 0x00A50533) [(10, 0x40000000)] []) [(10, 0x80000000)] 0x1004 [] = true := by decide
theorem test_sub_wraps :
    retires (bench rv32 (leBytes 4 0x40B50633) [(10, 0x0), (11, 0x1)] []) [(12, 0xFFFFFFFF)] 0x1004 [] = true := by decide
theorem test_sll_uses_five_bits :
    retires (bench rv32 (leBytes 4 0x00B51633) [(10, 0x3), (11, 0x21)] []) [(12, 0x6)] 0x1004 [] = true := by decide
theorem test_slt_compares_signed :
    retires (bench rv32 (leBytes 4 0x00B52633) [(10, 0xFFFFFFFF), (11, 0x1)] []) [(12, 0x1)] 0x1004 [] = true := by decide
theorem test_sltu_compares_unsigned :
    retires (bench rv32 (leBytes 4 0x00B53633) [(10, 0xFFFFFFFF), (11, 0x1)] []) [(12, 0x0)] 0x1004 [] = true := by decide
theorem test_xor :
    retires (bench rv32 (leBytes 4 0x00B54633) [(10, 0xFF00FF00), (11, 0xFF00FF0)] []) [(12, 0xF0F0F0F0)] 0x1004 [] = true := by decide
theorem test_srl_uses_five_bits :
    retires (bench rv32 (leBytes 4 0x00B55633) [(10, 0x80000000), (11, 0x24)] []) [(12, 0x8000000)] 0x1004 [] = true := by decide
theorem test_sra_shifts_in_the_sign :
    retires (bench rv32 (leBytes 4 0x40B55633) [(10, 0x80000000), (11, 0x4)] []) [(12, 0xF8000000)] 0x1004 [] = true := by decide
theorem test_or :
    retires (bench rv32 (leBytes 4 0x00B56633) [(10, 0xF0F0), (11, 0xF0F)] []) [(12, 0xFFFF)] 0x1004 [] = true := by decide
theorem test_and :
    retires (bench rv32 (leBytes 4 0x00B57633) [(10, 0xFF00FF00), (11, 0xFF00FF0)] []) [(12, 0xF000F00)] 0x1004 [] = true := by decide
theorem test_addiw_ignores_the_high_half :
    retires (bench rv64 (leBytes 4 0x0005051B) [(10, 0x180000000)] []) [(10, 0xFFFFFFFF80000000)] 0x1004 [] = true := by decide
theorem test_slliw_sign_extends :
    retires (bench rv64 (leBytes 4 0x01F5151B) [(10, 0x1)] []) [(10, 0xFFFFFFFF80000000)] 0x1004 [] = true := by decide
theorem test_srliw_ignores_the_high_half :
    retires (bench rv64 (leBytes 4 0x01F5551B) [(10, 0xFFFFFFFF80000000)] []) [(10, 0x1)] 0x1004 [] = true := by decide
theorem test_sraiw_takes_bit_31 :
    retires (bench rv64 (leBytes 4 0x4045551B) [(10, 0x80000000)] []) [(10, 0xFFFFFFFFF8000000)] 0x1004 [] = true := by decide
theorem test_addw_sign_extends :
    retires (bench rv64 (leBytes 4 0x00B5063B) [(10, 0x7FFFFFFF), (11, 0x1)] []) [(12, 0xFFFFFFFF80000000)] 0x1004 [] = true := by decide
theorem test_subw_sign_extends :
    retires (bench rv64 (leBytes 4 0x40B5063B) [(10, 0x0), (11, 0x1)] []) [(12, 0xFFFFFFFFFFFFFFFF)] 0x1004 [] = true := by decide
theorem test_sllw_uses_five_bits :
    retires (bench rv64 (leBytes 4 0x00B5163B) [(10, 0x1), (11, 0x20)] []) [(12, 0x1)] 0x1004 [] = true := by decide
theorem test_srlw_ignores_the_high_half :
    retires (bench rv64 (leBytes 4 0x00B5563B) [(10, 0xFFFFFFFF80000000), (11, 0x1F)] []) [(12, 0x1)] 0x1004 [] = true := by decide
theorem test_sraw_takes_bit_31 :
    retires (bench rv64 (leBytes 4 0x40B5563B) [(10, 0x80000000), (11, 0x23)] []) [(12, 0xFFFFFFFFF0000000)] 0x1004 [] = true := by decide
theorem test_addw_on_rv32_faults :
    traps (bench rv32 (leBytes 4 0x00B5063B) [(10, 0x1), (11, 0x1)] []) .unimplementedInstruction 0xB5063B = true := by decide

/-! ### Control transfer (spec/95_test_vectors.md, the vectors J-…) -/

theorem test_jal_links :
    retires (bench rv32 (leBytes 4 0x00C000EF ++ leBytes 4 0x00000013 ++ leBytes 4 0x00000013 ++ leBytes 4 0x00000013) [] [])
      [(1, 0x1004)] 0x100C [] = true := by decide
theorem test_jal_backward_without_link :
    retires { bench rv32 (leBytes 4 0x00000013 ++ leBytes 4 0xFFDFF06F) [] [] with pc := 0x1004 } [] 0x1000 [] = true := by decide
theorem test_jalr_reads_before_it_links :
    retires (bench rv32 (leBytes 4 0x000282E7 ++ leBytes 4 0x00000013 ++ leBytes 4 0x00000013) [(5, 0x1008)] []) [(5, 0x1004)]
      0x1008 [] = true := by decide
theorem test_jalr_odd_sum_is_refused :
    refuses (bench rv32 (leBytes 4 0x000280E7 ++ leBytes 4 0x00000013) [(5, 0x1001)] []) .jalrOddTarget = true := by decide
theorem test_beq_taken :
    retires (bench rv32 (leBytes 4 0x00B50463 ++ leBytes 4 0x00000013 ++ leBytes 4 0x00000013) [(10, 0x5), (11, 0x5)] []) []
      0x1008 [] = true := by decide
theorem test_beq_untaken :
    retires (bench rv32 (leBytes 4 0x00B50463 ++ leBytes 4 0x00000013 ++ leBytes 4 0x00000013) [(10, 0x5), (11, 0x6)] []) []
      0x1004 [] = true := by decide
theorem test_bne_taken_backward :
    retires { bench rv32 (leBytes 4 0x00000013 ++ leBytes 4 0x00000013 ++ leBytes 4 0xFEB51EE3) [(10, 0x1), (11, 0x2)] [] with
      pc := 0x1008 } [] 0x1004 [] = true := by decide
theorem test_bne_untaken :
    retires (bench rv32 (leBytes 4 0x00A51463 ++ leBytes 4 0x00000013 ++ leBytes 4 0x00000013) [(10, 0x1)] []) [] 0x1004 [] =
      true := by decide
theorem test_blt_is_signed :
    retires (bench rv32 (leBytes 4 0x00B54463 ++ leBytes 4 0x00000013 ++ leBytes 4 0x00000013) [(10, 0xFFFFFFFF), (11, 0x1)]
      []) [] 0x1008 [] = true := by decide
theorem test_bge_equal_is_taken :
    retires (bench rv32 (leBytes 4 0x00B55463 ++ leBytes 4 0x00000013 ++ leBytes 4 0x00000013) [(10, 0x3), (11, 0x3)] []) []
      0x1008 [] = true := by decide
theorem test_bge_untaken :
    retires (bench rv32 (leBytes 4 0x00B55463 ++ leBytes 4 0x00000013 ++ leBytes 4 0x00000013) [(10, 0xFFFFFFFF), (11, 0x0)]
      []) [] 0x1004 [] = true := by decide
theorem test_bltu_is_unsigned :
    retires (bench rv32 (leBytes 4 0x00B56463 ++ leBytes 4 0x00000013 ++ leBytes 4 0x00000013) [(10, 0xFFFFFFFF), (11, 0x1)]
      []) [] 0x1004 [] = true := by decide
theorem test_bltu_taken :
    retires (bench rv32 (leBytes 4 0x00B56463 ++ leBytes 4 0x00000013 ++ leBytes 4 0x00000013) [(10, 0x1), (11, 0xFFFFFFFF)]
      []) [] 0x1008 [] = true := by decide
theorem test_bgeu_taken :
    retires (bench rv32 (leBytes 4 0x00B57463 ++ leBytes 4 0x00000013 ++ leBytes 4 0x00000013) [(10, 0xFFFFFFFF), (11, 0x1)]
      []) [] 0x1008 [] = true := by decide
theorem test_bgeu_untaken :
    retires (bench rv32 (leBytes 4 0x00B57463 ++ leBytes 4 0x00000013 ++ leBytes 4 0x00000013) [(10, 0x0), (11, 0x1)] []) []
      0x1004 [] = true := by decide

/-! ### Loads and stores (spec/95_test_vectors.md, the vectors M-…) -/

theorem test_lb_sign_extends :
    retires (bench rv32 (leBytes 4 0x00028503) [(5, 0x20000)] (bytesAt 0x20000 [0xF0, 0x34, 0x92, 0xEF, 0xBE, 0xAD, 0xDE,
      0x08])) [(10, 0xFFFFFFF0)] 0x1004 [] = true := by decide
theorem test_lb_to_x0_still_faults :
    traps (bench rv32 (leBytes 4 0x00028003) [(5, 0x50000)] []) .protectionFault 0x50000 = true := by decide
theorem test_lbu_zero_extends :
    retires (bench rv32 (leBytes 4 0x0002C503) [(5, 0x20000)] (bytesAt 0x20000 [0xF0, 0x34, 0x92, 0xEF, 0xBE, 0xAD, 0xDE,
      0x08])) [(10, 0xF0)] 0x1004 [] = true := by decide
theorem test_lh_misaligned_is_allowed :
    retires (bench rv32 (leBytes 4 0x00129503) [(5, 0x20000)] (bytesAt 0x20000 [0xF0, 0x34, 0x92, 0xEF, 0xBE, 0xAD, 0xDE,
      0x08])) [(10, 0xFFFF9234)] 0x1004 [] = true := by decide
theorem test_lh_misaligned_with_align_check_faults :
    traps (bench { rv32 with alignCheck := true } (leBytes 4 0x00129503) [(5, 0x20000)] (bytesAt 0x20000 [0xF0, 0x34, 0x92,
      0xEF, 0xBE, 0xAD, 0xDE, 0x08])) .misalignedAccess 0x20001 = true := by decide
theorem test_lhu_zero_extends :
    retires (bench rv32 (leBytes 4 0x0012D503) [(5, 0x20000)] (bytesAt 0x20000 [0xF0, 0x34, 0x92, 0xEF, 0xBE, 0xAD, 0xDE,
      0x08])) [(10, 0x9234)] 0x1004 [] = true := by decide
theorem test_lw_straddles_two_pages :
    retires (bench rv32 (leBytes 4 0xFFE2A503) [(5, 0x21000)] (bytesAt 0x20FFE [0x78, 0x56, 0x34, 0x12])) [(10, 0x12345678)]
      0x1004 [] = true := by decide
theorem test_lw_straddling_fault_names_the_byte :
    traps (bench rv32 (leBytes 4 0xFFE2A503) [(5, 0x22000)] []) .protectionFault 0x22000 = true := by decide
theorem test_lwu_zero_extends :
    retires (bench rv64 (leBytes 4 0x0032E503) [(5, 0x20000)] (bytesAt 0x20000 [0xF0, 0x34, 0x92, 0xEF, 0xBE, 0xAD, 0xDE,
      0x08])) [(10, 0xDEADBEEF)] 0x1004 [] = true := by decide
theorem test_ld_is_little_endian :
    retires (bench rv64 (leBytes 4 0x0002B503) [(5, 0x20000)] (bytesAt 0x20000 [0xF0, 0x34, 0x92, 0xEF, 0xBE, 0xAD, 0xDE,
      0x08])) [(10, 0x8DEADBEEF9234F0)] 0x1004 [] = true := by decide
theorem test_sb_low_byte :
    retires (bench rv32 (leBytes 4 0x00B28023) [(5, 0x20000), (11, 0x12345678)] []) [] 0x1004 (bytesAt 0x20000 [0x78]) = true := by decide
theorem test_sh_misaligned_is_allowed :
    retires (bench rv32 (leBytes 4 0x00B290A3) [(5, 0x20000), (11, 0x12345678)] []) [] 0x1004 (bytesAt 0x20001 [0x78, 0x56]) =
      true := by decide
theorem test_sh_misaligned_with_align_check_faults :
    traps (bench { rv32 with alignCheck := true } (leBytes 4 0x00B290A3) [(5, 0x20000), (11, 0x12345678)] [])
      .misalignedAccess 0x20001 = true := by decide
theorem test_sw_straddles_two_pages :
    retires (bench rv32 (leBytes 4 0xFEB2AF23) [(5, 0x21000), (11, 0x12345678)] []) [] 0x1004 (bytesAt 0x20FFE [0x78, 0x56,
      0x34, 0x12]) = true := by decide
theorem test_sw_without_write_permission_faults :
    traps (bench rv32 (leBytes 4 0x00B2A023) [(5, 0x30000), (11, 0x1)] []) .protectionFault 0x30000 = true := by decide
theorem test_sd_is_little_endian :
    retires (bench rv64 (leBytes 4 0x00B2B023) [(5, 0x20000), (11, 0x807060504030201)] []) [] 0x1004 (bytesAt 0x20000 [0x01,
      0x02, 0x03, 0x04, 0x05, 0x06, 0x07, 0x08]) = true := by decide

/-! ### Atomics (spec/95_test_vectors.md, the vectors A-…) -/

theorem test_scW_without_a_reservation_fails :
    retires (bench rv32a (leBytes 4 0x18D5262F) [(10, 0x20000), (13, 0x9)] (bytesAt 0x20000 [0x05, 0x00, 0x00, 0x00])) [(12,
      0x1)] 0x1004 [] = true := by decide
theorem test_amoswapW :
    retires (bench rv32a (leBytes 4 0x08C525AF) [(10, 0x20000), (12, 0x7)] (bytesAt 0x20000 [0x05, 0x00, 0x00, 0x00])) [(11,
      0x5)] 0x1004 (bytesAt 0x20000 [0x07]) = true := by decide
theorem test_amoaddW_wraps :
    retires (bench rv32a (leBytes 4 0x00C525AF) [(10, 0x20000), (12, 0x1)] (bytesAt 0x20000 [0xFF, 0xFF, 0xFF, 0xFF])) [(11,
      0xFFFFFFFF)] 0x1004 (bytesAt 0x20000 [0x00, 0x00, 0x00, 0x00]) = true := by decide
theorem test_amoxorW :
    retires (bench rv32a (leBytes 4 0x20C525AF) [(10, 0x20000), (12, 0xFF)] (bytesAt 0x20000 [0x0F, 0x00, 0x00, 0x00])) [(11,
      0xF)] 0x1004 (bytesAt 0x20000 [0xF0]) = true := by decide
theorem test_amoandW :
    retires (bench rv32a (leBytes 4 0x60C525AF) [(10, 0x20000), (12, 0xF0)] (bytesAt 0x20000 [0x3C, 0x00, 0x00, 0x00])) [(11,
      0x3C)] 0x1004 (bytesAt 0x20000 [0x30]) = true := by decide
theorem test_amoorW :
    retires (bench rv32a (leBytes 4 0x40C525AF) [(10, 0x20000), (12, 0xF0)] (bytesAt 0x20000 [0x0F, 0x00, 0x00, 0x00])) [(11,
      0xF)] 0x1004 (bytesAt 0x20000 [0xFF]) = true := by decide
theorem test_amominW_is_signed :
    retires (bench rv32a (leBytes 4 0x80C525AF) [(10, 0x20000), (12, 0x1)] (bytesAt 0x20000 [0xFF, 0xFF, 0xFF, 0xFF])) [(11,
      0xFFFFFFFF)] 0x1004 [] = true := by decide
theorem test_amomaxW_is_signed :
    retires (bench rv32a (leBytes 4 0xA0C525AF) [(10, 0x20000), (12, 0x1)] (bytesAt 0x20000 [0xFF, 0xFF, 0xFF, 0xFF])) [(11,
      0xFFFFFFFF)] 0x1004 (bytesAt 0x20000 [0x01, 0x00, 0x00, 0x00]) = true := by decide
theorem test_amominuW_is_unsigned :
    retires (bench rv32a (leBytes 4 0xC0C525AF) [(10, 0x20000), (12, 0x1)] (bytesAt 0x20000 [0xFF, 0xFF, 0xFF, 0xFF])) [(11,
      0xFFFFFFFF)] 0x1004 (bytesAt 0x20000 [0x01, 0x00, 0x00, 0x00]) = true := by decide
theorem test_amomaxuW_is_unsigned :
    retires (bench rv32a (leBytes 4 0xE0C525AF) [(10, 0x20000), (12, 0x1)] (bytesAt 0x20000 [0xFF, 0xFF, 0xFF, 0xFF])) [(11,
      0xFFFFFFFF)] 0x1004 [] = true := by decide
theorem test_amoaddW_misaligned_faults :
    traps (bench rv32a (leBytes 4 0x00C525AF) [(10, 0x20002), (12, 0x1)] []) .misalignedAccess 0x20002 = true := by decide
theorem test_amoswapW_on_a_read_only_page_faults :
    traps (bench rv32a (leBytes 4 0x08C525AF) [(10, 0x30000), (12, 0x1)] []) .protectionFault 0x30000 = true := by decide
theorem test_amoswapD :
    retires (bench rv64a (leBytes 4 0x08C535AF) [(10, 0x20000), (12, 0x7)] (bytesAt 0x20000 [0xFF, 0xFF, 0xFF, 0xFF, 0xFF,
      0xFF, 0xFF, 0xFF])) [(11, 0xFFFFFFFFFFFFFFFF)] 0x1004 (bytesAt 0x20000 [0x07, 0x00, 0x00, 0x00, 0x00, 0x00, 0x00, 0x00]) =
      true := by decide
theorem test_amoaddD_wraps :
    retires (bench rv64a (leBytes 4 0x00C535AF) [(10, 0x20000), (12, 0x2)] (bytesAt 0x20000 [0xFF, 0xFF, 0xFF, 0xFF, 0xFF,
      0xFF, 0xFF, 0xFF])) [(11, 0xFFFFFFFFFFFFFFFF)] 0x1004 (bytesAt 0x20000 [0x01, 0x00, 0x00, 0x00, 0x00, 0x00, 0x00, 0x00]) =
      true := by decide
theorem test_amoxorD :
    retires (bench rv64a (leBytes 4 0x20C535AF) [(10, 0x20000), (12, 0xFF)] (bytesAt 0x20000 [0xFF, 0xFF, 0xFF, 0xFF, 0xFF,
      0xFF, 0xFF, 0xFF])) [(11, 0xFFFFFFFFFFFFFFFF)] 0x1004 (bytesAt 0x20000 [0x00]) = true := by decide
theorem test_amoandD :
    retires (bench rv64a (leBytes 4 0x60C535AF) [(10, 0x20000), (12, 0xF0)] (bytesAt 0x20000 [0xFF, 0xFF, 0xFF, 0xFF, 0xFF,
      0xFF, 0xFF, 0xFF])) [(11, 0xFFFFFFFFFFFFFFFF)] 0x1004 (bytesAt 0x20000 [0xF0, 0x00, 0x00, 0x00, 0x00, 0x00, 0x00, 0x00]) =
      true := by decide
theorem test_amoorD :
    retires (bench rv64a (leBytes 4 0x40C535AF) [(10, 0x20000), (12, 0x100)] (bytesAt 0x20000 [0x01, 0x00, 0x00, 0x00, 0x00,
      0x00, 0x00, 0x00])) [(11, 0x1)] 0x1004 (bytesAt 0x20001 [0x01]) = true := by decide
theorem test_amominD_is_signed :
    retires (bench rv64a (leBytes 4 0x80C535AF) [(10, 0x20000), (12, 0x1)] (bytesAt 0x20000 [0xFF, 0xFF, 0xFF, 0xFF, 0xFF,
      0xFF, 0xFF, 0xFF])) [(11, 0xFFFFFFFFFFFFFFFF)] 0x1004 [] = true := by decide
theorem test_amomaxD_is_signed :
    retires (bench rv64a (leBytes 4 0xA0C535AF) [(10, 0x20000), (12, 0x1)] (bytesAt 0x20000 [0xFF, 0xFF, 0xFF, 0xFF, 0xFF,
      0xFF, 0xFF, 0xFF])) [(11, 0xFFFFFFFFFFFFFFFF)] 0x1004 (bytesAt 0x20000 [0x01, 0x00, 0x00, 0x00, 0x00, 0x00, 0x00, 0x00]) =
      true := by decide
theorem test_amominuD_is_unsigned :
    retires (bench rv64a (leBytes 4 0xC0C535AF) [(10, 0x20000), (12, 0x1)] (bytesAt 0x20000 [0xFF, 0xFF, 0xFF, 0xFF, 0xFF,
      0xFF, 0xFF, 0xFF])) [(11, 0xFFFFFFFFFFFFFFFF)] 0x1004 (bytesAt 0x20000 [0x01, 0x00, 0x00, 0x00, 0x00, 0x00, 0x00, 0x00]) =
      true := by decide
theorem test_amomaxuD_is_unsigned :
    retires (bench rv64a (leBytes 4 0xE0C535AF) [(10, 0x20000), (12, 0x1)] (bytesAt 0x20000 [0xFF, 0xFF, 0xFF, 0xFF, 0xFF,
      0xFF, 0xFF, 0xFF])) [(11, 0xFFFFFFFFFFFFFFFF)] 0x1004 [] = true := by decide
theorem test_amoaddD_on_rv32_faults :
    traps (bench rv32a (leBytes 4 0x00C535AF) [(10, 0x20000)] []) .unimplementedInstruction 0xC535AF = true := by decide

/-! ### System (spec/95_test_vectors.md, the vectors S-…) -/

theorem test_fence_only_advances : retires (bench rv32 (leBytes 4 0x0FF0000F) [] []) [] 0x1004 [] = true := by decide
theorem test_fenceI_faults :
    traps (bench rv32 (leBytes 4 0x0000100F) [] []) .unimplementedInstruction 0x100F = true := by decide
theorem test_ecall_returns_in_a0 :
    retires { bench rv32 (leBytes 4 0x00000073) [(17, 0x40), (10, 0x1)] [] with handlers := [(64, 1)], scripts := [(1, answer
      [] (.lit 5))] } [(10, 0x5)] 0x1004 [] = true := by decide
theorem test_ecall_without_a_handler :
    retires (bench rv32 (leBytes 4 0x00000073) [(17, 0x40), (10, 0x1)] []) [(10, 0xFFFFFFDA)] 0x1004 [] = true := by decide
theorem test_ebreak_keeps_a0 :
    retires { bench rv32 (leBytes 4 0x00100073) [(10, 0x5)] [] with handlers := [(0x8000, 1)], scripts := [(1, answer [] (.lit
      7))] } [] 0x1004 [] = true := by decide
theorem test_mul_faults :
    traps (bench rv32 (leBytes 4 0x02B50533) [(10, 0x3), (11, 0x4)] []) .unimplementedInstruction 0x2B50533 = true := by decide
theorem test_csrrs_faults :
    traps (bench rv32 (leBytes 4 0xC0202573) [] []) .unimplementedInstruction 0xC0202573 = true := by decide
theorem test_wfi_faults :
    traps (bench rv32 (leBytes 4 0x10500073) [] []) .unimplementedInstruction 0x10500073 = true := by decide
theorem test_mret_faults :
    traps (bench rv32 (leBytes 4 0x30200073) [] []) .unimplementedInstruction 0x30200073 = true := by decide
theorem test_flw_faults :
    traps (bench rv32 (leBytes 4 0x00052007) [(10, 0x20000)] []) .unimplementedInstruction 0x52007 = true := by decide

/-! ### Compressed (spec/95_test_vectors.md, the vectors C-…) -/

theorem test_cAddi4spn : retires (bench rv32c (leBytes 2 0x0808) [] []) [(10, 0x80010)] 0x1002 [] = true := by decide
theorem test_cLw :
    retires (bench rv32c (leBytes 2 0x41C8) [(11, 0x20000)] (bytesAt 0x20004 [0x78, 0x56, 0x34, 0x92])) [(10, 0x92345678)]
      0x1002 [] = true := by decide
theorem test_cLd :
    retires (bench rv64c (leBytes 2 0x6588) [(11, 0x20000)] (bytesAt 0x20008 [0x01, 0x02, 0x03, 0x04, 0x05, 0x06, 0x07,
      0x08])) [(10, 0x807060504030201)] 0x1002 [] = true := by decide
theorem test_cSw :
    retires (bench rv32c (leBytes 2 0xC1C8) [(11, 0x20000), (10, 0xDEADBEEF)] []) [] 0x1002 (bytesAt 0x20004 [0xEF, 0xBE,
      0xAD, 0xDE]) = true := by decide
theorem test_cSd :
    retires (bench rv64c (leBytes 2 0xE588) [(11, 0x20000), (10, 0x102030405060708)] []) [] 0x1002 (bytesAt 0x20008 [0x08,
      0x07, 0x06, 0x05, 0x04, 0x03, 0x02, 0x01]) = true := by decide
theorem test_cNop : retires (bench rv32c (leBytes 2 0x0001) [] []) [] 0x1002 [] = true := by decide
theorem test_cAddi : retires (bench rv32c (leBytes 2 0x157D) [(10, 0x0)] []) [(10, 0xFFFFFFFF)] 0x1002 [] = true := by decide
theorem test_cJal_links :
    retires (bench rv32c (leBytes 2 0x2021 ++ leBytes 2 0x0001 ++ leBytes 2 0x0001 ++ leBytes 2 0x0001 ++ leBytes 2 0x0001) []
      []) [(1, 0x1002)] 0x1008 [] = true := by decide
theorem test_cJal_on_rv64_is_reserved :
    traps (bench rv64c (leBytes 2 0x2021) [] []) .unimplementedInstruction 0x2021 = true := by decide
theorem test_cAddiw_ignores_the_high_half :
    retires (bench rv64c (leBytes 2 0x2501) [(10, 0x180000000)] []) [(10, 0xFFFFFFFF80000000)] 0x1002 [] = true := by decide
theorem test_cLi : retires (bench rv32c (leBytes 2 0x557D) [] []) [(10, 0xFFFFFFFF)] 0x1002 [] = true := by decide
theorem test_cAddi16sp : retires (bench rv32c (leBytes 2 0x7139) [] []) [(2, 0x7FFC0)] 0x1002 [] = true := by decide
theorem test_cLui : retires (bench rv32c (leBytes 2 0x757D) [] []) [(10, 0xFFFFF000)] 0x1002 [] = true := by decide
theorem test_cSrli :
    retires (bench rv32c (leBytes 2 0x8105) [(10, 0x80000000)] []) [(10, 0x40000000)] 0x1002 [] = true := by decide
theorem test_cSrai :
    retires (bench rv32c (leBytes 2 0x8505) [(10, 0x80000000)] []) [(10, 0xC0000000)] 0x1002 [] = true := by decide
theorem test_cAndi : retires (bench rv32c (leBytes 2 0x893D) [(10, 0xFFFFFFFF)] []) [(10, 0xF)] 0x1002 [] = true := by decide
theorem test_cSub :
    retires (bench rv32c (leBytes 2 0x8D0D) [(10, 0x5), (11, 0x7)] []) [(10, 0xFFFFFFFE)] 0x1002 [] = true := by decide
theorem test_cXor :
    retires (bench rv32c (leBytes 2 0x8D2D) [(10, 0xFF), (11, 0xF)] []) [(10, 0xF0)] 0x1002 [] = true := by decide
theorem test_cOr :
    retires (bench rv32c (leBytes 2 0x8D4D) [(10, 0xF0), (11, 0xF)] []) [(10, 0xFF)] 0x1002 [] = true := by decide
theorem test_cAnd :
    retires (bench rv32c (leBytes 2 0x8D6D) [(10, 0xFF), (11, 0xF)] []) [(10, 0xF)] 0x1002 [] = true := by decide
theorem test_cSubw :
    retires (bench rv64c (leBytes 2 0x9D0D) [(10, 0x0), (11, 0x1)] []) [(10, 0xFFFFFFFFFFFFFFFF)] 0x1002 [] = true := by decide
theorem test_cAddw :
    retires (bench rv64c (leBytes 2 0x9D2D) [(10, 0x7FFFFFFF), (11, 0x1)] []) [(10, 0xFFFFFFFF80000000)] 0x1002 [] = true := by decide
theorem test_cJ_backward :
    retires { bench rv32c (leBytes 2 0x0001 ++ leBytes 2 0x0001 ++ leBytes 2 0xBFF5) [] [] with pc := 0x1004 } [] 0x1000 [] =
      true := by decide
theorem test_cBeqz_taken :
    retires (bench rv32c (leBytes 2 0xC111 ++ leBytes 2 0x0001 ++ leBytes 2 0x0001) [(10, 0x0)] []) [] 0x1004 [] = true := by decide
theorem test_cBeqz_untaken :
    retires (bench rv32c (leBytes 2 0xC111 ++ leBytes 2 0x0001 ++ leBytes 2 0x0001) [(10, 0x1)] []) [] 0x1002 [] = true := by decide
theorem test_cBnez_backward :
    retires { bench rv32c (leBytes 2 0x0001 ++ leBytes 2 0xFD7D) [(10, 0x3)] [] with pc := 0x1002 } [] 0x1000 [] = true := by decide
theorem test_cSlli_by_32 :
    retires (bench rv64c (leBytes 2 0x1502) [(10, 0x1)] []) [(10, 0x100000000)] 0x1002 [] = true := by decide
theorem test_cSlli_by_32_on_rv32_faults :
    traps (bench rv32c (leBytes 2 0x1502) [(10, 0x1)] []) .unimplementedInstruction 0x1502 = true := by decide
theorem test_cLwsp :
    retires (bench rv32c (leBytes 2 0x4532) [(2, 0x20000)] (bytesAt 0x2000C [0x2A, 0x00, 0x00, 0x00])) [(10, 0x2A)] 0x1002 []
      = true := by decide
theorem test_cLdsp :
    retires (bench rv64c (leBytes 2 0x6522) [(2, 0x20000)] (bytesAt 0x20008 [0x01, 0x02, 0x03, 0x04, 0x05, 0x06, 0x07, 0x08]))
      [(10, 0x807060504030201)] 0x1002 [] = true := by decide
theorem test_cJr :
    retires (bench rv32c (leBytes 2 0x8082 ++ leBytes 2 0x0001 ++ leBytes 2 0x0001) [(1, 0x1004)] []) [] 0x1004 [] = true := by decide
theorem test_cMv : retires (bench rv32c (leBytes 2 0x852E) [(11, 0x1234)] []) [(10, 0x1234)] 0x1002 [] = true := by decide
theorem test_cEbreak_keeps_a0 :
    retires { bench rv32c (leBytes 2 0x9002) [(10, 0x5)] [] with handlers := [(0x8000, 1)], scripts := [(1, answer [] (.lit
      7))] } [] 0x1002 [] = true := by decide
theorem test_cJalr_links_two_bytes_on :
    retires (bench rv32c (leBytes 2 0x9282 ++ leBytes 2 0x0001 ++ leBytes 2 0x0001) [(5, 0x1004)] []) [(1, 0x1002)] 0x1004 []
      = true := by decide
theorem test_cAdd_wraps :
    retires (bench rv32c (leBytes 2 0x952E) [(10, 0xFFFFFFFF), (11, 0x2)] []) [(10, 0x1)] 0x1002 [] = true := by decide
theorem test_cSwsp :
    retires (bench rv32c (leBytes 2 0xC62A) [(2, 0x20000), (10, 0x11223344)] []) [] 0x1002 (bytesAt 0x2000C [0x44, 0x33, 0x22,
      0x11]) = true := by decide
theorem test_cSdsp :
    retires (bench rv64c (leBytes 2 0xE42A) [(2, 0x20000), (10, 0x1122334455667788)] []) [] 0x1002 (bytesAt 0x20008 [0x88,
      0x77, 0x66, 0x55, 0x44, 0x33, 0x22, 0x11]) = true := by decide
theorem test_cIllegal_faults : traps (bench rv32c (leBytes 2 0x0000) [] []) .unimplementedInstruction 0x0 = true := by decide
theorem test_compressed_hint_faults :
    traps (bench rv32c (leBytes 2 0x4015) [] []) .unimplementedInstruction 0x4015 = true := by decide
theorem test_cFld_faults : traps (bench rv32c (leBytes 2 0x2100) [] []) .unimplementedInstruction 0x2100 = true := by decide
theorem test_compressed_without_the_extension_faults :
    traps (bench rv32 (leBytes 2 0x4515) [] []) .unimplementedInstructionLength 0x4515 = true := by decide

/-! ### Fetch (spec/95_test_vectors.md, the vectors F-…) -/

theorem test_fetch_below_the_segment_faults :
    traps { bench rv32 (leBytes 4 0x00000013) [] [] with pc := 0xFFC } .executionSpaceProtectionFault 0xFFC = true := by decide
theorem test_fetch_misaligned_faults :
    traps { bench rv32 (leBytes 4 0x00000013 ++ leBytes 4 0x00000013) [] [] with pc := 0x1002 } .executionSpaceProtectionFault
      0x1002 = true := by decide
theorem test_fetch_of_a_48_bit_length_faults :
    traps (bench rv32 (leBytes 4 0x0000001F) [] []) .unimplementedInstructionLength 0x1F = true := by decide
/-! ### The address space, one step each (the vectors A-LR1, A-LRD1, M-LW5, M-LW9, M-TRAP1, M-COW1, M-STR2, F-X2) -/

theorem test_lrW_reserves :
    steps (bench rv32a (leBytes 4 0x100525AF) [(10, 0x20000)] (bytesAt 0x20000 [5, 0, 0, 0]))
      (fun t => t.x 11 == 5 && t.resv == ⟨true, 0x20000, .w4⟩) = true := by decide
theorem test_lrD_reserves :
    steps (bench rv64a (leBytes 4 0x100535AF) [(10, 0x20000)] (bytesAt 0x20000 [1, 2, 3, 4, 5, 6, 7, 8]))
      (fun t => t.x 11 == 0x807060504030201 && t.resv == ⟨true, 0x20000, .w8⟩) = true := by decide
theorem test_scW_stores_on_its_reservation :
    steps { bench rv32a (leBytes 4 0x18D5262F) [(10, 0x20000), (12, 7), (13, 9)] [] with resv := ⟨true, 0x20000, .w4⟩ }
      (fun t => t.x 12 == 0 && t.byte 0x20000 == 9 && !t.resv.valid) = true := by decide
theorem test_scD_stores_on_its_reservation :
    steps { bench rv64a (leBytes 4 0x18D5362F) [(10, 0x20000), (13, 0x1122334455667788)] [] with resv := ⟨true, 0x20000, .w8⟩ }
      (fun t => t.x 12 == 0 && t.byte 0x20007 == 0x11 && !t.resv.valid) = true := by decide
theorem test_scD_ignores_a_word_reservation :
    steps { bench rv64a (leBytes 4 0x18D5362F) [(10, 0x20000), (13, 9)] [] with resv := ⟨true, 0x20000, .w4⟩ }
      (fun t => t.x 12 == 1 && t.byte 0x20000 == 0 && !t.resv.valid) = true := by decide
theorem test_zeroRW_installs_a_page :
    steps (bench { rv32 with pageFault := .zeroRW } (leBytes 4 0x0002A503) [(5, 0x50000)] [])
      (fun t => t.x 10 == 0 && t.pageAt 0x50 == some ⟨⟨true, true, false⟩, .owned⟩) = true := by decide
theorem test_trap_page_answers_a_load :
    steps
      (let s := bench rv32 (leBytes 4 0x0082A503) [(5, 0x40000)] []
       { s with pages := SMap.insert 0x40 ⟨.rw, .trap 1 none⟩ s.pages, scripts := [(1, answer [] (.lit 0x1234))] })
      (fun t => t.x 10 == 0x1234) = true := by decide
theorem test_shared_page_is_copied_on_write :
    steps
      (let s := bench rv32 (leBytes 4 0x00B2A023) [(5, 0x50000), (11, 0xAABBCCDD)] (bytesAt 0x50000 [0x11, 0x22, 0x33, 0x44, 0x55])
       { s with pages := SMap.insert 0x50 ⟨.rw, .sharedRO⟩ s.pages })
      (fun t => t.pageAt 0x50 == some ⟨.rw, .owned⟩ &&
        Memory.readBytes t.mem 0x50000 5 == [0xDD, 0xCC, 0xBB, 0xAA, 0x55]) = true := by decide
theorem test_fetch_over_a_page_boundary :
    retires
      (let s := bench rv32c [] [] (bytesAt 0x1FFE [0x13, 0x05, 0xA0, 0x02])
       { s with pc := 0x1FFE, execLen := 0x1004, pages := SMap.insert 2 ⟨⟨true, false, true⟩, .owned⟩ s.pages })
      [(10, 0x2A)] 0x2002 [] = true := by decide

/-- R8, R161, D8: the bound is compared unbounded, the second parcel is at address 0, and the pc wraps. -/
def atTop : State :=
  { bench rv32c [] [] [(0, 0xA0), (1, 0x02), (0xFFFFFFFE, 0x13), (0xFFFFFFFF, 0x05)] with
    pc := 0xFFFFFFFE
    execBase := 0xFFFFFFFE
    execLen := 4
    exitAddress := 0x1000
    pages := [(0, ⟨.rw, .owned⟩), (0xFFFFF, ⟨.rw, .owned⟩)] }
theorem test_fetch_over_the_top : steps atTop (fun t => t.x 10 == 0x2A && t.pc == 2 && t.counter == 1) = true := by decide
theorem test_fetch_over_the_top_unbacked :
    refuses { atTop with pages := SMap.erase 0 atTop.pages } .fetchFromUnbackedExecPage = true := by decide
/-- The word placed over the top of the address space is the next instruction. -/
theorem test_place_word_over_the_top :
    steps (({ State.reset with params := rv32c, pc := 0xFFFFFFFE }).withFetchWord 32 0x02A00513) (fun t => t.x 10 == 0x2A && t.pc == 2) =
      true := by decide

/-! ### The run loop and the host (the vectors F-EXIT1, F-BUD1, F-BUD2, F-STOP1, H-…) -/

theorem test_exit_sentinel_stops :
    steps { bench rv32 (leBytes 4 0x00100513) [] [] with exitAddress := 0x1000 }
      (fun t => t.x 10 == 0 && t.counter == 0 && t.status == .stopped && t.stopped) = true := by decide
theorem test_budget_ends_the_run :
    steps { bench rv32 (leBytes 4 0x00000013) [] [] with counter := 3, run := some ⟨0, 3⟩ }
      (fun t => t.counter == 3 && t.status == .running && t.run == none) = true := by decide
theorem test_budget_with_deadlock_fails :
    steps { bench { rv32 with deadlockOnBudget := true } (leBytes 4 0x0000006F) [] [] with counter := 4, run := some ⟨0, 4⟩ }
      (fun t => t.status == .trapped .deadlock 4 && t.pc == 0x1000) = true := by decide
theorem test_stop_lets_the_ecall_retire :
    steps { bench rv32 (leBytes 4 0x00000073) [(17, 93), (10, 3)] [] with
        handlers := [(93, 1)], scripts := [(1, answer [.stop] (.reg 10))] }
      (fun t => t.x 10 == 3 && t.pc == 0x1004 && t.counter == 1 && t.stopped) = true := by decide
theorem test_realign_stack_rounds_down :
    steps (called (bench rv32 [] [(2, 0x7FFF4)] []) (.realignStack 16))
      (fun t => t.x 2 == 0x7FFF0 && t.hostResult == .ok) = true := by decide
theorem test_realign_stack_by_15_fails :
    steps (called (bench rv32 [] [(2, 0x7FFF4)] []) (.realignStack 15))
      (fun t => t.x 2 == 0x7FFF4 && t.hostResult == .failed .invalidAlignment 15) = true := by decide
theorem test_setup_call_writes_its_arguments :
    steps (called (bench rv32 [] [(1, 5), (13, 7)] []) (.setupCall 0x1000 0 [1, 2, 0x100000003]))
      (fun t => t.x 1 == 0 && t.x 10 == 1 && t.x 11 == 2 && t.x 12 == 3 && t.x 13 == 7 && t.pc == 0x1000) = true := by decide
theorem test_setup_call_with_nine_arguments_fails :
    steps (called (bench rv32 [] [(1, 5)] []) (.setupCall 0x1008 0 [1, 2, 3, 4, 5, 6, 7, 8, 9]))
      (fun t => t.x 1 == 5 && t.pc == 0x1000 && t.hostResult == .failed .invalidArgument 9) = true := by decide
theorem test_memcpy_copies_the_shared_page_only :
    steps
      (let s := bench rv32 [] [] (bytesAt 0x21002 [7])
       called { s with pages := SMap.insert 0x21 ⟨.rw, .sharedRO⟩ s.pages } (.memcpy 0x20FFE [0xAA, 0xAA, 0xAA, 0xAA]))
      (fun t => t.hostResult == .ok && Memory.readBytes t.mem 0x20FFE 5 == [0xAA, 0xAA, 0xAA, 0xAA, 7] &&
        t.pageAt 0x20 == some ⟨.rw, .owned⟩ && t.pageAt 0x21 == some ⟨.rw, .owned⟩) = true := by decide
/-- R445: the end of the copy is the answer of `copy_to_guest`. -/
theorem test_copy_to_guest_answers_its_end :
    steps (called (bench rv32 [] [] []) (.copyToGuest 0x20FFE [1, 2, 3, 4]))
      (fun t => t.hostResult == .value 0x21002 && t.byte 0x21001 == 4) = true := by decide
/-- R445: `memcpy_out` puts guest bytes into the host's memory, which a NonOwned page shows (R93); a failure part-way leaves the bytes
before it. -/
theorem test_memcpy_out_writes_the_buffer :
    steps
      (let s := bench rv32 [] [] (bytesAt 0x20FFE [1, 2, 3])
       called { s with pages := SMap.insert 0x50 ⟨.rw, .nonOwned 0x7000 false⟩ s.pages } (.memcpyOut 0x7004 0x20FFE 3))
      (fun t => t.hostResult == .ok && t.bytes 0x50003 5 == [0, 1, 2, 3, 0] && t.bytes 0x20FFE 3 == [1, 2, 3]) = true := by decide
theorem test_memcpy_out_fails_part_way :
    steps
      (let s := bench rv32 [] [] (bytesAt 0x20FFF [7])
       called { s with pages := SMap.erase 0x21 s.pages } (.memcpyOut 0x7004 0x20FFF 2))
      (fun t => t.hostResult == .failed .protectionFault 0x21000 && t.hostMem == [(0x7004, 7)]) = true := by decide
/-- R93: two pages over one buffer show the same bytes. -/
theorem test_pages_over_one_buffer_alias :
    steps
      (let s := bench rv32 (leBytes 4 0x00B2A023) [(5, 0x50008), (11, 0xAABBCCDD)] []
       { s with pages := SMap.insert 0x60 ⟨.rw, .nonOwned 0x7000 false⟩ (SMap.insert 0x50 ⟨.rw, .nonOwned 0x7000 false⟩ s.pages) })
      (fun t => t.byte 0x60008 == 0xDD && t.get (.host 0x700B) == 0xAA && t.byte 0x6000C == 0) = true := by decide
theorem test_insert_non_owned_shows_the_buffer :
    steps (called { bench rv32 [] [] [] with hostMem := [(0x7001, 5)] } (.insertNonOwned 0x50800 0x7000 0x1000 .rw))
      (fun t => t.byte 0x50801 == 5 && t.byte 0x51801 == 0 && t.pageAt 0x51 == some ⟨.rw, .nonOwned 0x7800 false⟩) = true := by
  decide
/-- R434: what the table holds for a number, before and after its removal. -/
theorem test_get_syscall_handler :
    steps (called { bench rv32 [] [] [] with handlers := [(93, 4)] } (.getHandler 93)) (fun t => t.hostResult == .handler (some 4)) =
        true ∧
      steps (called { bench rv32 [] [] [] with handlers := [(93, 4)] } (.getHandler 94)) (fun t => t.hostResult == .handler none) =
        true := by decide
/-- A handler (number 1) that copies to an unmapped page under policy `Host`; the page-fault callback (number 2) does `acts`. -/
def nesting (acts : List HostOp) : State :=
  { bench { rv32 with pageFault := .host } (leBytes 4 0x00000073) [(17, 93)] [] with
    handlers := [(93, 1)]
    pageFaultCallback := 2
    scripts := [(1, answer [.memcpy 0x50000 [7]] (.reg 12)), (2, ⟨acts, none, .lit 0, ⟨.rw, .owned, [1, 2]⟩⟩)] }
/-- R430: a callback called from a callback may use the host operations as well, but not `reset` or `simulate`. -/
theorem test_a_nested_callback_acts :
    steps (nesting [.setReg 12 9]) (fun t => t.x 12 == 9 && t.x 10 == 9 && t.byte 0x50000 == 7 && t.byte 0x50001 == 2) = true := by
  decide
theorem test_a_nested_callback_may_not_reset :
    refuses (nesting [.reset]) .reentrantReset = true ∧ refuses (nesting [.simulate 1]) .reentrantSimulate = true := by decide
/-- R421: a failed operation of a nested callback ends the step of the ECALL. -/
theorem test_a_nested_failure_ends_the_step :
    steps (nesting [.realignStack 15, .setReg 12 9]) (fun t => t.status == .trapped .invalidAlignment 15 && t.x 12 == 0 && t.pc == 0x1000) =
      true := by decide
/-- R410 item 3: what a callback writes to a byte a straddling store stored before is no longer the store's to take back. -/
theorem test_a_host_write_drops_the_note :
    let s := (idle0.putNoted (.guest 0x20FFE) 1).putNoted (.guest 0x20FFF) 2
    (s.hostPut (.guest 0x20FFE) 0xEE).undo = [(.guest 0x20FFF, 0)] ∧ (s.installPage 0x20 ⟨.rw, .sharedRO⟩ []).undo = [] ∧
      restoreBytes s.undo s = { idle0 with undo := s.undo } := by decide
theorem test_memcpy_to_an_unmapped_page_fails :
    steps (called (bench rv32 [] [] []) (.memcpy 0x50000 [1]))
      (fun t => t.hostResult == .failed .protectionFault 0x50000 && t.pageAt 0x50 == none) = true := by decide
theorem test_reset_keeps_memory :
    steps (called { bench rv32 [] [(10, 7), (2, 0x7FFF0), (17, 0x5D)] (bytesAt 0x7FFF0 [7]) with pc := 0x1014, counter := 5 } .reset)
      (fun t => t.x 2 == 0x80000 && t.x 10 == 0 && t.pc == 0x1000 && t.counter == 0 && t.status == .init &&
        t.byte 0x7FFF0 == 7) = true := by decide
theorem test_simulate_resumes_after_a_fault :
    steps { called (bench rv32 [] [] []) (.simulate 0) with status := .trapped .protectionFault 0x30000, pc := 0x1008, counter := 2 }
      (fun t => t.status == .running && t.pc == 0x1008 && t.counter == 2 && t.run == some ⟨2, 0⟩) = true := by decide
theorem test_idle_machine_holds_its_state : step State.reset = .next State.reset := by rfl

/-! ### Witnesses: states and operands that meet the hypotheses of the obligations.  Each theorem carries the name of its
obligation; clauses that exclude each other get a state each. -/

/-- The state the witnesses start from. -/
def idle (p : Params) : State := bench p [] [] []

/-- UpperImmediateResults, RegisterImmediateResults, RegisterRegisterResults, FenceResult: their one hypothesis, at 0 and at the last
value the counter may have. -/
theorem witness_counter :
    (idle rv32).counter ≠ counterMax ∧ ({ idle rv64 with counter := counterMax - 1 }).counter ≠ counterMax := by decide

theorem witness_ImmediateShiftResults :
    (idle rv32).counter ≠ counterMax ∧ (31#6).toNat < (idle rv32).w.xlen ∧ (idle rv32).w.xlen ≤ (32#6).toNat ∧
      (63#6).toNat < (idle rv64).w.xlen := by decide

/-- WordImmediateResults and WordRegisterResults. -/
theorem witness_WordResults :
    (idle rv64).counter ≠ counterMax ∧ (idle rv64).w = .w8 ∧ (idle rv32).counter ≠ counterMax ∧ (idle rv32).w = .w4 := by decide

theorem witness_JumpAndLinkResult :
    (idle rv32).counter ≠ counterMax ∧ (0x0FFFFE#21).toNat % 2 = 0 ∧ (0x100000#21).toNat % 2 = 0 := by decide

theorem witness_JumpRegisterResult :
    let s := bench rv32 [] [(5, 0xFFFFFFFF)] []
    s.counter ≠ counterMax ∧ s.mod (s.ux 5 + (1#12).toInt) % 2 = 0 ∧ s.mod (s.ux 5 + (2#12).toInt) % 2 = 1 := by decide

theorem witness_BranchResults :
    (idle rv32).counter ≠ counterMax ∧ (0x0FFE#13).toNat % 2 = 0 ∧ (0x1000#13).toNat % 2 = 0 := by decide

/-- The last byte of a page, accesses over the page boundary, the last doubleword of a page. -/
theorem witness_LoadResults :
    let s := bench rv64 [] [(5, 0x21000)] []
    s.counter ≠ counterMax ∧ s.canRead (s.ea 5 (-1 : BitVec 12)) .b1 = true ∧ s.canRead (s.ea 5 (-1 : BitVec 12)) .b2 = true ∧
      s.canRead (s.ea 5 (-2 : BitVec 12)) .b4 = true ∧ s.canRead (s.ea 5 (-8 : BitVec 12)) .b8 = true ∧ s.w = .w8 ∧
      s.canRead (s.ea 6 (0x7FF : BitVec 12)) .b1 = false := by decide

theorem witness_LoadFaults_misaligned :
    let s := bench { rv32 with alignCheck := true } [] [(5, 0x20001)] []
    IsLoad s (.lw 10 5 0) 4 (s.ea 5 (0 : BitVec 12)) .b4 true 10 ∧ (Instr.lw 10 5 0).wf s.params = true ∧
      s.params.alignCheck = true ∧ (s.ea 5 (0 : BitVec 12)).toNat % Size.b4.bytes ≠ 0 :=
  ⟨.lw 10 5 0, by decide⟩

/-- The third byte stands in a page that is not mapped; the bytes before it are readable. -/
theorem witness_LoadFaults_missing_page :
    let s := bench rv32 [] [(5, 0x21FFE)] []
    let ea := s.ea 5 (0 : BitVec 12)
    IsLoad s (.lw 10 5 0) 4 ea .b4 true 10 ∧ (Instr.lw 10 5 0).wf s.params = true ∧ misaligned ea .b4 s = false ∧
      (∀ j < 2, s.readable (s.byteAddr ea j) = true) ∧ s.pageAt (pageOf (s.byteAddr ea 2)) = none ∧ s.params.pageFault = .fault :=
  ⟨.lw 10 5 0, by decide⟩

theorem witness_LoadFaults_without_read :
    let s := { bench rv64c [] [(2, 0x20000)] [] with pages := [(0x20, ⟨⟨false, true, false⟩, .owned⟩)] }
    let ea := s.eaU 2 (0 : BitVec 9)
    IsLoad s (.cLdsp 10 0) 2 ea .b8 true 10 ∧ (Instr.cLdsp 10 0).wf s.params = true ∧ misaligned ea .b8 s = false ∧
      s.pageAt (pageOf (s.byteAddr ea 0)) = some ⟨⟨false, true, false⟩, .owned⟩ :=
  ⟨.cLdsp 10 0, by decide⟩

theorem witness_StoreResults :
    let s := bench rv64 [] [(5, 0x21000)] []
    s.counter ≠ counterMax ∧ s.canStore (s.ea 5 (-1 : BitVec 12)) .b1 = true ∧ s.canStore (s.ea 5 (-1 : BitVec 12)) .b2 = true ∧
      s.canStore (s.ea 5 (-2 : BitVec 12)) .b4 = true ∧ s.canStore (s.ea 5 (-4 : BitVec 12)) .b8 = true ∧ s.w = .w8 := by decide

theorem witness_StoreFaults_misaligned :
    let s := bench { rv32 with alignCheck := true } [] [(5, 0x20001)] []
    IsStore s (.sh 5 6 0) 4 (s.ea 5 (0 : BitVec 12)) .b2 (s.x 6) ∧ (Instr.sh 5 6 0).wf s.params = true ∧
      s.params.alignCheck = true ∧ (s.ea 5 (0 : BitVec 12)).toNat % Size.b2.bytes ≠ 0 :=
  ⟨.sh 5 6 0, by decide⟩

theorem witness_StoreFaults_missing_page :
    let s := bench rv32 [] [(5, 0x22000)] []
    IsStore s (.sw 5 6 0) 4 (s.ea 5 (0 : BitVec 12)) .b4 (s.x 6) ∧ (Instr.sw 5 6 0).wf s.params = true ∧
      misaligned (s.ea 5 (0 : BitVec 12)) .b4 s = false ∧ s.pageAt (pageOf (s.ea 5 (0 : BitVec 12)).toNat) = none ∧
      s.params.pageFault = .fault :=
  ⟨.sw 5 6 0, by decide⟩

theorem witness_StoreFaults_without_write :
    let s := bench rv32 [] [(5, 0x30FFF)] []
    IsStore s (.sw 5 6 0) 4 (s.ea 5 (0 : BitVec 12)) .b4 (s.x 6) ∧ misaligned (s.ea 5 (0 : BitVec 12)) .b4 s = false ∧
      s.pageAt (pageOf (s.ea 5 (0 : BitVec 12)).toNat) = some ⟨⟨true, false, false⟩, .owned⟩ :=
  ⟨.sw 5 6 0, by decide⟩

/-- The last byte of the store is the first of the execute segment. -/
theorem witness_StoreFaults_constant_segment :
    let s := { bench { rv32 with execConstant := true } [0, 0] [(5, 0x20FFC)] [] with execBase := 0x20FFF }
    IsStore s (.sw 5 6 0) 4 (s.ea 5 (0 : BitVec 12)) .b4 (s.x 6) ∧ misaligned (s.ea 5 (0 : BitVec 12)) .b4 s = false ∧
      s.pageAt (pageOf (s.ea 5 (0 : BitVec 12)).toNat) = some ⟨.rw, .owned⟩ ∧
      inOnePage (s.ea 5 (0 : BitVec 12)).toNat Size.b4.bytes = true ∧ s.params.execConstant = true ∧
      (∃ k < Size.b4.bytes, s.inExecSegment ((s.ea 5 (0 : BitVec 12)).toNat + k) = true) :=
  ⟨.sw 5 6 0, by decide⟩

/-- Both values of the page's `write`, with and without room under `MEMORY_MAX`. -/
theorem witness_SharedPageStore :
    let s (w : Bool) (cap : Option Nat) : State :=
      { bench { rv32 with memoryMax := cap } [] [(5, 0x50FFC)] [] with pages := [(0x50, ⟨⟨true, w, false⟩, .sharedRO⟩)] }
    ∀ w : Bool, IsStore (s w none) (.sw 5 6 0) 4 0x50FFC .b4 ((s w none).x 6) ∧ (Instr.sw 5 6 0).wf (s w none).params = true ∧
      (s w none).counter ≠ counterMax ∧ misaligned 0x50FFC .b4 (s w none) = false ∧ inOnePage 0x50FFC Size.b4.bytes = true ∧
      (s w none).pageAt 0x50 = some ⟨⟨true, w, false⟩, .sharedRO⟩ ∧ (s w none).pageWriteCallback = none ∧
      (s w none).params.execConstant = false ∧ (s w none).outOfMemory = false ∧ (s w (some 4096)).outOfMemory = false ∧
      (s w (some 4095)).outOfMemory = true := by
  intro s w
  cases w <;> exact ⟨.sw 5 6 0, by decide⟩

theorem witness_StraddlingStoreFault_missing_page :
    let s := bench rv32 [] [(5, 0x21FFD)] []
    let ea := s.ea 5 (0 : BitVec 12)
    IsStore s (.sw 5 6 0) 4 ea .b4 (s.x 6) ∧ (Instr.sw 5 6 0).wf s.params = true ∧ misaligned ea .b4 s = false ∧
      (∀ j < 3, s.storable (s.byteAddr ea j) = true) ∧ s.pageAt (pageOf (s.byteAddr ea 3)) = none ∧ s.params.pageFault = .fault :=
  ⟨.sw 5 6 0, by decide⟩

theorem witness_StraddlingStoreFault_without_write :
    let s := { bench rv32 [] [(5, 0x2FFFF)] [] with
      pages := [(0x2F, ⟨.rw, .owned⟩), (0x30, ⟨⟨true, false, false⟩, .owned⟩)] }
    let ea := s.ea 5 (0 : BitVec 12)
    IsStore s (.sw 5 6 0) 4 ea .b4 (s.x 6) ∧ misaligned ea .b4 s = false ∧ (∀ j < 1, s.storable (s.byteAddr ea j) = true) ∧
      s.pageAt (pageOf (s.byteAddr ea 1)) = some ⟨⟨true, false, false⟩, .owned⟩ :=
  ⟨.sw 5 6 0, by decide⟩

/-- A declared callback that answers, one that fails, and one that is a free value. -/
theorem witness_DeviceAccess :
    let a : HostAnswer := answer [.setReg 6 7] (.lit 9)
    let f : HostAnswer := { a with failure := some (.outOfMemory, 3) }
    let s (a : HostAnswer) : State := { bench rv32 [] [(5, 0x40FFC)] [] with pages := [(0x40, ⟨.rw, .trap 1 none⟩)], scripts := [(1, a)] }
    (s a).counter ≠ counterMax ∧ (∀ a args, answerOf 1 args (s a) = a) ∧ a.acts = [.setReg 6 7] ∧ a.value = .lit 9 ∧ a.failure = none ∧
      f.acts = [.setReg 6 7] ∧ f.value = .lit 9 ∧ f.failure = some (.outOfMemory, 3) ∧
      IsLoad (s a) (.lw 10 5 0) 4 0x40FFC .b4 true 10 ∧ IsStore (s a) (.sw 5 6 0) 4 0x40FFC .b4 ((s a).x 6) ∧
      misaligned 0x40FFC .b4 (s a) = false ∧ inOnePage 0x40FFC Size.b4.bytes = true ∧
      (s a).pageAt 0x40 = some ⟨.rw, .trap 1 none⟩ ∧ (s a).params.execConstant = false :=
  ⟨by decide, fun _ _ => rfl, rfl, rfl, rfl, rfl, rfl, rfl, .lw 10 5 0, .sw 5 6 0, by decide⟩

/-- A map of pages in order, in the address space, with its memory. -/
theorem pagesWf_of (s : State) (h : SMap.sorted s.pages) (i : ∀ e ∈ s.pages, e.1 < pageCount s.w) (m : Memory.wf s.mem)
    (hm : Memory.wf s.hostMem) (b : ∀ c ∈ s.mem, (s.pageAt (pageOf c.1)).isSome = true) : s.PagesWf := ⟨h, i, m, hm, b⟩

theorem witness_ZeroPageOnDemand :
    let s (cap : Nat) := bench { rv32a with pageFault := .zeroRW, memoryMax := some cap } [] [(5, 0x50FFC)] []
    IsLoad (s 24576) (.lw 10 5 0) 4 0x50FFC .b4 true 10 ∧ IsStore (s 24576) (.sw 5 6 0) 4 0x50FFC .b4 ((s 24576).x 6) ∧
      IsAtomic (s 24576) (.amoaddW 10 5 6 false false) 0x50FFC .b4 true true ∧
      IsAtomic (s 24576) (.scW 10 5 6 false false) 0x50FFC .b4 false false ∧
      ({ s 24576 with resv := ⟨true, 0x50FFC, .w4⟩ } : State).Reserves 0x50FFC .b4 ∧ (s 24576).PagesWf ∧
      (Instr.lw 10 5 0).wf (s 24576).params = true ∧ (Instr.amoaddW 10 5 6 false false).wf (s 24576).params = true ∧
      (s 24576).counter ≠ counterMax ∧ misaligned 0x50FFC .b4 (s 24576) = false ∧ (0x50FFC#64).toNat % Size.b4.bytes = 0 ∧
      inOnePage 0x50FFC Size.b4.bytes = true ∧ (s 24576).pageAt 0x50 = none ∧ (s 24576).params.pageFault = .zeroRW ∧
      (s 24576).params.execConstant = false ∧ (s 24576).outOfMemory = false ∧ (s 24575).outOfMemory = true :=
  ⟨.lw 10 5 0, .sw 5 6 0, .amoaddW 10 5 6 false false, .scW 10 5 6 false false, ⟨rfl, rfl, rfl⟩,
    pagesWf_of _ (by decide) (by decide) (by decide) (by decide) (by decide), by decide⟩

/-- Over a page boundary. -/
theorem witness_ReadAfterWrite :
    let s := idle rv64
    wrap s.w 0x20FFC = 0x20FFC ∧ s.canStore 0x20FFC .b8 = true ∧ s.canRead 0x20FFC .b8 = true ∧
      (∀ k < Size.b8.bytes, s.place (s.byteAddr 0x20FFC k) = .guest (s.byteAddr 0x20FFC k)) ∧
      inOnePage (0x20FF8#64).toNat Size.b8.bytes = true := by decide

/-- ReadAfterWrite and the frames of stores: two pages whose buffers overlap, so that two bytes of one access stand at one place. -/
theorem witness_overlapping_buffers :
    let s := { idle rv64 with pages := [(0x50, ⟨.rw, .nonOwned 0x7000 false⟩), (0x51, ⟨.rw, .nonOwned 0x7FFF false⟩)] }
    s.place (s.byteAddr 0x50FFC 3) = .host 0x7FFF ∧ s.place (s.byteAddr 0x50FFC 4) = .host 0x7FFF ∧
      s.canStore 0x50FFC .b8 = true := by decide

theorem witness_LoadReservedResults :
    let s := bench rv64a [] [(10, 0x20FFC), (11, 0x20FF8)] []
    s.counter ≠ counterMax ∧ s.params.extA = true ∧ s.canRead (s.x 10) .b4 = true ∧ (s.x 10).toNat % 4 = 0 ∧
      s.canRead (s.x 11) .b8 = true ∧ (s.x 11).toNat % 8 = 0 ∧ s.w = .w8 := by decide

/-- A matching reservation, one of another width, one of another address, none. -/
theorem witness_StoreConditionalResults :
    let s := { bench rv64a [] [(10, 0x20FF8)] [] with resv := ⟨true, 0x20FF8, .w4⟩ }
    let t := { s with resv := ⟨true, 0x20FF8, .w8⟩ }
    s.counter ≠ counterMax ∧ s.params.extA = true ∧ (s.x 10).toNat % 8 = 0 ∧ s.w = .w8 ∧ s.resv = ⟨true, s.x 10, .w4⟩ ∧
      s.canStore (s.x 10) .b4 = true ∧ ¬(s.resv.valid = true ∧ s.resv.addr = s.x 10 ∧ s.resv.width = .w8) ∧
      t.resv = ⟨true, t.x 10, .w8⟩ ∧ t.canStore (t.x 10) .b8 = true ∧ ¬(t.resv.valid = true ∧ t.resv.addr = t.x 10 ∧ t.resv.width = .w4) := by
  decide

theorem witness_AmoWordResults :
    let s := bench rv32a [] [(10, 0x20FFC)] []
    s.counter ≠ counterMax ∧ s.params.extA = true ∧ (s.x 10).toNat % 4 = 0 ∧ s.canRead (s.x 10) .b4 = true ∧
      s.canStore (s.x 10) .b4 = true := by decide

theorem witness_AmoDoublewordResults :
    let s := bench rv64a [] [(10, 0x20FF8)] []
    s.counter ≠ counterMax ∧ s.params.extA = true ∧ s.w = .w8 ∧ (s.x 10).toNat % 8 = 0 ∧ s.canRead (s.x 10) .b8 = true ∧
      s.canStore (s.x 10) .b8 = true := by decide

/-- A misaligned address, a machine without the instruction, a page without `read`, a page without `write`, no page, and a
reservation there. -/
theorem witness_AtomicFaults :
    let s := { bench rv32a [] [(10, 0x20FFE), (11, 0x30000), (12, 0x50000)] [] with resv := ⟨true, 0x30000, .w4⟩ }
    let t := { s with pages := [(0x30, ⟨⟨false, true, false⟩, .owned⟩)], resv := ⟨true, 0x50000, .w4⟩ }
    IsAtomic s (.lrW 12 10 false false) (s.x 10) .b4 true false ∧ (Instr.lrW 12 10 false false).wf s.params = true ∧
      (s.x 10).toNat % Size.b4.bytes ≠ 0 ∧ IsAtomic s (.amoaddD 12 10 11 true true) (s.x 10) .b8 true true ∧
      (Instr.amoaddD 12 10 11 true true).wf s.params = false ∧ IsAtomic s (.amoaddW 12 11 10 false false) (s.x 11) .b4 true true ∧
      IsAtomic s (.scW 10 11 12 false false) (s.x 11) .b4 false false ∧ s.Reserves (s.x 11) .b4 ∧
      IsAtomic t (.scW 10 12 11 false false) (t.x 12) .b4 false false ∧ t.Reserves (t.x 12) .b4 ∧
      (Instr.amoaddW 12 11 10 false false).wf s.params = true ∧ (Instr.scW 10 11 12 false false).wf s.params = true ∧
      (s.x 11).toNat % Size.b4.bytes = 0 ∧ s.pageAt (pageOf (s.x 11).toNat) = some ⟨⟨true, false, false⟩, .owned⟩ ∧
      t.pageAt (pageOf (t.x 11).toNat) = some ⟨⟨false, true, false⟩, .owned⟩ ∧ (t.x 12).toNat % Size.b4.bytes = 0 ∧
      t.pageAt (pageOf (t.x 12).toNat) = none ∧ t.params.pageFault = .fault :=
  ⟨.lrW 12 10 false false, by decide, by decide, .amoaddD 12 10 11 true true, by decide, .amoaddW 12 11 10 false false,
    .scW 10 11 12 false false, ⟨rfl, rfl, rfl⟩, .scW 10 12 11 false false, ⟨rfl, rfl, rfl⟩, by decide⟩

/-- The three ways a call finds its handler: an ECALL, an ECALL with the number of EBREAK, an EBREAK. -/
theorem witness_SystemCallHit :
    let s (n : Word) : State := { bench rv64c [] [(17, n)] [] with
      handlers := [(93, 1), (0x8000, 1)], scripts := [(1, answer [] (.lit 5))] }
    (s 93).counter ≠ counterMax ∧ SMap.find (s 93).handlers ((s 93).ux 17) = some 1 ∧
      SMap.find (s 93).scripts 1 = some (answer [] (.lit 5)) ∧ (s 93).ux 17 ≠ (s 93).mod (s 93).params.syscallEbreak.toNat ∧
      (s 0x8000).ux 17 = (s 0x8000).mod (s 0x8000).params.syscallEbreak.toNat ∧
      SMap.find (s 0x8000).handlers ((s 0x8000).ux 17) = some 1 ∧ (s 93).params.extC = true := by decide

theorem witness_SystemCallMiss :
    let s (b : Bool) (n : Word) : State := bench { rv32c with throwOnUnhandledSyscall := b } [] [(17, n)] []
    ∀ b : Bool, (s b 93).counter ≠ counterMax ∧ SMap.find (s b 93).handlers ((s b 93).ux 17) = none ∧
      (s b 93).ux 17 ≠ (s b 93).mod (s b 93).params.syscallEbreak.toNat ∧
      (s b 0x8000).ux 17 = (s b 0x8000).mod (s b 0x8000).params.syscallEbreak.toNat ∧
      SMap.find (s b 0x8000).handlers ((s b 0x8000).ux 17) = none ∧ (s b 93).params.throwOnUnhandledSyscall = b ∧
      (s b 93).params.extC = true := by decide

/-- SystemCallStops, SystemCallSetsPc and SystemCallFails. -/
theorem witness_SystemCallActs :
    let s (a : HostAnswer) : State := { bench rv32 [] [(17, 93)] [] with handlers := [(93, 1)], scripts := [(1, a)] }
    let fails : HostAnswer := ⟨[.setReg 10 7], some (.outOfMemory, 3), .lit 0, default⟩
    (s fails).counter ≠ counterMax ∧ (s fails).ux 17 ≠ (s fails).mod (s fails).params.syscallEbreak.toNat ∧
      (s fails).run = some ⟨0, 0⟩ ∧ (∀ a, SMap.find (s a).handlers ((s a).ux 17) = some 1 ∧ SMap.find (s a).scripts 1 = some a) ∧
      (answer [.stop] (.lit 5)).acts = [.stop] ∧ (answer [.setPc 0x1008] (.lit 5)).acts = [.setPc 0x1008] ∧
      fails.acts = [.setReg 10 7] ∧ fails.failure = some (.outOfMemory, 3) ∧
      (answer [.setReg 10 7, .setupCall 0 0 (List.replicate 9 1)] (.lit 5)).acts =
        .setReg 10 7 :: .setupCall 0 0 (List.replicate 9 1) :: [] ∧ 8 < (List.replicate 9 (1 : Word)).length := by
  refine ⟨by decide, by decide, rfl, fun a => ⟨rfl, rfl⟩, rfl, rfl, rfl, rfl, rfl, by decide⟩

/-- UnimplementedWords and UnimplementedHalves. -/
theorem witness_UnimplementedRows :
    (idle rv64).w = .w8 ∧ (idle rv32c).params.extC = true ∧ (idle rv32c).w = .w4 := by decide

/-- One word of each of the three spaces. -/
theorem witness_FaultingWordSpaces :
    let s (w : BitVec 32) := bench rv32c [w.extractLsb' 0 8, w.extractLsb' 8 8, w.extractLsb' 16 8, w.extractLsb' 24 8] [] []
    let holds (w : BitVec 32) : Bool := (s w).atInstruction &&
      (s w).holdsCode [w.extractLsb' 0 8, w.extractLsb' 8 8, w.extractLsb' 16 8, w.extractLsb' 24 8]
    holds 0x0000100F = true ∧ (0x0000100F#32).extractLsb' 0 7 = 0b0001111#7 ∧ (0x0000100F#32).extractLsb' 12 3 ≠ 0b000#3 ∧
      holds 0x02B50533 = true ∧ (0x02B50533#32).extractLsb' 0 7 = 0b0110011#7 ∧ (0x02B50533#32).extractLsb' 25 7 = 0b0000001#7 ∧
      holds 0x00200073 = true ∧ (0x00200073#32).extractLsb' 0 7 = 0b1110011#7 ∧ 0x00200073#32 ≠ 0x00000073#32 ∧
      0x00200073#32 ≠ 0x00100073#32 := by decide

theorem witness_ReservedHalvesFault :
    let s := bench rv32c (leBytes 2 0x4015) [] []
    s.atInstruction = true ∧ s.params.extC = true ∧
      s.holdsCode [(0x4015#16).extractLsb' 0 8, (0x4015#16).extractLsb' 8 8] = true ∧ reservedHalf s.params 0x4015 = true ∧
      reservedHalf s.params 0x0000 = true ∧ reservedHalf rv64c 0x2021 = true ∧ reservedHalf s.params 0x1502 = true ∧
      reservedHalf s.params 0x0001 = false ∧ reservedHalf rv64c 0x1502 = false := by decide

theorem witness_CompressedImmediateResults :
    (idle rv64c).counter ≠ counterMax ∧ (idle rv64c).params.extC = true ∧ (0x3FC#10).toNat % 4 = 0 ∧ 0x3FC#10 ≠ 0 ∧
      (0x200#10).toNat % 16 = 0 ∧ 0x200#10 ≠ 0 ∧ (31#5 : Reg) ≠ 0 ∧ (31#5 : Reg) ≠ 2 ∧ 0x20#6 ≠ 0 ∧ (idle rv64c).w = .w8 := by decide

theorem witness_CompressedRegisterResults :
    (idle rv32c).counter ≠ counterMax ∧ (idle rv32c).params.extC = true ∧ (31#6) ≠ 0 ∧ (31#6).toNat < (idle rv32c).w.xlen ∧
      (63#6).toNat < (idle rv64c).w.xlen ∧ (idle rv64c).w = .w8 ∧ (31#5 : Reg) ≠ 0 := by decide

theorem witness_CompressedJumpResults :
    let s := bench rv32c [] [(5, 0xFFFFFFFE), (6, 0xFFFFFFFF)] []
    s.counter ≠ counterMax ∧ s.params.extC = true ∧ s.w = .w4 ∧ (0x7FE#12).toNat % 2 = 0 ∧ (0x100#9).toNat % 2 = 0 ∧
      (5#5 : Reg) ≠ 0 ∧ s.ux 5 % 2 = 0 ∧ s.ux 6 % 2 = 1 := by decide

/-- CompressedLoadResults and CompressedStoreResults: the largest offset of each form, at the end of a page. -/
theorem witness_CompressedAccessResults :
    let s := bench rv64c [] [(8, 0x20F80), (9, 0x20F00), (2, 0x20E00)] []
    s.counter ≠ counterMax ∧ s.params.extC = true ∧ s.w = .w8 ∧ (124#7).toNat % 4 = 0 ∧ (248#8).toNat % 8 = 0 ∧
      (252#8).toNat % 4 = 0 ∧ (504#9).toNat % 8 = 0 ∧ (1#5 : Reg) ≠ 0 ∧
      s.canRead (s.eaU (reg3 0) (124#7)) .b4 = true ∧ s.canRead (s.eaU (reg3 1) (248#8)) .b8 = true ∧
      s.canRead (s.eaU 2 (252#8)) .b4 = true ∧ s.canRead (s.eaU 2 (504#9)) .b8 = true ∧
      s.canStore (s.eaU (reg3 0) (124#7)) .b4 = true ∧ s.canStore (s.eaU (reg3 1) (248#8)) .b8 = true ∧
      s.canStore (s.eaU 2 (252#8)) .b4 = true ∧ s.canStore (s.eaU 2 (504#9)) .b8 = true := by decide

/-- A 32-bit instruction at the end of the execute segment, with one instruction of budget left. -/
theorem witness_StepRunsDecoded :
    let s := { bench rv32c (leBytes 2 0x0001 ++ leBytes 4 0x00150513) [] [] with pc := 0x1002, counter := 4, run := some ⟨0, 5⟩ }
    decodeBytes s.params (leBytes 4 0x00150513) = .instr (.addi 10 10 1) [] ∧ s.atInstruction = true ∧
      s.holdsCode (leBytes 4 0x00150513) = true ∧ s.run = some ⟨0, 5⟩ ∧ s.stopped = false ∧ budgetSpent ⟨0, 5⟩ s = false ∧
      s.pc ≠ s.exitAddress ∧ (atBoundary s).holdsCode (leBytes 4 0x00150513) = true ∧ (∀ e ∈ s.pages, isExternal e.2 = false) ∧
      isExternal ⟨.rw, .nonOwned 0x7000 true⟩ = true :=
  ⟨by rfl, by decide⟩

/-- A pc that is not aligned, one 1 byte short of holding a parcel, one in the band of a constant segment, a 32-bit instruction whose
last two bytes are outside, a segment without its page. -/
theorem witness_FetchChecks :
    let s := bench rv32c (leBytes 4 0x00150513) [] []
    let u := { s with pc := 0x1001 }
    let v := { s with pc := 0x1004 }
    let w := { v with params := { rv32c with execConstant := true } }
    let l := { s with execLen := 3 }
    let m := { s with pages := [] }
    (u.atInstruction = true ∧ u.pc.toNat % u.params.ialign ≠ 0) ∧
      (v.atInstruction = true ∧ v.pc.toNat % v.params.ialign = 0 ∧
        ¬(v.execBase.toNat ≤ v.pc.toNat ∧ v.pc.toNat + 2 ≤ v.execBase.toNat + v.execLen.toNat)) ∧
      (w.atInstruction = true ∧ w.params.execConstant = true ∧ w.inExecSegment w.pc.toNat = false ∧
        w.pageMeetsExec (pageOf w.pc.toNat) = true) ∧
      (l.atInstruction = true ∧ l.holdsCode [0x13, 0x05] = true ∧ lengthOf l.params ((0x05 : Byte) ++ (0x13 : Byte)) = some 4 ∧
        l.execBase.toNat + l.execLen.toNat < l.pc.toNat + 4) ∧
      m.atInstruction = true ∧ m.pc.toNat % m.params.ialign = 0 ∧ m.execBase.toNat ≤ m.pc.toNat ∧
        m.pc.toNat + 2 ≤ m.execBase.toNat + m.execLen.toNat ∧ m.pageAt (pageOf (m.byteAddr m.pc 0)) = none := by decide
/-- FetchChecks, its last clause: the second parcel is at address 0, which no page holds. -/
theorem witness_FetchChecks_second_parcel :
    let s := { atTop with pages := SMap.erase 0 atTop.pages }
    s.atInstruction = true ∧ s.holdsCode [0x13, 0x05] = true ∧ lengthOf s.params ((0x05 : Byte) ++ (0x13 : Byte)) = some 4 ∧
      s.pc.toNat + 4 ≤ s.execBase.toNat + s.execLen.toNat ∧ s.byteAddr s.pc 2 = 0 ∧ s.pageAt (pageOf (s.byteAddr s.pc 2)) = none := by
  decide

/-- A word no rule selects, a 48-bit length, a 16-bit parcel without `EXT_C`. -/
theorem witness_UndecodableFaults :
    let s := bench rv32 (leBytes 4 0x0000000B) [] []
    let t := bench rv32 (leBytes 4 0x0000001F) [] []
    let u := bench rv32 (leBytes 4 0x00004515) [] []
    s.atInstruction = true ∧ s.holdsCode (leBytes 4 0x0000000B) = true ∧ t.atInstruction = true ∧
      t.holdsCode (leBytes 4 0x0000001F) = true ∧ u.atInstruction = true ∧ u.holdsCode (leBytes 4 0x00004515) = true ∧
      (∃ b, decodeBytes s.params (leBytes 4 0x0000000B) = .unimplemented b) ∧
      decodeBytes t.params (leBytes 4 0x0000001F) = .badLength 0x001F ∧
      decodeBytes u.params (leBytes 4 0x00004515) = .badLength 0x4515 :=
  ⟨by decide, by decide, by decide, by decide, by decide, by decide, ⟨_, rfl⟩, rfl, rfl⟩

/-- The stop flag, the budget just spent (with and without `DEADLOCK_ON_BUDGET`), the exit sentinel with one instruction left and
without a bound. -/
theorem witness_LoopEnds :
    let s := { idle rv32 with counter := 5 }
    let a := { s with stopped := true }
    let b := { s with run := some ⟨2, 3⟩ }
    let c := { b with params := { rv32 with deadlockOnBudget := true } }
    let d := { s with run := some ⟨2, 4⟩, exitAddress := 0x1000 }
    a.run = some ⟨0, 0⟩ ∧ a.stopped = true ∧ b.stopped = false ∧ (3 : Nat) ≠ 0 ∧ (2#64).toNat + 3 ≤ b.counter.toNat ∧
      b.params.deadlockOnBudget = false ∧ c.params.deadlockOnBudget = true ∧ d.stopped = false ∧
      d.counter.toNat < (2#64).toNat + 4 ∧ d.pc = d.exitAddress := by decide

/-- The invariant holds at a small state with code, data and a reservation. -/
def sound : State :=
  { bench rv64a (leBytes 4 0x00B2A023) [(5, 0x20000), (11, 9)] (bytesAt 0x20000 [1]) with resv := ⟨true, 0x20000, .w8⟩ }

theorem sound_wf : sound.wf where
  cpu := ⟨by decide, by unfold canonical; decide, by unfold canonical; decide⟩
  addr := ⟨rfl, rfl, rfl, ⟨rfl, rfl⟩, rfl, rfl⟩
  pages := pagesWf_of _ (by decide) (by decide) (by decide) (by decide) (by decide)
  resv := ⟨by decide, by decide, by decide⟩
  run := ⟨by decide, fun r h => by cases h; decide⟩
  handlers := by decide

/-- RetireOrTrap: an instruction that retires and one that faults. -/
theorem witness_RetireOrTrap :
    sound.wf ∧ (∃ t, exec (.sw 5 11 0) sound = .next t ∧ t.counter = 1) ∧
      (∃ t, exec (.sw 0 11 0) sound = .next t ∧ t.status = .trapped .protectionFault 0) :=
  ⟨sound_wf, ⟨_, rfl, by decide⟩, ⟨_, rfl, by decide⟩⟩

theorem witness_FaultsArePrecise :
    sound.wf ∧ sound.handlers = [] ∧ (∀ e ∈ sound.pages, isTrapPage e.2 = false) ∧ sound.params.pageFault ≠ .host ∧
      sound.pageWriteCallback = none ∧ sound.run ≠ none ∧ (∃ t, exec (.sw 0 11 0) sound = .next t ∧ t.run = none) :=
  ⟨sound_wf, by decide, by decide, by decide, by decide, by decide, ⟨_, rfl, by decide⟩⟩

/-- StepKeepsInvariant and StepKeepsFixed: a step that stores. -/
theorem witness_StepKeepsInvariant : sound.wf ∧ ∃ t, step sound = .next t ∧ t.byte 0x20000 = 9 :=
  ⟨sound_wf, ⟨_, rfl, by decide⟩⟩

/-- ResetState, SimulateStarts, SetupCallResult (both counts of arguments and `stop()`), VmcallResult (its three cases), RealignStackResult
(the accepted values and their neighbours): the Machine is between runs and the host's next call is the one named. -/
theorem witness_host_calls :
    let s (op : HostOp) : State := called (idle rv32) op
    (∀ op, (s op).run = none ∧ (s op).hostCalls = op :: []) ∧ (List.replicate 8 (1 : Word)).length ≤ 8 ∧
      8 < (List.replicate 9 (1 : Word)).length ∧
      ((16 : Nat) = 4 ∨ (16 : Nat) = 8 ∨ (16 : Nat) = 16) ∧ ¬((15 : Nat) = 4 ∨ (15 : Nat) = 8 ∨ (15 : Nat) = 16) ∧
      ¬((0 : Nat) = 4 ∨ (0 : Nat) = 8 ∨ (0 : Nat) = 16) := by
  refine ⟨fun op => ⟨rfl, rfl⟩, by decide⟩

/-- A string that ends with its NUL as the last byte allowed, over a page boundary; the same bytes with one byte less allowed. -/
theorem witness_StringReadResult :
    let s := bench rv32 [] [] (bytesAt 0x20FFE [0x61, 0x62, 0x63])
    (∀ j < 4, ∃ p, s.pageAt (pageOf (s.byteAddr 0x20FFE j)) = some p ∧ isTrapPage p = false) ∧
      (∀ j < 3, (atBoundary s).byte (s.byteAddr 0x20FFE j) ≠ 0) ∧ (3 < 4) ∧ (atBoundary s).byte (s.byteAddr 0x20FFE 3) = 0 ∧
      (called s (.strlen 0x20FFE 3)).hostCalls = .strlen 0x20FFE 3 :: [] ∧ (called s (.strlen 0x20FFE 3)).run = none := by
  intro s
  refine ⟨fun j hj => ?_, by decide⟩
  obtain rfl | rfl | rfl | rfl : j = 0 ∨ j = 1 ∨ j = 2 ∨ j = 3 := by omega
  all_goals exact ⟨⟨.rw, .owned⟩, by decide, rfl⟩

/-- A mapped page and one that is not; ranges that end on a page boundary and one byte after it. -/
theorem witness_HostPageOperations :
    let s := idle rv32
    s.PagesWf ∧ s.params.memoryMax = none ∧ (called s (.trapPage 0x20FFF 1)).run = none ∧
      (called s (.freePages 0x20000 0x1001)).hostCalls = .freePages 0x20000 0x1001 :: [] ∧
      s.pageAt 0x20 = some ⟨.rw, .owned⟩ ∧ s.pageAt 0x22 = none ∧ 0xFFFFF < pageCount s.w ∧
      (called s (.setPageAttr 0x21FFF 2 .rw)).hostCalls = .setPageAttr 0x21FFF 2 .rw :: [] ∧
      (∃ q, s.mod 0x21FFF ≤ q ∧ q < s.mod 0x21FFF + 2 ∧ pageOf q = 0x22) ∧
      (∃ q, s.mod 0x20000 ≤ q ∧ q < s.mod 0x20000 + 0x1001 ∧ pageOf q = 0x21) ∧
      ¬∃ q, s.mod 0x20000 ≤ q ∧ q < s.mod 0x20000 + 0x1000 ∧ pageOf q = 0x21 := by
  intro s
  refine ⟨pagesWf_of _ (by decide) (by decide) (by decide) (by decide) (by decide), rfl, rfl, rfl, rfl, rfl, by decide, rfl,
    ⟨0x22000, by decide⟩, ⟨0x21000, by decide⟩, ?_⟩
  rintro ⟨q, h1, h2, h3⟩
  have e : s.mod 0x20000 = 0x20000 := by decide
  simp only [e, pageOf, pageSize] at *
  omega

/-- Pages of the four variants with what the host gives them, and a NonOwned page without backing. -/
theorem witness_SnapshotRestores :
    let s := { idle rv64 with pages := [(3, ⟨.rw, .owned⟩), (4, ⟨.rw, .sharedRO⟩), (5, ⟨.rw, .nonOwned 0x7000 true⟩),
      (6, ⟨.rw, .trap 1 none⟩)], mem := [] }
    let b : List (Nat × Backing) := [(5, ⟨0x9FFF, [1, 2], false⟩)]
    s.PagesWf ∧ SMap.find b 5 = some ⟨0x9FFF, [1, 2], false⟩ ∧ SMap.find [(6, 2)] 6 = some 2 ∧
      (∀ e ∈ s.pages, (isNonOwned e.2 = true → SMap.find b e.1 ≠ none) ∧ (isTrapPage e.2 = true → SMap.find [(6, 2)] e.1 ≠ none)) ∧
      s.pageAt 5 = some ⟨.rw, .nonOwned 0x7000 true⟩ ∧ SMap.find ([] : List (Nat × Backing)) 5 = none ∧ s.pageAt 7 = none :=
  ⟨pagesWf_of _ (by decide) (by decide) (by decide) (by decide) (by decide), by decide⟩

/-- The binaries of the next witnesses: two executable segments, the later one lower, and the options. -/
def segments : List Segment := [⟨0x2000, 2, [1, 0], true, false, true⟩, ⟨0x1000, 2, [1, 0], true, false, true⟩]
def image : Image := ⟨true, .w4, true, true, 0x1000, segments, none⟩
def options : Options := ⟨rv32c, 0x80000, 0x1000, 0, 0, []⟩

/-- A binary the engine loads, and one of the other class. -/
theorem witness_ConstructionLeaves :
    (∃ s, construct image options = .machine s) ∧ ({ image with width := .w8 }).valid options.params.w = false ∧
      segments = [segments[0]] ++ segments[1] :: [] ∧ segments[1].x = true ∧
      (∀ h ∈ [segments[0]], h.x = true → segments[1].vaddr.toNat < h.vaddr.toNat) :=
  ⟨⟨_, rfl⟩, by decide, rfl, rfl, by decide⟩

/-- Two segments that share a page and overlap in one byte, the last of the address space's pages, a stack page of its own, and a
page nothing touches. -/
theorem witness_ConstructionLoads :
    let g : Segment := ⟨0x1001, 4, [7], true, true, false⟩
    let h : Segment := ⟨0xFFFFFFFF, 1, [9], true, false, false⟩
    let img : Image := { image with segments := segments ++ [g, h] }
    (∃ s, construct img options = .machine s ∧ s.stackAddress.toNat = 0x80000) ∧
      (∀ g ∈ img.segments, g.vaddr.toNat + g.memsz ≤ 2 ^ options.params.w.xlen) ∧ img.valid options.params.w = true ∧
      img.unknownRelocation = none ∧ options.params.memoryMax = none ∧ options.stackAddress.toNat % 16 = 0 ∧
      (∀ g ∈ img.segments, g.x = true → g.vaddr.toNat % options.params.ialign = 0) ∧
      img.segments = segments ++ g :: [h] ∧ g.touches 1 ∧ ¬h.touches 1 ∧ h.touches 0xFFFFF ∧ segments[1].covers 0x1001 ∧
      ¬h.covers 0x1001 ∧ (∃ q, 0x80000 - options.stackSize ≤ q ∧ q < 0x80000 ∧ pageOf q = 0x7F) := by
  refine ⟨⟨_, rfl, rfl⟩, by decide, by decide, rfl, rfl, rfl, by decide, rfl, ⟨0x1001, by unfold Segment.covers; decide⟩, ?_,
    ⟨0xFFFFFFFF, by unfold Segment.covers; decide⟩, by unfold Segment.covers; decide, by unfold Segment.covers; decide,
    ⟨0x7F000, by decide⟩⟩
  rintro ⟨q, ⟨h1, -⟩, h2⟩
  have h3 : 0xFFFFFFFF ≤ q := h1
  simp only [pageOf, pageSize] at h2
  omega

/-- R6, R466: no Machine with a stack address or an execute segment that is not aligned. -/
theorem test_construct_rejects_what_is_not_aligned :
    construct image { options with stackAddress := 0x80008 } = .rejected ∧
      construct { image with segments := [⟨0x1002, 2, [1, 0], true, false, true⟩] } { options with params := rv32 } = .rejected :=
  ⟨rfl, rfl⟩

/-- DecodeEncode and DecodeUnambiguous: operands at the ends of their ranges. -/
theorem witness_DecodeEncode :
    (Instr.jal 31 0x100000).wf rv64c = true ∧ (Instr.cLui 31 0x20).wf rv64c = true ∧
      decode32 rv64c 0x80000FEF#32 = some (.jal 31 0x100000) ∧ decode16 rv64c 0x7F81#16 = some (.cLui 31 0x20) := by decide

end Sys2Proof.Tests
end

section
/-! SUPPORT. Every instruction, every turn of the run loop, every call of the host and so every step keeps the invariant and the fields
that are fixed for the Machine's life (R7, R56, R439). -/

namespace Sys2Proof.Laws

open Sys2Proof.Machine

theorem sameFixed_trans {s t u : State} (h : s.SameFixed t) (h' : t.SameFixed u) : s.SameFixed u :=
  sameFixed_congr h h'.params h'.execBase h'.execLen h'.startAddress h'.stackAddress h'.exitAddress

/-- What follows a part that keeps the invariant and the fixed fields, and keeps them itself. -/
theorem Stepped.steps {s t : State} (h : Stepped s t) {o : Host.Outcome State Fault Refusal} (ho : KeepsOutcome (Stepped t) o) :
    KeepsOutcome (Stepped s) o := fun u e => ⟨(ho u e).wf, sameFixed_trans h.fixed (ho u e).fixed⟩

/-- Every instruction: one arm per constructor, in the order of the dispatch. -/
theorem steps_exec (i : Instr) {s : State} (h : s.wf) : KeepsOutcome (Stepped s) (exec i s) :=
  match i with
  | .lui .. => steps_execLui _ _ h
  | .auipc .. => steps_execAuipc _ _ h
  | .addi .. => steps_execAddi _ _ _ h
  | .slti .. => steps_execSlti _ _ _ h
  | .sltiu .. => steps_execSltiu _ _ _ h
  | .xori .. => steps_execXori _ _ _ h
  | .ori .. => steps_execOri _ _ _ h
  | .andi .. => steps_execAndi _ _ _ h
  | .slli .. => steps_execSlli _ _ _ h
  | .srli .. => steps_execSrli _ _ _ h
  | .srai .. => steps_execSrai _ _ _ h
  | .add .. => steps_execAdd _ _ _ h
  | .sub .. => steps_execSub _ _ _ h
  | .sll .. => steps_execSll _ _ _ h
  | .slt .. => steps_execSlt _ _ _ h
  | .sltu .. => steps_execSltu _ _ _ h
  | .xor .. => steps_execXor _ _ _ h
  | .srl .. => steps_execSrl _ _ _ h
  | .sra .. => steps_execSra _ _ _ h
  | .or .. => steps_execOr _ _ _ h
  | .and .. => steps_execAnd _ _ _ h
  | .addiw .. => steps_execAddiw _ _ _ h
  | .slliw .. => steps_execSlliw _ _ _ h
  | .srliw .. => steps_execSrliw _ _ _ h
  | .sraiw .. => steps_execSraiw _ _ _ h
  | .addw .. => steps_execAddw _ _ _ h
  | .subw .. => steps_execSubw _ _ _ h
  | .sllw .. => steps_execSllw _ _ _ h
  | .srlw .. => steps_execSrlw _ _ _ h
  | .sraw .. => steps_execSraw _ _ _ h
  | .jal .. => steps_execJal _ _ h
  | .jalr .. => steps_execJalr _ _ _ h
  | .beq .. => steps_execBeq _ _ _ h
  | .bne .. => steps_execBne _ _ _ h
  | .blt .. => steps_execBlt _ _ _ h
  | .bge .. => steps_execBge _ _ _ h
  | .bltu .. => steps_execBltu _ _ _ h
  | .bgeu .. => steps_execBgeu _ _ _ h
  | .lb .. => steps_execLb _ _ _ h
  | .lh .. => steps_execLh _ _ _ h
  | .lw .. => steps_execLw _ _ _ h
  | .ld .. => steps_execLd _ _ _ h
  | .lbu .. => steps_execLbu _ _ _ h
  | .lhu .. => steps_execLhu _ _ _ h
  | .lwu .. => steps_execLwu _ _ _ h
  | .sb .. => steps_execSb _ _ _ h
  | .sh .. => steps_execSh _ _ _ h
  | .sw .. => steps_execSw _ _ _ h
  | .sd .. => steps_execSd _ _ _ h
  | .lrW .. => steps_execLrW _ _ _ _ h
  | .scW .. => steps_execScW _ _ _ _ _ h
  | .amoswapW .. => steps_execAmoswapW _ _ _ _ _ h
  | .amoaddW .. => steps_execAmoaddW _ _ _ _ _ h
  | .amoxorW .. => steps_execAmoxorW _ _ _ _ _ h
  | .amoandW .. => steps_execAmoandW _ _ _ _ _ h
  | .amoorW .. => steps_execAmoorW _ _ _ _ _ h
  | .amominW .. => steps_execAmominW _ _ _ _ _ h
  | .amomaxW .. => steps_execAmomaxW _ _ _ _ _ h
  | .amominuW .. => steps_execAmominuW _ _ _ _ _ h
  | .amomaxuW .. => steps_execAmomaxuW _ _ _ _ _ h
  | .lrD .. => steps_execLrD _ _ _ _ h
  | .scD .. => steps_execScD _ _ _ _ _ h
  | .amoswapD .. => steps_execAmoswapD _ _ _ _ _ h
  | .amoaddD .. => steps_execAmoaddD _ _ _ _ _ h
  | .amoxorD .. => steps_execAmoxorD _ _ _ _ _ h
  | .amoandD .. => steps_execAmoandD _ _ _ _ _ h
  | .amoorD .. => steps_execAmoorD _ _ _ _ _ h
  | .amominD .. => steps_execAmominD _ _ _ _ _ h
  | .amomaxD .. => steps_execAmomaxD _ _ _ _ _ h
  | .amominuD .. => steps_execAmominuD _ _ _ _ _ h
  | .amomaxuD .. => steps_execAmomaxuD _ _ _ _ _ h
  | .fence fm pred succ rs1 rd => steps_execFence fm pred succ rs1 rd h
  | .ecall => steps_execEcall h
  | .ebreak => steps_execEbreak h
  | .fenceI .. => steps_execFenceI _ _ _ h
  | .mulDiv .. => steps_execMulDiv _ _ _ _ h
  | .mulDivW .. => steps_execMulDivW _ _ _ _ h
  | .csrrw .. => steps_execCsrrw _ _ _ h
  | .csrrs .. => steps_execCsrrs _ _ _ h
  | .csrrc .. => steps_execCsrrc _ _ _ h
  | .csrrwi .. => steps_execCsrrwi _ _ _ h
  | .csrrsi .. => steps_execCsrrsi _ _ _ h
  | .csrrci .. => steps_execCsrrci _ _ _ h
  | .systemFunct3_4 .. => steps_execSystemFunct3_4 _ _ _ h
  | .uret => steps_execUret h
  | .sret => steps_execSret h
  | .mret => steps_execMret h
  | .wfi => steps_execWfi h
  | .sfenceVma .. => steps_execSfenceVma _ _ h
  | .loadFp .. => steps_execLoadFp _ h
  | .storeFp .. => steps_execStoreFp _ h
  | .fmadd .. => steps_execFmadd _ h
  | .fmsub .. => steps_execFmsub _ h
  | .fnmsub .. => steps_execFnmsub _ h
  | .fnmadd .. => steps_execFnmadd _ h
  | .opFp .. => steps_execOpFp _ h
  | .cAddi4spn .. => steps_execCAddi4spn _ _ h
  | .cLw .. => steps_execCLw _ _ _ h
  | .cLd .. => steps_execCLd _ _ _ h
  | .cSw .. => steps_execCSw _ _ _ h
  | .cSd .. => steps_execCSd _ _ _ h
  | .cNop => steps_execCNop h
  | .cAddi .. => steps_execCAddi _ _ h
  | .cJal .. => steps_execCJal _ h
  | .cAddiw .. => steps_execCAddiw _ _ h
  | .cLi .. => steps_execCLi _ _ h
  | .cAddi16sp .. => steps_execCAddi16sp _ h
  | .cLui .. => steps_execCLui _ _ h
  | .cSrli .. => steps_execCSrli _ _ h
  | .cSrai .. => steps_execCSrai _ _ h
  | .cAndi .. => steps_execCAndi _ _ h
  | .cSub .. => steps_execCSub _ _ h
  | .cXor .. => steps_execCXor _ _ h
  | .cOr .. => steps_execCOr _ _ h
  | .cAnd .. => steps_execCAnd _ _ h
  | .cSubw .. => steps_execCSubw _ _ h
  | .cAddw .. => steps_execCAddw _ _ h
  | .cJ .. => steps_execCJ _ h
  | .cBeqz .. => steps_execCBeqz _ _ h
  | .cBnez .. => steps_execCBnez _ _ h
  | .cSlli .. => steps_execCSlli _ _ h
  | .cLwsp .. => steps_execCLwsp _ _ h
  | .cLdsp .. => steps_execCLdsp _ _ h
  | .cJr .. => steps_execCJr _ h
  | .cMv .. => steps_execCMv _ _ h
  | .cEbreak => steps_execCEbreak h
  | .cJalr .. => steps_execCJalr _ h
  | .cAdd .. => steps_execCAdd _ _ h
  | .cSwsp .. => steps_execCSwsp _ _ h
  | .cSdsp .. => steps_execCSdsp _ _ h
  | .cFld .. => steps_execCFld _ h
  | .cFsd .. => steps_execCFsd _ h
  | .cFldsp .. => steps_execCFldsp _ h
  | .cFsdsp .. => steps_execCFsdsp _ h
  | .cFlw .. => steps_execCFlw _ h
  | .cFsw .. => steps_execCFsw _ h
  | .cFlwsp .. => steps_execCFlwsp _ h
  | .cFswsp .. => steps_execCFswsp _ h
  | .cReserved00_4 .. => steps_execCReserved00_4 _ h
  | .cIllegal => steps_execCIllegal h

/-- Fetch, decode, execute (R160). -/
theorem steps_cpuStep {s : State} (h : s.wf) : KeepsOutcome (Stepped s) (cpuStep s) := by
  have hf := keeps_fetch h
  unfold cpuStep
  split
  next e => rw [e] at hf; exact hf.steps (steps_exec _ hf.wf)
  next e => rw [e] at hf; exact keepsOutcome_next (steps_takeTrap _ _ hf)
  next => exact keepsOutcome_refused _ _

/-- A turn of the run loop (R167, R168): the stop flag, the budget, the exit sentinel, then one instruction. -/
theorem steps_runTurn (r : Run) {s : State} (h : s.wf) : KeepsOutcome (Stepped s) (runTurn r s) := by
  have g := good_refl h
  unfold runTurn
  split
  · exact keepsOutcome_next (stepped_endRun _ s.stopped g)
  split
  · split
    · exact keepsOutcome_next (steps_takeTrap _ _ g)
    · exact keepsOutcome_next (stepped_endRun _ s.stopped g)
  split
  · exact keepsOutcome_next (stepped_endRun _ true g)
  · exact steps_cpuStep h

/-- The Machine between two calls of the host: the boundary's bytes and one pending call less. -/
theorem stepped_hostBoundary {s : State} (h : s.wf) (ops : List HostOp) : Stepped s { atBoundary s with hostCalls := ops } :=
  have g := good_atBoundary h
  ⟨wf_hostCalls g.wf ops, sameFixed_congr g.kept.fixed⟩

theorem steps_hostTurn {s : State} (h : s.wf) (hr : s.run = none) : KeepsOutcome (Stepped s) (hostTurn s) := by
  unfold hostTurn
  split
  · exact keepsOutcome_next (good_refl h).stepped
  next op rest _ =>
    have hb := stepped_hostBoundary h rest
    exact hb.steps (steps_hostCall op hb.wf ((atBoundary_run s).trans hr))

/-- Every step keeps the invariant and the fixed fields. -/
theorem steps_step {s : State} (h : s.wf) : KeepsOutcome (Stepped s) (step s) := by
  have g := good_atBoundary h
  unfold step turn
  split
  next => exact g.steps (steps_runTurn _ g.wf)
  next hr => exact steps_hostTurn h hr

end Sys2Proof.Laws

namespace Sys2Proof.Proofs

open Sys2Proof.Machine Sys2Proof.Laws

/-- Settles O60: a step that keeps the invariant keeps the fixed fields with it, by cases on what the step is (`steps_step`). -/
theorem stepKeepsFixed : Obligations.StepKeepsFixed := fun _ t h e => (steps_step h t e).fixed

end Sys2Proof.Proofs
end

section
/-! SUPPORT. What the fetch answers, one lemma per outcome (R161, R162), and a step at an instruction boundary. -/

namespace Sys2Proof.Laws

open Sys2Proof.Machine

/-! ### At an instruction boundary -/

theorem atInstruction_iff {s : State} :
    s.atInstruction = true ↔ ∃ r, s.run = some r ∧ s.stopped = false ∧ budgetSpent r s = false ∧ s.pc ≠ s.exitAddress ∧
      ∀ e ∈ s.pages, isExternal e.2 = false := by
  unfold State.atInstruction
  cases s.run <;> simp [and_assoc]

/-- At an instruction boundary a step is one instruction (R167). -/
theorem step_atInstruction {s : State} (h : s.atInstruction = true) : step s = cpuStep s := by
  obtain ⟨r, hr, hs, hb, hp, hx⟩ := atInstruction_iff.mp h
  simp [step, turn, hr, atBoundary_internal hx, runTurn, hs, hb, hp]

/-- A fetch that faults ends the step with its fault, and nothing else changes but the count of draws. -/
theorem stepFaults_of_fetch {s : State} {tag : Tag} {detail : Nat} (d : Nat) (h : s.atInstruction = true)
    (e : fetch s = .trapped tag detail { s with draws := d }) : StepFaults s tag detail := by
  refine ⟨takeTrap tag detail { s with draws := d }, ?_, ?_⟩
  · rw [step_atInstruction h, cpuStep, e]
  · exact ⟨rfl, rfl, rfl, fun _ => rfl, rfl, rfl, rfl, rfl, sameMemory_of rfl rfl rfl, ⟨rfl, rfl, rfl, rfl, rfl, rfl⟩, rfl, rfl,
      rfl, rfl, rfl⟩

theorem step_fetchRefused {s : State} {r : Refusal} (h : s.atInstruction = true) (e : fetch s = .refused r) :
    step s = .refused r := by
  rw [step_atInstruction h, cpuStep, e]

/-! ### The execute segment and the parcels -/

theorem execSegmentHolds_iff {s : State} {a n : Nat} :
    s.execSegmentHolds a n = true ↔ s.execBase.toNat ≤ a ∧ a + n ≤ s.execBase.toNat + s.execLen.toNat := by
  simp [State.execSegmentHolds]

theorem execSegmentHolds_eq_false {s : State} {a n : Nat} :
    s.execSegmentHolds a n = false ↔ ¬(s.execBase.toNat ≤ a ∧ a + n ≤ s.execBase.toNat + s.execLen.toNat) := by
  rw [← execSegmentHolds_iff, Bool.not_eq_true]

/-- The address of the first parcel is the pc modulo `2^XLEN` (R8). -/
theorem toNat_wrap_pc (s : State) : (wrap s.w s.pc).toNat = s.byteAddr s.pc 0 := toNat_wrap ..

theorem even_of_aligned {s : State} (h : s.pc.toNat % s.params.ialign = 0) : s.pc.toNat % 2 = 0 := by
  unfold Params.ialign at h
  split at h <;> omega

/-- A parcel's two addresses do not wrap between them. -/
theorem byteAddr_succ_of_even {s : State} {a : Word} {k : Nat} (ha : a.toNat % 2 = 0) (hk : k % 2 = 0) :
    s.byteAddr a (k + 1) = s.byteAddr a k + 1 := by
  have hd : (2 : Nat) ∣ 2 ^ s.w.xlen := dvd_pow_self 2 (by have := xlen_le s.w; omega)
  have he : s.byteAddr a k % 2 = 0 := by rw [State.byteAddr, Nat.mod_mod_of_dvd _ hd]; omega
  have hlt : s.byteAddr a k < 2 ^ s.w.xlen := Nat.mod_lt _ (by positivity)
  rw [State.byteAddr, ← Nat.add_assoc, ← Nat.mod_add_mod]
  exact Nat.mod_eq_of_lt (show s.byteAddr a k + 1 < _ by omega)

theorem fetchParcel_unbacked {s : State} {a : Nat} (h : ∀ p, s.pageAt (pageOf a) = some p → isTrapPage p = true) :
    fetchParcel a s = none := by
  unfold fetchParcel
  split
  next p hp => rw [if_pos (h p hp)]
  next => rfl

theorem fetchParcel_backed {s : State} {a : Nat} {p : Page} (h : s.pageAt (pageOf a) = some p) (ht : isTrapPage p = false) :
    fetchParcel a s = some (s.byte (a + 1) ++ s.byte a) := by
  simp [fetchParcel, h, ht]

/-! ### Bytes at the pc -/

theorem holdsCode_iff {s : State} {bs : List Byte} :
    s.holdsCode bs = true ↔ s.pc.toNat % s.params.ialign = 0 ∧ s.execSegmentHolds s.pc.toNat bs.length = true ∧
      ∀ k < bs.length, ∃ p, s.pageAt (pageOf (s.byteAddr s.pc k)) = some p ∧ isTrapPage p = false ∧
        bs[k]? = some (s.byte (s.byteAddr s.pc k)) := by
  simp only [State.holdsCode, Bool.and_eq_true, beq_iff_eq, List.all_eq_true, List.mem_range, and_assoc]
  refine and_congr_right fun _ => and_congr_right fun _ => forall₂_congr fun k _ => ?_
  cases s.pageAt (pageOf (s.byteAddr s.pc k)) <;> simp

/-- The parcel `k` bytes after the pc is the two bytes that stand there. -/
theorem fetchParcel_of_holdsCode {s : State} {bs : List Byte} {lo hi : Byte} {k : Nat} (h : s.holdsCode bs = true)
    (hk : k % 2 = 0) (hlo : bs[k]? = some lo) (hhi : bs[k + 1]? = some hi) :
    fetchParcel (s.byteAddr s.pc k) s = some (hi ++ lo) := by
  obtain ⟨ha, -, hb⟩ := holdsCode_iff.mp h
  obtain ⟨hk1, -⟩ := List.getElem?_eq_some_iff.mp hhi
  obtain ⟨p, hp, ht, e0⟩ := hb k (by omega)
  obtain ⟨-, -, -, e1⟩ := hb (k + 1) hk1
  rw [fetchParcel_backed hp ht, ← byteAddr_succ_of_even (even_of_aligned ha) hk]
  rw [e0] at hlo
  rw [e1] at hhi
  cases hlo
  cases hhi
  rfl

/-! ### The fetch -/

theorem fetch_misaligned {s : State} (h : s.pc.toNat % s.params.ialign ≠ 0) :
    fetch s = .trapped .executionSpaceProtectionFault s.pc.toNat s := by
  simp [fetch, h]

/-- A first parcel that is not inside the execute segment (R161). -/
theorem fetch_outside {s : State} (ha : s.pc.toNat % s.params.ialign = 0) (h : s.execSegmentHolds s.pc.toNat 2 = false) :
    fetch s = outsideExecSegment s := by
  simp [fetch, ha, h]

/-- A first parcel whose page is absent or a Trap page (R162). -/
theorem fetch_firstUnbacked {s : State} (ha : s.pc.toNat % s.params.ialign = 0) (h : s.execSegmentHolds s.pc.toNat 2 = true)
    (hp : fetchParcel (s.byteAddr s.pc 0) s = none) : fetch s = .refused .fetchFromUnbackedExecPage := by
  simp [fetch, ha, h, toNat_wrap_pc, hp]

section
variable {s : State} {p0 : BitVec 16} {len : Nat} (ha : s.pc.toNat % s.params.ialign = 0)
  (h : s.execSegmentHolds s.pc.toNat 2 = true) (hp : fetchParcel (s.byteAddr s.pc 0) s = some p0)
  (hl : lengthOf s.params p0 = some len)
include ha h hp hl

/-- An instruction that does not end inside the execute segment (R161). -/
theorem fetch_endsOutside (he : s.execSegmentHolds s.pc.toNat len = false) :
    fetch s = .trapped .executionSpaceProtectionFault s.pc.toNat s := by
  simp [fetch, ha, h, toNat_wrap_pc, hp, hl, he]

/-- A second parcel whose page is absent or a Trap page (R162). -/
theorem fetch_secondUnbacked (h2 : len ≠ 2) (he : s.execSegmentHolds s.pc.toNat len = true)
    (hq : fetchParcel (s.byteAddr s.pc 2) s = none) : fetch s = .refused .fetchFromUnbackedExecPage := by
  have e2 : (wrap s.w (s.pc + 2#64)).toNat = s.byteAddr s.pc 2 := toNat_wrap_add s s.pc 2
  simp [fetch, ha, h, toNat_wrap_pc, hp, hl, he, h2, e2, hq]

end

/-- Outside the band of a constant segment the tag is not drawn (R161). -/
theorem outsideExecSegment_notBand {s : State}
    (h : ¬(s.params.execConstant = true ∧ s.inExecSegment s.pc.toNat = false ∧ s.pageMeetsExec (pageOf s.pc.toNat) = true)) :
    outsideExecSegment s = .trapped .executionSpaceProtectionFault s.pc.toNat s := by
  unfold outsideExecSegment
  rw [if_neg]
  simpa [and_assoc] using h

/-- In the band of a constant segment the tag is one of two, drawn (R161, C7). -/
theorem outsideExecSegment_band {s : State} (hc : s.params.execConstant = true) (hi : s.inExecSegment s.pc.toNat = false)
    (hm : s.pageMeetsExec (pageOf s.pc.toNat) = true) :
    outsideExecSegment s = .trapped .executionSpaceProtectionFault s.pc.toNat s.drawn ∨
      outsideExecSegment s = .trapped .unimplementedInstruction s.pc.toNat s.drawn := by
  unfold outsideExecSegment
  rw [if_pos (by simp [hc, hi, hm])]
  cases Config.freeBool s.draws
  · exact .inl rfl
  · exact .inr rfl

end Sys2Proof.Laws

namespace Sys2Proof.Proofs

open Sys2Proof.Machine Sys2Proof.Laws

/-- Settles O40: the outcomes of the fetch, in the order of its checks. -/
theorem fetchChecks : Obligations.FetchChecks := by
  intro s hat
  refine ⟨fun ha => ?_, fun ha ho => ⟨fun hn => ?_, fun hc hi hm => ?_⟩, fun lo hi hcode hl hend => ?_,
    fun ha h1 h2 hp => ?_, fun lo hi hcode hl hend hp => ?_⟩
  · exact stepFaults_of_fetch s.draws hat (fetch_misaligned ha)
  · have e := fetch_outside ha (execSegmentHolds_eq_false.mpr ho)
    exact stepFaults_of_fetch s.draws hat (e.trans (outsideExecSegment_notBand hn))
  · have e := fetch_outside ha (execSegmentHolds_eq_false.mpr ho)
    exact (outsideExecSegment_band hc hi hm).imp (fun e' => stepFaults_of_fetch _ hat (e.trans e'))
      fun e' => stepFaults_of_fetch _ hat (e.trans e')
  · obtain ⟨ha, hs, -⟩ := holdsCode_iff.mp hcode
    have hp := fetchParcel_of_holdsCode (k := 0) hcode rfl rfl rfl
    exact stepFaults_of_fetch s.draws hat
      (fetch_endsOutside ha hs hp hl (execSegmentHolds_eq_false.mpr fun h => by omega))
  · exact step_fetchRefused hat
      (fetch_firstUnbacked ha (execSegmentHolds_iff.mpr ⟨h1, h2⟩) (fetchParcel_unbacked hp))
  · obtain ⟨ha, hs, -⟩ := holdsCode_iff.mp hcode
    have hp0 := fetchParcel_of_holdsCode (k := 0) hcode rfl rfl rfl
    have hbase := (execSegmentHolds_iff.mp hs).1
    exact step_fetchRefused hat
      (fetch_secondUnbacked ha hs hp0 hl (by decide) (execSegmentHolds_iff.mpr ⟨hbase, hend⟩) (fetchParcel_unbacked hp))

end Sys2Proof.Proofs
end

section
/-! SUPPORT. The loader (R465): it changes the pages and the bytes, then sets the execute segment and the start address; the reset of the
CPU after it (R460); what a launch state is (R466). -/

namespace Sys2Proof.Laws

open Sys2Proof.Machine

/-! ### What the loader leaves -/

/-- `t` is `s` with other pages, bytes and notes. -/
def OnlyPages (s t : State) : Prop := ∃ ps m hm u, t = { withBytes s m hm u with pages := ps }

theorem onlyPages_refl (s : State) : OnlyPages s s := ⟨s.pages, s.mem, s.hostMem, s.undo, rfl⟩

theorem onlyPages_setPage {s t : State} (h : OnlyPages s t) (n : Nat) (p : Page) : OnlyPages s (t.setPage n p) := by
  obtain ⟨_, _, _, _, rfl⟩ := h
  exact ⟨_, _, _, _, rfl⟩

theorem onlyPages_installPage {s t : State} (h : OnlyPages s t) (n : Nat) (p : Page) (bs : List Byte) :
    OnlyPages s (t.installPage n p bs) := by
  obtain ⟨_, _, _, _, rfl⟩ := h
  exact ⟨_, _, _, _, rfl⟩

theorem onlyPages_storeBytes {s t : State} (h : OnlyPages s t) (a : Nat) (bs : List Byte) :
    OnlyPages s (t.storeBytes a bs) := by
  obtain ⟨m, hm, e⟩ := storeBytes_withBytes t a bs
  obtain ⟨_, _, _, _, rfl⟩ := h
  rw [e]
  exact ⟨_, _, _, _, rfl⟩

theorem onlyPages_createOwned {s t : State} (h : OnlyPages s t) (n : Nat) (attr : PageAttr) :
    Keeps (OnlyPages s) (createOwned n attr t) := by
  unfold createOwned
  split
  · exact h
  · exact onlyPages_installPage h ..

/-- What one page keeps, a list of pages keeps. -/
theorem forPages_keeps {P : State → Prop} {f : Nat → State → Effect Unit} (hf : ∀ n t, P t → Keeps P (f n t)) (ns : List Nat)
    {t : State} (h : P t) : Keeps P (forPages f ns t) := by
  induction ns generalizing t with
  | nil => exact h
  | cons n ns ih => exact (hf n t h).bind fun _ _ h' => ih h'

theorem onlyPages_loadPage {s t : State} (g : Segment) (n : Nat) (h : OnlyPages s t) :
    Keeps (OnlyPages s) (loadPage g n t) := by
  unfold loadPage
  dsimp only
  split
  · split
    · exact h
    · exact onlyPages_setPage h ..
  · split
    · exact h
    · exact onlyPages_installPage h ..

theorem onlyPages_loadSegments {s t : State} (gs : List Segment) (h : OnlyPages s t) :
    Keeps (OnlyPages s) (loadSegments gs t) := by
  induction gs generalizing t with
  | nil => exact h
  | cons g gs ih =>
    have segment : Keeps (OnlyPages s) (loadSegment g t) :=
      (forPages_keeps (fun n _ => onlyPages_loadPage g n) _ h).bind fun _ _ h' => onlyPages_storeBytes h' ..
    exact segment.bind fun _ _ h' => ih h'

theorem onlyPages_stackPage {s t : State} (n : Nat) (h : OnlyPages s t) : Keeps (OnlyPages s) (stackPage n t) := by
  unfold stackPage
  split
  · exact h
  · exact (onlyPages_createOwned h n .rw).bind fun _ _ h' => h'

theorem keeps_of_done {α : Type} {P : State → Prop} {e : Effect α} {a : α} {t : State} {w : Bool} (h : Keeps P e)
    (he : e = .done a t w) : P t := by
  rw [he] at h
  exact h

/-- The fields beside the pages and the bytes that the loader leaves (R57, R465). -/
structure Launched (img : Image) (o : Options) (t : State) : Prop where
  params : t.params = o.params
  start : t.startAddress = wrap o.params.w img.entry
  stack : t.stackAddress = wrap o.params.w o.stackAddress
  exit : t.exitAddress = wrap o.params.w o.exitAddress
  handlers : t.handlers = []
  run : t.run = none
  exec : ∀ g, lowestExecutable img.segments = some g →
    t.execBase = wrap o.params.w g.vaddr ∧ t.execLen = wrap o.params.w (BitVec.ofNat 64 g.memsz)

/-- A load that succeeds knows every relocation and leaves the launch fields: the segments change pages alone, then come the
execute segment and the start address, then the stack's pages (R465). -/
theorem load_done {img : Image} {o : Options} {t : State} {w : Bool} (h : load img o = .done () t w) :
    img.unknownRelocation = none ∧ Launched img o t := by
  obtain ⟨_, s1, _, _, h1, h2, -⟩ := bind_done_cases h
  obtain ⟨ps, m, hm, u, rfl⟩ := keeps_of_done (onlyPages_loadSegments _ (onlyPages_refl (blank o))) h1
  split at h2
  next => cases h2
  next hu =>
    obtain ⟨_, s2, _, _, h3, h4, -⟩ := bind_done_cases h2
    obtain ⟨ps', m', hm', u', rfl⟩ := keeps_of_done (forPages_keeps (fun n _ => onlyPages_stackPage n) _ (onlyPages_refl _)) h3
    cases h4
    refine ⟨hu, ?_⟩
    cases hg : lowestExecutable img.segments with
    | none => exact ⟨rfl, rfl, rfl, rfl, rfl, rfl, fun _ e => by rw [hg] at e; cases e⟩
    | some g => exact ⟨rfl, rfl, rfl, rfl, rfl, rfl, fun _ e => by rw [hg] at e; cases e; exact ⟨rfl, rfl⟩⟩

/-- A Machine that construction gives is the reset of a launchable state that the loader left (R465, R466). -/
theorem construct_machine {img : Image} {o : Options} {s : State} (h : construct img o = .machine s) :
    ∃ t, img.unknownRelocation = none ∧ Launched img o t ∧ t.launchable = true ∧ s = resetCpu t := by
  unfold construct at h
  split at h
  next =>
    split at h
    next t _ hl =>
      split at h
      next ht =>
        cases h
        exact ⟨t, (load_done hl).1, (load_done hl).2, ht, rfl⟩
      next => cases h
    next => cases h
    next => cases h
  next => cases h

/-! ### The execute segment -/

theorem lowestExecutable_mem {gs : List Segment} {h : Segment} (e : lowestExecutable gs = some h) : h ∈ gs ∧ h.x = true := by
  induction gs with
  | nil => cases e
  | cons g gs ih =>
    unfold lowestExecutable at e
    split at e
    next =>
      split at e
      next hg => cases e; exact ⟨List.mem_cons_self .., hg⟩
      next => cases e
    next k hk =>
      split at e
      next hg => cases e; exact ⟨List.mem_cons_self .., (Bool.and_eq_true_iff.mp hg).1⟩
      next =>
        cases e
        exact ⟨List.mem_cons_of_mem _ (ih hk).1, (ih hk).2⟩

/-- The lowest executable segment, the earlier header of two at its address (R465 item 5, C1). -/
theorem lowestExecutable_eq {before after : List Segment} {g : Segment} (hx : g.x = true)
    (hb : ∀ h ∈ before, h.x = true → g.vaddr.toNat < h.vaddr.toNat)
    (ha : ∀ h ∈ after, h.x = true → g.vaddr.toNat ≤ h.vaddr.toNat) :
    lowestExecutable (before ++ g :: after) = some g := by
  induction before with
  | nil =>
    cases e : lowestExecutable after with
    | none => simp [lowestExecutable, e, hx]
    | some h =>
      have hle := ha h (lowestExecutable_mem e).1 (lowestExecutable_mem e).2
      simp [lowestExecutable, e, hx, hle]
  | cons b before ih =>
    have e := ih fun h hh => hb h (List.mem_cons_of_mem _ hh)
    have hlt : b.x = true → ¬b.vaddr.toNat ≤ g.vaddr.toNat := fun hbx => Nat.not_le.mpr (hb b (List.mem_cons_self ..) hbx)
    rw [List.cons_append, lowestExecutable, e]
    exact if_neg (by simpa using hlt)

/-! ### The pages of a range -/

theorem pageOf_lt_pageCount {w : Width} {q : Nat} (h : q < 2 ^ w.xlen) : pageOf q < pageCount w := by
  cases w <;> simp only [pageOf, pageSize, pageCount, Width.xlen, Width.bytes] at h ⊢ <;> omega

/-- The pages a range touches are those of its addresses, inside the address space (R92, R93). -/
theorem mem_pagesTouched {w : Width} {base len n : Nat} :
    n ∈ pagesTouched w base len ↔ n < pageCount w ∧ ∃ q, base ≤ q ∧ q < base + len ∧ pageOf q = n := by
  refine ⟨fun h => ⟨pagesTouched_lt h, ?_⟩, ?_⟩
  · unfold pagesTouched at h
    split at h
    · cases h
    · simp only [List.mem_map, List.mem_range] at h
      obtain ⟨k, hk, rfl⟩ := h
      refine ⟨max base ((pageOf base + k) * pageSize), ?_⟩
      simp only [pageOf, pageSize] at *
      omega
  · rintro ⟨hn, q, h1, h2, rfl⟩
    simp only [pagesTouched, if_neg (show ¬len = 0 by omega), List.mem_map, List.mem_range]
    refine ⟨pageOf q - pageOf base, ?_⟩
    simp only [pageOf, pageSize] at *
    omega

theorem launchable_iff {s : State} :
    s.launchable = true ↔ s.stackAddress.toNat % 16 = 0 ∧ s.execBase.toNat % s.params.ialign = 0 ∧
      ∀ n ∈ pagesTouched s.w s.execBase.toNat s.execLen.toNat, ∃ p, s.pageAt n = some p ∧ isTrapPage p = false := by
  simp only [State.launchable, Bool.and_eq_true, beq_iff_eq, List.all_eq_true, and_assoc]
  refine and_congr_right fun _ => and_congr_right fun _ => forall₂_congr fun n _ => ?_
  cases s.pageAt n <;> simp

/-- In a launchable state the execute segment is backed by pages that are no Trap pages (R466). -/
theorem execSegment_backed {s : State} (h : s.launchable = true) {q : Nat} (hq : s.inExecSegment q = true)
    (hw : q < 2 ^ s.w.xlen) : ∃ p, s.pageAt (pageOf q) = some p ∧ isTrapPage p = false := by
  obtain ⟨-, -, hb⟩ := launchable_iff.mp h
  simp only [State.inExecSegment, Bool.and_eq_true, decide_eq_true_eq] at hq
  exact hb _ (mem_pagesTouched.mpr ⟨pageOf_lt_pageCount hw, q, hq.1, hq.2, rfl⟩)

/-! ### The reset of the CPU (R460, R461) -/

theorem getElem_resetRegs (v : Word) (r : Reg) : (resetRegs v)[r.toNat]'r.isLt = if r = 2 then v else 0 := by
  have hr : 2 = r.toNat ↔ r = 2 := ⟨fun h => BitVec.eq_of_toNat_eq h.symm, fun h => by rw [h]; rfl⟩
  simp only [resetRegs, Vector.getElem_set, Vector.getElem_replicate, hr]

/-- After reset x2 is the initial stack pointer, every other register 0. -/
theorem x_resetCpu (s : State) (r : Reg) : (resetCpu s).x r = if r = 2 then wrap s.w s.stackAddress else 0 := by
  have h0 : wrap s.w 0 = 0 := by cases s.w <;> rfl
  show (if r = 0#5 then 0 else wrap s.w ((resetRegs (wrap s.w s.stackAddress))[r.toNat]'r.isLt)) = _
  rw [getElem_resetRegs]
  by_cases h2 : r = 2
  · subst h2
    exact wrap_wrap ..
  · simp only [if_neg h2, h0, ite_self]

/-- The low `XLEN` bits of a word are its value modulo `2^XLEN` (R8). -/
theorem toNat_wrap_mod {s : State} {w : Width} (hw : s.w = w) (v : Word) : (wrap w v).toNat = s.mod v.toNat := by
  rw [mod_natCast, ← hw, toNat_wrap]

theorem toNat_wrap_ofNat {s : State} {w : Width} (hw : s.w = w) (n : Nat) :
    (wrap w (BitVec.ofNat 64 n)).toNat = s.mod n := by
  rw [mod_natCast, ← hw, toNat_wrap, BitVec.toNat_ofNat, Nat.mod_mod_of_dvd _ (xlen_dvd _)]

end Sys2Proof.Laws

namespace Sys2Proof.Proofs

open Sys2Proof.Machine Sys2Proof.Laws

/-- Settles O54: a Machine is the CPU reset over what the loader left (`construct_machine`); the launch fields and `launchable` give the
rest. -/
theorem constructionLeaves : Obligations.ConstructionLeaves := by
  intro img o
  refine ⟨fun hv => by simp [construct, hv], fun s hs => ?_⟩
  obtain ⟨t, hu, hl, hc, rfl⟩ := construct_machine hs
  obtain ⟨h16, halign, -⟩ := launchable_iff.mp hc
  have hw : (resetCpu t).w = o.params.w := congrArg Params.w hl.params
  have htw : t.w = o.params.w := hw
  have hstack : (resetCpu t).stackAddress.toNat = (resetCpu t).mod o.stackAddress.toNat :=
    (congrArg BitVec.toNat hl.stack).trans (toNat_wrap_mod hw _)
  have hstart : (resetCpu t).startAddress.toNat = (resetCpu t).mod img.entry.toNat :=
    (congrArg BitVec.toNat hl.start).trans (toNat_wrap_mod hw _)
  have hpc : (resetCpu t).pc = t.startAddress := by
    show wrap t.w t.startAddress = _
    rw [hl.start, htw, wrap_wrap]
  have hx2 : (resetCpu t).x 2 = t.stackAddress := by
    rw [x_resetCpu, if_pos rfl, hl.stack, htw, wrap_wrap]
  refine ⟨hu, hl.params, fun r hr => by rw [x_resetCpu, if_neg hr], (congrArg BitVec.toNat hx2).trans hstack,
    (congrArg BitVec.toNat hpc).trans hstart, hstart, hstack, h16, (congrArg BitVec.toNat hl.exit).trans (toNat_wrap_mod hw _),
    rfl, rfl, rfl, rfl, hl.handlers, hl.run, halign, fun q hq hlt => execSegment_backed hc hq hlt, ?_⟩
  intro before after g himg hg hb ha
  obtain ⟨hbase, hlen⟩ := hl.exec g (himg ▸ lowestExecutable_eq hg hb ha)
  exact ⟨(congrArg BitVec.toNat hbase).trans (toNat_wrap_mod hw _), (congrArg BitVec.toNat hlen).trans (toNat_wrap_ofNat hw _)⟩

end Sys2Proof.Proofs
end

section
/-! SUPPORT. The invariant holds after reset (R35, R460, R466) and over every step. -/

namespace Sys2Proof.Laws

open Sys2Proof.Machine

/-- The launch state of R466 meets the invariant. -/
theorem reset_wf : State.reset.wf where
  cpu := ⟨rfl, fun i => canonical_resetRegs .w8 0x80000 rfl i, rfl⟩
  addr := ⟨rfl, rfl, rfl, ⟨rfl, rfl⟩, rfl, rfl⟩
  pages := ⟨by decide, by decide, by decide, by decide, by decide⟩
  resv := ⟨nofun, nofun, nofun⟩
  run := ⟨nofun, nofun⟩
  handlers := by decide

end Sys2Proof.Laws

namespace Sys2Proof.Proofs

open Sys2Proof.Machine Sys2Proof.Laws

/-- Settles O58: a step is a turn of the run loop or a call of the host, and each keeps the invariant (`steps_step`). -/
theorem stepKeepsInvariant : Obligations.StepKeepsInvariant := fun _ t h e => (steps_step h t e).wf

/-- Settles O59: the launch state's registers are those of `resetRegs`; the rest is read off its fields. -/
theorem resetMeetsInvariant : Obligations.ResetMeetsInvariant := by
  refine ⟨reset_wf, fun r hr => ?_, rfl, rfl, rfl, rfl, rfl, rfl, rfl, rfl⟩
  show (resetCpu State.reset).x r = 0
  rw [x_resetCpu, if_neg hr]

end Sys2Proof.Proofs
end

section
/-! SUPPORT. The three ways a turn of the run loop ends the run before an instruction, and what the end leaves (R167 to R169). -/

namespace Sys2Proof.Laws

open Sys2Proof.Machine

section
variable {s : State} {r : Run}

/-- The budget is spent exactly where it is bounded and the counter has reached it (R167). -/
theorem budgetSpent_iff :
    budgetSpent r s = true ↔ r.maxInstr ≠ 0 ∧ r.startCounter.toNat + r.maxInstr ≤ s.counter.toNat := by
  simp [budgetSpent]

theorem budgetSpent_atBoundary : budgetSpent r (atBoundary s) = budgetSpent r s := by
  simp [budgetSpent]

variable (hr : s.run = some r)
include hr

theorem step_run : step s = runTurn r (atBoundary s) := by simp [step, turn, hr]

/-- The stop flag is looked at first (R167). -/
theorem step_stopped (hs : s.stopped = true) : step s = .next (endRun .stopped (atBoundary s)) := by
  simp [step_run hr, runTurn, hs]

/-- Then the budget (R167). -/
theorem step_budgetSpent (hs : s.stopped = false) (hb : budgetSpent r s = true) :
    step s = if s.params.deadlockOnBudget then .next (takeTrap .deadlock s.counter.toNat (atBoundary s))
      else .next (endRun s.status (atBoundary s)) := by
  simp [step_run hr, runTurn, hs, budgetSpent_atBoundary, hb]

/-- Then the exit sentinel, which sets the stop flag (R168, R169). -/
theorem step_exitSentinel (hs : s.stopped = false) (hb : budgetSpent r s = false) (hp : s.pc = s.exitAddress) :
    step s = .next (endRun .stopped { atBoundary s with stopped := true }) := by
  simp [step_run hr, runTurn, hs, budgetSpent_atBoundary, hb, hp]

end

/-- A run that ends on the boundary's state, but for its stop flag, answers OK and leaves everything else. -/
theorem ends_of_step {s : State} {st : Status} (stop : Bool) (e : step s = .next (endRun st { atBoundary s with stopped := stop })) :
    ∃ t, step s = .next t ∧ t.status = st ∧ t.hostResult = .ok ∧ t.run = none ∧ (∀ q, t.x q = s.x q) ∧ t.pc = s.pc ∧
      t.counter = s.counter ∧ t.stopped = stop ∧ t.resv = s.resv ∧ (atBoundary s).SameMemory t ∧ s.SameFixed t := by
  refine ⟨_, e, rfl, rfl, rfl, x_congr ?_ ?_, ?_, ?_, rfl, ?_, sameMemory_of rfl rfl rfl, ⟨?_, ?_, ?_, ?_, ?_, ?_⟩⟩
  all_goals simp

end Sys2Proof.Laws

namespace Sys2Proof.Proofs

open Sys2Proof.Machine Sys2Proof.Laws

/-- Settles O42: the checks of the loop in their order (`step_stopped`, `step_budgetSpent`, `step_exitSentinel`), each an end of the
run on the boundary's state or the fault `DEADLOCK`. -/
theorem loopEnds : Obligations.LoopEnds := by
  intro s r hr
  refine ⟨fun hs => ?_, fun hs hm hc => ⟨fun hd => ?_, fun hd => ?_⟩, fun hs hm hp => ?_⟩
  · simpa [hs] using ends_of_step (atBoundary s).stopped (step_stopped hr hs)
  · have e := step_budgetSpent hr hs (budgetSpent_iff.mpr ⟨hm, hc⟩)
    rw [if_neg (by simp [hd])] at e
    simpa [hs] using ends_of_step (atBoundary s).stopped e
  · have e := step_budgetSpent hr hs (budgetSpent_iff.mpr ⟨hm, hc⟩)
    rw [if_pos hd] at e
    exact ⟨_, e, trapTaken_takeTrap _ _ (atBoundary s) (atBoundary s).undo,
      x_congr (atBoundary_regs s) (atBoundary_params s), atBoundary_pc s⟩
  · have hb : budgetSpent r s = false := by
      rw [← Bool.not_eq_true, budgetSpent_iff]
      omega
    exact ends_of_step true (step_exitSentinel hr hs hb hp)

end Sys2Proof.Proofs
end

section
/-! SUPPORT. A system call whose handler does one operation and answers (R430 to R433). -/

namespace Sys2Proof.Laws

open Sys2Proof.Machine

/-- A callback that the host declares to do one operation, which completes, and then to answer. -/
theorem callHost_oneAct {s u : State} {callback : Nat} {answer : HostAnswer} {op : HostOp} {r : HostResult} {w : Bool}
    (args : List Nat) (h : SMap.find s.scripts callback = some answer) (ha : answer.acts = [op]) (hf : answer.failure = none)
    (hop : hostAct (.nested Config.hostNesting) op s.drawn = .done r u w) :
    callHost callback args s = .done answer (drawReservation { u with hostResult := r }) w := by
  simp [callHost, callHostWith, answerOf, h, ha, runScript, hop, afterHost, answered, hf, Effect.pure]

/-- A call other than `SYSCALL_EBREAK` writes what its handler answers to `a0` (R304, R432). -/
theorem systemCall_answered {s u : State} {n : Word} {handler : Nat} {answer : HostAnswer} {w : Bool}
    (hh : SMap.find s.handlers n.toNat = some handler) (hc : callHost handler [n.toNat] s = .done answer u w)
    (hn : n ≠ u.ebreakNumber) : systemCall n s = .done () (u.setReg 10 (answerValue answer u)) w := by
  simp [systemCall, hh, hc, hn, Effect.pure]

/-- The number of EBREAK is `SYSCALL_EBREAK` modulo `2^XLEN` (R303). -/
theorem toNat_ebreakNumber {s u : State} (h : u.params = s.params) :
    u.ebreakNumber.toNat = s.mod s.params.syscallEbreak.toNat := by
  rw [State.ebreakNumber, h]
  exact toNat_wrap_mod (congrArg Params.w h).symm _

/-- An ECALL, of another number than EBREAK's, whose handler returns `v` in the state `u` (R302, R304). -/
theorem ecall_answered {s u : State} {handler : Nat} {answer : HostAnswer} {v : Word} {w : Bool}
    (hh : SMap.find s.handlers (s.ux 17) = some handler) (hn : s.ux 17 ≠ s.mod s.params.syscallEbreak.toNat)
    (hc : callHost handler [s.ux 17] s = .done answer u w) (hp : u.params = s.params) (hv : answerValue answer u = v) :
    exec .ecall s = retire 4 w (u.setReg 10 v) := by
  have hne : s.x 17 ≠ u.ebreakNumber := fun e => hn ((congrArg BitVec.toNat e).trans (toNat_ebreakNumber hp))
  rw [exec_ecall, execEcall, systemCall_answered hh hc hne, finish_done, hv]

/-- A write-back in a state with the registers, the pc and the counter of `s` retires from `s`. -/
theorem retired_writeBack {s u : State} {len : Nat} {rd : Reg} {v : Word} (hl : len < 2 ^ 32) (hc : s.counter ≠ counterMax)
    (hp : u.params = s.params) (hr : u.regs = s.regs) (hpc : u.pc = s.pc) (hcnt : u.counter = s.counter) :
    Retired s { u.setReg rd v with pc := u.pcNext len, counter := u.counter + 1 } (s.pc.toNat + len) rd v.toNat := by
  have hw : u.w = s.w := congrArg Params.w hp
  refine retired_of (u := u.setReg rd v) hl hc (by simp [hp]) (by simp [State.pcNext, hw, hpc]) (by simp [hcnt]) rfl
    (by simp [hp]) (fun q hq => ?_) fun h0 => ?_
  · rw [x_setReg_ne _ _ _ _ hq, x_congr hr hp]
  · rw [State.ux, x_setReg_self, if_neg (show ¬rd = 0#5 from h0)]
    exact toNat_wrap_mod hw.symm v

end Sys2Proof.Laws

namespace Sys2Proof.Proofs

open Sys2Proof.Machine Sys2Proof.Laws

/-- Settles O27: the handler sets the stop flag alone, so the ECALL retires with its `a0` write; the next turn finds the flag
(`step_stopped`). -/
theorem systemCallStops : Obligations.SystemCallStops := by
  intro s h a v r hc hh hn hs ha hf hv hr
  obtain ⟨u, hu⟩ : ∃ u, u = drawReservation { s.drawn with stopped := true, hostResult := .ok } := ⟨_, rfl⟩
  have hcall : callHost h [s.ux 17] s = .done a u false := hu ▸ callHost_oneAct _ hs ha hf rfl
  have e : exec .ecall s = writeBack 4 10 v u :=
    ecall_answered hh hn hcall (by rw [hu]; rfl) (by rw [answerValue, hv])
  rw [writeBack_next _ _ _ _ (by rw [hu]; exact hc)] at e
  obtain ⟨t, ht⟩ : ∃ t, t = { u.setReg 10 v with pc := u.pcNext 4, counter := u.counter + 1 } := ⟨_, rfl⟩
  have hret : Retired s t (s.pc.toNat + 4) 10 v.toNat :=
    ht ▸ retired_writeBack (by decide) hc (by rw [hu]; rfl) (by rw [hu]; rfl) (by rw [hu]; rfl) (by rw [hu]; rfl)
  have hrun : t.run = some r := by simp [ht, hu, hr]
  have hstop : t.stopped = true := by simp [ht, hu]
  obtain ⟨z, hz, hst, hres, hzr, hx, hpc, hcnt, -, -, hmem, -⟩ := ends_of_step (atBoundary t).stopped (step_stopped hrun hstop)
  refine ⟨t, z, ht ▸ e, hret, hstop, ?_, hrun.trans hr.symm, sameMemory_of ?_ ?_ ?_, hz, hst, hzr, hres, hcnt, hpc, hx, hmem⟩ <;>
    simp [ht, hu]

end Sys2Proof.Proofs
end

section
/-! SUPPORT. Every instruction is the end of a part that keeps the invariant and what no part changes, so it retires once or faults
without retiring (R25, R166, R410). -/

namespace Sys2Proof.Laws

open Sys2Proof.Machine

/-! ### What the end of an instruction gives -/

/-- The two ways an instruction ends with a next state: it retires, below the counter's end, or it faults. -/
theorem finish_next {len : Nat} {e : Effect Unit} {t : State} (h : finish len e = .next t) :
    (∃ u w, e = .done () u w ∧ u.counter ≠ counterMax ∧
      t = { u with pc := if w then u.pc else u.pcNext len, counter := u.counter + 1 }) ∨
    ∃ tag detail u, e = .trapped tag detail u ∧ t = takeTrap tag detail u := by
  cases e with
  | done a u w =>
    by_cases hc : u.counter = counterMax
    · rw [finish_done, retire_refused _ _ _ hc] at h
      cases h
    · rw [finish_done, retire_next _ _ _ hc] at h
      cases h
      exact .inl ⟨u, w, rfl, hc, rfl⟩
  | trapped tag detail u =>
    cases h
    exact .inr ⟨tag, detail, u, rfl, rfl⟩
  | refused r => cases h

/-- The outcome is the end of an instruction whose part keeps the invariant and what no part of an instruction changes. -/
def EndsGood (s : State) (o : Host.Outcome State Fault Refusal) : Prop := ∃ len e, Keeps (Good s) e ∧ o = finish len e

/-- Such an end retires once, or faults and leaves the counter. -/
theorem EndsGood.retiresOrTraps {s t : State} (h : EndsGood s (.next t)) :
    (t.counter.toNat = s.counter.toNat + 1 ∧ t.status = s.status ∧ t.run = s.run) ∨
    (t.counter = s.counter ∧ t.run = none ∧ ∃ tag detail, t.status = .trapped tag detail ∧ t.hostResult = .failed tag detail) := by
  obtain ⟨len, e, hk, he⟩ := h
  obtain ⟨u, w, rfl, hc, rfl⟩ | ⟨tag, detail, u, rfl, rfl⟩ := finish_next he.symm
  · have k : Kept s u := hk.kept
    exact .inl ⟨by rw [← k.counter]; exact counter_succ hc, k.status, k.run⟩
  · have k : Kept s u := hk.kept
    exact .inr ⟨k.counter, rfl, tag, detail, rfl, rfl⟩

/-! ### The shapes of the instructions -/

section
variable {s : State}

theorem endsGood_finish (len : Nat) {e : Effect Unit} (h : Keeps (Good s) e) : EndsGood s (finish len e) := ⟨len, e, h, rfl⟩

theorem endsGood_refused (r : Refusal) : EndsGood s (.refused r) := ⟨0, .refused r, trivial, rfl⟩

theorem endsGood_trap {t : State} (tag : Tag) (detail : Nat) (h : Good s t) : EndsGood s (.next (takeTrap tag detail t)) :=
  ⟨0, .trapped tag detail t, h, rfl⟩

theorem endsGood_retire {t : State} (len : Nat) (w : Bool) (h : Good s t) : EndsGood s (retire len w t) :=
  ⟨len, .done () t w, h, rfl⟩

variable (h : s.wf)
include h

theorem endsGood_writeBack (len : Nat) (rd : Reg) (v : Word) : EndsGood s (writeBack len rd v s) :=
  endsGood_retire len false (good_setReg (good_refl h) rd v)

theorem endsGood_jumpRelative {n : Nat} (len : Nat) (rd : Reg) (o : BitVec n) : EndsGood s (jumpRelative len rd o s) :=
  endsGood_retire len true (good_setPc (good_setReg (good_refl h) rd _) _)

theorem endsGood_jumpRegister {n : Nat} (len : Nat) (rd rs1 : Reg) (o : BitVec n) :
    EndsGood s (jumpRegister len rd rs1 o s) := by
  unfold jumpRegister
  split
  · exact endsGood_refused _
  · exact endsGood_retire len true (good_setPc (good_setReg (good_refl h) rd _) _)

theorem endsGood_branchIf {n : Nat} (len : Nat) (c : Bool) (o : BitVec n) : EndsGood s (branchIf len c o s) := by
  unfold branchIf
  split
  · exact endsGood_retire len true (good_setPc (good_refl h) _)
  · exact endsGood_retire len false (good_refl h)

theorem endsGood_loadFrom (len : Nat) (z : Size) (sg : Bool) (rd : Reg) {ea : Word} (ha : canonical s.w ea) :
    EndsGood s (loadFrom len z sg rd ea s) :=
  endsGood_finish len ((keeps_memRead (good_refl h) ha).bind fun _ _ h' => good_setReg h' _ _)

theorem endsGood_storeTo (len : Nat) (z : Size) (v : Word) {ea : Word} (ha : canonical s.w ea) :
    EndsGood s (storeTo len z ea v s) := endsGood_finish len (keeps_memWrite (good_refl h) ha)

theorem endsGood_unimplemented (i : Instr) : EndsGood s (unimplemented i s) := by
  unfold unimplemented
  split
  · split <;> exact endsGood_trap _ _ (good_refl h)
  · exact endsGood_trap _ _ (good_refl h)

/-- A row this block does not execute. -/
theorem endsGood_notExecuted {i : Instr} (e : exec i s = unimplemented i s) : EndsGood s (exec i s) :=
  e ▸ endsGood_unimplemented h i

theorem endsGood_guarded (i : Instr) {o : Host.Outcome State Fault Refusal} (ho : i.wf s.params = true → EndsGood s o) :
    EndsGood s (guarded i s o) := by
  unfold guarded
  split
  next hw => exact ho hw
  next => exact endsGood_unimplemented h i

end

/-- LR.W needs the A extension (R282). -/
theorem extA_of_wf_lrW {p : Params} {rd rs1 : Reg} {aq rl : Bool} (h : (Instr.lrW rd rs1 aq rl).wf p = true) : p.extA = true :=
  (Bool.and_eq_true_iff.mp h).1

/-- LR.D needs the A extension and 64-bit registers (R282). -/
theorem rv64A_of_wf_lrD {p : Params} {rd rs1 : Reg} {aq rl : Bool} (h : (Instr.lrD rd rs1 aq rl).wf p = true) :
    p.extA = true ∧ p.w = .w8 := by
  have hn : Needs.met p .atomic64 = true := (Bool.and_eq_true_iff.mp h).1
  simpa [Needs.met] using hn

/-- Every instruction ends so: one arm per shape of meaning. -/
theorem endsGood_exec (i : Instr) {s : State} (h : s.wf) : EndsGood s (exec i s) :=
  match i with
  | .lui .. | .auipc .. | .addi .. | .slti .. | .sltiu .. | .xori .. | .ori .. | .andi .. | .add .. | .sub .. | .sll .. | .slt ..
  | .sltu .. | .xor .. | .srl .. | .sra .. | .or .. | .and .. => endsGood_writeBack h _ _ _
  | .slli .. | .srli .. | .srai .. | .addiw .. | .slliw .. | .srliw .. | .sraiw .. | .addw .. | .subw .. | .sllw .. | .srlw ..
  | .sraw .. | .cAddi4spn .. | .cAddi .. | .cAddiw .. | .cLi .. | .cAddi16sp .. | .cLui .. | .cSrli .. | .cSrai .. | .cAndi ..
  | .cSub .. | .cXor .. | .cOr .. | .cAnd .. | .cSubw .. | .cAddw .. | .cSlli .. | .cMv .. | .cAdd .. =>
    endsGood_guarded h _ fun _ => endsGood_writeBack h _ _ _
  | .jal .. => endsGood_jumpRelative h _ _ _
  | .cJal .. | .cJ .. => endsGood_guarded h _ fun _ => endsGood_jumpRelative h _ _ _
  | .jalr .. => endsGood_jumpRegister h _ _ _ _
  | .cJr .. | .cJalr .. => endsGood_guarded h _ fun _ => endsGood_jumpRegister h _ _ _ _
  | .beq .. | .bne .. | .blt .. | .bge .. | .bltu .. | .bgeu .. => endsGood_branchIf h _ _ _
  | .cBeqz .. | .cBnez .. => endsGood_guarded h _ fun _ => endsGood_branchIf h _ _ _
  | .lb .. | .lh .. | .lw .. | .lbu .. | .lhu .. => endsGood_loadFrom h _ _ _ _ (canonical_ea ..)
  | .ld .. | .lwu .. => endsGood_guarded h _ fun _ => endsGood_loadFrom h _ _ _ _ (canonical_ea ..)
  | .cLw .. | .cLd .. | .cLwsp .. | .cLdsp .. => endsGood_guarded h _ fun _ => endsGood_loadFrom h _ _ _ _ (canonical_eaU ..)
  | .sb .. | .sh .. | .sw .. => endsGood_storeTo h _ _ _ (canonical_ea ..)
  | .sd .. => endsGood_guarded h _ fun _ => endsGood_storeTo h _ _ _ (canonical_ea ..)
  | .cSw .. | .cSd .. | .cSwsp .. | .cSdsp .. => endsGood_guarded h _ fun _ => endsGood_storeTo h _ _ _ (canonical_eaU ..)
  | .lrW .. => endsGood_guarded h _ fun hw => endsGood_finish _ (keeps_loadReserved _ _ _ h (extA_of_wf_lrW hw) nofun)
  | .lrD .. => endsGood_guarded h _ fun hw =>
    endsGood_finish _ (keeps_loadReserved _ _ _ h (rv64A_of_wf_lrD hw).1 fun _ => (rv64A_of_wf_lrD hw).2)
  | .scW .. | .scD .. => endsGood_guarded h _ fun _ => endsGood_finish _ (keeps_storeConditional _ _ _ _ h)
  | .amoswapW .. | .amoaddW .. | .amoxorW .. | .amoandW .. | .amoorW .. | .amominW .. | .amomaxW .. | .amominuW ..
  | .amomaxuW .. | .amoswapD .. | .amoaddD .. | .amoxorD .. | .amoandD .. | .amoorD .. | .amominD .. | .amomaxD ..
  | .amominuD .. | .amomaxuD .. => endsGood_guarded h _ fun _ => endsGood_finish _ (keeps_atomicOp _ _ _ _ _ h)
  | .fence .. => endsGood_retire _ _ (good_refl h)
  | .cNop => endsGood_guarded h _ fun _ => endsGood_retire _ _ (good_refl h)
  | .ecall | .ebreak => endsGood_finish _ (keeps_systemCall _ h)
  | .cEbreak => endsGood_guarded h _ fun _ => endsGood_finish _ (keeps_systemCall _ h)
  | .fenceI .. | .mulDiv .. | .mulDivW .. | .csrrw .. | .csrrs .. | .csrrc .. | .csrrwi .. | .csrrsi .. | .csrrci ..
  | .systemFunct3_4 .. | .uret | .sret | .mret | .wfi | .sfenceVma .. | .loadFp .. | .storeFp .. | .fmadd .. | .fmsub ..
  | .fnmsub .. | .fnmadd .. | .opFp .. | .cFld .. | .cFsd .. | .cFldsp .. | .cFsdsp .. | .cFlw .. | .cFsw .. | .cFlwsp ..
  | .cFswsp .. | .cReserved00_4 .. | .cIllegal => endsGood_notExecuted h rfl

end Sys2Proof.Laws

namespace Sys2Proof.Proofs

open Sys2Proof.Machine Sys2Proof.Laws

/-- Settles O43: every instruction is the end of a part that leaves the counter, the status and the run (`endsGood_exec`); that end
counts once or faults. -/
theorem retireOrTrap : Obligations.RetireOrTrap := fun i _ _ h e => (e ▸ endsGood_exec i h).retiresOrTraps

end Sys2Proof.Proofs
end

section
/-! SUPPORT. Accesses of the guest inside one page and across two: the value read back after a write, and the store that faults part-way
(R71, R76, R78, R80). -/

namespace Sys2Proof.Laws

open Sys2Proof.Machine

/-! ### Values -/

theorem getElem_leBytes (n : Nat) (v : Word) (k : Nat) (h : k < (leBytes n v).length) :
    (leBytes n v)[k] = BitVec.ofNat 8 (v.toNat / 256 ^ k) := by
  simp [leBytes, byteOf_eq]

/-- The low bytes of a word, read back as a number (R72, R76). -/
theorem littleEndian_byteOf (v : Word) (n : Nat) : littleEndian (byteOf v) n = v.toNat % 256 ^ n := by
  induction n with
  | zero => simp [littleEndian, Nat.mod_one]
  | succ k ih =>
    rw [littleEndian, ih, byteOf_eq, Nat.mod_pow_succ, BitVec.toNat_ofNat, Nat.mul_comm]

theorem pow_bytes (n : Nat) : 256 ^ n = 2 ^ (8 * n) := by rw [Nat.pow_mul]

theorem leWord_leBytes_toNat (z : Size) (v : Word) : (leWord (leBytes z.bytes v)).toNat = v.toNat % 2 ^ (8 * z.bytes) := by
  rw [leWord_toNat _ (by rw [length_leBytes]; exact size_le z), leBytes, numOf_map_range, littleEndian_byteOf, pow_bytes]

theorem toNat_zext (z : Size) (v : Word) : (z.zext v).toNat = v.toNat % 2 ^ (8 * z.bytes) := by
  have := v.isLt
  cases z <;> simp [Size.zext, Size.bytes] <;> omega

/-! ### Frames -/

theorem storedAt_congr {s t u : State} {f : Nat → Place} {bs : List Byte} (h : StoredAt s t f bs) (hm : u.mem = t.mem)
    (hh : u.hostMem = t.hostMem) : StoredAt s u f bs :=
  ⟨fun k hk hl => (get_congr hm hh _).trans (h.1 k hk hl), fun p hp => (get_congr hm hh _).trans (h.2 p hp)⟩

/-- Where every place holds what it held, under the same page map, no byte changed. -/
theorem sameMemory_of_get {s t : State} (hp : t.pages = s.pages) (h : ∀ p, t.get p = s.get p) : s.SameMemory t :=
  ⟨hp, fun a => by rw [State.byte, place_congr hp, h, State.byte], fun _ => h _⟩

theorem bytesStored_leBytes {s t : State} {a v : Word} {n k : Nat} (hp : t.pages = s.pages) (hk : k ≤ n)
    (st : StoredAt s t (placeOf s a) ((leBytes n v).take k)) : s.BytesStored t a k v.toNat :=
  bytesStored_of hp st (by simp [length_leBytes, hk]) fun j hj => by
    rw [List.getElem_take, getElem_leBytes]

/-! ### Places -/

/-- Inside one page no two bytes stand at one place (R51, R53). -/
theorem place_inj_inPage {s : State} {a n j k : Nat} (hp : inOnePage a n = true) (hj : j < n) (hk : k < n)
    (h : s.place (a + j) = s.place (a + k)) : j = k := by
  have pg : ∀ i < n, pageOf (a + i) = pageOf a := fun i hi => pageOf_same hp (by omega) (by omega)
  have key : ∀ b : HostAddr, b + BitVec.ofNat 64 (offsetOf (a + j)) = b + BitVec.ofNat 64 (offsetOf (a + k)) → j = k := by
    intro b hb
    have e := congrArg BitVec.toNat (add_left_cancel hb)
    rw [inOnePage_iff] at hp
    simp only [BitVec.toNat_ofNat, offsetOf, pageSize] at e
    omega
  unfold State.place at h
  rw [pg j hj, pg k hk] at h
  split at h
  · split at h
    · exact key _ (BitVec.eq_of_toNat_eq (Place.host.inj h))
    · exact Nat.add_left_cancel (Place.guest.inj h)
  · exact Nat.add_left_cancel (Place.guest.inj h)

end Sys2Proof.Laws

namespace Sys2Proof.Proofs

open Sys2Proof.Machine Sys2Proof.Laws

/-- Settles O15: the write stops with the bytes before it stored or given back (`memWrite_partial`). -/
theorem straddlingStoreFault : Obligations.StraddlingStoreFault := by
  intro s i len ea z v k hst hw hm h0 hk hs hstop
  obtain ⟨ha, e⟩ := store_form hst hw
  obtain ⟨m, hm', he, hor⟩ := memWrite_partial (v := v) ha hm h0 hk hs hstop
  rw [storeTo, he, finish_trapped] at e
  refine ⟨_, e, rfl, rfl, rfl, fun _ => rfl, rfl, rfl, rfl, rfl, rfl, ⟨rfl, rfl, rfl, rfl, rfl, rfl⟩, ?_⟩
  exact hor.imp (fun st => bytesStored_leBytes rfl hk.le (storedAt_congr st rfl rfl))
    fun h => sameMemory_of_get rfl fun p => (get_congr rfl rfl p).trans (h p)

/-- Settles O18: the write leaves the bytes of `v` at their places, each the last written there, so the read gives their number. -/
theorem readAfterWrite : Obligations.ReadAfterWrite := by
  intro s a z v ha
  refine ⟨fun hw hr hinj => ?_, fun hpl j k hj hk h => ?_⟩
  · obtain ⟨m, hm, u, e, st⟩ := memWrite_storable v ha hw
    obtain ⟨h1, -⟩ := st
    have hl := length_leBytes z.bytes v
    have hval : (withBytes s m hm u).valueAt a z.bytes = (z.zext v).toNat := by
      rw [toNat_zext, ← pow_bytes, ← littleEndian_byteOf]
      refine littleEndian_congr fun k hk => ?_
      rw [byteOf_eq, ← getElem_leBytes z.bytes v k (by omega)]
      exact h1 k (by omega) fun j hkj hj hp => by
        have := hinj j k (by omega) hk hp
        omega
    refine ⟨_, e, ?_⟩
    refine (memRead_readable (s := (withBytes s m hm u).clearResv) ha hr).trans ?_
    show Effect.done (BitVec.ofNat 64 ((withBytes s m hm u).valueAt a z.bytes)) _ false = _
    rw [hval, BitVec.ofNat_toNat, BitVec.setWidth_eq]
  · rcases hpl with hp | hg
    · rw [byteAddr_inPage ha hp hj, byteAddr_inPage ha hp hk] at h
      exact place_inj_inPage hp hj hk h
    · rw [hg j hj, hg k hk] at h
      have := size_le z
      exact byteAddr_inj s a (by omega) (by omega) (Place.guest.inj h)

end Sys2Proof.Proofs
end

section
/-! SUPPORT. An access whose page lookup changes the page map first, by the promotion of a SharedRO page or by a zero page on demand,
proceeds as in the state with that map, in which every byte stands where it stood and reads as it read (R60, R76, R77). -/

namespace Sys2Proof.Laws

open Sys2Proof.Machine

/-! ### The same machine under another page map -/

/-- `u` is `s` under another page map, in which every byte stands where it stood and reads as it read. -/
structure Remapped (s u : State) : Prop where
  place : ∀ q, u.place q = s.place q
  get : ∀ p, u.get p = s.get p
  regs : u.regs = s.regs
  pc : u.pc = s.pc
  counter : u.counter = s.counter
  resv : u.resv = s.resv
  control : s.SameControl u

section
variable {s u t : State} (h : Remapped s u)
include h

theorem Remapped.params : u.params = s.params := h.control.fixed.params

theorem Remapped.x (r : Reg) : u.x r = s.x r := x_congr h.regs h.params r

theorem Remapped.byte (a : Nat) : u.byte a = s.byte a := by rw [State.byte, h.place, h.get, State.byte]

theorem Remapped.byteAddr (a : Word) (k : Nat) : u.byteAddr a k = s.byteAddr a k := byteAddr_congr h.params a k

theorem Remapped.mod (v : Int) : u.mod v = s.mod v := by simp [State.mod, State.w, h.params]

theorem Remapped.retired {len : Nat} {rd : Reg} {v : Int} (ht : Retired u t (u.pc.toNat + len) rd v) :
    Retired s t (s.pc.toNat + len) rd v :=
  ⟨by rw [ht.pc, h.mod, h.pc], by rw [ht.counter, h.counter], fun hr => by rw [ht.dest hr, h.mod], ht.x0,
    fun r hr => (ht.others r hr).trans (h.x r)⟩

theorem Remapped.bytesStored {a : Word} {n v : Nat} (ht : u.BytesStored t a n v) : s.BytesStored t a n v where
  stored k hk hl := by
    rw [← h.byteAddr]
    exact ht.stored k hk fun j h1 h2 => by
      rw [h.byteAddr, h.byteAddr, h.place, h.place]
      exact hl j h1 h2
  others q hq := (ht.others q fun k hk => by rw [h.byteAddr, h.place, h.place]; exact hq k hk).trans (h.byte q)
  buffers b hb := (ht.buffers b fun k hk => by rw [h.byteAddr, h.place]; exact hb k hk).trans (h.get _)

theorem Remapped.sameControl (ht : u.SameControl t) : s.SameControl t where
  fixed := sameFixed_trans h.control.fixed ht.fixed
  stopped := ht.stopped.trans h.control.stopped
  status := ht.status.trans h.control.status
  handlers := ht.handlers.trans h.control.handlers
  pageFaultCallback := ht.pageFaultCallback.trans h.control.pageFaultCallback
  pageWriteCallback := ht.pageWriteCallback.trans h.control.pageWriteCallback
  scripts := ht.scripts.trans h.control.scripts
  run := ht.run.trans h.control.run
  hostCalls := ht.hostCalls.trans h.control.hostCalls
  hostResult := ht.hostResult.trans h.control.hostResult

theorem Remapped.ea {n : Nat} (r : Reg) (imm : BitVec n) : u.ea r imm = s.ea r imm := by
  simp [State.ea, State.w, h.params, h.x]

theorem Remapped.eaU {n : Nat} (r : Reg) (imm : BitVec n) : u.eaU r imm = s.eaU r imm := by
  simp [State.eaU, State.w, h.params, h.x]

theorem Remapped.isLoad {i : Instr} {len : Nat} {ea : Word} {z : Size} {sg : Bool} {rd : Reg}
    (hi : IsLoad s i len ea z sg rd) : IsLoad u i len ea z sg rd := by
  cases hi <;> simp only [← h.ea, ← h.eaU] <;> constructor

theorem Remapped.isStore {i : Instr} {len : Nat} {ea : Word} {z : Size} {v : Word} (hi : IsStore s i len ea z v) :
    IsStore u i len ea z v := by
  cases hi <;> simp only [← h.ea, ← h.eaU, ← h.x] <;> constructor

theorem Remapped.misaligned (a : Word) (z : Size) : misaligned a z u = misaligned a z s := by
  simp [Machine.misaligned, h.params]

end

theorem Remapped.trans {s t u : State} (h : Remapped s t) (h' : Remapped t u) : Remapped s u where
  place q := (h'.place q).trans (h.place q)
  get p := (h'.get p).trans (h.get p)
  regs := h'.regs.trans h.regs
  pc := h'.pc.trans h.pc
  counter := h'.counter.trans h.counter
  resv := h'.resv.trans h.resv
  control := h.sameControl h'.control

theorem remapped_refl (s : State) : Remapped s s :=
  ⟨fun _ => rfl, fun _ => rfl, rfl, rfl, rfl, rfl, sameControl_refl s⟩

/-! ### Changes of the page map that move no byte -/

theorem pageAt_setPage_ne {s : State} {n m : Nat} {p : Page} (h : m ≠ n) : (s.setPage n p).pageAt m = s.pageAt m :=
  find_insert_ne _ _ _ _ h

theorem pageAt_installPage_ne {s : State} {n m : Nat} {p : Page} {bs : List Byte} (h : m ≠ n) :
    (s.installPage n p bs).pageAt m = s.pageAt m := find_insert_ne _ _ _ _ h

/-- Where a byte stands, from its page alone: the buffer where that is the host's. -/
theorem place_eq (s : State) (a : Nat) :
    s.place a = match (s.pageAt (pageOf a)).bind (·.variant.buffer?) with
      | some h => .host (h + BitVec.ofNat 64 (offsetOf a)).toNat
      | none => .guest a := by
  unfold State.place
  cases s.pageAt (pageOf a) with
  | none => rfl
  | some p => cases hb : p.variant.buffer? <;> simp [hb]

/-- Pages with the same backing put a byte at the same place. -/
theorem place_of_buffer {s t : State} {a : Nat}
    (h : (t.pageAt (pageOf a)).bind (·.variant.buffer?) = (s.pageAt (pageOf a)).bind (·.variant.buffer?)) :
    t.place a = s.place a := by
  rw [place_eq, place_eq, h]

/-- A page bound at `n` that keeps the backing of the page there, none where there is none, moves no byte (R52). -/
theorem place_setPage {s : State} {n : Nat} {p : Page} (h : p.variant.buffer? = (s.pageAt n).bind (·.variant.buffer?))
    (a : Nat) : (s.setPage n p).place a = s.place a := by
  refine place_of_buffer ?_
  by_cases hn : pageOf a = n
  · rw [hn, pageAt_setPage, Option.bind_some, h]
  · rw [pageAt_setPage_ne hn]

theorem remapped_setPage {s : State} {n : Nat} {p : Page} (h : p.variant.buffer? = (s.pageAt n).bind (·.variant.buffer?)) :
    Remapped s (s.setPage n p) :=
  ⟨place_setPage h, fun p => get_congr rfl rfl p, rfl, rfl, rfl, rfl,
    ⟨⟨rfl, rfl, rfl, rfl, rfl, rfl⟩, rfl, rfl, rfl, rfl, rfl, rfl, rfl, rfl, rfl⟩⟩

theorem mem_of_find {α : Type} {m : List (Nat × α)} {k : Nat} {v : α} (h : SMap.find m k = some v) : (k, v) ∈ m := by
  induction m with
  | nil => cases h
  | cons e t ih =>
    unfold SMap.find at h
    split at h
    next hk => cases h; rw [hk]; exact List.mem_cons_self ..
    next => exact List.mem_cons_of_mem _ (ih h)

/-- The Machine holds no byte outside the mapped pages: it reads 0 there (R50, R60). -/
def NoStray (s : State) : Prop := ∀ a, s.pageAt (pageOf a) = none → s.get (.guest a) = 0

theorem noStray_of_pagesWf {s : State} (h : s.PagesWf) : NoStray s := by
  intro a ha
  show Memory.read s.mem a = 0
  unfold Memory.read
  cases hf : SMap.find s.mem a with
  | none => rfl
  | some b =>
    have := h.backed _ (mem_of_find hf)
    rw [ha] at this
    cases this

theorem place_unmapped {s : State} {a : Nat} (h : s.pageAt (pageOf a) = none) : s.place a = .guest a := by
  rw [place_eq, h]
  rfl

theorem NoStray.byte {s : State} (h : NoStray s) {a : Nat} (ha : s.pageAt (pageOf a) = none) : s.byte a = 0 := by
  rw [State.byte, place_unmapped ha]
  exact h a ha

/-- Where no page is unmapped and no byte changes, none is left behind. -/
theorem Remapped.noStray {s u : State} (h : Remapped s u) (hs : NoStray s) (hn : ∀ n, u.pageAt n = none → s.pageAt n = none) :
    NoStray u := fun a ha => (h.get _).trans (hs a (hn _ ha))

/-- A page of zeros of the Machine's own, installed where none was mapped (R60, R92, R96). -/
theorem remapped_installZero {s : State} (hs : NoStray s) {n : Nat} {p : Page} (h : s.pageAt n = none)
    (hb : p.variant.buffer? = none) : Remapped s (s.installPage n p []) := by
  have get : ∀ a, (s.installPage n p []).get (.guest a) = s.get (.guest a) := fun a => by
    show Memory.read (s.installPage n p []).mem a = _
    rw [installPage_mem, hb]
    show Memory.read (Memory.clearPage n s.mem) a = _
    by_cases ha : pageOf a = n
    · rw [hs a (ha ▸ h)]
      simp [Memory.read, Memory.clearPage, find_dropKeys, ha, Memory.unlisted]
    · simp [Memory.read, Memory.clearPage, find_dropKeys, ha, State.get]
  refine ⟨fun a => ?_, fun q => ?_, rfl, rfl, rfl, rfl,
    ⟨⟨rfl, rfl, rfl, rfl, rfl, rfl⟩, rfl, rfl, rfl, rfl, rfl, rfl, rfl, rfl, rfl⟩⟩
  · exact place_setPage (s := s) (n := n) (p := p) (by rw [hb, h]; rfl) a
  · cases q with
    | guest a => exact get a
    | host _ => rfl

/-! ### Accesses inside one page -/

section
variable {s u : State} {a : Word} {z : Size} (hp : inOnePage a.toNat z.bytes = true)
include hp

/-- What the page of a read inside one page answers in `s` as in `u`, the read answers so. -/
theorem memRead_via (hm : misaligned a z u = misaligned a z s)
    (h : ∀ n, readPage a.toNat n s = readPage a.toNat n u) (hn : misaligned a z s = false) : memRead a z s = memRead a z u := by
  simp only [memRead, hm, hn, hp, if_true, Bool.false_eq_true, if_false, h]

theorem memWrite_via (hm : misaligned a z u = misaligned a z s)
    (h : ∀ bs, writePage storeInPage a.toNat bs s = writePage storeInPage a.toNat bs u) (hn : misaligned a z s = false) (v : Word) :
    memWrite a z v s = memWrite a z v u := by
  simp only [memWrite, hm, hn, hp, if_true, Bool.false_eq_true, if_false, h]

/-- A fault of the page's write ends a write inside that page. -/
theorem memWrite_pageFault {tag : Tag} {detail : Nat} (hn : misaligned a z s = false)
    (h : ∀ bs, writePage storeInPage a.toNat bs s = .trapped tag detail s) (v : Word) :
    memWrite a z v s = .trapped tag detail s := by
  simp only [memWrite, hn, hp, if_true, Bool.false_eq_true, if_false, h, bind_trapped]

theorem memRead_pageFault {tag : Tag} {detail : Nat} (hn : misaligned a z s = false)
    (h : ∀ n, readPage a.toNat n s = .trapped tag detail s) : memRead a z s = .trapped tag detail s := by
  simp only [memRead, hn, hp, if_true, Bool.false_eq_true, if_false, h, bind_trapped]

variable (ha : canonical s.w a) (hn : misaligned a z s = false) {p : Page} (hpg : s.pageAt (pageOf a.toNat) = some p)
  (ht : isTrapPage p = false)
include ha hn hpg ht

/-- All bytes of an access inside one page share its page. -/
theorem canRead_inPage (hr : p.attr.read = true) : s.canRead a z = true :=
  canRead_iff.mpr ⟨hn, fun k hk => readable_iff.mpr ⟨p, by
    rw [byteAddr_inPage ha hp hk, pageOf_same hp (by omega) (by omega), hpg], hr, ht⟩⟩

theorem canStore_inPage (hw : p.attr.write = true) (hv : p.variant ≠ .sharedRO) (hc : s.params.execConstant = false) :
    s.canStore a z = true :=
  canStore_iff.mpr ⟨hn, fun k hk => storable_iff.mpr ⟨p, by
    rw [byteAddr_inPage ha hp hk, pageOf_same hp (by omega) (by omega), hpg], hw, hv, ht, by rw [hc]; rfl⟩⟩

end

/-! ### Stores and loads as instructions -/

theorem len_of_isStore {s : State} {i : Instr} {len : Nat} {ea : Word} {z : Size} {v : Word} (h : IsStore s i len ea z v) :
    len < 2 ^ 32 := by cases h <;> decide

theorem len_of_isLoad {s : State} {i : Instr} {len : Nat} {ea : Word} {z : Size} {sg : Bool} {rd : Reg}
    (h : IsLoad s i len ea z sg rd) : len < 2 ^ 32 := by cases h <;> decide

theorem bind_self (e : Effect Unit) : (e.bind fun _ s => .pure () s) = e := by
  cases e <;> simp [Effect.pure]

/-- A store instruction over storable bytes (R270 to R274). -/
theorem stores_of_isStore {s : State} {i : Instr} {len : Nat} {ea : Word} {z : Size} {v : Word} (h : IsStore s i len ea z v)
    (hw : i.wf s.params = true) (hc : s.counter ≠ counterMax) (hs : s.canStore ea z = true) :
    Stores i len ea z.bytes v.toNat 0 0 s := by
  obtain ⟨ha, e⟩ := store_form h hw
  refine stores_memWrite (v := v) (w := 0) (len_of_isStore h) hc ha hs (e.trans ?_) (fun k _ => byteOf_eq v k) ?_
  · simp only [setReg_zero, bind_self, storeTo]
  · rw [toNat_wrap]
    simp [State.mod]

/-- A store that writes in `s` as in the remapped `u` is the same instruction there. -/
theorem exec_store_via {s u : State} {i : Instr} {len : Nat} {ea : Word} {z : Size} {v : Word} (h : IsStore s i len ea z v)
    (hw : i.wf s.params = true) (hu : Remapped s u) (hm : memWrite ea z v s = memWrite ea z v u) : exec i s = exec i u := by
  rw [(store_form h hw).2, (store_form (hu.isStore h) (hu.params ▸ hw)).2, storeTo, hm, storeTo]

theorem exec_load_via {s u : State} {i : Instr} {len : Nat} {ea : Word} {z : Size} {sg : Bool} {rd : Reg}
    (h : IsLoad s i len ea z sg rd) (hw : i.wf s.params = true) (hu : Remapped s u) (hm : memRead ea z s = memRead ea z u) :
    exec i s = exec i u := by
  rw [(load_form h hw).2, (load_form (hu.isLoad h) (hu.params ▸ hw)).2, loadFrom, hm, loadFrom]

/-! ### The promotion of a SharedRO page (R76, R77) -/

/-- `s` with the page at `n` Owned, with the attributes `attr`. -/
def promoted (s : State) (n : Nat) (attr : PageAttr) : State := s.setPage n ⟨attr, .owned⟩

section
variable {s : State} {n : Nat} {p : Page} (hpg : s.pageAt n = some p) (hv : p.variant = .sharedRO)
include hpg hv

theorem remapped_promoted : Remapped s (promoted s n p.attr) := remapped_setPage (by rw [hpg, Option.bind_some, hv]; rfl)

end

section
variable {s : State} {a : Nat} {p : Page} (hpg : s.pageAt (pageOf a) = some p) (hv : p.variant = .sharedRO)
  (hcb : s.pageWriteCallback = none) (store : Nat → List Byte → State → State) (bs : List Byte)
include hpg hv hcb

/-- A write to a SharedRO page under the default page-write callback is a write to the promoted page. -/
theorem writePage_promoted (ho : s.outOfMemory = false) :
    writePage store a bs s = writePage store a bs (promoted s (pageOf a) p.attr) := by
  have hu : (promoted s (pageOf a) p.attr).pageAt (pageOf a) = some ⟨p.attr, .owned⟩ := pageAt_setPage ..
  unfold writePage
  rw [lookup_mapped hpg, lookup_mapped hu, bind_pure, bind_pure]
  simp [writableWith, hv, hcb, promoteOwned, ho, promoted]

theorem writePage_promotionFails (ho : s.outOfMemory = true) :
    writePage store a bs s = .trapped .outOfMemory (pageOf a * pageSize) s := by
  unfold writePage
  rw [lookup_mapped hpg, bind_pure]
  simp [writableWith, hv, hcb, promoteOwned, ho]

end

end Sys2Proof.Laws

namespace Sys2Proof.Proofs

open Sys2Proof.Machine Sys2Proof.Laws

/-- Settles O14: the store is the same store over the promoted page (`writePage_promoted`), an Owned page, which completes or lacks
`write`. -/
theorem sharedPageStore : Obligations.SharedPageStore := by
  intro s i len ea z v p hst hw hc hm hp hpg hv hcb hx
  obtain ⟨ha, e⟩ := store_form hst hw
  refine ⟨fun ho => ?_, fun ho => ?_⟩
  · obtain ⟨u, hu⟩ : ∃ u, u = promoted s (pageOf ea.toNat) p.attr := ⟨_, rfl⟩
    have hr : Remapped s u := hu ▸ remapped_promoted hpg hv
    have hup : u.pageAt (pageOf ea.toNat) = some ⟨p.attr, .owned⟩ := hu ▸ pageAt_setPage ..
    have hun : ∀ n, n ≠ pageOf ea.toNat → u.pageAt n = s.pageAt n := fun n hne => hu ▸ pageAt_setPage_ne hne
    have hmu : misaligned ea z u = false := (hr.misaligned ea z).trans hm
    have hvia := memWrite_via hp (hr.misaligned ea z) (fun bs => hu ▸ writePage_promoted hpg hv hcb storeInPage bs ho) hm v
    rw [exec_store_via hst hw hr hvia]
    have hwu : i.wf u.params = true := hr.params ▸ hw
    cases hwr : p.attr.write with
    | true =>
      have hs : u.canStore ea z = true :=
        canStore_inPage hp (by rw [State.w, hr.params]; exact ha) hmu hup rfl hwr nofun (by rw [hr.params]; exact hx)
      obtain ⟨t, et, hret, hresv, hpages, hbytes, hctl⟩ :=
        stores_of_isStore (hr.isStore hst) hwu (by rw [hr.counter]; exact hc) hs
      have hpt : ∀ n, t.pageAt n = u.pageAt n := pageAt_congr hpages
      exact ⟨t, et, (hpt _).trans hup, fun n hne => (hpt n).trans (hun n hne),
        fun _ => ⟨hr.retired hret, hr.bytesStored hbytes, by rw [hresv, hr.resv], hr.sameControl hctl⟩, nofun⟩
    | false =>
      obtain ⟨n, en⟩ := memWrite_stops (v := v) hmu (.inr ⟨_, hup, hwr, nofun⟩)
      have et := (store_form (hr.isStore hst) hwu).2
      rw [storeTo, en, finish_trapped] at et
      exact ⟨_, et, hup, hun, nofun, fun _ => ⟨rfl, rfl, hr.pc, hr.counter, hr.x,
        fun a => (byte_congr rfl rfl rfl a).trans (hr.byte a), fun h => hr.get (.host h), hr.resv⟩⟩
  · rw [storeTo, memWrite_pageFault hp hm fun bs => writePage_promotionFails hpg hv hcb storeInPage bs ho] at e
    exact faults_of e

end Sys2Proof.Proofs
end

section
/-! SUPPORT. Accesses inside a Trap page: the callback's arguments, what it leaves, and how the instruction ends (R55, R71, R76, R401,
R436). -/

namespace Sys2Proof.Laws

open Sys2Proof.Machine

/-! ### The value a load writes -/

theorem toNat_wrap_toInt (s : State) (v : Word) : (wrap s.w v).toNat = s.mod v.toInt := by
  have hd : ((2 ^ s.w.xlen : Nat) : Int) ∣ ((2 ^ 64 : Nat) : Int) := Int.natCast_dvd_natCast.mpr (xlen_dvd _)
  rw [toNat_wrap_mod rfl, State.mod, State.mod, BitVec.toInt_eq_toNat_bmod, ← Int.emod_emod_of_dvd (Int.bmod _ _) hd,
    Int.bmod_emod, Int.emod_emod_of_dvd _ hd]

theorem toInt_sext (z : Size) (x : Word) : (z.sext x).toInt = signedOf (8 * z.bytes) x.toNat := by
  cases z with
  | b8 => exact BitVec.toInt_eq_toNat_bmod x
  | b1 | b2 | b4 =>
    simp only [Size.sext, Size.bytes, signedOf]
    rw [BitVec.toInt_signExtend_of_le (by decide), BitVec.toInt_setWidth]

/-- The value a load of the bytes `x` writes, modulo `2^XLEN` (R261 to R267). -/
theorem toNat_wrap_extended (s : State) (z : Size) (sg : Bool) (x : Word) :
    (wrap s.w (if sg then z.sext x else x)).toNat = s.mod (extended z sg x.toNat) := by
  cases sg with
  | true => exact (toNat_wrap_toInt s _).trans (congrArg s.mod (toInt_sext z x))
  | false => exact toNat_wrap_mod rfl x

/-! ### The callback -/

/-- `c` is `s` after a callback that wrote `u` to register `q` and did nothing else (R281, R436). -/
structure Called (s : State) (q : Reg) (u : Word) (c : State) : Prop where
  regs : c.regs = (s.setReg q u).regs
  pc : c.pc = s.pc
  counter : c.counter = s.counter
  resv : s.ResvDrawn c
  pages : c.pages = s.pages
  mem : c.mem = s.mem
  hostMem : c.hostMem = s.hostMem
  control : { s with hostResult := .ok }.SameControl c

theorem callHost_called {s : State} {callback : Nat} {args : List Nat} {a : HostAnswer} {q : Reg} {u : Word}
    (h : answerOf callback args s = a) (ha : a.acts = [.setReg q u]) :
    ∃ c, Called s q u c ∧ callHost callback args s = answered a c := by
  refine ⟨_, ?_, callHost_setReg h ha⟩
  have hr : (s.drawn.setReg q u).resv = s.resv := by simp
  refine ⟨?_, ?_, ?_, (resvDrawn_drawReservation _).imp (·.trans hr) (·.trans (by rw [hr])), ?_, ?_, ?_,
    ⟨⟨?_, ?_, ?_, ?_, ?_, ?_⟩, ?_, ?_, ?_, ?_, ?_, ?_, ?_, ?_, ?_⟩⟩
  · show (s.drawn.setReg q u).regs = (s.setReg q u).regs
    unfold State.setReg
    split <;> rfl
  all_goals simp

theorem answered_done {a : HostAnswer} (h : a.failure = none) (s : State) : answered a s = .pure a s := by
  simp [answered, h]

theorem answered_failed {a : HostAnswer} {tag : Tag} {detail : Nat} (h : a.failure = some (tag, detail)) (s : State) :
    answered a s = .trapped tag detail s := by
  simp [answered, h]

section
variable {s c : State} {q : Reg} {u : Word} (h : Called s q u c)
include h

theorem Called.params : c.params = s.params := h.control.fixed.params

theorem Called.x (r : Reg) : c.x r = (s.setReg q u).x r :=
  x_congr h.regs (h.params.trans (setReg_params s q u).symm) r

/-- The end of a store ends the reservation too (R79). -/
theorem Called.clearResv : Called s q u c.clearResv where
  regs := h.regs
  pc := h.pc
  counter := h.counter
  resv := .inr (by rcases h.resv with e | e <;> simp [State.clearResv, e])
  pages := h.pages
  mem := h.mem
  hostMem := h.hostMem
  control := by
    obtain ⟨⟨f1, f2, f3, f4, f5, f6⟩, c1, c2, c3, c4, c5, c6, c7, c8, c9⟩ := h.control
    exact ⟨⟨f1, f2, f3, f4, f5, f6⟩, c1, c2, c3, c4, c5, c6, c7, c8, c9⟩

/-- After the callback the instruction retires with `v` in `rd`. -/
theorem Called.writesBack {i : Instr} {len : Nat} {rd : Reg} {v : Word} {V : Int} (hl : len < 2 ^ 32)
    (hc : s.counter ≠ counterMax) (hv : (wrap s.w v).toNat = s.mod V) (e : exec i s = writeBack len rd v c) :
    ∃ t, exec i s = .next t ∧ Retired (s.setReg q u) t (s.pc.toNat + len) rd V ∧ t.resv = c.resv ∧ s.SameMemory t ∧
      { s with hostResult := .ok }.SameControl t := by
  rw [writeBack_next _ _ _ _ (by rw [h.counter]; exact hc)] at e
  have hw : c.w = s.w := congrArg Params.w h.params
  refine ⟨_, e, ?_, by simp, sameMemory_of (by simp [h.pages]) (by simp [h.mem]) (by simp [h.hostMem]), ?_⟩
  · rw [← setReg_pc s q u]
    refine retired_of (u := c.setReg rd v) hl (by simpa using hc) (by simp [h.params])
      (by simp [State.pcNext, hw, h.pc]) (by simp [h.counter]) rfl (by simp [h.params])
      (fun r hr => (x_setReg_ne _ _ _ _ hr).trans (h.x r)) fun hr => ?_
    rw [State.ux, x_setReg_self, if_neg (show ¬rd = 0#5 from hr), hw, hv]
    simp [State.mod]
  · obtain ⟨⟨f1, f2, f3, f4, f5, f6⟩, c1, c2, c3, c4, c5, c6, c7, c8, c9⟩ := h.control
    refine ⟨⟨?_, ?_, ?_, ?_, ?_, ?_⟩, ?_, ?_, ?_, ?_, ?_, ?_, ?_, ?_, ?_⟩ <;> simpa

/-- A callback that fails ends the step of its instruction (R401, R410 item 3). -/
theorem Called.hostFails {i : Instr} {tag : Tag} {detail : Nat} (e : exec i s = .next (takeTrap tag detail c)) :
    HostFails i q u tag detail s := by
  have hx : ∀ r, (takeTrap tag detail c).x r = (s.setReg q u).x r := fun r => (x_congr rfl rfl r).trans (h.x r)
  refine ⟨_, e, rfl, rfl, rfl, h.pc, h.counter, fun hq => ?_, fun r hr => (hx r).trans (x_setReg_ne _ _ _ _ hr),
    sameMemory_of h.pages h.mem h.hostMem, sameFixed_congr (sameFixed_refl s) h.params h.control.fixed.execBase
      h.control.fixed.execLen h.control.fixed.startAddress h.control.fixed.stackAddress h.control.fixed.exitAddress,
    h.resv, h.control.stopped⟩
  rw [State.ux, hx, x_setReg_self, if_neg (show ¬q = 0#5 from hq), toNat_wrap_mod rfl]

end

/-! ### The accesses -/

section
variable {s : State} {a : Nat} {p : Page} {cb : Nat} {buf : Option HostAddr} (hpg : s.pageAt (pageOf a) = some p)
  (hv : p.variant = .trap cb buf)
include hpg hv

/-- A read of a Trap page calls its callback with 0, the offset and the width (R71, R436). -/
theorem readPage_trap (n : Nat) (hr : p.attr.read = true) :
    readPage a n s = (callHost cb [0, offsetOf a, n] s).bind fun b s' => .pure (leBytes n (answerValue b s')) s' := by
  unfold readPage
  rw [lookup_mapped hpg, bind_pure, if_pos hr, hv]

/-- A write of a Trap page calls its callback with 1, the offset, the width and the value, and stores no byte (R76, R436). -/
theorem writePage_trap (store : Nat → List Byte → State → State) (bs : List Byte) (hw : p.attr.write = true)
    (hx : s.params.execConstant = false) :
    writePage store a bs s =
      (callHost cb [1, offsetOf a, bs.length, (leWord bs).toNat] s).bind fun _ s' => .pure () s' := by
  have hs : p.variant ≠ .sharedRO := by rw [hv]; nofun
  unfold writePage
  rw [lookup_mapped hpg, bind_pure, writableWith, if_neg hs, bind_pure, if_pos hw, hx, hv]
  rfl

end

section
variable {s c : State} {ea : Word} {z : Size} {p : Page} {cb : Nat} {buf : Option HostAddr} {b : HostAnswer}
  (hpg : s.pageAt (pageOf ea.toNat) = some p) (hv : p.variant = .trap cb buf) (hn : misaligned ea z s = false)
  (hp : inOnePage ea.toNat z.bytes = true)
include hpg hv hn hp

/-- A read inside a Trap page whose callback ends in `c` gives the low bytes of its value there. -/
theorem memRead_trap (hr : p.attr.read = true) (hcall : callHost cb [0, offsetOf ea.toNat, z.bytes] s = answered b c) :
    memRead ea z s = (answered b c).bind fun b' s' => .pure (leWord (leBytes z.bytes (answerValue b' s'))) s' := by
  simp only [memRead, hn, hp, if_true, Bool.false_eq_true, if_false, readPage_trap hpg hv z.bytes hr, hcall]
  cases answered b c <;> simp [Effect.pure]

theorem memWrite_trap {v : Word} (hw : p.attr.write = true) (hx : s.params.execConstant = false)
    (hcall : callHost cb [1, offsetOf ea.toNat, z.bytes, (leWord (leBytes z.bytes v)).toNat] s = answered b c) :
    memWrite ea z v s = (answered b c).bind fun _ s' => .pure () s'.clearResv := by
  simp only [memWrite, hn, hp, if_true, Bool.false_eq_true, if_false, writePage_trap hpg hv storeInPage _ hw hx,
    length_leBytes, hcall]
  cases answered b c <;> simp [Effect.pure]

end

end Sys2Proof.Laws

namespace Sys2Proof.Proofs

open Sys2Proof.Machine Sys2Proof.Laws

/-- Settles O16: the access is the callback (`memRead_trap`, `memWrite_trap`), which ends in a state that differs in one register
(`callHost_called`); the instruction then retires or ends with the callback's failure. -/
theorem deviceAccess : Obligations.DeviceAccess := by
  intro s p cb buf a v u q hc hv hacts hval
  refine ⟨fun i len ea z sg rd hi hw hm hp hpg hr hans => ?_, fun i len ea z w hi hw hm hp hpg hwr hx hans => ?_⟩
  · obtain ⟨c, hC, hcall⟩ := callHost_called hans hacts
    have e := (load_form hi hw).2
    rw [loadFrom, memRead_trap hpg hv hm hp hr hcall] at e
    refine ⟨fun hf => ?_, fun tag detail hf => ?_⟩
    · rw [answered_done hf, Laws.bind_pure, Laws.bind_pure, answerValue, hval] at e
      obtain ⟨t, et, hret, hresv, hmem, hctl⟩ := hC.writesBack (len_of_isLoad hi) hc (toNat_wrap_extended ..) e
      rw [leWord_leBytes_toNat] at hret
      exact ⟨t, et, by exact_mod_cast hret, hC.resv.imp hresv.trans hresv.trans, hmem, hctl⟩
    · rw [answered_failed hf, bind_trapped, bind_trapped, finish_trapped] at e
      exact hC.hostFails e
  · rw [← leWord_leBytes_toNat] at hans
    obtain ⟨c, hC, hcall⟩ := callHost_called hans hacts
    have e := (store_form hi hw).2
    rw [storeTo, memWrite_trap hpg hv hm hp hwr hx hcall] at e
    refine ⟨fun hf => ?_, fun tag detail hf => ?_⟩
    · rw [answered_done hf, Laws.bind_pure] at e
      obtain ⟨t, et, hret, hresv, hmem, hctl⟩ := hC.clearResv.writesBack (rd := 0) (v := 0) (V := 0) (len_of_isStore hi) hc
        (by rw [toNat_wrap]; simp [State.mod]) (by rw [writeBack, setReg_zero]; exact e)
      refine ⟨t, et, hret, hresv.trans ?_, hmem, hctl⟩
      rcases hC.resv with h | h <;> simp [State.clearResv, h]
    · rw [answered_failed hf, bind_trapped, finish_trapped] at e
      exact hC.hostFails e

end Sys2Proof.Proofs
end

section
/-! SUPPORT. The instructions of the A extension by their three bodies, where they do not decode, and where their accesses stop (R280 to
R284, R294). -/

namespace Sys2Proof.Laws

open Sys2Proof.Machine

/-! ### The bodies -/

/-- The body of an atomic at an address, with its width, whether it always reads and whether it always writes: an LR, an SC or an AMO
(R283, R284, R294). -/
inductive AtomicBody (s : State) : Word → Size → Bool → Bool → (State → Effect Unit) → Prop where
  | lr (width : Width) (rd rs1 : Reg) : AtomicBody s (s.x rs1) (sizeOfWidth width) true false (loadReserved width rd rs1)
  | sc (width : Width) (rd rs1 rs2 : Reg) : AtomicBody s (s.x rs1) (sizeOfWidth width) false false (storeConditional width rd rs1 rs2)
  | amo (op : AmoOp) (z : Size) (rd rs1 rs2 : Reg) : AtomicBody s (s.x rs1) z true true (atomicOp op z rd rs1 rs2)

/-- Every atomic is its body behind the guard of its configuration. -/
theorem atomic_form {s : State} {i : Instr} {a : Word} {z : Size} {reads writes : Bool} (h : IsAtomic s i a z reads writes) :
    ∃ body, AtomicBody s a z reads writes body ∧ ∀ t, exec i t = guarded i t (finish 4 (body t)) :=
  match h with
  | .lrW .. => ⟨_, .lr .w4 _ _, fun _ => rfl⟩
  | .lrD .. => ⟨_, .lr .w8 _ _, fun _ => rfl⟩
  | .scW .. => ⟨_, .sc .w4 _ _ _, fun _ => rfl⟩
  | .scD .. => ⟨_, .sc .w8 _ _ _, fun _ => rfl⟩
  | .amoswapW .. | .amoaddW .. | .amoxorW .. | .amoandW .. | .amoorW .. | .amominW .. | .amomaxW .. | .amominuW ..
  | .amomaxuW .. | .amoswapD .. | .amoaddD .. | .amoxorD .. | .amoandD .. | .amoorD .. | .amominD .. | .amomaxD ..
  | .amominuD .. | .amomaxuD .. => ⟨_, .amo _ _ _ _ _, fun _ => rfl⟩

/-! ### Where the machine has no such instruction (R282) -/

theorem decode32_encAmo (p : Params) (f5 : BitVec 5) (aq rl : Bool) (rs2 rs1 : Reg) (f3 : BitVec 3) (rd : Reg) :
    decode32 p (encAmo f5 aq rl rs2 rs1 f3 rd) = decodeAmo p (encAmo f5 aq rl rs2 rs1 f3 rd) := by
  simp [decode32, encAmo_fields]

section
variable {p : Params} (f5 : BitVec 5) (aq rl : Bool) (rs2 rs1 rd : Reg)

theorem decode32_atomicWord_none (h : (Needs.met p .atomic && true) = false) :
    decode32 p (encAmo f5 aq rl rs2 rs1 0b010 rd) = none := by
  have hx : p.extA = false := by simpa [Needs.met] using h
  rw [decode32_encAmo]
  simp [decodeAmo, hx]

theorem decode32_atomicDouble_none (h : (Needs.met p .atomic64 && true) = false) :
    decode32 p (encAmo f5 aq rl rs2 rs1 0b011 rd) = none := by
  have hx : p.extA = true → p.w ≠ .w8 := by simpa [Needs.met] using h
  rw [decode32_encAmo, decodeAmo, (encAmo_fields ..).2.2.1]
  cases ha : p.extA with
  | false => rfl
  | true => simp [hx ha]

end

/-- The word of an atomic the machine does not have decodes to nothing (R282). -/
theorem decode32_atomic_none {s : State} {i : Instr} {a : Word} {z : Size} {reads writes : Bool} {p : Params} {w : BitVec 32}
    (h : IsAtomic s i a z reads writes) (e : encode i = .word w) (hn : i.wf p = false) : decode32 p w = none :=
  match h, e, hn with
  | .lrW .., rfl, hn | .scW .., rfl, hn | .amoswapW .., rfl, hn | .amoaddW .., rfl, hn | .amoxorW .., rfl, hn
  | .amoandW .., rfl, hn | .amoorW .., rfl, hn | .amominW .., rfl, hn | .amomaxW .., rfl, hn | .amominuW .., rfl, hn
  | .amomaxuW .., rfl, hn => decode32_atomicWord_none _ _ _ _ _ _ hn
  | .lrD .., rfl, hn | .scD .., rfl, hn | .amoswapD .., rfl, hn | .amoaddD .., rfl, hn | .amoxorD .., rfl, hn
  | .amoandD .., rfl, hn | .amoorD .., rfl, hn | .amominD .., rfl, hn | .amomaxD .., rfl, hn | .amominuD .., rfl, hn
  | .amomaxuD .., rfl, hn => decode32_atomicDouble_none _ _ _ _ _ _ hn

/-- The fault of a word without an instruction. -/
theorem faults_unimplementedWord {i : Instr} {s : State} {w : BitVec 32} (e : exec i s = unimplemented i s)
    (hw : encode i = .word w) : Faults i .unimplementedInstruction w.toNat s :=
  faults_of (e.trans (by rw [unimplemented, hw]))

/-! ### Where the body stops -/

theorem atomicMisaligned_eq_false {a : Word} {z : Size} (h : a.toNat % z.bytes = 0) : atomicMisaligned a z = false := by
  simp [atomicMisaligned, h]

theorem misaligned_of_aligned {s : State} {a : Word} {z : Size} (h : a.toNat % z.bytes = 0) : misaligned a z s = false := by
  simp [misaligned, h]

/-- An aligned access lies inside one page (R280). -/
theorem inOnePage_of_aligned {a : Word} {z : Size} (h : a.toNat % z.bytes = 0) : inOnePage a.toNat z.bytes = true := by
  rw [inOnePage_iff]
  cases z <;> simp only [Size.bytes] at h ⊢ <;> omega

theorem reserved_iff {s : State} {a : Word} {width : Width} :
    s.reserved a width = true ↔ s.Reserves a (sizeOfWidth width) := by
  have hw : s.resv.width = width ↔ sizeOfWidth s.resv.width = sizeOfWidth width := by
    cases s.resv.width <;> cases width <;> simp [sizeOfWidth]
  simp [State.reserved, State.Reserves, hw, and_assoc]

section
variable {s : State} {a : Word} {z : Size} {reads writes : Bool} {body : State → Effect Unit}
  (h : AtomicBody s a z reads writes body)
include h

theorem AtomicBody.canonical : canonical s.w a := by
  cases h <;> exact canonical_x ..

/-- A misaligned address faults whatever `ALIGN_CHECK` is (R280). -/
theorem AtomicBody.misaligned (ha : a.toNat % z.bytes ≠ 0) : body s = .trapped .misalignedAccess a.toNat s := by
  have hm : atomicMisaligned a z = true := by simp [atomicMisaligned, ha]
  cases h with
  | lr => exact if_pos hm
  | sc => exact if_pos hm
  | amo => exact if_pos hm

variable (ha : a.toNat % z.bytes = 0)
include ha

/-- What stops the read of an LR or an AMO stops the instruction (R283, R294). -/
theorem AtomicBody.readStops {tag : Tag} {detail : Nat} (hr : reads = true) (e : memRead a z s = .trapped tag detail s) :
    body s = .trapped tag detail s := by
  have hm := atomicMisaligned_eq_false ha
  cases h with
  | lr => simp [loadReserved, hm, e]
  | sc => cases hr
  | amo => simp [atomicOp, hm, e]

/-- What stops the write of an SC that holds its reservation stops the instruction (R284). -/
theorem AtomicBody.conditionalWriteStops {tag : Tag} {detail : Nat} {u : State} (hr : reads = false) (hs : s.Reserves a z)
    (e : ∀ v, memWrite a z v s = .trapped tag detail u) : body s = .trapped tag detail u := by
  have hm := atomicMisaligned_eq_false ha
  cases h with
  | lr => cases hr
  | sc => simp [storeConditional, hm, reserved_iff.mpr hs, e]
  | amo => cases hr

/-- What stops the write of an AMO that has read stops the instruction (R294). -/
theorem AtomicBody.writeStops {tag : Tag} {detail : Nat} (hw : writes = true) (hr : s.canRead a z = true)
    (e : ∀ v, ∃ u, memWrite a z v s = .trapped tag detail { s with undo := u }) :
    ∃ u, body s = .trapped tag detail { s with undo := u } := by
  have hm := atomicMisaligned_eq_false ha
  cases h with
  | lr => cases hw
  | sc => cases hw
  | amo op _ _ rs1 rs2 =>
    rw [atomicOp, if_neg (by simp [hm]), memRead_readable (canonical_x ..) hr, bind_pure]
    obtain ⟨u, hu⟩ := e (op z (BitVec.ofNat 64 (s.valueAt (s.x rs1) z.bytes)) (z.zext (s.x rs2)))
    exact ⟨u, by rw [hu, bind_trapped]⟩

end

end Sys2Proof.Laws

namespace Sys2Proof.Proofs

open Sys2Proof.Machine Sys2Proof.Laws

/-- Settles O23: each atomic is an LR, an SC or an AMO (`atomic_form`), which ends where its alignment, its read or its write does. -/
theorem atomicFaults : Obligations.AtomicFaults := by
  intro s i a z reads writes hi
  obtain ⟨body, hb, hex⟩ := atomic_form hi
  have run (hw : i.wf s.params = true) : exec i s = finish 4 (body s) := (hex s).trans (guarded_wf _ hw)
  have stops (hw : i.wf s.params = true) (tag : Tag) (u : List (Place × Byte))
      (e : body s = .trapped tag a.toNat { s with undo := u }) : Faults i tag a.toNat s :=
    faults_finish ((run hw).trans (congrArg _ e))
  have first := byteAddr_zero hb.canonical
  refine ⟨fun hw ha => stops hw _ s.undo (hb.misaligned ha), fun hw w e => ⟨decode32_atomic_none hi e hw, ?_⟩,
    fun hw ha p hp => ⟨fun hr hread => ?_, fun hwr hread hwrite hv ht => ?_, fun hr hs hwrite hv => ?_⟩,
    fun hw ha hp hf hor => ?_⟩
  · exact faults_unimplementedWord ((hex s).trans (guarded_not_wf _ hw)) e
  · have e := memRead_stops (k := 0) hb.canonical (misaligned_of_aligned ha) (size_pos z) nofun (first.symm ▸ .inr ⟨p, hp, hread⟩)
    exact stops hw _ s.undo (hb.readStops ha hr (first ▸ e))
  · have hr := canRead_inPage (inOnePage_of_aligned ha) hb.canonical (misaligned_of_aligned ha) hp ht hread
    obtain ⟨u, e⟩ := hb.writeStops ha hwr hr fun v => memWrite_stops (misaligned_of_aligned ha) (.inr ⟨p, hp, hwrite, hv⟩)
    exact stops hw _ u e
  · have e := fun v => memWrite_pageFault (v := v) (inOnePage_of_aligned ha) (misaligned_of_aligned ha)
      fun bs => writePage_noWrite storeInPage bs hp hwrite hv
    exact stops hw _ s.undo (hb.conditionalWriteStops ha hr hs e)
  · cases hr : reads with
    | true =>
      have e := memRead_stops (k := 0) hb.canonical (misaligned_of_aligned ha) (size_pos z) nofun (first.symm ▸ .inl ⟨hp, hf⟩)
      exact stops hw _ s.undo (hb.readStops ha hr (first ▸ e))
    | false =>
      have hs : s.Reserves a z := hor.resolve_left (by simp [hr])
      have e := fun v => memWrite_pageFault (v := v) (inOnePage_of_aligned ha) (misaligned_of_aligned ha)
        fun bs => writePage_missing storeInPage bs hp hf
      exact stops hw _ s.undo (hb.conditionalWriteStops ha hr hs e)

end Sys2Proof.Proofs
end

section
/-! SUPPORT. The zero page on demand: under `ZeroRW` an access inside a missing page is the access in the state that has the page, or
faults where memory is exhausted (R60, R61). -/

namespace Sys2Proof.Laws

open Sys2Proof.Machine

/-- `s` with a fresh Owned page of zeros with `read` and `write` at `n` (R60). -/
def withZeroPage (s : State) (n : Nat) : State := s.installPage n ⟨.rw, .owned⟩ []

theorem pageAt_withZeroPage (s : State) (n : Nat) : (withZeroPage s n).pageAt n = some ⟨.rw, .owned⟩ := pageAt_installPage ..

theorem remapped_withZeroPage {s : State} {n : Nat} (hs : NoStray s) (h : s.pageAt n = none) : Remapped s (withZeroPage s n) :=
  remapped_installZero hs h rfl

theorem zeroPageInstalled {s : State} {n : Nat} (hs : NoStray s) (h : s.pageAt n = none) :
    ZeroPageInstalled s (withZeroPage s n) n :=
  have hr := remapped_withZeroPage hs h
  { page := pageAt_withZeroPage s n
    otherPages := fun _ hn => pageAt_installPage_ne hn
    zero := fun a ha => (hr.byte a).trans (hs.byte (ha ▸ h))
    bytes := hr.byte
    buffers := fun b => hr.get (.host b)
    regs := hr.x
    pc := hr.pc
    counter := hr.counter
    resv := hr.resv
    control := hr.control }

section
variable {s : State} {a : Nat} (h : s.pageAt (pageOf a) = none) (hz : s.params.pageFault = .zeroRW)
include h hz

theorem lookup_onDemand (ho : s.outOfMemory = false) : lookup a s = lookup a (withZeroPage s (pageOf a)) := by
  rw [lookup_mapped (pageAt_withZeroPage ..)]
  simp [lookup, lookupWith, h, hz, createOwned, ho, withZeroPage]

theorem lookup_exhausted (ho : s.outOfMemory = true) : lookup a s = .trapped .outOfMemory (pageOf a * pageSize) s := by
  simp [lookup, lookupWith, h, hz, createOwned, ho]

theorem readPage_onDemand (ho : s.outOfMemory = false) (n : Nat) :
    readPage a n s = readPage a n (withZeroPage s (pageOf a)) := by
  rw [readPage, lookup_onDemand h hz ho, readPage]

theorem readPage_exhausted (ho : s.outOfMemory = true) (n : Nat) :
    readPage a n s = .trapped .outOfMemory (pageOf a * pageSize) s := by
  rw [readPage, lookup_exhausted h hz ho, bind_trapped]

variable (store : Nat → List Byte → State → State) (bs : List Byte)

theorem writePage_onDemand (ho : s.outOfMemory = false) :
    writePage store a bs s = writePage store a bs (withZeroPage s (pageOf a)) := by
  rw [writePage, lookup_onDemand h hz ho, writePage]

theorem writePage_exhausted (ho : s.outOfMemory = true) :
    writePage store a bs s = .trapped .outOfMemory (pageOf a * pageSize) s := by
  rw [writePage, lookup_exhausted h hz ho, bind_trapped]

end

/-- An atomic that accesses memory in `s` as in the remapped `u` does the same there. -/
theorem AtomicBody.via {s u : State} {a : Word} {z : Size} {reads writes : Bool} {body : State → Effect Unit}
    (h : AtomicBody s a z reads writes body) (hu : Remapped s u) (ha : a.toNat % z.bytes = 0)
    (hor : reads = true ∨ s.Reserves a z) (hr : memRead a z s = memRead a z u)
    (hw : ∀ v, memWrite a z v s = memWrite a z v u) : body s = body u := by
  have hm := atomicMisaligned_eq_false ha
  cases h with
  | lr => simp only [loadReserved, hu.x, hm, hr, Bool.false_eq_true, if_false]
  | sc width rd rs1 rs2 =>
    have hs : s.Reserves (s.x rs1) (sizeOfWidth width) := hor.resolve_left nofun
    have hus : u.Reserves (s.x rs1) (sizeOfWidth width) := by simpa [State.Reserves, hu.resv] using hs
    simp only [storeConditional, hu.x, hm, reserved_iff.mpr hs, reserved_iff.mpr hus, hw, Bool.false_eq_true, if_false, if_true]
  | amo => simp only [atomicOp, hu.x, hm, hr, Bool.false_eq_true, if_false]

theorem littleEndian_zero (n : Nat) : littleEndian (fun _ => 0) n = 0 := by
  induction n with
  | zero => rfl
  | succ k ih =>
    rw [littleEndian, ih]
    simp

theorem valueAt_zero {s : State} {a : Word} {n : Nat} (h : ∀ k < n, s.byte (s.byteAddr a k) = 0) : s.valueAt a n = 0 :=
  (littleEndian_congr h).trans (littleEndian_zero n)

/-- A load instruction over readable bytes (R260 to R267). -/
theorem completes_of_isLoad {s : State} {i : Instr} {len : Nat} {ea : Word} {z : Size} {sg : Bool} {rd : Reg}
    (h : IsLoad s i len ea z sg rd) (hw : i.wf s.params = true) (hc : s.counter ≠ counterMax) (hr : s.canRead ea z = true) :
    Completes i (s.pc.toNat + len) rd (extended z sg (BitVec.ofNat 64 (s.valueAt ea z.bytes)).toNat) s := by
  obtain ⟨ha, e⟩ := load_form h hw
  exact completes_loadFrom (len_of_isLoad h) hc ha hr e (toNat_wrap_extended ..)

theorem extended_zero (z : Size) (sg : Bool) : extended z sg 0 = 0 := by
  cases sg <;> simp [extended, signedOf]

end Sys2Proof.Laws

namespace Sys2Proof.Proofs

open Sys2Proof.Machine Sys2Proof.Laws

/-- Settles O17: the access is the one in the state with the zero page (`readPage_onDemand`, `writePage_onDemand`), where all its bytes
are readable, storable and 0; beyond `MEMORY_MAX` it ends at the lookup. -/
theorem zeroPageOnDemand : Obligations.ZeroPageOnDemand := by
  intro s i ea z hw hc hwf hm hp hpg hz
  obtain ⟨u, hu⟩ : ∃ u, u = withZeroPage s (pageOf ea.toNat) := ⟨_, rfl⟩
  have hs := noStray_of_pagesWf hwf
  have hr : Remapped s u := hu ▸ remapped_withZeroPage hs hpg
  have hZ : ZeroPageInstalled s u (pageOf ea.toNat) := hu ▸ zeroPageInstalled hs hpg
  have hmu : misaligned ea z u = false := (hr.misaligned ea z).trans hm
  have hwu : i.wf u.params = true := hr.params ▸ hw
  have hcu : u.counter ≠ counterMax := by rw [hr.counter]; exact hc
  have ucan {v : Word} (hv : canonical s.w v) : canonical u.w v := by rw [State.w, hr.params]; exact hv
  have hread (ho : s.outOfMemory = false) : memRead ea z s = memRead ea z u :=
    memRead_via hp (hr.misaligned ea z) (fun n => hu ▸ readPage_onDemand hpg hz ho n) hm
  have hwrite (ho : s.outOfMemory = false) (v : Word) : memWrite ea z v s = memWrite ea z v u :=
    memWrite_via hp (hr.misaligned ea z) (fun bs => hu ▸ writePage_onDemand hpg hz storeInPage bs ho) hm v
  refine ⟨fun len sg rd hi ho => ?_, fun len v hi hx ho => ?_, fun reads writes hi hor ha ho => ?_, fun ho hor => ?_⟩
  · rw [exec_load_via hi hw hr (hread ho)]
    have hiu := hr.isLoad hi
    have hru : u.canRead ea z = true := canRead_inPage hp (ucan (load_form hi hw).1) hmu hZ.page rfl rfl
    have hval : u.valueAt ea z.bytes = 0 := valueAt_zero fun k hk => hZ.zero _ (by
      rw [byteAddr_inPage (ucan (load_form hi hw).1) hp hk, pageOf_same hp (by omega) (by omega)])
    obtain ⟨t, et, hret, hresv, hmem, hctl⟩ := completes_of_isLoad hiu hwu hcu hru
    rw [hval, show ((BitVec.ofNat 64 0).toNat) = 0 from rfl, extended_zero] at hret
    have hpt := pageAt_congr hmem.pages
    exact ⟨t, et, hr.retired hret, (hpt _).trans hZ.page, fun n hn => (hpt n).trans (hZ.otherPages n hn),
      fun a => (hmem.bytes a).trans (hr.byte a), fun b => (hmem.buffers b).trans (hr.get _), hresv.trans hr.resv,
      hr.sameControl hctl⟩
  · rw [exec_store_via hi hw hr (hwrite ho v)]
    have hsu : u.canStore ea z = true :=
      canStore_inPage hp (ucan (store_form hi hw).1) hmu hZ.page rfl rfl nofun (by rw [hr.params]; exact hx)
    obtain ⟨t, et, hret, hresv, hpages, hbytes, hctl⟩ := stores_of_isStore (hr.isStore hi) hwu hcu hsu
    have hpt := pageAt_congr hpages
    exact ⟨t, et, hr.retired hret, (hpt _).trans hZ.page, fun n hn => (hpt n).trans (hZ.otherPages n hn),
      hr.bytesStored hbytes, by rw [hresv, hr.resv], hr.sameControl hctl⟩
  · obtain ⟨body, hb, hex⟩ := atomic_form hi
    exact ⟨u, hZ, by rw [hex s, hex u, guarded_wf _ hw, guarded_wf _ hwu, hb.via hr ha hor (hread ho) (hwrite ho)]⟩
  · have er := memRead_pageFault hp hm (readPage_exhausted hpg hz ho)
    have ew := memWrite_pageFault hp hm fun bs => writePage_exhausted hpg hz storeInPage bs ho
    obtain ⟨len, sg, rd, hi⟩ | ⟨len, v, hi⟩ | ⟨reads, writes, hi, hor, ha⟩ := hor
    · have e := (load_form hi hw).2
      rw [loadFrom, er, bind_trapped] at e
      exact faults_of e
    · have e := (store_form hi hw).2
      rw [storeTo, ew] at e
      exact faults_of e
    · obtain ⟨body, hb, hex⟩ := atomic_form hi
      have eb : body s = .trapped .outOfMemory (pageOf ea.toNat * pageSize) s := by
        cases hrd : reads with
        | true => exact hb.readStops ha hrd er
        | false => exact hb.conditionalWriteStops ha hrd (hor.resolve_left (by simp [hrd])) ew
      exact faults_of (by rw [hex s, guarded_wf _ hw, eb, finish_trapped])

end Sys2Proof.Proofs
end

section
/-! SUPPORT. The page operations of the host (R92, R93, R96): each binds some pages, or removes some, and leaves every byte of the
other pages where and as it was.  The calls themselves see the state as the external writers left it (R438). -/

namespace Sys2Proof.Laws

open Sys2Proof.Machine

/-! ### Pages bound anew -/

/-- `t` is `s` with each page of `ns` bound to what `g` makes of the page there, or of its absence; no byte moves or changes. -/
structure Rebound (g : Option Page → Page) (ns : List Nat) (s t : State) : Prop where
  same : Remapped s t
  page : ∀ n ∈ ns, t.pageAt n = some (g (s.pageAt n))
  others : ∀ n, n ∉ ns → t.pageAt n = s.pageAt n

section
variable {g : Option Page → Page} {s t : State} {n : Nat}

theorem Rebound.mapped {ns : List Nat} (h : Rebound g ns s t) {m : Nat} (hm : t.pageAt m = none) : s.pageAt m = none := by
  by_cases hmn : m ∈ ns
  · simp [h.page m hmn] at hm
  · rw [← h.others m hmn, hm]

theorem Rebound.noStray {ns : List Nat} (h : Rebound g ns s t) (hs : NoStray s) : NoStray t :=
  h.same.noStray hs fun _ => h.mapped

theorem rebound_of_pageAt {t : State} (h : Remapped s t) (hp : t.pageAt n = some (g (s.pageAt n)))
    (ho : ∀ m, m ≠ n → t.pageAt m = s.pageAt m) : Rebound g [n] s t where
  same := h
  page m hm := by rw [List.mem_singleton.mp hm, hp]
  others m hm := ho m fun e => hm (List.mem_singleton.mpr e)

/-- A mapped page bound anew with its backing. -/
theorem rebound_setPage {p : Page} (h : s.pageAt n = some p) (hb : (g (some p)).variant.buffer? = p.variant.buffer?) :
    Rebound g [n] s (s.setPage n (g (some p))) :=
  rebound_of_pageAt (remapped_setPage (by rw [h, hb]; rfl)) (by rw [pageAt_setPage, h]) fun _ => pageAt_setPage_ne

/-- A zero page where none was. -/
theorem rebound_installZero (hs : NoStray s) (h : s.pageAt n = none) (hb : (g none).variant.buffer? = none) :
    Rebound g [n] s (s.installPage n (g none) []) :=
  rebound_of_pageAt (remapped_installZero hs h hb) (by rw [pageAt_installPage, h]) fun _ => pageAt_installPage_ne

/-- One page after others: where `g` gives the page it gave before, the order and repetition of the pages do not matter. -/
theorem Rebound.cons {u : State} {ns : List Nat} (hg : ∀ p, g (some (g p)) = g p) (h : Rebound g [n] s t)
    (h' : Rebound g ns t u) : Rebound g (n :: ns) s u where
  same := h.same.trans h'.same
  page m hm := by
    by_cases hn : m = n
    · have hp := h.page m (List.mem_singleton.mpr hn)
      by_cases hms : m ∈ ns
      · rw [h'.page m hms, hp, hg]
      · rw [h'.others m hms, hp]
    · rw [h'.page m ((List.mem_cons.mp hm).resolve_left hn), h.others m fun e => hn (List.mem_singleton.mp e)]
  others m hm := by
    rw [h'.others m fun e => hm (List.mem_cons_of_mem _ e), h.others m fun e => hm (List.mem_cons.mpr (.inl (List.mem_singleton.mp e)))]

/-- What an operation on one page does, over a list of pages. -/
theorem forPages_rebound {I : State → Prop} {f : Nat → State → Effect Unit} (hg : ∀ p, g (some (g p)) = g p)
    (hf : ∀ n t u w, I t → f n t = .done () u w → I u ∧ Rebound g [n] t u) (ns : List Nat) {w : Bool} (hs : I s)
    (h : forPages f ns s = .done () t w) : I t ∧ Rebound g ns s t := by
  induction ns generalizing s w with
  | nil =>
    cases h
    exact ⟨hs, remapped_refl _, fun _ hn => (List.not_mem_nil hn).elim, fun _ _ => rfl⟩
  | cons n ns ih =>
    obtain ⟨_, s1, _, _, h1, h2, -⟩ := bind_done_cases h
    obtain ⟨hI, hr⟩ := hf n s s1 _ hs h1
    exact ⟨(ih hI h2).1, hr.cons hg (ih hI h2).2⟩

/-- An operation that completes on every page completes on a list of them. -/
theorem forPages_completes {I : State → Prop} {f : Nat → State → Effect Unit}
    (hf : ∀ n t, I t → ∃ u, f n t = .pure () u ∧ I u) (ns : List Nat) (hs : I s) :
    ∃ u, forPages f ns s = .pure () u ∧ I u := by
  induction ns generalizing s with
  | nil => exact ⟨s, rfl, hs⟩
  | cons n ns ih =>
    obtain ⟨s1, e1, h1⟩ := hf n s hs
    obtain ⟨u, e, hu⟩ := ih h1
    exact ⟨u, by rw [forPages, e1, bind_pure, e], hu⟩

end

theorem outOfMemory_unbounded {s : State} (h : s.params.memoryMax = none) : s.outOfMemory = false := by
  simp [State.outOfMemory, h]

theorem createOwned_done {n : Nat} {attr : PageAttr} {s t : State} {q : Page} {w : Bool}
    (h : createOwned n attr s = .done q t w) : t = s.installPage n ⟨attr, .owned⟩ [] := by
  unfold createOwned at h
  split at h
  next => cases h
  next => cases h; rfl

theorem createOwned_unbounded (n : Nat) (attr : PageAttr) {s : State} (h : s.params.memoryMax = none) :
    createOwned n attr s = .pure ⟨attr, .owned⟩ (s.installPage n ⟨attr, .owned⟩ []) := by
  simp [createOwned, outOfMemory_unbounded h]

/-! ### The page operations -/

/-- The Trap page made of the page there (R96). -/
def asTrap (cb : Nat) (p : Option Page) : Page := ⟨(p.map (·.attr)).getD .rw, .trap cb (p.bind (·.variant.buffer?))⟩

/-- The page there with other attributes, an Owned one where none is (R92). -/
def withAttr (attr : PageAttr) (p : Option Page) : Page := ⟨attr, (p.map (·.variant)).getD .owned⟩

theorem rebound_trapPage {s : State} (hs : NoStray s) (a : Word) (cb : Nat) :
    Rebound (asTrap cb) [pageOf a.toNat] s (trapPage a cb s) := by
  unfold trapPage
  dsimp only
  split
  next p hp => exact rebound_setPage (g := asTrap cb) hp rfl
  next hp => exact rebound_installZero (g := asTrap cb) hs hp rfl

theorem rebound_setOnePageAttr {attr : PageAttr} {n : Nat} {s t : State} {w : Bool} (hs : NoStray s)
    (h : setOnePageAttr attr n s = .done () t w) : Rebound (withAttr attr) [n] s t := by
  unfold setOnePageAttr at h
  split at h
  next p hp =>
    cases h
    exact rebound_setPage (g := withAttr attr) hp rfl
  next hp =>
    obtain ⟨_, u, _, _, h1, h2, -⟩ := bind_done_cases h
    cases h2
    rw [createOwned_done h1]
    exact rebound_installZero (g := withAttr attr) hs hp rfl

theorem setOnePageAttr_completes (attr : PageAttr) (n : Nat) {s : State} (h : s.params.memoryMax = none) :
    ∃ t, setOnePageAttr attr n s = .pure () t ∧ t.params.memoryMax = none := by
  unfold setOnePageAttr
  split
  · exact ⟨_, rfl, h⟩
  · exact ⟨s.installPage n ⟨attr, .owned⟩ [], by rw [createOwned_unbounded n attr h, bind_pure], h⟩

/-- The attributes of every page of a list, where memory is unbounded (R92). -/
theorem forPages_setOnePageAttr (attr : PageAttr) (ns : List Nat) {s : State} (hs : NoStray s) (h : s.params.memoryMax = none) :
    ∃ t, forPages (setOnePageAttr attr) ns s = .pure () t ∧ Rebound (withAttr attr) ns s t := by
  obtain ⟨t, e, -⟩ := forPages_completes (fun n _ => setOnePageAttr_completes attr n) ns h
  exact ⟨t, e, (forPages_rebound (fun _ => rfl)
    (fun _ _ _ _ hI he => ⟨(rebound_setOnePageAttr hI he).noStray hI, rebound_setOnePageAttr hI he⟩) ns hs e).2⟩

theorem pageMeets_iff {n base len : Nat} :
    pageMeets n base len = true ↔ ∃ q, base ≤ q ∧ q < base + len ∧ pageOf q = n := by
  rw [pageMeets, decide_eq_true_iff]
  constructor
  · exact fun h => ⟨max (n * pageSize) base, by simp only [pageOf, pageSize] at *; omega⟩
  · rintro ⟨q, h1, h2, rfl⟩
    simp only [pageOf, pageSize]
    omega

theorem pageAt_removePages (s : State) (f : Nat → Bool) (n : Nat) :
    (s.removePages f).pageAt n = if f n then none else s.pageAt n := find_dropKeys ..

theorem get_removePages_kept {s : State} {f : Nat → Bool} {q : Nat} (h : f (pageOf q) = false) :
    (s.removePages f).get (.guest q) = s.get (.guest q) := by
  simp [State.get, Memory.read, find_dropKeys, h]

/-- The bytes of a page that stays. -/
theorem byte_removePages_kept {s : State} {f : Nat → Bool} {q : Nat} (h : f (pageOf q) = false) :
    (s.removePages f).byte q = s.byte q := by
  have hp : (s.removePages f).place q = s.place q := place_of_buffer (by rw [pageAt_removePages, h]; rfl)
  rw [State.byte, State.byte, hp]
  cases e : s.place q with
  | guest a => rw [place_guest e, get_removePages_kept h]
  | host _ => rfl

/-! ### A call of the host between runs -/

/-- External writers leave nothing outside the mapped pages (R438). -/
theorem noStray_atBoundary {s : State} (hs : NoStray s) : NoStray (atBoundary s) := by
  intro a ha
  rw [pageAt_congr (atBoundary_pages s)] at ha
  rw [← hs a ha]
  refine get_redrawPages_ne _ _ _ fun e he _ o ho hp => ?_
  have hm := find_isSome_of_mem he
  rw [place_guest hp.symm, pageOf_in _ _ ho] at ha
  rw [State.pageAt] at ha
  simp [ha] at hm

/-- What the host's next call works on: the state the external writers left, the call taken off. -/
def atCall (s : State) (rest : List HostOp) : State := { atBoundary s with hostCalls := rest }

section
variable {s : State} {rest : List HostOp}

theorem pageAt_atCall (n : Nat) : (atCall s rest).pageAt n = s.pageAt n := pageAt_congr (atBoundary_pages s) n

theorem byte_atCall (q : Nat) : (atCall s rest).byte q = (atBoundary s).byte q := byte_congr rfl rfl rfl q

theorem x_atCall (r : Reg) : (atCall s rest).x r = s.x r := x_congr (atBoundary_regs s) (atBoundary_params s) r

theorem noStray_atCall (hs : NoStray s) : NoStray (atCall s rest) := noStray_atBoundary hs

theorem toNat_wrap_atCall (a : Word) : (wrap (atCall s rest).w a).toNat = s.mod a.toNat :=
  toNat_wrap_mod (congrArg Params.w (atBoundary_params s)).symm a

/-- The end of a call that completes: the pages, the bytes and the registers are those the operation left (R281). -/
theorem step_answered {op : HostOp} {u : State} {r : HostResult} (hr : s.run = none) (hq : s.hostCalls = op :: rest)
    (h : hostCall op (atCall s rest) = answerHost (.pure r u)) :
    ∃ t, step s = .next t ∧ (∀ n, t.pageAt n = u.pageAt n) ∧ (∀ q, t.byte q = u.byte q) ∧ ∀ r, t.x r = u.x r := by
  refine ⟨{ drawReservation u with hostResult := r }, ?_, pageAt_congr rfl, byte_congr rfl rfl rfl, x_congr rfl rfl⟩
  rw [show step s = hostCall op (atCall s rest) by simp [step, turn, hr, hostTurn, hq, atCall], h]
  rfl

/-- The end of a call that binds pages anew. -/
theorem step_rebound {op : HostOp} {u : State} {r : HostResult} {g : Option Page → Page} {ns : List Nat}
    (hr : s.run = none) (hq : s.hostCalls = op :: rest) (h : hostCall op (atCall s rest) = answerHost (.pure r u))
    (hu : Rebound g ns (atCall s rest) u) :
    ∃ t, step s = .next t ∧ (∀ n ∈ ns, t.pageAt n = some (g (s.pageAt n))) ∧ (∀ n, n ∉ ns → t.pageAt n = s.pageAt n) ∧
      (∀ q, t.byte q = (atBoundary s).byte q) ∧ ∀ r, t.x r = s.x r := by
  obtain ⟨t, et, hp, hb, hx⟩ := step_answered hr hq h
  refine ⟨t, et, fun n hn => ?_, fun n hn => ?_, fun q => ?_, fun r => ?_⟩
  · rw [hp, hu.page n hn, pageAt_atCall]
  · rw [hp, hu.others n hn, pageAt_atCall]
  · rw [hb, hu.same.byte, byte_atCall]
  · rw [hx, hu.same.x, x_atCall]

end

end Sys2Proof.Laws

namespace Sys2Proof.Proofs

open Sys2Proof.Machine Sys2Proof.Laws

/-- Settles O52: `trap` and `set_page_attr` bind the pages they name (`rebound_trapPage`, `forPages_setOnePageAttr`), `free_pages`
removes those its range meets (`pageMeets_iff`). -/
theorem hostPageOperations : Obligations.HostPageOperations := by
  intro s a len cb attr rest hr hwf
  have hs := noStray_of_pagesWf hwf
  refine ⟨fun hq => ?_, fun hq => ?_, fun hq hmax => ?_⟩
  · obtain ⟨t, et, hp, ho, hb, hx⟩ := step_rebound hr hq rfl (rebound_trapPage (noStray_atCall hs) _ cb)
    rw [toNat_wrap_atCall] at hp ho
    exact ⟨t, et, hp _ (List.mem_singleton.mpr rfl), fun n hn => ho n fun h => hn (List.mem_singleton.mp h), hb, hx⟩
  · obtain ⟨t, et, hp, hb, hx⟩ := step_answered hr hq rfl
    refine ⟨t, et, fun r => (hx r).trans (x_atCall (rest := rest) r), fun n => ?_⟩
    rw [hp, pageAt_removePages, toNat_wrap_atCall, ← pageMeets_iff]
    refine ⟨fun hm => if_pos hm, fun hm => ⟨(if_neg hm).trans (pageAt_atCall n), fun q hqn => ?_⟩⟩
    rw [hb, byte_removePages_kept, byte_atCall]
    rw [hqn, toNat_wrap_atCall]
    exact Bool.eq_false_of_not_eq_true hm
  · obtain ⟨u, eu, hu⟩ := forPages_setOnePageAttr attr (pagesTouched (atCall s rest).w (wrap (atCall s rest).w a).toNat len)
      (noStray_atCall (rest := rest) hs) ((congrArg Params.memoryMax (atBoundary_params s)).trans hmax)
    have hc : hostCall (.setPageAttr a len attr) (atCall s rest) = answerHost (.pure .ok u) := by
      simp only [hostCall, hostAct, eu, Laws.bind_pure]
    obtain ⟨t, et, hp, ho, hb, hx⟩ := step_rebound hr hq hc hu
    have hw : (atCall s rest).w = s.w := congrArg Params.w (atBoundary_params s)
    rw [toNat_wrap_atCall, hw] at hp ho
    refine ⟨t, et, hx, hb, fun n => ⟨fun hm hlt => ?_, fun hm => ho n fun h => hm (mem_pagesTouched.mp h).2⟩⟩
    have hn := hp n (mem_pagesTouched.mpr ⟨hlt, hm⟩)
    refine ⟨fun p e => by rw [hn, e]; rfl, fun e => ⟨by rw [hn, e]; rfl, fun q hqn => ?_⟩⟩
    rw [hb]
    exact (noStray_atBoundary hs).byte (by rw [pageAt_congr (atBoundary_pages s), hqn, e])

end Sys2Proof.Proofs
end

section
/-! SUPPORT. The memory the loader leaves (R465 items 2, 3, 4, 6 and 7): its pages are the Machine's own, a later segment wins over an
earlier one, and the stack has pages only where no segment has. -/

namespace Sys2Proof.Laws

open Sys2Proof.Machine

/-! ### The state between two steps of the loader -/

/-- While the loader runs under the parameters `p`: the bytes of every page are the Machine's own, and there are no others (R52, R465). -/
structure Loading (p : Params) (s : State) : Prop where
  params : s.params = p
  noStray : NoStray s
  own : ∀ n q, s.pageAt n = some q → q.variant = .owned ∨ q.variant = .sharedRO

section
variable {p : Params} {s : State} (h : Loading p s)
include h

theorem Loading.buffer (n : Nat) : (s.pageAt n).bind (·.variant.buffer?) = none := by
  cases hn : s.pageAt n with
  | none => rfl
  | some q => obtain hv | hv := h.own n q hn <;> simp [hv, Variant.buffer?]

theorem Loading.place (a : Nat) : s.place a = .guest a := by rw [place_eq, h.buffer]

theorem Loading.byte (a : Nat) : s.byte a = s.get (.guest a) := by rw [State.byte, h.place]

theorem Loading.notTrap {n : Nat} {q : Page} (hn : s.pageAt n = some q) : isTrapPage q = false := by
  obtain hv | hv := h.own n q hn <;> simp [isTrapPage, hv]

/-- Pages of the Machine's own, bound by the loader, leave a state of the loader. -/
theorem Loading.rebound {t : State} {g : Option Page → Page} {ns : List Nat} (ht : Rebound g ns s t)
    (hg : ∀ n, (g (s.pageAt n)).variant = .owned ∨ (g (s.pageAt n)).variant = .sharedRO) : Loading p t where
  params := ht.same.params.trans h.params
  noStray := ht.noStray h.noStray
  own n q hq := by
    by_cases hn : n ∈ ns
    · rw [ht.page n hn] at hq
      cases hq
      exact hg n
    · exact h.own n q (ht.others n hn ▸ hq)

end

theorem loading_blank (o : Options) : Loading o.params (blank o) where
  params := rfl
  noStray _ _ := rfl
  own _ _ h := nomatch h

/-! ### The pages of one segment -/

/-- The page a segment asks for (R465 items 2, 3 and 4). -/
def segmentPage (g : Segment) (p : Params) : Page := ⟨g.attr p, g.variant p⟩

theorem segmentPage_own (g : Segment) (p : Params) :
    (segmentPage g p).variant = .owned ∨ (segmentPage g p).variant = .sharedRO := by
  unfold segmentPage Segment.variant
  dsimp only
  split
  · exact .inr rfl
  · exact .inl rfl

theorem buffer_segmentPage (g : Segment) (p : Params) : (segmentPage g p).variant.buffer? = none := by
  obtain h | h := segmentPage_own g p <;> rw [h] <;> rfl

theorem segmentPage_eq (g : Segment) (p : Params) :
    segmentPage g p = ⟨if p.protectSegments then ⟨g.r, g.w, g.x⟩ else ⟨true, true, g.x⟩,
      if p.sharedRodata ∧ g.r = true ∧ g.w = false ∧ g.x = false then .sharedRO else .owned⟩ := by
  simp [segmentPage, Segment.attr, Segment.variant, Segment.isRodata, and_assoc]

theorem rebound_loadPage {g : Segment} {p : Params} {n : Nat} {s t : State} {w : Bool} (hs : Loading p s)
    (h : loadPage g n s = .done () t w) : Rebound (fun _ => segmentPage g p) [n] s t := by
  obtain rfl := hs.params
  have hb := buffer_segmentPage g s.params
  unfold loadPage at h
  dsimp only at h
  split at h
  next q hq =>
    split at h
    next => cases h
    next =>
      cases h
      refine rebound_setPage (g := fun _ => segmentPage g s.params) hq (hb.trans ?_)
      have := hs.buffer n
      rwa [hq, Option.bind_some, eq_comm] at this
  next hq =>
    split at h
    next => cases h
    next =>
      cases h
      exact rebound_installZero (g := fun _ => segmentPage g s.params) hs.noStray hq hb

theorem loadPage_completes (g : Segment) (n : Nat) {s : State} (h : s.params.memoryMax = none) :
    ∃ t, loadPage g n s = .pure () t ∧ t.params.memoryMax = none := by
  have ho := outOfMemory_unbounded h
  unfold loadPage
  dsimp only
  split
  · exact ⟨_, if_neg (by simp [ho]), h⟩
  · exact ⟨_, if_neg (by simp [ho]), h⟩

/-- The pages the loader visits for a segment are those the segment touches. -/
theorem mem_pagesTouched_segment {g : Segment} {w : Width} (hf : g.vaddr.toNat + g.memsz ≤ 2 ^ w.xlen) {n : Nat} :
    n ∈ pagesTouched w g.vaddr.toNat g.memsz ↔ g.touches n := by
  rw [mem_pagesTouched]
  constructor
  · rintro ⟨-, q, h1, h2, h3⟩
    exact ⟨q, ⟨h1, h2⟩, h3⟩
  · rintro ⟨q, ⟨h1, h2⟩, rfl⟩
    exact ⟨pageOf_lt_pageCount (by omega), q, h1, h2, rfl⟩

/-! ### The bytes of one segment -/

theorem length_image (g : Segment) : g.image.length = g.memsz := by
  simp only [Segment.image, List.length_append, List.length_take, List.length_replicate]
  omega

theorem getElem_image (g : Segment) (k : Nat) (h : k < g.image.length) : g.image[k] = g.bytes.getD k 0 := by
  rw [length_image] at h
  by_cases hk : k < g.bytes.length
  · simp [Segment.image, hk, h]
  · simp [Segment.image, List.getElem_append, hk]

section
variable {p : Params} {s : State} (h : Loading p s) (a : Nat) (bs : List Byte)
include h

theorem Loading.byte_storeBytes {k : Nat} (hk : k < bs.length) : (s.storeBytes a bs).byte (a + k) = bs[k] := by
  rw [State.byte, place_congr (storeBytes_pages s a bs)]
  refine (storedAt_storeBytes s a bs).1 k hk fun j hj _ => ?_
  simp only [h.place, ne_eq, Place.guest.injEq]
  omega

theorem Loading.get_storeBytes_outside {q : Nat} (hq : ¬(a ≤ q ∧ q < a + bs.length)) :
    (s.storeBytes a bs).get (.guest q) = s.get (.guest q) :=
  get_storeBytes_ne s a bs _ fun k hk e => by
    rw [h.place] at e
    cases e
    omega

/-- Bytes stored in mapped pages leave a state of the loader. -/
theorem Loading.storeBytes (hm : ∀ q, a ≤ q → q < a + bs.length → s.pageAt (pageOf q) ≠ none) :
    Loading p (s.storeBytes a bs) where
  params := (storeBytes_params s a bs).trans h.params
  noStray q hq := by
    rw [pageAt_congr (storeBytes_pages s a bs)] at hq
    rw [h.get_storeBytes_outside a bs fun hc => hm q hc.1 hc.2 hq]
    exact h.noStray q hq
  own n q hq := h.own n q (by rwa [pageAt_congr (storeBytes_pages s a bs)] at hq)

end

/-! ### Segments -/

/-- From `s` to `t` the loader changed only pages and bytes of the segments `gs`, and unmapped none. -/
structure LoadedOnly (p : Params) (gs : List Segment) (s t : State) : Prop where
  loading : Loading p t
  pages : ∀ n, (∀ g ∈ gs, ¬g.touches n) → t.pageAt n = s.pageAt n
  bytes : ∀ q, (∀ g ∈ gs, ¬g.covers q) → t.byte q = s.byte q
  mapped : ∀ n, t.pageAt n = none → s.pageAt n = none

/-- A segment is loaded: its pages are as it asks, its bytes are those of its file, then zeros (R465 items 2, 3 and 4). -/
structure SegmentLoaded (p : Params) (g : Segment) (s t : State) : Prop where
  only : LoadedOnly p [g] s t
  touched : ∀ n, g.touches n → t.pageAt n = some (segmentPage g p)
  covered : ∀ k < g.memsz, t.byte (g.vaddr.toNat + k) = g.bytes.getD k 0

theorem loadSegment_done {p : Params} {g : Segment} {s t : State} {w : Bool}
    (hf : g.vaddr.toNat + g.memsz ≤ 2 ^ p.w.xlen) (hs : Loading p s) (h : loadSegment g s = .done () t w) :
    SegmentLoaded p g s t := by
  obtain ⟨_, u, _, _, h1, h2, -⟩ := bind_done_cases h
  have page : ∀ n s t w, Loading p s → loadPage g n s = .done () t w →
      Loading p t ∧ Rebound (fun _ => segmentPage g p) [n] s t := fun n s t w hs h =>
    have hr := rebound_loadPage hs h
    ⟨hs.rebound hr fun _ => segmentPage_own g p, hr⟩
  obtain ⟨hu, hr⟩ := forPages_rebound (fun _ => rfl) page _ hs h1
  have hsw : s.w = p.w := congrArg Params.w hs.params
  have huw : u.w = p.w := congrArg Params.w hu.params
  have touched : ∀ n, g.touches n → u.pageAt n = some (segmentPage g p) := fun n hn =>
    hr.page n (by rw [hsw]; exact (mem_pagesTouched_segment hf).mpr hn)
  rw [huw, List.take_of_length_le (by rw [length_image]; omega)] at h2
  cases h2
  have pages := pageAt_congr (storeBytes_pages u g.vaddr.toNat g.image)
  have ht : Loading p (u.storeBytes g.vaddr.toNat g.image) := hu.storeBytes _ _ fun q h1 h2 => by
    rw [length_image] at h2
    rw [touched _ ⟨q, ⟨h1, h2⟩, rfl⟩]
    nofun
  refine ⟨⟨ht, fun n hn => ?_, fun q hq => ?_, fun n hn => hr.mapped (pages n ▸ hn)⟩, fun n hn => (pages n).trans (touched n hn),
    fun k hk => ?_⟩
  · rw [pages, hr.others n fun hm => hn g (List.mem_singleton.mpr rfl) ((mem_pagesTouched_segment hf).mp (hsw ▸ hm))]
  · rw [ht.byte, hu.get_storeBytes_outside _ _ (by rw [length_image]; exact hq g (List.mem_singleton.mpr rfl)), ← hu.byte,
      hr.same.byte]
  · rw [hu.byte_storeBytes _ _ (by rw [length_image]; exact hk), getElem_image]

section
variable {p : Params} {s t : State} {w : Bool} (hs : Loading p s)
include hs

theorem loadSegments_done {gs : List Segment} (hf : ∀ g ∈ gs, g.vaddr.toNat + g.memsz ≤ 2 ^ p.w.xlen)
    (h : loadSegments gs s = .done () t w) : LoadedOnly p gs s t := by
  induction gs generalizing s w with
  | nil =>
    cases h
    exact ⟨hs, fun _ _ => rfl, fun _ _ => rfl, fun _ hn => hn⟩
  | cons g gs ih =>
    obtain ⟨_, u, _, _, h1, h2, -⟩ := bind_done_cases h
    have hg := (loadSegment_done (hf g (List.mem_cons_self ..)) hs h1).only
    have hgs := ih hg.loading (fun g hg => hf g (List.mem_cons_of_mem _ hg)) h2
    have one {P : Segment → Prop} (hP : ∀ h ∈ g :: gs, ¬P h) : ∀ h ∈ [g], ¬P h := fun h hh =>
      hP h (List.mem_cons.mpr (.inl (List.mem_singleton.mp hh)))
    have rest {P : Segment → Prop} (hP : ∀ h ∈ g :: gs, ¬P h) : ∀ h ∈ gs, ¬P h := fun h hh => hP h (List.mem_cons_of_mem _ hh)
    exact ⟨hgs.loading, fun n hn => (hgs.pages n (rest hn)).trans (hg.pages n (one hn)),
      fun q hq => (hgs.bytes q (rest hq)).trans (hg.bytes q (one hq)), fun n hn => hg.mapped n (hgs.mapped n hn)⟩

/-- The loader at one segment of the list: those before it are loaded, then it, then those after it. -/
theorem loadSegments_at {before after : List Segment} {g : Segment}
    (hf : ∀ h ∈ before ++ g :: after, h.vaddr.toNat + h.memsz ≤ 2 ^ p.w.xlen)
    (h : loadSegments (before ++ g :: after) s = .done () t w) :
    ∃ u v, SegmentLoaded p g u v ∧ LoadedOnly p after v t := by
  induction before generalizing s w with
  | nil =>
    obtain ⟨_, v, _, _, h1, h2, -⟩ := bind_done_cases h
    have hg := loadSegment_done (hf g (List.mem_cons_self ..)) hs h1
    exact ⟨s, v, hg, loadSegments_done hg.only.loading (fun h hh => hf h (List.mem_cons_of_mem _ hh)) h2⟩
  | cons b before ih =>
    obtain ⟨_, v, _, _, h1, h2, -⟩ := bind_done_cases h
    have hb := (loadSegment_done (hf b (List.mem_cons_self ..)) hs h1).only
    exact ih hb.loading (fun h hh => hf h (List.mem_cons_of_mem _ hh)) h2

end

theorem loadSegments_completes (gs : List Segment) {s : State} (h : s.params.memoryMax = none) :
    ∃ t, loadSegments gs s = .pure () t ∧ t.params.memoryMax = none := by
  induction gs generalizing s with
  | nil => exact ⟨s, rfl, h⟩
  | cons g gs ih =>
    obtain ⟨u, eu, hu⟩ := forPages_completes (fun n _ => loadPage_completes g n)
      (pagesTouched s.w g.vaddr.toNat g.memsz) h
    obtain ⟨t, et, ht⟩ := ih (s := u.storeBytes g.vaddr.toNat (g.image.take (2 ^ u.w.xlen - g.vaddr.toNat)))
      (by rw [storeBytes_params, hu])
    exact ⟨t, by rw [loadSegments, loadSegment, eu, bind_pure, bind_pure, et], ht⟩

/-! ### The stack, and the whole of the loader -/

/-- The page of the stack where no page is, else the page there (R465 item 7). -/
def orStackPage (p : Option Page) : Page := p.getD ⟨.rw, .owned⟩

theorem Rebound.kept {g : Option Page → Page} {ns : List Nat} {s t : State} (h : Rebound g ns s t) {n : Nat} {p : Page}
    (hn : s.pageAt n = some p) (hg : g (some p) = p) : t.pageAt n = some p := by
  by_cases hm : n ∈ ns
  · rw [h.page n hm, hn, hg]
  · rw [h.others n hm, hn]

/-- The pages of `[stack_address - STACK_SIZE, stack_address)` (R465 item 7). -/
def stackPages (o : Options) : List Nat :=
  pagesTouched o.params.w ((wrap o.params.w o.stackAddress).toNat - o.stackSize)
    (min o.stackSize (wrap o.params.w o.stackAddress).toNat)

theorem mem_stackPages {o : Options} {n : Nat} : n ∈ stackPages o ↔
    ∃ q, (wrap o.params.w o.stackAddress).toNat - o.stackSize ≤ q ∧ q < (wrap o.params.w o.stackAddress).toNat ∧ pageOf q = n := by
  have hlt : (wrap o.params.w o.stackAddress).toNat < 2 ^ o.params.w.xlen := by
    rw [toNat_wrap]
    exact Nat.mod_lt _ (by positivity)
  rw [stackPages, mem_pagesTouched]
  constructor
  · rintro ⟨-, q, h1, h2, h3⟩
    exact ⟨q, h1, by omega, h3⟩
  · rintro ⟨q, h1, h2, rfl⟩
    exact ⟨pageOf_lt_pageCount (by omega), q, h1, by omega, rfl⟩

theorem rebound_stackPage {n : Nat} {s t : State} {w : Bool} (hs : NoStray s) (h : stackPage n s = .done () t w) :
    Rebound orStackPage [n] s t := by
  unfold stackPage at h
  split at h
  next q hq =>
    cases h
    exact rebound_of_pageAt (remapped_refl s) (by rw [hq]; rfl) fun _ _ => rfl
  next hq =>
    obtain ⟨_, u, _, _, h1, h2, -⟩ := bind_done_cases h
    cases h2
    rw [createOwned_done h1]
    exact rebound_installZero (g := orStackPage) hs hq rfl

theorem stackPage_completes (n : Nat) {s : State} (h : s.params.memoryMax = none) :
    ∃ t, stackPage n s = .pure () t ∧ t.params.memoryMax = none := by
  unfold stackPage
  split
  · exact ⟨_, rfl, h⟩
  · exact ⟨s.installPage n ⟨.rw, .owned⟩ [], by rw [createOwned_unbounded n .rw h, bind_pure], h⟩

/-- The launch fields set between the segments and the stack (R465 items 5 and 8). -/
def withLaunch (img : Image) (s : State) : State :=
  { s.withExecSegment (lowestExecutable img.segments) with startAddress := wrap s.w img.entry }

theorem withLaunch_memory (img : Image) (s : State) : (withLaunch img s).pages = s.pages ∧ (withLaunch img s).mem = s.mem ∧
    (withLaunch img s).hostMem = s.hostMem ∧ (withLaunch img s).params = s.params := by
  unfold withLaunch
  cases lowestExecutable img.segments <;> exact ⟨rfl, rfl, rfl, rfl⟩

/-- The loader loads the segments, sets the launch fields, then maps the stack where nothing is mapped. -/
theorem load_stages {img : Image} {o : Options} {t : State} {w : Bool}
    (hf : ∀ g ∈ img.segments, g.vaddr.toNat + g.memsz ≤ 2 ^ o.params.w.xlen) (h : load img o = .done () t w) :
    ∃ s v, loadSegments img.segments (blank o) = .done () s v ∧ Rebound orStackPage (stackPages o) (withLaunch img s) t := by
  obtain ⟨_, s, _, _, h1, h2, -⟩ := bind_done_cases h
  have hl := (loadSegments_done (loading_blank o) hf h1).loading
  have hfields : s.w = o.params.w ∧ s.stackAddress = wrap o.params.w o.stackAddress := by
    obtain ⟨_, _, _, _, rfl⟩ := keeps_of_done (onlyPages_loadSegments _ (onlyPages_refl (blank o))) h1
    exact ⟨rfl, rfl⟩
  obtain ⟨hw, hst⟩ := hfields
  obtain ⟨hp, hm, hh, -⟩ := withLaunch_memory img s
  have hs : NoStray (withLaunch img s) := fun a ha => (get_congr hm hh _).trans (hl.noStray a (by rwa [pageAt_congr hp] at ha))
  split at h2
  next => cases h2
  next =>
    obtain ⟨_, t', _, _, h3, h4, -⟩ := bind_done_cases h2
    cases h4
    rw [show pagesTouched s.w _ _ = stackPages o by rw [hst, hw, stackPages]] at h3
    exact ⟨s, _, h1, (forPages_rebound (fun _ => rfl)
      (fun n t u w hI he => ⟨(rebound_stackPage hI he).noStray hI, rebound_stackPage hI he⟩) _ hs h3).2⟩

theorem load_completes {img : Image} {o : Options} (hu : img.unknownRelocation = none) (hm : o.params.memoryMax = none) :
    ∃ t, load img o = .pure () t := by
  obtain ⟨s, es, hs⟩ := loadSegments_completes img.segments (s := blank o) hm
  obtain ⟨t, et, -⟩ := forPages_completes (fun n _ => stackPage_completes n)
    (pagesTouched s.w (s.stackAddress.toNat - o.stackSize) (min o.stackSize s.stackAddress.toNat))
    (s := withLaunch img s) (by rw [(withLaunch_memory img s).2.2.2, hs])
  rw [withLaunch] at et
  exact ⟨t, by simp only [load, es, bind_pure, hu, et]⟩

/-- A Machine that construction gives is the reset of what the loader left. -/
theorem construct_load {img : Image} {o : Options} {s : State} (h : construct img o = .machine s) :
    ∃ t w, load img o = .done () t w ∧ s = resetCpu t := by
  unfold construct at h
  split at h
  next =>
    split at h
    next t w hl =>
      split at h
      next => cases h; exact ⟨t, w, hl, rfl⟩
      next => cases h
    next => cases h
    next => cases h
  next => cases h

theorem load_noExecSegment {img : Image} {o : Options} {t : State} {w : Bool} (h : load img o = .done () t w)
    (hx : lowestExecutable img.segments = none) : t.execBase = 0 ∧ t.execLen = 0 := by
  obtain ⟨_, s, _, _, h1, h2, -⟩ := bind_done_cases h
  obtain ⟨_, _, _, _, rfl⟩ := keeps_of_done (onlyPages_loadSegments _ (onlyPages_refl (blank o))) h1
  split at h2
  next => cases h2
  next =>
    obtain ⟨_, t', _, _, h3, h4, -⟩ := bind_done_cases h2
    obtain ⟨_, _, _, _, rfl⟩ := keeps_of_done (forPages_keeps (fun n _ => onlyPages_stackPage n) _ (onlyPages_refl _)) h3
    cases h4
    rw [hx]
    exact ⟨rfl, rfl⟩

theorem sixteen_dvd_xlen (w : Width) : 16 ∣ 2 ^ w.xlen := by cases w <;> decide

theorem ialign_dvd_xlen (p : Params) : p.ialign ∣ 2 ^ p.w.xlen :=
  (show p.ialign ∣ 16 by unfold Params.ialign; split <;> decide).trans (sixteen_dvd_xlen p.w)

/-- The execute segment as the loader records it, addresses and sizes modulo `2^XLEN`, lies in the segment (log entry 28). -/
theorem covers_of_execSegment {g : Segment} {m q : Nat} (hf : g.vaddr.toNat + g.memsz ≤ m) (h1 : g.vaddr.toNat % m ≤ q)
    (h2 : q < g.vaddr.toNat % m + g.memsz % m) : g.covers q := by
  have hle := Nat.mod_le g.memsz m
  by_cases hv : g.vaddr.toNat < m
  · rw [Nat.mod_eq_of_lt hv] at h1 h2
    exact ⟨h1, by omega⟩
  · rw [show g.vaddr.toNat = m by omega, Nat.mod_self] at h2
    omega

section
variable {img : Image} {o : Options} {t : State} {w : Bool}
  (hf : ∀ g ∈ img.segments, g.vaddr.toNat + g.memsz ≤ 2 ^ o.params.w.xlen) (h : load img o = .done () t w)
include hf h

/-- The page and the bytes of the last segment there (R465 items 2, 3 and 4). -/
theorem load_lastSegment {before after : List Segment} {g : Segment} (e : img.segments = before ++ g :: after) :
    (∀ n, g.touches n → (∀ h ∈ after, ¬h.touches n) → t.pageAt n = some (segmentPage g o.params)) ∧
      ∀ k < g.memsz, (∀ h ∈ after, ¬h.covers (g.vaddr.toNat + k)) → t.byte (g.vaddr.toNat + k) = g.bytes.getD k 0 := by
  obtain ⟨s, v, hs, hr⟩ := load_stages hf h
  obtain ⟨hp, hm, hh, -⟩ := withLaunch_memory img s
  rw [e] at hs hf
  obtain ⟨u, v, hg, ha⟩ := loadSegments_at (loading_blank o) hf hs
  refine ⟨fun n hn hlast => ?_, fun k hk hlast => ?_⟩
  · have hsn : (withLaunch img s).pageAt n = some (segmentPage g o.params) := by
      rw [pageAt_congr hp, ha.pages n hlast, hg.touched n hn]
    exact hr.kept hsn rfl
  · rw [hr.same.byte, byte_congr hp hm hh, ha.bytes _ hlast, hg.covered k hk]

/-- Outside the segments: the pages of the stack and no other, and no byte but 0 (R465 item 7). -/
theorem load_outside :
    (∀ n, (∀ g ∈ img.segments, ¬g.touches n) →
      (n ∈ stackPages o → t.pageAt n = some ⟨.rw, .owned⟩) ∧ (n ∉ stackPages o → t.pageAt n = none)) ∧
      ∀ q, (∀ g ∈ img.segments, ¬g.covers q) → t.byte q = 0 := by
  obtain ⟨s, v, hs, hr⟩ := load_stages hf h
  obtain ⟨hp, hm, hh, -⟩ := withLaunch_memory img s
  have hl := loadSegments_done (loading_blank o) hf hs
  refine ⟨fun n hn => ?_, fun q hq => ?_⟩
  · have hsn : (withLaunch img s).pageAt n = none := (pageAt_congr hp n).trans (hl.pages n hn)
    exact ⟨fun hm => by rw [hr.page n hm, hsn]; rfl, fun hm => by rw [hr.others n hm, hsn]⟩
  · rw [hr.same.byte, byte_congr hp hm hh, hl.bytes q hq]
    rfl

/-- The pages of the segments are mapped, and no page is a Trap page. -/
theorem load_mapped {g : Segment} (hg : g ∈ img.segments) {n : Nat} (hn : g.touches n) :
    ∃ p, t.pageAt n = some p ∧ isTrapPage p = false := by
  obtain ⟨s, v, hs, hr⟩ := load_stages hf h
  obtain ⟨hp, -⟩ := withLaunch_memory img s
  have hl := (loadSegments_done (loading_blank o) hf hs).loading
  obtain ⟨before, after, e⟩ := List.append_of_mem hg
  rw [e] at hs hf
  obtain ⟨u, v, hgl, ha⟩ := loadSegments_at (loading_blank o) hf hs
  cases hsn : s.pageAt n with
  | none => exact nomatch (hgl.touched n hn).symm.trans (ha.mapped n hsn)
  | some p => exact ⟨p, hr.kept ((pageAt_congr hp n).trans hsn) rfl, hl.notTrap hsn⟩

/-- What the loader leaves is a launch state where the stack and the executable segments are aligned (R466). -/
theorem load_launchable (h16 : o.stackAddress.toNat % 16 = 0)
    (ha : ∀ g ∈ img.segments, g.x = true → g.vaddr.toNat % o.params.ialign = 0) : t.launchable = true := by
  obtain ⟨-, hl⟩ := load_done h
  have hw : t.w = o.params.w := congrArg Params.w hl.params
  rw [launchable_iff, hl.params, hl.stack, hw, toNat_wrap, Nat.mod_mod_of_dvd _ (sixteen_dvd_xlen _), h16]
  cases hx : lowestExecutable img.segments with
  | none =>
    obtain ⟨hb, he⟩ := load_noExecSegment h hx
    rw [hb, he]
    exact ⟨rfl, Nat.zero_mod _, fun n hn => nomatch hn⟩
  | some g =>
    obtain ⟨hg, hgx⟩ := lowestExecutable_mem hx
    obtain ⟨hb, he⟩ := hl.exec g hx
    have hfg := hf g hg
    rw [hb, he, toNat_wrap, toNat_wrap, Nat.mod_mod_of_dvd _ (ialign_dvd_xlen _), BitVec.toNat_ofNat, Nat.mod_mod_of_dvd _ (xlen_dvd _)]
    refine ⟨rfl, ha g hg hgx, fun n hn => ?_⟩
    obtain ⟨-, q, h1, h2, rfl⟩ := mem_pagesTouched.mp hn
    exact load_mapped hf h hg ⟨q, covers_of_execSegment hfg h1 h2, rfl⟩

end

end Sys2Proof.Laws

namespace Sys2Proof.Proofs

open Sys2Proof.Machine Sys2Proof.Laws

/-- Settles O46: the loader loads the segments in order and then the stack (`load_lastSegment`, `load_outside`); without a cap on memory
each of its steps completes (`load_completes`) and what it leaves is launchable (`load_launchable`). -/
theorem constructionLoads : Obligations.ConstructionLoads := by
  intro img o hf
  refine ⟨fun hv hu hm h16 ha => ?_, fun s hs => ?_⟩
  · obtain ⟨t, e⟩ := load_completes hu hm
    exact ⟨resetCpu t, by rw [construct, if_pos hv, e]; exact if_pos (load_launchable hf e h16 ha)⟩
  · obtain ⟨t, w, hl, rfl⟩ := construct_load hs
    have hstack : (resetCpu t).stackAddress = wrap o.params.w o.stackAddress := (load_done hl).2.stack
    have page : ∀ n, (resetCpu t).pageAt n = t.pageAt n := pageAt_congr rfl
    have byte : ∀ q, (resetCpu t).byte q = t.byte q := byte_congr rfl rfl rfl
    obtain ⟨hpages, hbytes⟩ := load_outside hf hl
    simp only [page, byte, hstack, ← mem_stackPages, ← segmentPage_eq]
    exact ⟨fun _ _ _ e => load_lastSegment hf hl e, hpages, hbytes⟩

end Sys2Proof.Proofs
end

section
/-! SUPPORT. What the decoder reads is well formed and has the bits it was read from as its encoding (R111 to R121): the bits are their
fields put together, one lemma per format, and each row of a decoding table fixes the fields that its encoding has as constants. -/

namespace Sys2Proof.Laws

/-! ### A word or halfword put together from its fields -/

/-- Two neighbouring fields are one field. -/
theorem append_neighbours {n : Nat} {v : BitVec n} {a b m k : Nat} (h : b = a + k) :
    v.extractLsb' b m ++ v.extractLsb' a k = v.extractLsb' a (m + k) :=
  BitVec.extractLsb'_append_extractLsb'_eq_extractLsb' h

section
variable {w : BitVec 32} {f7 : BitVec 7} {f6 : BitVec 6} {f5 : BitVec 5} {f3 : BitVec 3} {op : BitVec 7}

theorem encR_of_fields (hop : fOpcode w = op) (h3 : fFunct3 w = f3) (h7 : fFunct7 w = f7) :
    encR f7 (fRs2 w) (fRs1 w) f3 (fRd w) op = w := by
  subst hop h3 h7
  simp (disch := omega) only [encR, fFunct7, fRs2, fRs1, fFunct3, fRd, fOpcode, append_neighbours,
    BitVec.extractLsb'_eq_self]

theorem encI_of_fields (hop : fOpcode w = op) (h3 : fFunct3 w = f3) : encI (immI w) (fRs1 w) f3 (fRd w) op = w := by
  subst hop h3
  simp (disch := omega) only [encI, immI, fRs1, fFunct3, fRd, fOpcode, append_neighbours, BitVec.extractLsb'_eq_self]

theorem encShift_of_fields (hop : fOpcode w = op) (h3 : fFunct3 w = f3) (h6 : fFunct6 w = f6) :
    encShift f6 (fShamt6 w) (fRs1 w) f3 (fRd w) op = w := by
  subst hop h3 h6
  simp (disch := omega) only [encShift, fFunct6, fShamt6, fRs1, fFunct3, fRd, fOpcode, append_neighbours,
    BitVec.extractLsb'_eq_self]

theorem encS_of_fields (hop : fOpcode w = op) (h3 : fFunct3 w = f3) : encS (immS w) (fRs2 w) (fRs1 w) f3 op = w := by
  subst hop h3
  simp (disch := omega) only [encS, immS, fRs2, fRs1, fFunct3, fOpcode, BitVec.extractLsb'_append_eq_of_le,
    BitVec.extractLsb'_append_eq_of_add_le, Nat.reduceSub, append_neighbours, BitVec.extractLsb'_eq_self]

theorem encB_of_fields (hop : fOpcode w = op) (h3 : fFunct3 w = f3) : encB (immB w) (fRs2 w) (fRs1 w) f3 op = w := by
  subst hop h3
  simp (disch := omega) only [encB, immB, fRs2, fRs1, fFunct3, fOpcode, BitVec.extractLsb'_append_eq_of_le,
    BitVec.extractLsb'_append_eq_of_add_le, Nat.reduceSub, append_neighbours, BitVec.extractLsb'_eq_self]

theorem encU_of_fields (hop : fOpcode w = op) : encU (immU w) (fRd w) op = w := by
  subst hop
  simp (disch := omega) only [encU, immU, fRd, fOpcode, append_neighbours, BitVec.extractLsb'_eq_self]

theorem encJ_of_fields (hop : fOpcode w = op) : encJ (immJ w) (fRd w) op = w := by
  subst hop
  simp (disch := omega) only [encJ, immJ, fRd, fOpcode, BitVec.extractLsb'_append_eq_of_le,
    BitVec.extractLsb'_append_eq_of_add_le, Nat.reduceSub, append_neighbours, BitVec.extractLsb'_eq_self]

theorem encHigh_of_fields (hop : fOpcode w = op) : encHigh (fHigh w) op = w := by
  subst hop
  simp (disch := omega) only [encHigh, fHigh, fOpcode, append_neighbours, BitVec.extractLsb'_eq_self]

theorem ofBool_beq_one (v : BitVec 1) : BitVec.ofBool (v == 1#1) = v := by
  revert v
  decide

theorem encAmo_of_fields (hop : fOpcode w = 0b0101111#7) (h3 : fFunct3 w = f3) (h5 : fFunct5 w = f5) :
    encAmo f5 (fAq w) (fRl w) (fRs2 w) (fRs1 w) f3 (fRd w) = w := by
  subst h3 h5
  rw [encAmo, ← hop]
  simp (disch := omega) only [fAq, fRl, ofBool_beq_one, fFunct5, fRs2, fRs1, fFunct3, fRd, fOpcode, append_neighbours,
    BitVec.extractLsb'_eq_self]

theorem encFence_of_fields (hop : fOpcode w = 0b0001111#7) (h3 : fFunct3 w = 0b000#3) :
    encFence (w.extractLsb' 28 4) (w.extractLsb' 24 4) (w.extractLsb' 20 4) (fRs1 w) (fRd w) = w := by
  rw [encFence, ← hop, ← h3]
  simp (disch := omega) only [fRs1, fFunct3, fRd, fOpcode, append_neighbours, BitVec.extractLsb'_eq_self]

end

section
variable {c : BitVec 16} {q : BitVec 2} {f3 : BitVec 3}

theorem encMid_of_fields (hq : cQuad c = q) (h3 : cFunct3 c = f3) : encMid f3 (cMid c) q = c := by
  subst hq h3
  simp (disch := omega) only [encMid, cFunct3, cMid, cQuad, append_neighbours, BitVec.extractLsb'_eq_self]

theorem encCI_of_fields (hq : cQuad c = q) (h3 : cFunct3 c = f3) : encCI f3 (cRd c) (cImm6 c) q = c := by
  subst hq h3
  simp (disch := omega) only [encCI, cFunct3, cRd, cImm6, cQuad, BitVec.extractLsb'_append_eq_of_le,
    BitVec.extractLsb'_append_eq_of_add_le, Nat.reduceSub, append_neighbours, BitVec.extractLsb'_eq_self]

theorem encCR_of_fields {b : BitVec 1} (hq : cQuad c = 0b10#2) (h3 : cFunct3 c = f3) (h12 : c.extractLsb' 12 1 = b) :
    encCR (f3 ++ b) (cRd c) (cRs2 c) = c := by
  subst h3 h12
  rw [encCR, ← hq]
  simp (disch := omega) only [cFunct3, cRd, cRs2, cQuad, append_neighbours, BitVec.extractLsb'_eq_self]

theorem encCBImm_of_fields {sel : BitVec 2} (hq : cQuad c = 0b01#2) (h3 : cFunct3 c = 0b100#3)
    (hs : c.extractLsb' 10 2 = sel) : encCBImm sel (cHiReg c) (cImm6 c) = c := by
  subst hs
  rw [encCBImm, ← hq, ← h3]
  simp (disch := omega) only [cFunct3, cHiReg, cImm6, cQuad, BitVec.extractLsb'_append_eq_of_le,
    BitVec.extractLsb'_append_eq_of_add_le, Nat.reduceSub, append_neighbours, BitVec.extractLsb'_eq_self]

theorem encCA_of_fields {b : BitVec 1} {sel f2 : BitVec 2} (hq : cQuad c = 0b01#2) (h3 : cFunct3 c = f3)
    (h12 : c.extractLsb' 12 1 = b) (hs : c.extractLsb' 10 2 = sel) (h2 : c.extractLsb' 5 2 = f2) :
    encCA (f3 ++ b ++ sel) (cHiReg c) f2 (cLoReg c) = c := by
  subst h3 h12 hs h2
  rw [encCA, ← hq]
  simp (disch := omega) only [cFunct3, cHiReg, cLoReg, cQuad, append_neighbours, BitVec.extractLsb'_eq_self]

theorem encSpn_of_fields (hq : cQuad c = 0b00#2) (h3 : cFunct3 c = 0b000#3) : encSpn (cImmSpn c) (cLoReg c) = c := by
  rw [encSpn, ← hq, ← h3]
  simp (disch := omega) only [cFunct3, cImmSpn, cLoReg, cQuad, BitVec.extractLsb'_append_eq_of_le,
    BitVec.extractLsb'_append_eq_of_add_le, Nat.reduceSub, append_neighbours, BitVec.extractLsb'_eq_self]

theorem encLSW_of_fields (hq : cQuad c = 0b00#2) (h3 : cFunct3 c = f3) : encLSW f3 (cImmW c) (cHiReg c) (cLoReg c) = c := by
  subst h3
  rw [encLSW, ← hq]
  simp (disch := omega) only [cFunct3, cImmW, cHiReg, cLoReg, cQuad, BitVec.extractLsb'_append_eq_of_le,
    BitVec.extractLsb'_append_eq_of_add_le, Nat.reduceSub, append_neighbours, BitVec.extractLsb'_eq_self]

theorem encLSD_of_fields (hq : cQuad c = 0b00#2) (h3 : cFunct3 c = f3) : encLSD f3 (cImmD c) (cHiReg c) (cLoReg c) = c := by
  subst h3
  rw [encLSD, ← hq]
  simp (disch := omega) only [cFunct3, cImmD, cHiReg, cLoReg, cQuad, BitVec.extractLsb'_append_eq_of_le,
    BitVec.extractLsb'_append_eq_of_add_le, Nat.reduceSub, append_neighbours, BitVec.extractLsb'_eq_self]

theorem encCJ_of_fields (hq : cQuad c = 0b01#2) (h3 : cFunct3 c = f3) : encCJ f3 (cImmJ c) = c := by
  subst h3
  rw [encCJ, ← hq]
  simp (disch := omega) only [cFunct3, cImmJ, cQuad, BitVec.extractLsb'_append_eq_of_le,
    BitVec.extractLsb'_append_eq_of_add_le, Nat.reduceSub, append_neighbours, BitVec.extractLsb'_eq_self]

theorem enc16sp_of_fields (hq : cQuad c = 0b01#2) (h3 : cFunct3 c = 0b011#3) (hd : cRd c = 0b00010#5) :
    enc16sp (cImm16sp c) = c := by
  rw [enc16sp, ← hq, ← h3, ← hd]
  simp (disch := omega) only [cFunct3, cImm16sp, cRd, cQuad, BitVec.extractLsb'_append_eq_of_le,
    BitVec.extractLsb'_append_eq_of_add_le, Nat.reduceSub, append_neighbours, BitVec.extractLsb'_eq_self]

theorem encCB_of_fields (hq : cQuad c = 0b01#2) (h3 : cFunct3 c = f3) : encCB f3 (cHiReg c) (cImmB c) = c := by
  subst h3
  rw [encCB, ← hq]
  simp (disch := omega) only [cFunct3, cImmB, cHiReg, cQuad, BitVec.extractLsb'_append_eq_of_le,
    BitVec.extractLsb'_append_eq_of_add_le, Nat.reduceSub, append_neighbours, BitVec.extractLsb'_eq_self]

theorem encLwsp_of_fields (hq : cQuad c = 0b10#2) (h3 : cFunct3 c = 0b010#3) : encLwsp (cRd c) (cImmLwsp c) = c := by
  rw [encLwsp, ← hq, ← h3]
  simp (disch := omega) only [cFunct3, cImmLwsp, cRd, cQuad, BitVec.extractLsb'_append_eq_of_le,
    BitVec.extractLsb'_append_eq_of_add_le, Nat.reduceSub, append_neighbours, BitVec.extractLsb'_eq_self]

theorem encLdsp_of_fields (hq : cQuad c = 0b10#2) (h3 : cFunct3 c = 0b011#3) : encLdsp (cRd c) (cImmLdsp c) = c := by
  rw [encLdsp, ← hq, ← h3]
  simp (disch := omega) only [cFunct3, cImmLdsp, cRd, cQuad, BitVec.extractLsb'_append_eq_of_le,
    BitVec.extractLsb'_append_eq_of_add_le, Nat.reduceSub, append_neighbours, BitVec.extractLsb'_eq_self]

theorem encSwsp_of_fields (hq : cQuad c = 0b10#2) (h3 : cFunct3 c = 0b110#3) : encSwsp (cRs2 c) (cImmSwsp c) = c := by
  rw [encSwsp, ← hq, ← h3]
  simp (disch := omega) only [cFunct3, cImmSwsp, cRs2, cQuad, BitVec.extractLsb'_append_eq_of_le,
    BitVec.extractLsb'_append_eq_of_add_le, Nat.reduceSub, append_neighbours, BitVec.extractLsb'_eq_self]

theorem encSdsp_of_fields (hq : cQuad c = 0b10#2) (h3 : cFunct3 c = 0b111#3) : encSdsp (cRs2 c) (cImmSdsp c) = c := by
  rw [encSdsp, ← hq, ← h3]
  simp (disch := omega) only [cFunct3, cImmSdsp, cRs2, cQuad, BitVec.extractLsb'_append_eq_of_le,
    BitVec.extractLsb'_append_eq_of_add_le, Nat.reduceSub, append_neighbours, BitVec.extractLsb'_eq_self]

end

/-- A scaled offset is a multiple of its scale (R112, R119). -/
theorem multipleOf_append_zero {n : Nat} (v : BitVec n) (k : Nat) : multipleOf (v ++ 0#k) (2 ^ k) = true := by
  simp [multipleOf, BitVec.toNat_append, Nat.shiftLeft_eq]

/-! ### What the decoder reads -/

/-- What `o` answers, where it answers an instruction, is well formed and has the encoding `e`. -/
def Reads (p : Params) (e : Encoded) (o : Option Instr) : Prop := ∀ i, o = some i → encode i = e ∧ i.wf p = true

section
variable {p : Params} {e : Encoded} {c : Prop} [Decidable c] {a b : Option Instr}

theorem reads_none : Reads p e none := nofun

theorem reads_ite (ha : c → Reads p e a) (hb : ¬c → Reads p e b) : Reads p e (if c then a else b) := by
  split
  · exact ha ‹c›
  · exact hb ‹¬c›

/-- A row that is reserved. -/
theorem reads_reserved (hb : ¬c → Reads p e b) : Reads p e (if c then none else b) := reads_ite (fun _ => reads_none) hb

section
variable {α : Type} {k : α → Encoded} {w v : α} {i : Instr} (hn : i.needs.met p = true) (ho : i.operandsOk p = true)
include hn ho

/-- The encoding of the instruction is `v`, put together from the fields of `w`. -/
theorem reads_some (hv : v = w) (he : encode i = k v := by rfl) : Reads p (k w) (some i) := by
  rintro j h
  cases h
  exact ⟨he.trans (congrArg k hv), by rw [Instr.wf, hn, ho]; rfl⟩

/-- A row of a decoding table: what its condition says of the fields is what the encoding has in them. -/
theorem reads_row (hv : c → v = w) (hb : ¬c → Reads p (k w) b) (he : encode i = k v := by rfl) :
    Reads p (k w) (if c then some i else b) :=
  reads_ite (fun hc => reads_some hn ho (hv hc) he) hb

end

end

theorem width_eq_w8 {p : Params} (h : p.w ≠ .w4) : p.w = .w8 := by
  cases hw : p.w
  · exact absurd hw h
  · rfl

/-- A row that RV64 alone has. -/
theorem reads_rv64Only {p : Params} {e : Encoded} {a : Option Instr} (ha : p.w = .w8 → Reads p e a) :
    Reads p e (if p.w = .w8 then a else none) := reads_ite ha fun _ => reads_none

/-- A row that RV32 and RV64 read differently. -/
theorem reads_byWidth {p : Params} {e : Encoded} {a b : Option Instr} (ha : p.w = .w4 → Reads p e a) (hb : p.w = .w8 → Reads p e b) :
    Reads p e (if p.w = .w4 then a else b) := reads_ite ha fun h => hb (width_eq_w8 h)

section
variable {p : Params}

theorem met_rv64 (h : p.w = .w8) : Needs.met p .rv64 = true := by simp [Needs.met, h]

theorem met_atomic64 (ha : p.extA = true) (h : p.w = .w8) : Needs.met p .atomic64 = true := by simp [Needs.met, ha, h]

theorem met_compressed32 (hc : p.extC = true) (h : p.w = .w4) : Needs.met p .compressed32 = true := by simp [Needs.met, hc, h]

theorem met_compressed64 (hc : p.extC = true) (h : p.w = .w8) : Needs.met p .compressed64 = true := by simp [Needs.met, hc, h]

end

/-! The last row of a table that tests all other values of its field. -/

theorem eq_five_of_ne : ∀ f : BitVec 3, f ≠ 0b000 → f ≠ 0b010 → f ≠ 0b011 → f ≠ 0b100 → f ≠ 0b110 → f ≠ 0b111 → f ≠ 0b001 →
    f = 0b101 := by bv_omega

theorem eq_seven_of_ne : ∀ f : BitVec 3, f ≠ 0b000 → f ≠ 0b001 → f ≠ 0b010 → f ≠ 0b011 → f ≠ 0b100 → f ≠ 0b101 → f ≠ 0b110 →
    f = 0b111 := by bv_omega

theorem eq_three_of_ne : ∀ f : BitVec 2, f ≠ 0b00 → f ≠ 0b01 → f ≠ 0b10 → f = 0b11 := by decide

theorem eq_one_of_ne : ∀ b : BitVec 1, b ≠ 0 → b = 1 := by decide

section
variable {p : Params} {w : BitVec 32}

/-! The tables of the 32-bit opcode map, row by row (R113, R114). -/

theorem reads_decodeLoad (hop : fOpcode w = 0b0000011#7) : Reads p (.word w) (decodeLoad p w) :=
  reads_row rfl rfl (encI_of_fields hop) fun _ =>
  reads_row rfl rfl (encI_of_fields hop) fun _ =>
  reads_row rfl rfl (encI_of_fields hop) fun _ =>
  reads_row rfl rfl (encI_of_fields hop) fun _ =>
  reads_row rfl rfl (encI_of_fields hop) fun _ =>
  reads_ite (fun h3 => reads_rv64Only fun hw => reads_some (met_rv64 hw) rfl (encI_of_fields hop h3)) fun _ =>
  reads_ite (fun h3 => reads_rv64Only fun hw => reads_some (met_rv64 hw) rfl (encI_of_fields hop h3)) fun _ =>
  reads_none

theorem reads_decodeStore (hop : fOpcode w = 0b0100011#7) : Reads p (.word w) (decodeStore p w) :=
  reads_row rfl rfl (encS_of_fields hop) fun _ =>
  reads_row rfl rfl (encS_of_fields hop) fun _ =>
  reads_row rfl rfl (encS_of_fields hop) fun _ =>
  reads_ite (fun h3 => reads_rv64Only fun hw => reads_some (met_rv64 hw) rfl (encS_of_fields hop h3)) fun _ =>
  reads_none

theorem reads_decodeOpImm (hop : fOpcode w = 0b0010011#7) : Reads p (.word w) (decodeOpImm p w) :=
  reads_row rfl rfl (encI_of_fields hop) fun h0 =>
  reads_row rfl rfl (encI_of_fields hop) fun h2 =>
  reads_row rfl rfl (encI_of_fields hop) fun h3 =>
  reads_row rfl rfl (encI_of_fields hop) fun h4 =>
  reads_row rfl rfl (encI_of_fields hop) fun h6 =>
  reads_row rfl rfl (encI_of_fields hop) fun h7 =>
  reads_reserved fun hs =>
  have fits : shamtFits p (fShamt6 w) = true := by simpa using hs
  reads_ite (fun h1 => reads_row rfl fits (encShift_of_fields hop h1) fun _ => reads_none) fun h1 =>
  have h5 := eq_five_of_ne _ h0 h2 h3 h4 h6 h7 h1
  reads_row rfl fits (encShift_of_fields hop h5) fun _ =>
  reads_row rfl fits (encShift_of_fields hop h5) fun _ =>
  reads_none

theorem reads_decodeOp (hop : fOpcode w = 0b0110011#7) : Reads p (.word w) (decodeOp w) :=
  reads_ite (fun h7 =>
    have row {f3 : BitVec 3} (h3 : fFunct3 w = f3) := encR_of_fields hop h3 h7
    reads_row rfl rfl row fun n0 =>
    reads_row rfl rfl row fun n1 =>
    reads_row rfl rfl row fun n2 =>
    reads_row rfl rfl row fun n3 =>
    reads_row rfl rfl row fun n4 =>
    reads_row rfl rfl row fun n5 =>
    reads_row rfl rfl row fun n6 =>
    reads_some rfl rfl (row (eq_seven_of_ne _ n0 n1 n2 n3 n4 n5 n6))) fun _ =>
  reads_ite (fun h7 =>
    have row {f3 : BitVec 3} (h3 : fFunct3 w = f3) := encR_of_fields hop h3 h7
    reads_row rfl rfl row fun _ =>
    reads_row rfl rfl row fun _ =>
    reads_none) fun _ =>
  reads_row rfl rfl (encR_of_fields hop rfl) fun _ =>
  reads_none

theorem reads_decodeOpImm32 (hop : fOpcode w = 0b0011011#7) : Reads p (.word w) (decodeOpImm32 p w) :=
  reads_reserved fun hw =>
  have h64 := met_rv64 (width_eq_w8 hw)
  reads_row h64 rfl (encI_of_fields hop) fun _ =>
  reads_ite (fun h3 => reads_row h64 rfl (encR_of_fields hop h3) fun _ => reads_none) fun _ =>
  reads_ite (fun h3 =>
    reads_row h64 rfl (encR_of_fields hop h3) fun _ =>
    reads_row h64 rfl (encR_of_fields hop h3) fun _ =>
    reads_none) fun _ =>
  reads_none

theorem reads_decodeOp32 (hop : fOpcode w = 0b0111011#7) : Reads p (.word w) (decodeOp32 p w) :=
  reads_reserved fun hw =>
  have h64 := met_rv64 (width_eq_w8 hw)
  reads_ite (fun h7 =>
    have row {f3 : BitVec 3} (h3 : fFunct3 w = f3) := encR_of_fields hop h3 h7
    reads_row h64 rfl row fun _ =>
    reads_row h64 rfl row fun _ =>
    reads_row h64 rfl row fun _ =>
    reads_none) fun _ =>
  reads_ite (fun h7 =>
    have row {f3 : BitVec 3} (h3 : fFunct3 w = f3) := encR_of_fields hop h3 h7
    reads_row h64 rfl row fun _ =>
    reads_row h64 rfl row fun _ =>
    reads_none) fun _ =>
  reads_row h64 rfl (encR_of_fields hop rfl) fun _ =>
  reads_none

theorem reads_decodeBranch (hop : fOpcode w = 0b1100011#7) : Reads p (.word w) (decodeBranch w) :=
  have even : multipleOf (immB w) 2 = true := multipleOf_append_zero _ 1
  reads_row rfl even (encB_of_fields hop) fun _ =>
  reads_row rfl even (encB_of_fields hop) fun _ =>
  reads_row rfl even (encB_of_fields hop) fun _ =>
  reads_row rfl even (encB_of_fields hop) fun _ =>
  reads_row rfl even (encB_of_fields hop) fun _ =>
  reads_row rfl even (encB_of_fields hop) fun _ =>
  reads_none

theorem reads_decodeAmoW (hop : fOpcode w = 0b0101111#7) (h3 : fFunct3 w = 0b010#3) (ha : Needs.met p .atomic = true) :
    Reads p (.word w) (decodeAmoW w) :=
  have row {f5 : BitVec 5} (h5 : fFunct5 w = f5) := encAmo_of_fields hop h3 h5
  reads_ite (fun h5 => reads_row ha rfl (fun h2 => h2 ▸ row h5) fun _ => reads_none) fun _ =>
  reads_row ha rfl row fun _ =>
  reads_row ha rfl row fun _ =>
  reads_row ha rfl row fun _ =>
  reads_row ha rfl row fun _ =>
  reads_row ha rfl row fun _ =>
  reads_row ha rfl row fun _ =>
  reads_row ha rfl row fun _ =>
  reads_row ha rfl row fun _ =>
  reads_row ha rfl row fun _ =>
  reads_row ha rfl row fun _ =>
  reads_none

theorem reads_decodeAmoD (hop : fOpcode w = 0b0101111#7) (h3 : fFunct3 w = 0b011#3) (ha : Needs.met p .atomic64 = true) :
    Reads p (.word w) (decodeAmoD w) :=
  have row {f5 : BitVec 5} (h5 : fFunct5 w = f5) := encAmo_of_fields hop h3 h5
  reads_ite (fun h5 => reads_row ha rfl (fun h2 => h2 ▸ row h5) fun _ => reads_none) fun _ =>
  reads_row ha rfl row fun _ =>
  reads_row ha rfl row fun _ =>
  reads_row ha rfl row fun _ =>
  reads_row ha rfl row fun _ =>
  reads_row ha rfl row fun _ =>
  reads_row ha rfl row fun _ =>
  reads_row ha rfl row fun _ =>
  reads_row ha rfl row fun _ =>
  reads_row ha rfl row fun _ =>
  reads_row ha rfl row fun _ =>
  reads_none

theorem reads_decodeAmo (hop : fOpcode w = 0b0101111#7) : Reads p (.word w) (decodeAmo p w) :=
  reads_reserved fun hn =>
  have ha : p.extA = true := by simpa using hn
  reads_ite (fun h3 => reads_decodeAmoW hop h3 ha) fun _ =>
  reads_ite (fun h3 => reads_rv64Only fun hw => reads_decodeAmoD hop h3 (met_atomic64 ha hw)) fun _ =>
  reads_none

theorem reads_decodeSystem (hop : fOpcode w = 0b1110011#7) : Reads p (.word w) (decodeSystem w) :=
  reads_row rfl rfl Eq.symm fun _ =>
  reads_row rfl rfl Eq.symm fun _ =>
  reads_row rfl rfl Eq.symm fun _ =>
  reads_row rfl rfl Eq.symm fun _ =>
  reads_row rfl rfl Eq.symm fun _ =>
  reads_row rfl rfl Eq.symm fun _ =>
  reads_ite (fun h3 => reads_row rfl rfl (fun ⟨h7, hd⟩ => hd ▸ encR_of_fields hop h3 h7) fun _ => reads_none) fun n0 =>
  reads_row rfl rfl (encI_of_fields hop) fun n1 =>
  reads_row rfl rfl (encI_of_fields hop) fun n2 =>
  reads_row rfl rfl (encI_of_fields hop) fun n3 =>
  reads_row rfl rfl (encI_of_fields hop) fun n4 =>
  reads_row rfl rfl (encI_of_fields hop) fun n5 =>
  reads_row rfl rfl (encI_of_fields hop) fun n6 =>
  reads_some rfl rfl (encI_of_fields hop (eq_seven_of_ne _ n0 n1 n2 n3 n4 n5 n6))

theorem reads_decodeMiscMem (hop : fOpcode w = 0b0001111#7) : Reads p (.word w) (decodeMiscMem w) :=
  reads_row rfl rfl (encFence_of_fields hop) fun _ =>
  reads_row rfl rfl (encI_of_fields hop) fun _ =>
  reads_none

theorem reads_decode32 (p : Params) (w : BitVec 32) : Reads p (.word w) (decode32 p w) :=
  reads_row rfl rfl encU_of_fields fun _ =>
  reads_row rfl rfl encU_of_fields fun _ =>
  reads_ite reads_decodeOpImm fun _ =>
  reads_ite reads_decodeOp fun _ =>
  reads_ite reads_decodeOpImm32 fun _ =>
  reads_ite reads_decodeOp32 fun _ =>
  reads_ite reads_decodeLoad fun _ =>
  reads_ite reads_decodeStore fun _ =>
  reads_ite reads_decodeBranch fun _ =>
  reads_row rfl (multipleOf_append_zero _ 1) encJ_of_fields fun _ =>
  reads_ite (fun hop => reads_row rfl rfl (encI_of_fields hop) fun _ => reads_none) fun _ =>
  reads_ite reads_decodeAmo fun _ =>
  reads_ite reads_decodeMiscMem fun _ =>
  reads_ite reads_decodeSystem fun _ =>
  reads_row rfl rfl encHigh_of_fields fun _ =>
  reads_row rfl rfl encHigh_of_fields fun _ =>
  reads_row rfl rfl encHigh_of_fields fun _ =>
  reads_row rfl rfl encHigh_of_fields fun _ =>
  reads_row rfl rfl encHigh_of_fields fun _ =>
  reads_row rfl rfl encHigh_of_fields fun _ =>
  reads_row rfl rfl encHigh_of_fields fun _ =>
  reads_none

end

section
variable {p : Params} {c : BitVec 16} (hc : p.extC = true)
include hc

/-! The tables of the compressed map, row by row (R120, R121). -/

theorem reads_decodeQ0 (hq : cQuad c = 0b00#2) : Reads p (.half c) (decodeQ0 p c) :=
  reads_row hc rfl Eq.symm fun _ =>
  reads_ite (fun h3 => reads_reserved fun hz =>
    have fours : multipleOf (cImmSpn c) 4 = true := multipleOf_append_zero _ 2
    reads_some hc (by simp [Instr.operandsOk, fours, hz]) (encSpn_of_fields hq h3)) fun n0 =>
  reads_row hc rfl (encMid_of_fields hq) fun n1 =>
  reads_row hc (multipleOf_append_zero _ 2) (encLSW_of_fields hq) fun n2 =>
  reads_ite (fun h3 => reads_byWidth
    (fun hw => reads_some (met_compressed32 hc hw) rfl (encMid_of_fields hq h3))
    fun hw => reads_some (met_compressed64 hc hw) (multipleOf_append_zero _ 3) (encLSD_of_fields hq h3)) fun n3 =>
  reads_row hc rfl (encMid_of_fields hq) fun n4 =>
  reads_row hc rfl (encMid_of_fields hq) fun n5 =>
  reads_row hc (multipleOf_append_zero _ 2) (encLSW_of_fields hq) fun n6 =>
  have h7 := eq_seven_of_ne _ n0 n1 n2 n3 n4 n5 n6
  reads_byWidth
    (fun hw => reads_some (met_compressed32 hc hw) rfl (encMid_of_fields hq h7))
    fun hw => reads_some (met_compressed64 hc hw) (multipleOf_append_zero _ 3) (encLSD_of_fields hq h7)

theorem reads_decodeQ1Arith (hq : cQuad c = 0b01#2) (h3 : cFunct3 c = 0b100#3) : Reads p (.half c) (decodeQ1Arith p c) :=
  have shift {sel : BitVec 2} (hs : c.extractLsb' 10 2 = sel) := encCBImm_of_fields hq h3 hs
  have arith {b : BitVec 1} {sel f2 : BitVec 2} (hs : c.extractLsb' 10 2 = sel) (h12 : c.extractLsb' 12 1 = b)
    (h2 : c.extractLsb' 5 2 = f2) := encCA_of_fields hq h3 h12 hs h2
  reads_ite (fun hs => reads_reserved fun hi => reads_some hc (by simpa [Instr.operandsOk] using hi) (shift hs)) fun n0 =>
  reads_ite (fun hs => reads_reserved fun hi => reads_some hc (by simpa [Instr.operandsOk] using hi) (shift hs)) fun n1 =>
  reads_row hc rfl shift fun n2 =>
  have hs := eq_three_of_ne _ n0 n1 n2
  reads_ite (fun h12 =>
    reads_row hc rfl (arith hs h12) fun m0 =>
    reads_row hc rfl (arith hs h12) fun m1 =>
    reads_row hc rfl (arith hs h12) fun m2 =>
    reads_some hc rfl (arith hs h12 (eq_three_of_ne _ m0 m1 m2))) fun n12 =>
  have h12 := eq_one_of_ne _ n12
  reads_reserved fun hw =>
  have h64 := met_compressed64 hc (width_eq_w8 hw)
  reads_row h64 rfl (arith hs h12) fun _ =>
  reads_row h64 rfl (arith hs h12) fun _ =>
  reads_none

theorem reads_decodeQ1 (hq : cQuad c = 0b01#2) : Reads p (.half c) (decodeQ1 p c) :=
  reads_row hc rfl Eq.symm fun _ =>
  reads_ite (fun h3 => reads_reserved fun hn =>
    reads_some hc (by simpa [Instr.operandsOk] using hn) (encCI_of_fields hq h3)) fun n0 =>
  reads_ite (fun h3 => reads_byWidth
    (fun hw => reads_some (met_compressed32 hc hw) (multipleOf_append_zero _ 1) (encCJ_of_fields hq h3))
    fun hw => reads_reserved fun hd =>
      reads_some (met_compressed64 hc hw) (by simpa [Instr.operandsOk] using hd) (encCI_of_fields hq h3)) fun n1 =>
  reads_ite (fun h3 => reads_reserved fun hd =>
    reads_some hc (by simpa [Instr.operandsOk] using hd) (encCI_of_fields hq h3)) fun n2 =>
  reads_ite (fun h3 =>
    reads_ite (fun hd => reads_reserved fun hz =>
      have sixteens : multipleOf (cImm16sp c) 16 = true := multipleOf_append_zero _ 4
      reads_some hc (by simp [Instr.operandsOk, sixteens, hz]) (enc16sp_of_fields hq h3 hd)) fun hd =>
    reads_reserved fun hn =>
    reads_some hc (by simpa [Instr.operandsOk, hd] using hn) (encCI_of_fields hq h3)) fun n3 =>
  reads_ite (fun h3 => reads_decodeQ1Arith hc hq h3) fun n4 =>
  reads_row hc (multipleOf_append_zero _ 1) (encCJ_of_fields hq) fun n5 =>
  reads_row hc (multipleOf_append_zero _ 1) (encCB_of_fields hq) fun n6 =>
  reads_some hc (multipleOf_append_zero _ 1) (encCB_of_fields hq (eq_seven_of_ne _ n0 n1 n2 n3 n4 n5 n6))

theorem reads_decodeQ2Jump (hq : cQuad c = 0b10#2) (h3 : cFunct3 c = 0b100#3) : Reads p (.half c) (decodeQ2Jump c) :=
  have row {b : BitVec 1} (h12 : c.extractLsb' 12 1 = b) := encCR_of_fields hq h3 h12
  reads_ite (fun h12 =>
    reads_reserved fun hd =>
    reads_row hc (by simpa [Instr.operandsOk] using hd) (fun h2 => h2 ▸ row h12) fun h2 =>
    reads_some hc (by simpa [Instr.operandsOk] using ⟨hd, h2⟩) (row h12)) fun n12 =>
  have h12 := eq_one_of_ne _ n12
  reads_ite (fun h2 =>
    reads_row hc rfl (fun hd => hd ▸ h2 ▸ row h12) fun hd =>
    reads_some hc (by simpa [Instr.operandsOk] using hd) (h2 ▸ row h12)) fun h2 =>
  reads_reserved fun hd =>
  reads_some hc (by simpa [Instr.operandsOk] using ⟨hd, h2⟩) (row h12)

theorem reads_decodeQ2 (hq : cQuad c = 0b10#2) : Reads p (.half c) (decodeQ2 p c) :=
  reads_ite (fun h3 => reads_reserved fun hn =>
    reads_some hc (by simpa [Instr.operandsOk, and_assoc] using hn) (encCI_of_fields hq h3)) fun n0 =>
  reads_row hc rfl (encMid_of_fields hq) fun n1 =>
  reads_ite (fun h3 => reads_reserved fun hd =>
    have fours : multipleOf (cImmLwsp c) 4 = true := multipleOf_append_zero _ 2
    reads_some hc (by simpa [Instr.operandsOk, fours] using hd) (encLwsp_of_fields hq h3)) fun n2 =>
  reads_ite (fun h3 => reads_byWidth
    (fun hw => reads_some (met_compressed32 hc hw) rfl (encMid_of_fields hq h3))
    fun hw => reads_reserved fun hd =>
      have eights : multipleOf (cImmLdsp c) 8 = true := multipleOf_append_zero _ 3
      reads_some (met_compressed64 hc hw) (by simpa [Instr.operandsOk, eights] using hd) (encLdsp_of_fields hq h3)) fun n3 =>
  reads_ite (fun h3 => reads_decodeQ2Jump hc hq h3) fun n4 =>
  reads_row hc rfl (encMid_of_fields hq) fun n5 =>
  reads_ite (fun h3 => reads_some hc (multipleOf_append_zero _ 2) (encSwsp_of_fields hq h3)) fun n6 =>
  have h7 := eq_seven_of_ne _ n0 n1 n2 n3 n4 n5 n6
  reads_byWidth
    (fun hw => reads_some (met_compressed32 hc hw) rfl (encMid_of_fields hq h7))
    fun hw => reads_some (met_compressed64 hc hw) (multipleOf_append_zero _ 3) (encSdsp_of_fields hq h7)

end

theorem reads_decode16 (p : Params) (c : BitVec 16) : Reads p (.half c) (decode16 p c) :=
  reads_reserved fun hn =>
  have hc : p.extC = true := by simpa using hn
  reads_ite (reads_decodeQ0 hc) fun _ =>
  reads_ite (reads_decodeQ1 hc) fun _ =>
  reads_ite (reads_decodeQ2 hc) fun _ =>
  reads_none

end Sys2Proof.Laws

namespace Sys2Proof.Proofs

open Sys2Proof.Laws

/-- Settles O56: row by row of the decoding tables, the bits of the instruction are its fields put together (`reads_decode32`,
`reads_decode16`). -/
theorem decodeUnambiguous : Obligations.DecodeUnambiguous := fun p => ⟨reads_decode32 p, reads_decode16 p⟩

end Sys2Proof.Proofs
end

section
/-! SUPPORT. The bytes of an encoding are its parcels, low byte first, and the decoder reads a well-formed instruction back from them
(R86, R110). -/

namespace Sys2Proof.Laws

/-- The parcel of two bytes, lowest address first. -/
theorem parcel_of_bytes (c : BitVec 16) : c.extractLsb' 8 8 ++ c.extractLsb' 0 8 = c :=
  (append_neighbours rfl).trans BitVec.extractLsb'_eq_self

theorem lowParcel_of_bytes (w : BitVec 32) : w.extractLsb' 8 8 ++ w.extractLsb' 0 8 = w.extractLsb' 0 16 :=
  append_neighbours rfl

theorem word_of_bytes (w : BitVec 32) :
    w.extractLsb' 24 8 ++ w.extractLsb' 16 8 ++ w.extractLsb' 8 8 ++ w.extractLsb' 0 8 = w := by
  simp (disch := omega) only [append_neighbours, BitVec.extractLsb'_eq_self]

section
variable {p : Params}

theorem decodeBytes_badLength {b0 b1 : Byte} (rest : List Byte) (hl : lengthOf p (b1 ++ b0) = none) :
    decodeBytes p (b0 :: b1 :: rest) = .badLength (b1 ++ b0) := by
  simp only [decodeBytes, hl]

theorem decodeBytes_half {lo hi : Byte} (rest : List Byte) (hl : lengthOf p (hi ++ lo) = some 2) :
    decodeBytes p (lo :: hi :: rest) =
      (decode16 p (hi ++ lo)).elim (.unimplemented ((hi ++ lo).setWidth 32)) (.instr · rest) := by
  simp only [decodeBytes, hl]
  cases decode16 p (hi ++ lo) <;> rfl

theorem decodeBytes_word {b0 b1 b2 b3 : Byte} (rest : List Byte) (hl : lengthOf p (b1 ++ b0) = some 4) :
    decodeBytes p (b0 :: b1 :: b2 :: b3 :: rest) =
      (decode32 p (b3 ++ b2 ++ b1 ++ b0)).elim (.unimplemented (b3 ++ b2 ++ b1 ++ b0)) (.instr · rest) := by
  simp only [decodeBytes, hl]
  cases decode32 p (b3 ++ b2 ++ b1 ++ b0) <;> rfl

theorem decodeBytes_halfBytes {c : BitVec 16} {i : Instr} (rest : List Byte) (hl : lengthOf p c = some 2)
    (hd : decode16 p c = some i) : decodeBytes p ((Encoded.half c).bytes ++ rest) = .instr i rest := by
  rw [← parcel_of_bytes c] at hl hd
  exact (decodeBytes_half rest hl).trans (by rw [hd]; rfl)

theorem decodeBytes_wordBytes {w : BitVec 32} {i : Instr} (rest : List Byte) (hl : lengthOf p (w.extractLsb' 0 16) = some 4)
    (hd : decode32 p w = some i) : decodeBytes p ((Encoded.word w).bytes ++ rest) = .instr i rest := by
  rw [← lowParcel_of_bytes] at hl
  refine (decodeBytes_word rest hl).trans ?_
  rw [word_of_bytes, hd]
  rfl

end

/-- Every instruction: one arm per constructor. -/
theorem roundTrip (i : Instr) : RoundTrip.Statement i :=
  match i with
  | .lui .. => RoundTrip.lui _ _
  | .auipc .. => RoundTrip.auipc _ _
  | .addi .. => RoundTrip.addi _ _ _
  | .slti .. => RoundTrip.slti _ _ _
  | .sltiu .. => RoundTrip.sltiu _ _ _
  | .xori .. => RoundTrip.xori _ _ _
  | .ori .. => RoundTrip.ori _ _ _
  | .andi .. => RoundTrip.andi _ _ _
  | .slli .. => RoundTrip.slli _ _ _
  | .srli .. => RoundTrip.srli _ _ _
  | .srai .. => RoundTrip.srai _ _ _
  | .add .. => RoundTrip.add _ _ _
  | .sub .. => RoundTrip.sub _ _ _
  | .sll .. => RoundTrip.sll _ _ _
  | .slt .. => RoundTrip.slt _ _ _
  | .sltu .. => RoundTrip.sltu _ _ _
  | .xor .. => RoundTrip.xor _ _ _
  | .srl .. => RoundTrip.srl _ _ _
  | .sra .. => RoundTrip.sra _ _ _
  | .or .. => RoundTrip.or _ _ _
  | .and .. => RoundTrip.and _ _ _
  | .addiw .. => RoundTrip.addiw _ _ _
  | .slliw .. => RoundTrip.slliw _ _ _
  | .srliw .. => RoundTrip.srliw _ _ _
  | .sraiw .. => RoundTrip.sraiw _ _ _
  | .addw .. => RoundTrip.addw _ _ _
  | .subw .. => RoundTrip.subw _ _ _
  | .sllw .. => RoundTrip.sllw _ _ _
  | .srlw .. => RoundTrip.srlw _ _ _
  | .sraw .. => RoundTrip.sraw _ _ _
  | .jal .. => RoundTrip.jal _ _
  | .jalr .. => RoundTrip.jalr _ _ _
  | .beq .. => RoundTrip.beq _ _ _
  | .bne .. => RoundTrip.bne _ _ _
  | .blt .. => RoundTrip.blt _ _ _
  | .bge .. => RoundTrip.bge _ _ _
  | .bltu .. => RoundTrip.bltu _ _ _
  | .bgeu .. => RoundTrip.bgeu _ _ _
  | .lb .. => RoundTrip.lb _ _ _
  | .lh .. => RoundTrip.lh _ _ _
  | .lw .. => RoundTrip.lw _ _ _
  | .ld .. => RoundTrip.ld _ _ _
  | .lbu .. => RoundTrip.lbu _ _ _
  | .lhu .. => RoundTrip.lhu _ _ _
  | .lwu .. => RoundTrip.lwu _ _ _
  | .sb .. => RoundTrip.sb _ _ _
  | .sh .. => RoundTrip.sh _ _ _
  | .sw .. => RoundTrip.sw _ _ _
  | .sd .. => RoundTrip.sd _ _ _
  | .lrW .. => RoundTrip.lrW _ _ _ _
  | .scW .. => RoundTrip.scW _ _ _ _ _
  | .amoswapW .. => RoundTrip.amoswapW _ _ _ _ _
  | .amoaddW .. => RoundTrip.amoaddW _ _ _ _ _
  | .amoxorW .. => RoundTrip.amoxorW _ _ _ _ _
  | .amoandW .. => RoundTrip.amoandW _ _ _ _ _
  | .amoorW .. => RoundTrip.amoorW _ _ _ _ _
  | .amominW .. => RoundTrip.amominW _ _ _ _ _
  | .amomaxW .. => RoundTrip.amomaxW _ _ _ _ _
  | .amominuW .. => RoundTrip.amominuW _ _ _ _ _
  | .amomaxuW .. => RoundTrip.amomaxuW _ _ _ _ _
  | .lrD .. => RoundTrip.lrD _ _ _ _
  | .scD .. => RoundTrip.scD _ _ _ _ _
  | .amoswapD .. => RoundTrip.amoswapD _ _ _ _ _
  | .amoaddD .. => RoundTrip.amoaddD _ _ _ _ _
  | .amoxorD .. => RoundTrip.amoxorD _ _ _ _ _
  | .amoandD .. => RoundTrip.amoandD _ _ _ _ _
  | .amoorD .. => RoundTrip.amoorD _ _ _ _ _
  | .amominD .. => RoundTrip.amominD _ _ _ _ _
  | .amomaxD .. => RoundTrip.amomaxD _ _ _ _ _
  | .amominuD .. => RoundTrip.amominuD _ _ _ _ _
  | .amomaxuD .. => RoundTrip.amomaxuD _ _ _ _ _
  | .fence .. => RoundTrip.fence _ _ _ _ _
  | .ecall => RoundTrip.ecall
  | .ebreak => RoundTrip.ebreak
  | .fenceI .. => RoundTrip.fenceI _ _ _
  | .mulDiv .. => RoundTrip.mulDiv _ _ _ _
  | .mulDivW .. => RoundTrip.mulDivW _ _ _ _
  | .csrrw .. => RoundTrip.csrrw _ _ _
  | .csrrs .. => RoundTrip.csrrs _ _ _
  | .csrrc .. => RoundTrip.csrrc _ _ _
  | .csrrwi .. => RoundTrip.csrrwi _ _ _
  | .csrrsi .. => RoundTrip.csrrsi _ _ _
  | .csrrci .. => RoundTrip.csrrci _ _ _
  | .systemFunct3_4 .. => RoundTrip.systemFunct3_4 _ _ _
  | .uret => RoundTrip.uret
  | .sret => RoundTrip.sret
  | .mret => RoundTrip.mret
  | .wfi => RoundTrip.wfi
  | .sfenceVma .. => RoundTrip.sfenceVma _ _
  | .loadFp .. => RoundTrip.loadFp _
  | .storeFp .. => RoundTrip.storeFp _
  | .fmadd .. => RoundTrip.fmadd _
  | .fmsub .. => RoundTrip.fmsub _
  | .fnmsub .. => RoundTrip.fnmsub _
  | .fnmadd .. => RoundTrip.fnmadd _
  | .opFp .. => RoundTrip.opFp _
  | .cAddi4spn .. => RoundTrip.cAddi4spn _ _
  | .cLw .. => RoundTrip.cLw _ _ _
  | .cLd .. => RoundTrip.cLd _ _ _
  | .cSw .. => RoundTrip.cSw _ _ _
  | .cSd .. => RoundTrip.cSd _ _ _
  | .cNop => RoundTrip.cNop
  | .cAddi .. => RoundTrip.cAddi _ _
  | .cJal .. => RoundTrip.cJal _
  | .cAddiw .. => RoundTrip.cAddiw _ _
  | .cLi .. => RoundTrip.cLi _ _
  | .cAddi16sp .. => RoundTrip.cAddi16sp _
  | .cLui .. => RoundTrip.cLui _ _
  | .cSrli .. => RoundTrip.cSrli _ _
  | .cSrai .. => RoundTrip.cSrai _ _
  | .cAndi .. => RoundTrip.cAndi _ _
  | .cSub .. => RoundTrip.cSub _ _
  | .cXor .. => RoundTrip.cXor _ _
  | .cOr .. => RoundTrip.cOr _ _
  | .cAnd .. => RoundTrip.cAnd _ _
  | .cSubw .. => RoundTrip.cSubw _ _
  | .cAddw .. => RoundTrip.cAddw _ _
  | .cJ .. => RoundTrip.cJ _
  | .cBeqz .. => RoundTrip.cBeqz _ _
  | .cBnez .. => RoundTrip.cBnez _ _
  | .cSlli .. => RoundTrip.cSlli _ _
  | .cLwsp .. => RoundTrip.cLwsp _ _
  | .cLdsp .. => RoundTrip.cLdsp _ _
  | .cJr .. => RoundTrip.cJr _
  | .cMv .. => RoundTrip.cMv _ _
  | .cEbreak => RoundTrip.cEbreak
  | .cJalr .. => RoundTrip.cJalr _
  | .cAdd .. => RoundTrip.cAdd _ _
  | .cSwsp .. => RoundTrip.cSwsp _ _
  | .cSdsp .. => RoundTrip.cSdsp _ _
  | .cFld .. => RoundTrip.cFld _
  | .cFsd .. => RoundTrip.cFsd _
  | .cFldsp .. => RoundTrip.cFldsp _
  | .cFsdsp .. => RoundTrip.cFsdsp _
  | .cFlw .. => RoundTrip.cFlw _
  | .cFsw .. => RoundTrip.cFsw _
  | .cFlwsp .. => RoundTrip.cFlwsp _
  | .cFswsp .. => RoundTrip.cFswsp _
  | .cReserved00_4 .. => RoundTrip.cReserved00_4 _
  | .cIllegal => RoundTrip.cIllegal

end Sys2Proof.Laws

namespace Sys2Proof.Proofs

open Sys2Proof.Laws

/-- Settles O55: the bytes of the encoding are its parcels, and the decoder reads the instruction back from those (`roundTrip`). -/
theorem decodeEncode : Obligations.DecodeEncode := by
  intro p i rest hw
  have h := roundTrip i p hw
  cases e : encode i with
  | half c =>
    rw [e] at h
    obtain ⟨hl, hd⟩ := h
    exact decodeBytes_halfBytes rest hl hd
  | word w =>
    rw [e] at h
    obtain ⟨hl, hd⟩ := h
    exact decodeBytes_wordBytes rest hl hd

end Sys2Proof.Proofs
end

section
/-! SUPPORT. What the fetch answers for the bytes at the pc is what the decoder reads from them (R110, R163). -/

namespace Sys2Proof.Laws

open Sys2Proof.Machine

theorem lengthOf_cases (p : Params) (c : BitVec 16) : lengthOf p c = none ∨ lengthOf p c = some 2 ∨ lengthOf p c = some 4 := by
  unfold lengthOf
  split_ifs <;> simp

theorem lengthOf_none {p : Params} {c : BitVec 16} (h : lengthOf p c = none) :
    (c.extractLsb' 0 2 ≠ 0b11#2 ∧ p.extC = false) ∨ c.extractLsb' 0 5 = 0b11111#5 := by
  unfold lengthOf at h
  split_ifs at h with hq hc hl
  · exact .inl ⟨hq, by simpa using hc⟩
  · rw [not_ne_iff] at hq
    rw [← append_neighbours (m := 3) (k := 2) rfl, hq, hl]
    exact .inr rfl

/-- The two parcels of a word. -/
theorem append_parcels (b0 b1 b2 b3 : Byte) : (b3 ++ b2 : BitVec 16) ++ (b1 ++ b0 : BitVec 16) = b3 ++ b2 ++ b1 ++ b0 :=
  BitVec.append_assoc.symm

theorem execSegmentHolds_of_le {s : State} {a m n : Nat} (h : s.execSegmentHolds a n = true) (hm : m ≤ n) :
    s.execSegmentHolds a m = true := by
  rw [execSegmentHolds_iff] at *
  omega

/-- What the fetch answers where the bytes at the pc decode to `d` (R163); bytes that end inside an instruction do not say. -/
def decodedFetch (s : State) : Decoded → Option (Effect Instr)
  | .instr i _ => some (.pure i s)
  | .badLength c => some (.trapped .unimplementedInstructionLength c.toNat s)
  | .unimplemented bits => some (.trapped .unimplementedInstruction bits.toNat s)
  | .truncated => none

section
variable {s : State} {b0 b1 b2 b3 : Byte} {rest : List Byte}

theorem firstParcel_of_holdsCode (h : s.holdsCode (b0 :: b1 :: rest) = true) :
    s.pc.toNat % s.params.ialign = 0 ∧ s.execSegmentHolds s.pc.toNat 2 = true ∧
      fetchParcel (wrap s.w s.pc).toNat s = some (b1 ++ b0) := by
  obtain ⟨ha, hs, -⟩ := holdsCode_iff.mp h
  rw [toNat_wrap_pc]
  exact ⟨ha, execSegmentHolds_of_le hs (by simp), fetchParcel_of_holdsCode (k := 0) h rfl rfl rfl⟩

theorem fetch_badLength (h : s.holdsCode (b0 :: b1 :: rest) = true) (hl : lengthOf s.params (b1 ++ b0) = none) :
    fetch s = .trapped .unimplementedInstructionLength (b1 ++ b0).toNat s := by
  obtain ⟨ha, hs, hp⟩ := firstParcel_of_holdsCode h
  simp [fetch, ha, hs, hp, hl]

theorem fetch_half (h : s.holdsCode (b0 :: b1 :: rest) = true) (hl : lengthOf s.params (b1 ++ b0) = some 2) :
    fetch s = decodedHalf (b1 ++ b0) s := by
  obtain ⟨ha, hs, hp⟩ := firstParcel_of_holdsCode h
  simp [fetch, ha, hs, hp, hl]

theorem fetch_word (h : s.holdsCode (b0 :: b1 :: b2 :: b3 :: rest) = true) (hl : lengthOf s.params (b1 ++ b0) = some 4) :
    fetch s = decodedWord (b3 ++ b2 ++ b1 ++ b0) s := by
  obtain ⟨ha, hs, hp⟩ := firstParcel_of_holdsCode h
  have h4 := execSegmentHolds_of_le (holdsCode_iff.mp h).2.1 (m := 4) (by simp)
  have hq : fetchParcel (wrap s.w (s.pc + 2#64)).toNat s = some (b3 ++ b2) :=
    (congrArg (fetchParcel · s) (toNat_wrap_add s s.pc 2)).trans (fetchParcel_of_holdsCode (k := 2) h rfl rfl rfl)
  rw [← append_parcels]
  simp [fetch, ha, hs, h4, hp, hl, hq]

end

/-- The fetch of the two bytes of a halfword. -/
theorem fetch_halfBytes {s : State} {c : BitVec 16} (h : s.holdsCode [c.extractLsb' 0 8, c.extractLsb' 8 8] = true)
    (hl : lengthOf s.params c = some 2) : fetch s = decodedHalf c s := by
  rw [← parcel_of_bytes c] at hl
  exact (fetch_half h hl).trans (congrArg (decodedHalf · s) (parcel_of_bytes c))

/-- At an instruction boundary a fetch that answers an instruction makes the step its execution. -/
theorem step_of_fetch {s : State} {i : Instr} (h : s.atInstruction = true) (e : fetch s = .pure i s) : step s = exec i s := by
  rw [step_atInstruction h, cpuStep, e]
  rfl

/-- The fetch answers what the decoder reads from the bytes at the pc. -/
theorem fetch_of_decodeBytes {s : State} {bs : List Byte} {e : Effect Instr} (h : s.holdsCode bs = true)
    (hd : decodedFetch s (decodeBytes s.params bs) = some e) : fetch s = e := by
  match bs, h, hd with
  | b0 :: b1 :: rest, h, hd =>
    obtain hl | hl | hl := lengthOf_cases s.params (b1 ++ b0)
    · rw [decodeBytes_badLength rest hl] at hd
      exact (fetch_badLength h hl).trans (Option.some.inj hd)
    · rw [decodeBytes_half rest hl] at hd
      rw [fetch_half h hl, decodedHalf]
      cases he : decode16 s.params (b1 ++ b0) with
      | some i =>
        rw [he] at hd
        exact Option.some.inj hd
      | none =>
        rw [he] at hd
        rw [← Option.some.inj hd, BitVec.toNat_setWidth_of_le (by decide)]
    · match rest, h, hd with
      | b2 :: b3 :: rest, h, hd =>
        rw [decodeBytes_word rest hl] at hd
        rw [fetch_word h hl, decodedWord]
        cases he : decode32 s.params (b3 ++ b2 ++ b1 ++ b0) <;>
          (rw [he] at hd; exact Option.some.inj hd)
      | [], _, hd | [_], _, hd =>
        simp [decodeBytes, hl, decodedFetch] at hd

/-- Bytes whose first parcel announces no length. -/
theorem lengthOf_of_badLength {p : Params} {bs : List Byte} {c : BitVec 16} (h : decodeBytes p bs = .badLength c) :
    lengthOf p c = none := by
  match bs, h with
  | b0 :: b1 :: rest, h =>
    obtain hl | hl | hl := lengthOf_cases p (b1 ++ b0)
    · rw [decodeBytes_badLength rest hl] at h
      cases h
      exact hl
    · rw [decodeBytes_half rest hl] at h
      cases he : decode16 p (b1 ++ b0) <;> (rw [he] at h; cases h)
    · match rest, h with
      | b2 :: b3 :: rest, h =>
        rw [decodeBytes_word rest hl] at h
        cases he : decode32 p (b3 ++ b2 ++ b1 ++ b0) <;> (rw [he] at h; cases h)
      | [], h | [_], h => simp [decodeBytes, hl] at h

end Sys2Proof.Laws

namespace Sys2Proof.Proofs

open Sys2Proof.Machine Sys2Proof.Laws

/-- Settles O41: the fetch answers the fault that the decoder names (`fetch_of_decodeBytes`), and a fetch that faults ends the step. -/
theorem undecodableFaults : Obligations.UndecodableFaults := by
  intro s bs hat hcode
  refine ⟨fun bits hd => ?_, fun parcel hd => ⟨?_, ?_⟩⟩
  · exact stepFaults_of_fetch s.draws hat (fetch_of_decodeBytes hcode (by rw [hd]; rfl))
  · exact stepFaults_of_fetch s.draws hat (fetch_of_decodeBytes hcode (by rw [hd]; rfl))
  · exact lengthOf_none (lengthOf_of_badLength hd)

end Sys2Proof.Proofs
end

section
/-! SUPPORT. The compressed encodings that have no instruction, or one this block does not execute (R121, R321). -/

namespace Sys2Proof.Laws

open Sys2Proof.Machine

/-- `o` answers no instruction, or one that this block does not execute. -/
def NotExecuted (o : Option Instr) : Prop := ∀ i, o = some i → ∀ s, exec i s = unimplemented i s

theorem notExecuted_none {o : Option Instr} (h : o = none) : NotExecuted o := by
  rw [h]
  nofun

theorem notExecuted_some {o : Option Instr} {i : Instr} (h : o = some i) (he : ∀ s, exec i s = unimplemented i s) :
    NotExecuted o := by
  rw [h]
  rintro j e
  cases e
  exact he

/-- A field inside a zero field is zero. -/
theorem subfield_zero {n a b k m : Nat} {v : BitVec n} (h : v.extractLsb' a k = 0#k) (hb : a ≤ b) (hm : b + m ≤ a + k) :
    v.extractLsb' b m = 0#m := by
  apply BitVec.eq_of_getLsbD_eq
  intro i hi
  have hz := congrArg (·.getLsbD (b - a + i)) h
  simp only [BitVec.getLsbD_extractLsb', BitVec.getLsbD_zero, show b - a + i < k by omega,
    show a + (b - a + i) = b + i by omega] at hz
  simpa [hi] using hz

theorem cImm6_eq_zero {c : BitVec 16} : cImm6 c = 0#6 ↔ c.extractLsb' 12 1 = 0#1 ∧ c.extractLsb' 2 5 = 0#5 := by
  unfold cImm6
  generalize c.extractLsb' 12 1 = a, c.extractLsb' 2 5 = b
  revert a b
  decide

/-- On RV32 a shift amount with `c[12] = 1` does not fit. -/
theorem shamtFits_cImm6 {p : Params} {c : BitVec 16} (hw : p.w = .w4) (h : c.extractLsb' 12 1 = 1#1) :
    shamtFits p (cImm6 c) = false := by
  have : 32 ≤ (cImm6 c).toNat := by
    rw [cImm6, h, BitVec.toNat_append]
    exact Nat.left_le_or
  simp [shamtFits, hw, this]

theorem cImmSpn_eq_zero {c : BitVec 16} (h : c.extractLsb' 5 8 = 0#8) : cImmSpn c = 0#10 := by
  simp (disch := omega) only [cImmSpn, subfield_zero h]
  rfl

theorem cImm16sp_eq_zero {c : BitVec 16} (h : cImm6 c = 0#6) : cImm16sp c = 0#10 := by
  obtain ⟨h12, h2⟩ := cImm6_eq_zero.mp h
  simp (disch := omega) only [cImm16sp, h12, subfield_zero h2]
  rfl

/-- The fields of C.SUBW, C.ADDW and the reserved rows beside them. -/
theorem ones_of_funct6 {c : BitVec 16} (h : c.extractLsb' 10 3 = 7#3) : c.extractLsb' 12 1 = 1#1 ∧ c.extractLsb' 10 2 = 3#2 := by
  rw [← append_neighbours (b := 12) (m := 1) (k := 2) rfl] at h
  revert h
  generalize c.extractLsb' 12 1 = a, c.extractLsb' 10 2 = b
  revert a b
  decide

theorem funct2_of_high {c : BitVec 16} (h : c.extractLsb' 6 1 = 1#1) : c.extractLsb' 5 2 ≠ 0#2 ∧ c.extractLsb' 5 2 ≠ 1#2 := by
  rw [← append_neighbours (b := 6) (m := 1) (k := 1) rfl, h]
  generalize c.extractLsb' 5 1 = b
  revert b
  decide

theorem quadrant_cases : ∀ q : BitVec 2, q = 0 ∨ q = 1 ∨ q = 2 ∨ q = 3 := by decide

section
variable {p : Params} {c : BitVec 16}

theorem notExecuted_decodeQ0 (h : (cFunct3 c = 0 ∧ c.extractLsb' 5 8 = 0) ∨ (cFunct3 c = 1 ∨ cFunct3 c = 4 ∨ cFunct3 c = 5) ∨
    (cFunct3 c = 3 ∨ cFunct3 c = 7) ∧ p.w = .w4) : NotExecuted (decodeQ0 p c) := by
  by_cases h0 : c = 0#16
  · exact notExecuted_some (i := .cIllegal) (by simp [decodeQ0, h0]) fun _ => rfl
  obtain ⟨h3, hz⟩ | h3 | ⟨h3, hw⟩ := h
  · exact notExecuted_none (by simp [decodeQ0, h0, h3, cImmSpn_eq_zero hz])
  · obtain h3 | h3 | h3 := h3
    · exact notExecuted_some (i := .cFld (cMid c)) (by simp [decodeQ0, h0, h3]) fun _ => rfl
    · exact notExecuted_some (i := .cReserved00_4 (cMid c)) (by simp [decodeQ0, h0, h3]) fun _ => rfl
    · exact notExecuted_some (i := .cFsd (cMid c)) (by simp [decodeQ0, h0, h3]) fun _ => rfl
  · obtain h3 | h3 := h3
    · exact notExecuted_some (i := .cFlw (cMid c)) (by simp [decodeQ0, h0, h3, hw]) fun _ => rfl
    · exact notExecuted_some (i := .cFsw (cMid c)) (by simp [decodeQ0, h0, h3, hw]) fun _ => rfl

theorem decodeQ1Arith_none (h : ((c.extractLsb' 10 2 = 0 ∨ c.extractLsb' 10 2 = 1) ∧
      (cImm6 c = 0 ∨ (p.w = .w4 ∧ c.extractLsb' 12 1 = 1))) ∨
    (c.extractLsb' 10 3 = 7 ∧ (p.w = .w4 ∨ c.extractLsb' 6 1 = 1))) : decodeQ1Arith p c = none := by
  obtain ⟨hs, hi⟩ | ⟨h7, h⟩ := h
  · have hn := or_iff_not_imp_left.mp (hi.imp_right fun ⟨hw, h12⟩ => shamtFits_cImm6 hw h12)
    obtain hs | hs := hs <;> simpa [decodeQ1Arith, hs] using hn
  · obtain ⟨h12, hs⟩ := ones_of_funct6 h7
    obtain hw | h6 := h
    · simp [decodeQ1Arith, hs, h12, hw]
    · simp [decodeQ1Arith, hs, h12, funct2_of_high h6]

theorem decodeQ1_none (h : (cFunct3 c = 0 ∧ c ≠ 1 ∧ (cRd c = 0 ∨ cImm6 c = 0)) ∨ (cFunct3 c = 1 ∧ p.w = .w8 ∧ cRd c = 0) ∨
    (cFunct3 c = 2 ∧ cRd c = 0) ∨ (cFunct3 c = 3 ∧ (cRd c = 0 ∨ cImm6 c = 0)) ∨
    (cFunct3 c = 4 ∧ (c.extractLsb' 10 2 = 0 ∨ c.extractLsb' 10 2 = 1) ∧
      (cImm6 c = 0 ∨ (p.w = .w4 ∧ c.extractLsb' 12 1 = 1))) ∨
    (cFunct3 c = 4 ∧ c.extractLsb' 10 3 = 7 ∧ (p.w = .w4 ∨ c.extractLsb' 6 1 = 1))) : decodeQ1 p c = none := by
  by_cases h1 : c = 1#16
  · subst h1
    simp [cFunct3] at h
  obtain ⟨h3, -, h⟩ | ⟨h3, hw, hd⟩ | ⟨h3, hd⟩ | ⟨h3, h⟩ | ⟨h3, h⟩ | ⟨h3, h⟩ := h
  · simpa [decodeQ1, h1, h3, or_iff_not_imp_left] using h
  · simp [decodeQ1, h1, h3, hw, hd]
  · simp [decodeQ1, h1, h3, hd]
  · obtain hd | hi := h
    · simp [decodeQ1, h1, h3, hd]
    · simp [decodeQ1, h1, h3, hi, cImm16sp_eq_zero hi]
  · simpa [decodeQ1, h1, h3] using decodeQ1Arith_none (.inl h)
  · simpa [decodeQ1, h1, h3] using decodeQ1Arith_none (.inr h)

theorem notExecuted_decodeQ2 (h : (cFunct3 c = 0 ∧ (cRd c = 0 ∨ cImm6 c = 0 ∨ (p.w = .w4 ∧ c.extractLsb' 12 1 = 1))) ∨
      (cFunct3 c = 1 ∨ cFunct3 c = 5) ∨ (cFunct3 c = 2 ∧ cRd c = 0) ∨ (cFunct3 c = 3 ∧ (p.w = .w4 ∨ cRd c = 0)) ∨
      (cFunct3 c = 4 ∧ cRd c = 0 ∧ (cRs2 c ≠ 0 ∨ c.extractLsb' 12 1 = 0)) ∨ (cFunct3 c = 7 ∧ p.w = .w4)) :
    NotExecuted (decodeQ2 p c) := by
  obtain ⟨h3, h⟩ | h3 | ⟨h3, hd⟩ | ⟨h3, h⟩ | ⟨h3, hd, h⟩ | ⟨h3, hw⟩ := h
  · obtain hd | hi | ⟨hw, h12⟩ := h
    · exact notExecuted_none (by simp [decodeQ2, h3, hd])
    · exact notExecuted_none (by simp [decodeQ2, h3, hi])
    · exact notExecuted_none (by simp [decodeQ2, h3, shamtFits_cImm6 hw h12])
  · obtain h3 | h3 := h3
    · exact notExecuted_some (i := .cFldsp (cMid c)) (by simp [decodeQ2, h3]) fun _ => rfl
    · exact notExecuted_some (i := .cFsdsp (cMid c)) (by simp [decodeQ2, h3]) fun _ => rfl
  · exact notExecuted_none (by simp [decodeQ2, h3, hd])
  · by_cases hw : p.w = .w4
    · exact notExecuted_some (i := .cFlwsp (cMid c)) (by simp [decodeQ2, h3, hw]) fun _ => rfl
    · exact notExecuted_none (by simp [decodeQ2, h3, hw, h.resolve_left hw])
  · obtain h2 | h12 := h
    · exact notExecuted_none (by simpa [decodeQ2, decodeQ2Jump, h3, hd] using fun _ => h2)
    · exact notExecuted_none (by simp [decodeQ2, decodeQ2Jump, h3, hd, h12])
  · exact notExecuted_some (i := .cFswsp (cMid c)) (by simp [decodeQ2, h3, hw]) fun _ => rfl

theorem cQuad_of_reservedHalf (h : reservedHalf p c = true) : cQuad c ≠ 3#2 := by
  intro hq
  change c.extractLsb' 0 2 = 3#2 at hq
  simp [reservedHalf, hq] at h

/-- The fault of a halfword without an instruction. -/
theorem faults_unimplementedHalf {i : Instr} {s : State} (hx : s.params.extC = true) (e : exec i s = unimplemented i s)
    (he : encode i = .half c) : Faults i .unimplementedInstruction c.toNat s :=
  faults_of (e.trans (by rw [unimplemented, he]; exact if_pos hx))

/-- The rows of the map that `reservedHalf` lists are those that decode to nothing or to an instruction that is not executed. -/
theorem notExecuted_decode16 (hc : p.extC = true) (h : reservedHalf p c = true) : NotExecuted (decode16 p c) := by
  obtain hq | hq | hq | hq := quadrant_cases (c.extractLsb' 0 2)
  · have e : decode16 p c = decodeQ0 p c := by simp [decode16, hc, cQuad, hq]
    exact e ▸ notExecuted_decodeQ0 (by simpa [reservedHalf, cFunct3, hq, or_assoc, and_assoc] using h)
  · have e : decode16 p c = decodeQ1 p c := by simp [decode16, hc, cQuad, hq]
    exact notExecuted_none (e.trans (decodeQ1_none
      (by simpa [reservedHalf, cFunct3, cRd, cImm6, hq, or_assoc, and_assoc] using h)))
  · have e : decode16 p c = decodeQ2 p c := by simp [decode16, hc, cQuad, hq]
    exact e ▸ notExecuted_decodeQ2 (by simpa [reservedHalf, cFunct3, cRd, cRs2, cImm6, hq, or_assoc, and_assoc] using h)
  · exact absurd hq (cQuad_of_reservedHalf h)

end

end Sys2Proof.Laws

namespace Sys2Proof.Proofs

open Sys2Proof.Machine Sys2Proof.Laws

/-- Settles O33: a reserved halfword decodes to nothing, and then the fetch faults, or to an instruction that is not executed
(`notExecuted_decode16`), whose bits are the halfword (`reads_decode16`). -/
theorem reservedHalvesFault : Obligations.ReservedHalvesFault := by
  intro s c hat hc hcode hr
  have hl := lengthOf_half s.params c (cQuad_of_reservedHalf hr) hc
  have hf := fetch_halfBytes hcode hl
  cases hd : decode16 s.params c with
  | none => exact stepFaults_of_fetch s.draws hat (by rw [hf, decodedHalf, hd])
  | some i =>
    have hi := (reads_decode16 s.params c i hd).1
    obtain ⟨t, et, ht⟩ := faults_unimplementedHalf hc (notExecuted_decode16 hc hr i hd s) hi
    exact ⟨t, (step_of_fetch hat (by rw [hf, decodedHalf, hd])).trans et, ht⟩

end Sys2Proof.Proofs
end

section
/-! SUPPORT. A step between runs and in an active run on what the external writers left (R438), and what a call that changes the CPU alone
leaves of the Machine (R421, R460). -/

namespace Sys2Proof.Laws

open Sys2Proof.Machine

/-! ### A boundary (R438) -/

theorem sameFixed_atBoundary (s : State) : s.SameFixed (atBoundary s) :=
  ⟨atBoundary_params s, atBoundary_execBase s, atBoundary_execLen s, atBoundary_startAddress s, atBoundary_stackAddress s,
    atBoundary_exitAddress s⟩

theorem sameControl_atBoundary (s : State) : s.SameControl (atBoundary s) :=
  ⟨sameFixed_atBoundary s, atBoundary_stopped s, atBoundary_status s, atBoundary_handlers s, atBoundary_pageFaultCallback s,
    atBoundary_pageWriteCallback s, atBoundary_scripts s, atBoundary_run s, atBoundary_hostCalls s, atBoundary_hostResult s⟩

/-- Of the bytes only those of externally written pages change (`get_redrawPages_ne`), and nothing else does. -/
theorem externalWrites_atBoundary (s : State) : ExternalWrites s (atBoundary s) :=
  ⟨get_redrawPages_ne s.pages s, atBoundary_pages s, atBoundary_regs s, atBoundary_pc s, atBoundary_counter s, atBoundary_resv s,
    sameControl_atBoundary s⟩

/-! ### In an active run -/

/-- After the checks of the loop, a fetch that answers an instruction makes the step its execution (R160, R167). -/
theorem step_of_fetch_atBoundary {s : State} {r : Run} {i : Instr} (hr : s.run = some r) (hs : s.stopped = false)
    (hb : budgetSpent r s = false) (hp : s.pc ≠ s.exitAddress) (e : fetch (atBoundary s) = .pure i (atBoundary s)) :
    step s = exec i (atBoundary s) := by
  have hc : step s = cpuStep (atBoundary s) := by
    simp [step_run hr, runTurn, hs, budgetSpent_atBoundary, hb, hp]
  rw [hc, cpuStep, e]
  rfl

/-- The fetch answers the instruction the bytes at the pc decode to. -/
theorem fetch_of_decodesTo {s : State} {bs rest : List Byte} {i : Instr} (h : s.holdsCode bs = true)
    (hd : decodeBytes s.params bs = .instr i rest) : fetch s = .pure i s :=
  fetch_of_decodeBytes h (by rw [hd]; rfl)

/-! ### Between runs -/

/-- Between runs a step is the host's next call, on what the external writers left (R438, R455). -/
theorem step_hostCall {s : State} {op : HostOp} {rest : List HostOp} (hr : s.run = none) (hq : s.hostCalls = op :: rest) :
    step s = hostCall op (atCall s rest) := by
  simp [step, turn, hr, hostTurn, hq, atCall]

/-- What the reset of the CPU and the start of a run leave of the Machine: its memory as the boundary left it, the fixed fields, the
handlers and the callbacks; the call is taken off (R421, R438, R460). -/
structure MachineKept (s t : State) (rest : List HostOp) : Prop where
  memory : (atBoundary s).SameMemory t
  fixed : s.SameFixed t
  handlers : t.handlers = s.handlers
  pageFaultCallback : t.pageFaultCallback = s.pageFaultCallback
  pageWriteCallback : t.pageWriteCallback = s.pageWriteCallback
  hostCalls : t.hostCalls = rest

/-- A call that changes none of these fields leaves the Machine. -/
theorem machineKept_of {s t : State} {rest : List HostOp} (hpages : t.pages = (atBoundary s).pages := by rfl)
    (hmem : t.mem = (atBoundary s).mem := by rfl) (hhost : t.hostMem = (atBoundary s).hostMem := by rfl)
    (hfixed : (atBoundary s).SameFixed t := by exact ⟨rfl, rfl, rfl, rfl, rfl, rfl⟩)
    (hh : t.handlers = (atBoundary s).handlers := by rfl)
    (hf : t.pageFaultCallback = (atBoundary s).pageFaultCallback := by rfl)
    (hw : t.pageWriteCallback = (atBoundary s).pageWriteCallback := by rfl) (hq : t.hostCalls = rest := by rfl) :
    MachineKept s t rest :=
  ⟨sameMemory_of hpages hmem hhost, sameFixed_trans (sameFixed_atBoundary s) hfixed, hh.trans (atBoundary_handlers s),
    hf.trans (atBoundary_pageFaultCallback s), hw.trans (atBoundary_pageWriteCallback s), hq⟩

/-! ### Inside a callback -/

/-- A callback's script ends with the refusal of its first operation. -/
theorem runScript_refused {p : PagePaths} {op : HostOp} {s : State} {r : Refusal} (acts : List HostOp)
    (h : hostAct p op s = .refused r) : runScript p (op :: acts) s = .refused r := by
  rw [runScript, h]
  rfl

/-- A `vmcall` of a known address that runs is refused once its call is set up (R171, R443). -/
theorem hostAct_vmcall_running (p : PagePaths) (a : Word) {args : List Word} (n : Nat) (s : State) (h : args.length ≤ 8) :
    hostAct p (.vmcall (some a) args true n) s = .refused .reentrantSimulate := by
  have h8 : ¬8 < args.length := not_lt.mpr h
  simp [hostAct, vmcallSetup, setupCall, h8, Effect.bind, Effect.orWrote]

end Sys2Proof.Laws

namespace Sys2Proof.Proofs

open Sys2Proof.Machine Sys2Proof.Laws

/-- Settles O45: `reset()` sets the CPU (`x_resetCpu`) and leaves the rest of the Machine (`machineKept_of`); in a callback it is the
first refusal of the script (`runScript_refused`), as a run is. -/
theorem resetState : Obligations.ResetState := by
  refine ⟨fun s rest hr hq => ?_, fun p acts s n a args => ⟨runScript_refused acts rfl, runScript_refused acts rfl, fun h =>
    runScript_refused acts (hostAct_vmcall_running p a n s h)⟩⟩
  have kept : MachineKept s { resetCpu (atCall s rest) with hostResult := .ok } rest := machineKept_of
  have hstack : ((resetCpu (atCall s rest)).x 2).toNat = s.mod s.stackAddress.toNat := by
    rw [x_resetCpu, if_pos rfl, toNat_wrap_atCall, atCall, atBoundary_stackAddress]
  have hstart : (resetCpu (atCall s rest)).pc.toNat = s.mod s.startAddress.toNat := by
    rw [resetCpu, toNat_wrap_atCall, atCall, atBoundary_startAddress]
  exact ⟨_, step_hostCall hr hq, fun r h2 => (x_resetCpu _ r).trans (if_neg h2), hstack, hstart, rfl, rfl, rfl, rfl, kept.memory,
    kept.fixed, kept.handlers, kept.pageFaultCallback, kept.pageWriteCallback, kept.hostCalls⟩

/-- Settles O47: `simulate` between runs is `enterSimulate` on the boundary's state, which sets the status, the stop flag and the run
and leaves the rest of the Machine (`machineKept_of`). -/
theorem simulateStarts : Obligations.SimulateStarts := by
  intro s max rest hr hq
  have kept : MachineKept s (enterSimulate max (atCall s rest)) rest := machineKept_of
  have hrun : (enterSimulate max (atCall s rest)).run = some ⟨s.counter, max⟩ :=
    congrArg (fun c => some (Run.mk c max)) (atBoundary_counter s)
  exact ⟨_, step_hostCall hr hq, rfl, rfl, hrun, x_atCall (rest := rest), atBoundary_pc s, atBoundary_counter s, atBoundary_resv s,
    kept.memory, kept.fixed, kept.handlers, kept.hostCalls⟩

/-- Settles O39: the fetch answers what the bytes at the pc decode to (`fetch_of_decodesTo`), in the state the external writers left
(`externalWrites_atBoundary`), which is the same state where there are none. -/
theorem stepRunsDecoded : Obligations.StepRunsDecoded := by
  intro s
  refine ⟨fun bs rest i hd => ⟨fun hat hcode => ?_, fun r hr hs hb hp hcode => ?_⟩, externalWrites_atBoundary s,
    atBoundary_internal⟩
  · exact step_of_fetch hat (fetch_of_decodesTo hcode hd)
  · rw [← atBoundary_params s] at hd
    exact step_of_fetch_atBoundary hr hs hb hp (fetch_of_decodesTo hcode hd)

end Sys2Proof.Proofs
end

section
/-! SUPPORT. The values of the integer computations as numbers modulo `2^XLEN`: what the operations of Machine/Operands.lean,
Machine/Flags.lean and Machine/Integer.lean give, in the readings of Safety.lean (R8, R190 to R220). -/

namespace Sys2Proof.Laws

open Sys2Proof.Machine

variable (s : State)

/-! ### Words and the integers they stand for -/

/-- A word writes the integer `V` where it is `V` modulo `2^XLEN`. -/
theorem toNat_wrap_eq_mod_iff {v : Word} {V : Int} :
    (wrap s.w v).toNat = s.mod V ↔ (v.toNat : Int) ≡ V [ZMOD (2 ^ s.w.xlen : Nat)] := by
  have h0 : ((2 ^ s.w.xlen : Nat) : Int) ≠ 0 := by positivity
  rw [toNat_wrap_mod rfl, State.mod, State.mod, Int.ModEq, ← Int.toNat_of_nonneg (Int.emod_nonneg (v.toNat : Int) h0),
    ← Int.toNat_of_nonneg (Int.emod_nonneg V h0)]
  exact Int.ofNat_inj.symm

/-- A number modulo `2^64` is the same number modulo `2^XLEN`. -/
theorem emod_container_modEq (V : Int) : V % (2 ^ 64 : Nat) ≡ V [ZMOD (2 ^ s.w.xlen : Nat)] :=
  Int.emod_emod_of_dvd V (Int.natCast_dvd_natCast.mpr (xlen_dvd _))

theorem toNat_add_modEq (a b : Word) : ((a + b).toNat : Int) ≡ a.toNat + b.toNat [ZMOD (2 ^ s.w.xlen : Nat)] := by
  rw [BitVec.toNat_add]
  exact_mod_cast emod_container_modEq s (a.toNat + b.toNat)

theorem toNat_sub_modEq (a b : Word) : ((a - b).toNat : Int) ≡ a.toNat - b.toNat [ZMOD (2 ^ s.w.xlen : Nat)] := by
  have h : ((a - b).toNat : Int) = ((a.toNat : Int) - b.toNat) % (2 ^ 64 : Nat) := by
    rw [BitVec.toNat_sub]
    omega
  rw [h]
  exact emod_container_modEq s _

/-! ### Immediates (R112) -/

/-- The word of an immediate is the immediate modulo `2^XLEN`. -/
theorem toNat_immWord {n : Nat} (h : n ≤ 64) (imm : BitVec n) : (immWord s.w imm).toNat = s.mod imm.toInt :=
  (toNat_wrap_toInt s _).trans (congrArg s.mod (BitVec.toInt_signExtend_of_le h))

theorem toNat_wrap_immWord {n : Nat} (h : n ≤ 64) (imm : BitVec n) : (wrap s.w (immWord s.w imm)).toNat = s.mod imm.toInt := by
  rw [immWord, wrap_wrap]
  exact toNat_immWord s h imm

/-- A word plus an immediate: the immediate counts as a signed number (R193, R192). -/
theorem toNat_wrap_add_immWord {n : Nat} (h : n ≤ 64) (v : Word) (imm : BitVec n) :
    (wrap s.w (v + immWord s.w imm)).toNat = s.mod (v.toNat + imm.toInt) :=
  (toNat_wrap_eq_mod_iff s).mpr ((toNat_add_modEq s v _).trans
    (((toNat_wrap_eq_mod_iff s).mp (toNat_wrap_immWord s h imm)).add_left _))

theorem toInt_append_upper (imm : BitVec 20) : (imm ++ 0#12).toInt = imm.toInt * 4096 :=
  BitVec.toInt_append_zero.trans (mul_comm _ _)

/-! ### Sums, differences, bits -/

theorem toNat_wrap_addWords (a b : Word) : (wrap s.w (a + b)).toNat = s.mod (a.toNat + b.toNat) :=
  (toNat_wrap_eq_mod_iff s).mpr (toNat_add_modEq s a b)

theorem toNat_wrap_subWords (a b : Word) : (wrap s.w (a - b)).toNat = s.mod (a.toNat - b.toNat) :=
  (toNat_wrap_eq_mod_iff s).mpr (toNat_sub_modEq s a b)

theorem toNat_wrap_xor (a b : Word) : (wrap s.w (a ^^^ b)).toNat = s.mod (a.toNat ^^^ b.toNat : Nat) := toNat_wrap_mod rfl _

theorem toNat_wrap_or (a b : Word) : (wrap s.w (a ||| b)).toNat = s.mod (a.toNat ||| b.toNat : Nat) := toNat_wrap_mod rfl _

theorem toNat_wrap_and (a b : Word) : (wrap s.w (a &&& b)).toNat = s.mod (a.toNat &&& b.toNat : Nat) := toNat_wrap_mod rfl _

/-! ### Comparisons (R194, R195, R205, R206) -/

theorem toInt_sxl (w : Width) (v : Word) : (sxl w v).toInt = signedOf w.xlen v.toNat := by
  cases w with
  | w4 => exact toInt_sext .b4 v
  | w8 => exact toInt_sext .b8 v

/-- The signed reading of a number modulo `2^XLEN` is that of the number. -/
theorem signedOf_mod (V : Int) : signedOf s.w.xlen (s.mod V) = signedOf s.w.xlen V := by
  rw [State.mod, Int.toNat_of_nonneg (Int.emod_nonneg V (by positivity)), signedOf, Int.emod_bmod, signedOf]

/-- An immediate of at most 32 bits is an `XLEN`-bit signed value. -/
theorem toInt_sxl_immWord {n : Nat} (h : n ≤ 32) (imm : BitVec n) : (sxl s.w (immWord s.w imm)).toInt = imm.toInt := by
  have hx : (imm.signExtend s.w.xlen).toInt = imm.toInt := BitVec.toInt_signExtend_of_le (h.trans (xlen_le _))
  rw [toInt_sxl, toNat_immWord s (by omega), signedOf_mod, ← hx]
  exact BitVec.toInt_bmod_cancel _

theorem toNat_wrap_boolWord (p : Prop) [Decidable p] : (wrap s.w (boolWord (decide p))).toNat = s.mod (oneIf p) := by
  rw [toNat_wrap_mod rfl]
  by_cases h : p <;> simp [boolWord, oneIf, h]

theorem lessSigned_eq {w : Width} (a b : Word) : lessSigned w a b = decide ((sxl w a).toInt < (sxl w b).toInt) :=
  BitVec.slt_eq_decide

theorem lessUnsigned_eq {a b : Word} (ha : canonical s.w a) (hb : canonical s.w b) :
    lessUnsigned s.w a b = decide (a.toNat < b.toNat) := by
  rw [lessUnsigned, ha, hb]
  rfl

/-! ### Shifts -/

theorem toNat_wrap_shiftLeft (v : Word) (sh : Nat) : (wrap s.w (shiftLeft v sh)).toNat = s.mod (v.toNat * 2 ^ sh : Nat) := by
  rw [toNat_wrap_eq_mod_iff, shiftLeft, BitVec.toNat_shiftLeft, Nat.shiftLeft_eq]
  exact_mod_cast emod_container_modEq s (v.toNat * 2 ^ sh)

theorem toNat_wrap_shiftRight (v : Word) (sh : Nat) : (wrap s.w (shiftRight v sh)).toNat = s.mod (v.toNat / 2 ^ sh : Nat) := by
  rw [toNat_wrap_mod rfl, shiftRight, BitVec.toNat_ushiftRight, Nat.shiftRight_eq_div_pow]

theorem toInt_sshiftRight_div {n : Nat} (v : BitVec n) (sh : Nat) : (v.sshiftRight sh).toInt = v.toInt / 2 ^ sh := by
  rw [BitVec.toInt_sshiftRight, Int.shiftRight_eq_div_pow]
  norm_cast

theorem toNat_wrap_shiftRightArith (v : Word) (sh : Nat) :
    (wrap s.w (shiftRightArith s.w v sh)).toNat = s.mod (signedOf s.w.xlen v.toNat / 2 ^ sh) := by
  rw [toNat_wrap_toInt, shiftRightArith, toInt_sshiftRight_div, toInt_sxl]

/-! ### The word forms (R190) -/

theorem toInt_low32 (v : Word) : (low32 v).toInt = signedOf 32 v.toNat := BitVec.toInt_setWidth v

theorem toNat_low32 (v : Word) : (low32 v).toNat = v.toNat % 2 ^ 32 := BitVec.toNat_setWidth 32 v

theorem toNat_wrap_sext32 (v : BitVec 32) : (wrap s.w (sext32 v)).toNat = s.mod v.toInt :=
  (toNat_wrap_toInt s _).trans (congrArg s.mod (BitVec.toInt_signExtend_of_le (by decide)))

/-- A word that is `V` modulo `2^XLEN` has the signed low half of `V`. -/
theorem toNat_wrap_sext32_low32 {v : Word} {V : Int} (h : (wrap s.w v).toNat = s.mod V) :
    (wrap s.w (sext32 (low32 v))).toNat = s.mod (signedOf 32 V) := by
  have hd : ((2 ^ 32 : Nat) : Int) ∣ (2 ^ s.w.xlen : Nat) := Int.natCast_dvd_natCast.mpr (pow_dvd_pow 2 (xlen_le _))
  have hV : (v.toNat : Int) % (2 ^ 32 : Nat) = V % (2 ^ 32 : Nat) := ((toNat_wrap_eq_mod_iff s).mp h).of_dvd hd
  rw [toNat_wrap_sext32, toInt_low32, signedOf, ← Int.emod_bmod, hV, Int.emod_bmod, signedOf]

theorem toNat_wrap_sext32_shiftLeft (v : Word) (sh : Nat) :
    (wrap s.w (sext32 (low32 v <<< sh))).toNat = s.mod (signedOf 32 (v.toNat % 2 ^ 32 * 2 ^ sh : Nat)) := by
  rw [toNat_wrap_sext32, BitVec.toInt_shiftLeft, toNat_low32, Nat.shiftLeft_eq]
  rfl

theorem toNat_wrap_sext32_shiftRight (v : Word) (sh : Nat) :
    (wrap s.w (sext32 (low32 v >>> sh))).toNat = s.mod (signedOf 32 (v.toNat % 2 ^ 32 / 2 ^ sh : Nat)) := by
  rw [toNat_wrap_sext32, BitVec.toInt_eq_toNat_bmod, BitVec.toNat_ushiftRight, toNat_low32, Nat.shiftRight_eq_div_pow]
  rfl

theorem toNat_wrap_sext32_sshiftRight (v : Word) (sh : Nat) :
    (wrap s.w (sext32 ((low32 v).sshiftRight sh))).toNat = s.mod (signedOf 32 v.toNat / 2 ^ sh) := by
  rw [toNat_wrap_sext32, toInt_sshiftRight_div, toInt_low32]

/-! ### Rows that run and rows that do not decode -/

variable {s : State}

/-- The shift amounts that decode are those below `XLEN` (R116). -/
theorem shamtFits_iff {p : Params} {shamt : BitVec 6} : shamtFits p shamt = true ↔ shamt.toNat < p.w.xlen := by
  have := shamt.isLt
  cases h : p.w
  · simp [shamtFits, h, Width.xlen, Width.bytes]
  · simpa [shamtFits, h, Width.xlen, Width.bytes] using this

/-- An instruction of 32 bits that the machine has and that writes back `v` runs from its word with the value that `v` stands for. -/
theorem runsWord_writeBack {i : Instr} {w : BitVec 32} {rd : Reg} {v : Word} {V : Int} (hi : i.wf s.params = true)
    (e : exec i s = writeBack 4 rd v s) (hc : s.counter ≠ counterMax) (hv : (wrap s.w v).toNat = s.mod V)
    (hw : encode i = .word w := by rfl) : RunsWord w i rd V s := by
  have h := roundTrip i s.params hi
  rw [hw] at h
  exact ⟨h.2, completes_writeBack (by decide) hc e hv⟩

/-- An immediate shift by `XLEN` or more does not decode (R116). -/
theorem decode32_shift_none {p : Params} {shamt : BitVec 6} (h : p.w.xlen ≤ shamt.toNat) (f6 : BitVec 6) (rs1 rd : Reg)
    {f3 : BitVec 3} (h3 : f3 = 0b001 ∨ f3 = 0b101) : decode32 p (encShift f6 shamt rs1 f3 rd 0b0010011) = none := by
  have hs : shamtFits p shamt = false := Bool.eq_false_iff.mpr fun hf => absurd (shamtFits_iff.mp hf) (not_lt.mpr h)
  rcases h3 with rfl | rfl <;> simp [decode32, decodeOpImm, encShift_fields, hs]

/-- On RV32 no word with the opcode OP-IMM-32 or OP-32 decodes (R114). -/
theorem decode32_wordForm_none {p : Params} {w : BitVec 32} (h : p.w = .w4) (hop : fOpcode w = 0b0011011 ∨ fOpcode w = 0b0111011) :
    decode32 p w = none := by
  rcases hop with hop | hop <;> simp [decode32, decodeOpImm32, decodeOp32, hop, h]

/-- SLLIW with `inst[25] = 1` does not decode (R116). -/
theorem decode32_slliw_none (p : Params) (sh : BitVec 5) (rs1 rd : Reg) :
    decode32 p (encR 0b0000001 sh rs1 0b001 rd 0b0011011) = none := by
  simp [decode32, decodeOpImm32, encR_fields]

end Sys2Proof.Laws

namespace Sys2Proof.Proofs

open Sys2Proof.Machine Sys2Proof.Laws

/-- Settles O1: the immediate is `imm20` followed by 12 zeros (`toInt_append_upper`), alone or added to the pc. -/
theorem upperImmediateResults : Obligations.UpperImmediateResults := by
  intro s rd imm hc
  rw [← toInt_append_upper imm]
  exact ⟨runsWord_writeBack rfl rfl hc (toNat_wrap_immWord s (by decide) _),
    runsWord_writeBack rfl rfl hc (toNat_wrap_add_immWord s (by decide) s.pc _)⟩

/-- Settles O2: a sum modulo `2^XLEN` (`toNat_wrap_add_immWord`), two comparisons whose operands are read as their type says, and three
bitwise operations on the word of the immediate, which is the immediate modulo `2^XLEN` (`toNat_immWord`). -/
theorem registerImmediateResults : Obligations.RegisterImmediateResults := by
  intro s rd rs1 imm hc
  have himm : (immWord s.w imm).toNat = s.mod imm.toInt := toNat_immWord s (by decide) imm
  have hslt : lessSigned s.w (s.x rs1) (immWord s.w imm) = decide (s.sx rs1 < imm.toInt) := by
    rw [lessSigned_eq, toInt_sxl, toInt_sxl_immWord s (by decide)]; rfl
  have hsltu : lessUnsigned s.w (s.x rs1) (immWord s.w imm) = decide (s.ux rs1 < (immWord s.w imm).toNat) :=
    lessUnsigned_eq s (canonical_x s rs1) (canonical_wrap _ _)
  rw [← himm]
  exact ⟨runsWord_writeBack rfl rfl hc (toNat_wrap_add_immWord s (by decide) _ _),
    runsWord_writeBack rfl rfl hc (hslt ▸ toNat_wrap_boolWord s _),
    runsWord_writeBack rfl rfl hc (hsltu ▸ toNat_wrap_boolWord s _),
    runsWord_writeBack rfl rfl hc (toNat_wrap_xor s _ _),
    runsWord_writeBack rfl rfl hc (toNat_wrap_or s _ _),
    runsWord_writeBack rfl rfl hc (toNat_wrap_and s _ _)⟩

/-- Settles O3: the amounts below `XLEN` are those that decode (`shamtFits_iff`, `decode32_shift_none`); the shifts are a product and
two quotients by a power of two. -/
theorem immediateShiftResults : Obligations.ImmediateShiftResults := by
  intro s rd rs1 shamt hc
  refine ⟨fun h => ?_, fun h => ?_⟩
  · have hi : shamtFits s.params shamt = true := shamtFits_iff.mpr h
    exact ⟨runsWord_writeBack hi (guarded_wf _ hi) hc (toNat_wrap_shiftLeft s _ _),
      runsWord_writeBack hi (guarded_wf _ hi) hc (toNat_wrap_shiftRight s _ _),
      runsWord_writeBack hi (guarded_wf _ hi) hc (toNat_wrap_shiftRightArith s _ _)⟩
  · exact ⟨decode32_shift_none h _ _ _ (.inl rfl), decode32_shift_none h _ _ _ (.inr rfl), decode32_shift_none h _ _ _ (.inr rfl)⟩

/-- Settles O4: as the immediate forms, on the words of two registers; a shift amount is the low bits of the second. -/
theorem registerRegisterResults : Obligations.RegisterRegisterResults := by
  intro s rd rs1 rs2 hc
  have hslt : lessSigned s.w (s.x rs1) (s.x rs2) = decide (s.sx rs1 < s.sx rs2) := by
    rw [lessSigned_eq, toInt_sxl, toInt_sxl]; rfl
  have hsltu : lessUnsigned s.w (s.x rs1) (s.x rs2) = decide (s.ux rs1 < s.ux rs2) :=
    lessUnsigned_eq s (canonical_x s rs1) (canonical_x s rs2)
  exact ⟨runsWord_writeBack rfl rfl hc (toNat_wrap_addWords s _ _),
    runsWord_writeBack rfl rfl hc (toNat_wrap_subWords s _ _),
    runsWord_writeBack rfl rfl hc (toNat_wrap_shiftLeft s _ _),
    runsWord_writeBack rfl rfl hc (hslt ▸ toNat_wrap_boolWord s _),
    runsWord_writeBack rfl rfl hc (hsltu ▸ toNat_wrap_boolWord s _),
    runsWord_writeBack rfl rfl hc (toNat_wrap_xor s _ _),
    runsWord_writeBack rfl rfl hc (toNat_wrap_shiftRight s _ _),
    runsWord_writeBack rfl rfl hc (toNat_wrap_shiftRightArith s _ _),
    runsWord_writeBack rfl rfl hc (toNat_wrap_or s _ _),
    runsWord_writeBack rfl rfl hc (toNat_wrap_and s _ _)⟩

/-- Settles O5: the low 32 bits of the result, sign-extended (`toNat_wrap_sext32_low32` and the shifts of the low half); on RV32 the
opcode does not decode. -/
theorem wordImmediateResults : Obligations.WordImmediateResults := by
  intro s rd rs1 imm sh hc
  refine ⟨fun h => ?_, decode32_slliw_none _ _ _ _, fun h => ?_⟩
  · have hi : (Needs.met s.params .rv64 && true) = true := (Bool.and_true _).trans (met_rv64 h)
    exact ⟨runsWord_writeBack hi (guarded_wf _ hi) hc (toNat_wrap_sext32_low32 s (toNat_wrap_add_immWord s (by decide) _ _)),
      runsWord_writeBack hi (guarded_wf _ hi) hc (toNat_wrap_sext32_shiftLeft s _ _),
      runsWord_writeBack hi (guarded_wf _ hi) hc (toNat_wrap_sext32_shiftRight s _ _),
      runsWord_writeBack hi (guarded_wf _ hi) hc (toNat_wrap_sext32_sshiftRight s _ _)⟩
  · have hR (f7 : BitVec 7) (f3 : BitVec 3) : decode32 s.params (encR f7 sh rs1 f3 rd 0b0011011) = none :=
      decode32_wordForm_none h (.inl (encR_fields ..).1)
    exact ⟨decode32_wordForm_none h (.inl (encI_fields imm rs1 0b000 rd _).1), hR _ _, hR _ _, hR _ _⟩

/-- Settles O6: as the word forms with an immediate, on two registers; the shift amount is the low 5 bits of the second. -/
theorem wordRegisterResults : Obligations.WordRegisterResults := by
  intro s rd rs1 rs2 hc
  refine ⟨fun h => ?_, fun h => ?_⟩
  · have hi : (Needs.met s.params .rv64 && true) = true := (Bool.and_true _).trans (met_rv64 h)
    exact ⟨runsWord_writeBack hi (guarded_wf _ hi) hc (toNat_wrap_sext32_low32 s (toNat_wrap_addWords s _ _)),
      runsWord_writeBack hi (guarded_wf _ hi) hc (toNat_wrap_sext32_low32 s (toNat_wrap_subWords s _ _)),
      runsWord_writeBack hi (guarded_wf _ hi) hc (toNat_wrap_sext32_shiftLeft s _ _),
      runsWord_writeBack hi (guarded_wf _ hi) hc (toNat_wrap_sext32_shiftRight s _ _),
      runsWord_writeBack hi (guarded_wf _ hi) hc (toNat_wrap_sext32_sshiftRight s _ _)⟩
  · have hR (f7 : BitVec 7) (f3 : BitVec 3) : decode32 s.params (encR f7 rs2 rs1 f3 rd 0b0111011) = none :=
      decode32_wordForm_none h (.inr (encR_fields ..).1)
    exact ⟨hR _ _, hR _ _, hR _ _, hR _ _, hR _ _⟩

/-- Settles O57: the words are closed, so the decoder is evaluated on each. -/
theorem specWordsDecode : Obligations.SpecWordsDecode := by
  unfold Obligations.SpecWordsDecode
  decide

end Sys2Proof.Proofs
end

section
/-! SUPPORT. Jumps and branches (R240 to R248): the target, the link and the condition as numbers, for the shared operations of
Machine/Control.lean with any instruction length. -/

namespace Sys2Proof.Laws

open Sys2Proof.Machine

variable {s : State}

/-! ### Decoding -/

/-- The word that encodes an instruction the machine has decodes to it. -/
theorem decode32_of_encode {p : Params} {i : Instr} {w : BitVec 32} (hi : i.wf p = true) (hw : encode i = .word w := by rfl) :
    decode32 p w = some i := by
  have h := roundTrip i p hi
  rw [hw] at h
  exact h.2

/-- The opcode of JALR has the one `funct3` 0 (R242). -/
theorem decode32_jalr_none (p : Params) (imm : BitVec 12) (rs1 rd : Reg) {f : BitVec 3} (hf : f ≠ 0) :
    decode32 p (encI imm rs1 f rd 0b1100111) = none := by
  simpa [decode32, encI_fields] using hf

/-! ### Conditions -/

theorem equalWords_iff {a b : Word} (ha : canonical s.w a) (hb : canonical s.w b) :
    equalWords s.w a b = true ↔ a.toNat = b.toNat := by
  rw [equalWords, ha, hb, beq_iff_eq, BitVec.toNat_inj]

theorem lessSigned_iff (r q : Reg) : lessSigned s.w (s.x r) (s.x q) = true ↔ s.sx r < s.sx q := by
  rw [lessSigned_eq, toInt_sxl, toInt_sxl, decide_eq_true_iff]
  rfl

theorem lessUnsigned_iff {a b : Word} (ha : canonical s.w a) (hb : canonical s.w b) :
    lessUnsigned s.w a b = true ↔ a.toNat < b.toNat := by
  rw [lessUnsigned_eq s ha hb, decide_eq_true_iff]

theorem not_eq_true_iff_of {c : Bool} {P : Prop} (h : c = true ↔ P) : (!c) = true ↔ ¬P := by
  rw [Bool.not_eq_true', ← Bool.not_eq_true, h]

/-! ### Targets and links -/

/-- The sum `x[rs1] + imm` counts the immediate as a signed number, modulo `2^XLEN` (R242, R260). -/
theorem toNat_ea {n : Nat} (hn : n ≤ 64) (r : Reg) (imm : BitVec n) : (s.ea r imm).toNat = s.mod (s.ux r + imm.toInt) :=
  (toNat_wrap_eq_mod_iff s).mpr ((toNat_add_modEq s _ _).trans
    (((toNat_wrap_eq_mod_iff s).mp (toNat_immWord s hn imm)).add_left _))

theorem toNat_wrap_pcNext {len : Nat} (hl : len < 2 ^ 32) : (wrap s.w (s.pcNext len)).toNat = s.mod (s.pc.toNat + len) := by
  rw [State.pcNext, wrap_wrap]
  exact toNat_pcNext s len hl

/-- An odd sum is refused, before the link is written (R242, D32). -/
theorem jumpRegister_eq {n : Nat} (hn : n ≤ 64) (len : Nat) (rd rs1 : Reg) (imm : BitVec n) :
    jumpRegister len rd rs1 imm s =
      if s.mod (s.ux rs1 + imm.toInt) % 2 = 1 then .refused .jalrOddTarget
      else jumpTo len (s.ea rs1 imm) (s.setReg rd (s.pcNext len)) := by
  rw [jumpRegister, ← toNat_ea hn, BitVec.getLsbD, Nat.testBit_zero]
  simp only [decide_eq_true_iff]

/-! ### Completion -/

section

variable {i : Instr} {n len : Nat} (hn : n ≤ 64) (hl : len < 2 ^ 32) (hc : s.counter ≠ counterMax)
include hn hl hc

theorem completes_jumpRelative {rd : Reg} {o : BitVec n} (e : exec i s = jumpRelative len rd o s) :
    Completes i (s.pc.toNat + o.toInt) rd (s.pc.toNat + len) s :=
  completes_jumpTo hc e (toNat_wrap_pcNext hl) (toNat_wrap_add_immWord s hn _ _)

/-- A jump to an even sum; the target stands before the link is written, so `rd` may be `rs1`. -/
theorem completes_jumpRegister {rd rs1 : Reg} {imm : BitVec n} (he : s.mod (s.ux rs1 + imm.toInt) % 2 = 0)
    (e : exec i s = jumpRegister len rd rs1 imm s) : Completes i (s.ux rs1 + imm.toInt) rd (s.pc.toNat + len) s := by
  rw [jumpRegister_eq hn, if_neg (by omega)] at e
  refine completes_jumpTo hc e (toNat_wrap_pcNext hl) ?_
  rw [canonical_ea]
  exact toNat_ea hn rs1 imm

/-- A branch whose condition is `P`; it writes no register, which is a write of x0. -/
theorem completes_branchIf {c : Bool} {P : Prop} [Decidable P] {o : BitVec n} (hP : c = true ↔ P)
    (e : exec i s = branchIf len c o s) : Completes i (s.pc.toNat + if P then o.toInt else len) 0 0 s := by
  rw [branchIf] at e
  by_cases h : P
  · rw [if_pos (hP.mpr h), ← setReg_zero s 0] at e
    rw [if_pos h]
    exact completes_jumpTo hc e (toNat_wrap_mod rfl 0) (toNat_wrap_add_immWord s hn _ _)
  · rw [if_neg (mt hP.mp h)] at e
    rw [if_neg h]
    exact completes_retire hl hc e

end

end Sys2Proof.Laws

namespace Sys2Proof.Proofs

open Sys2Proof.Machine Sys2Proof.Laws

/-- Settles O7: an even offset has an encoding, and the jump reads its pc before it links. -/
theorem jumpAndLinkResult : Obligations.JumpAndLinkResult := by
  intro s rd o hc ho
  exact ⟨decode32_of_encode (beq_iff_eq.mpr ho), completes_jumpRelative (by decide) (by decide) hc rfl⟩

/-- Settles O8: the sum is the model's `s.ea rs1 imm` (`toNat_ea`), and bit 0 of it decides (`jumpRegister_eq`). -/
theorem jumpRegisterResult : Obligations.JumpRegisterResult := by
  intro s rd rs1 imm hc
  refine ⟨decode32_of_encode rfl, fun f hf => decode32_jalr_none _ _ _ _ hf, fun heven => ?_, fun hodd => ?_⟩
  · exact completes_jumpRegister (by decide) (by decide) hc heven rfl
  · exact (jumpRegister_eq (by decide) 4 rd rs1 imm).trans (if_pos hodd)

/-- Settles O9: three comparisons and their negations, each branch with its encoding (`decode32_of_encode`) and its two ends
(`completes_branchIf`). -/
theorem branchResults : Obligations.BranchResults := by
  intro s rs1 rs2 o hc ho
  have heven : multipleOf o 2 = true := beq_iff_eq.mpr ho
  have heq : equalWords s.w (s.x rs1) (s.x rs2) = true ↔ s.ux rs1 = s.ux rs2 := equalWords_iff (canonical_x s _) (canonical_x s _)
  have hlt : lessSigned s.w (s.x rs1) (s.x rs2) = true ↔ s.sx rs1 < s.sx rs2 := lessSigned_iff _ _
  have hltu : lessUnsigned s.w (s.x rs1) (s.x rs2) = true ↔ s.ux rs1 < s.ux rs2 := lessUnsigned_iff (canonical_x s _) (canonical_x s _)
  have branch {i : Instr} {c : Bool} {P : Prop} [Decidable P] (hP : c = true ↔ P) (e : exec i s = branchIf 4 c o s) :
      Completes i (s.pc.toNat + if P then o.toInt else 4) 0 0 s := completes_branchIf (by decide) (by decide) hc hP e
  exact ⟨decode32_of_encode heven, branch heq rfl,
    decode32_of_encode heven, branch (not_eq_true_iff_of heq) rfl,
    decode32_of_encode heven, branch hlt rfl,
    decode32_of_encode heven, branch ((not_eq_true_iff_of hlt).trans not_lt) rfl,
    decode32_of_encode heven, branch hltu rfl,
    decode32_of_encode heven, branch ((not_eq_true_iff_of hltu).trans not_lt) rfl⟩

end Sys2Proof.Proofs
end

section
/-! SUPPORT. Loads and stores as instructions (R260 to R274): the number a load leaves in its register, and where an access that stops
ends its instruction. -/

namespace Sys2Proof.Laws

open Sys2Proof.Machine

variable {s : State}

/-! ### The value of a load (R72, R261 to R267) -/

/-- The bytes of an access fit the container. -/
theorem toNat_ofNat_valueAt (a : Word) (z : Size) : (BitVec.ofNat 64 (s.valueAt a z.bytes)).toNat = s.valueAt a z.bytes := by
  have hlt : s.valueAt a z.bytes < 256 ^ z.bytes := littleEndian_lt _ _
  have hle : 256 ^ z.bytes ≤ 2 ^ 64 := Nat.pow_le_pow_right (n := 256) (by decide) (size_le z)
  rw [BitVec.toNat_ofNat, Nat.mod_eq_of_lt (hlt.trans_le hle)]

theorem extended_signed (z : Size) (v : Nat) : extended z true v = signedOf (8 * z.bytes) v := if_pos rfl

theorem extended_unsigned (z : Size) (v : Nat) : extended z false v = v := if_neg Bool.false_ne_true

/-- The sign of a number of 64 bits is lost modulo `2^XLEN`: LD need not extend (R264). -/
theorem mod_signedOf_container (V : Int) : s.mod (signedOf 64 V) = s.mod V := by
  have hd : ((2 ^ s.w.xlen : Nat) : Int) ∣ (2 ^ 64 : Nat) := Int.natCast_dvd_natCast.mpr (xlen_dvd _)
  rw [State.mod, signedOf, ← Int.emod_emod_of_dvd (Int.bmod V _) hd, Int.bmod_emod, Int.emod_emod_of_dvd V hd, State.mod]

/-- A load of 32 bits that the machine has runs from its word over readable bytes. -/
theorem runsWord_load {i : Instr} {w : BitVec 32} {ea : Word} {z : Size} {sg : Bool} {rd : Reg} {V : Int}
    (h : IsLoad s i 4 ea z sg rd) (hw : i.wf s.params = true) (hc : s.counter ≠ counterMax) (hr : s.canRead ea z = true)
    (hv : s.mod (extended z sg (s.valueAt ea z.bytes)) = s.mod V ) (henc : encode i = .word w := by rfl) : RunsWord w i rd V s := by
  obtain ⟨ha, e⟩ := load_form h hw
  refine ⟨decode32_of_encode hw henc, completes_loadFrom (by decide) hc ha hr e ?_⟩
  rw [toNat_wrap_extended, toNat_ofNat_valueAt, hv]

/-! ### Where an access stops its instruction (R70, R260, R75, R76, R79) -/

theorem misaligned_of_checked {a : Word} {z : Size} (hcheck : s.params.alignCheck = true) (h : a.toNat % z.bytes ≠ 0) :
    misaligned a z s = true := by
  rw [misaligned, hcheck, Bool.true_and, bne_iff_ne]
  exact h

/-- A load ends where its read does, before its register is written. -/
theorem faults_of_isLoad {i : Instr} {len : Nat} {ea : Word} {z : Size} {sg : Bool} {rd : Reg} {tag : Tag} {detail : Nat}
    (h : IsLoad s i len ea z sg rd) (hw : i.wf s.params = true) (e : memRead ea z s = .trapped tag detail s) :
    Faults i tag detail s :=
  faults_of ((load_form h hw).2.trans (by rw [loadFrom, e, bind_trapped, finish_trapped]))

/-- A store ends where its write does; the notes of a straddling write are the model's own. -/
theorem faults_of_isStore {i : Instr} {len : Nat} {ea : Word} {z : Size} {v : Word} {tag : Tag} {detail : Nat}
    {u : List (Place × Byte)} (h : IsStore s i len ea z v) (hw : i.wf s.params = true)
    (e : memWrite ea z v s = .trapped tag detail { s with undo := u }) : Faults i tag detail s :=
  faults_finish ((store_form h hw).2.trans (congrArg (finish len) e))

/-- A write inside one page that may be written is refused where it meets a constant execute segment (R79). -/
theorem memWrite_constant {a : Word} {z : Size} {p : Page} (hp : inOnePage a.toNat z.bytes = true) (hn : misaligned a z s = false)
    (hpg : s.pageAt (pageOf a.toNat) = some p) (hw : p.attr.write = true) (hv : p.variant ≠ .sharedRO)
    (hx : s.params.execConstant = true) (hm : s.meetsExecSegment a.toNat z.bytes = true) (v : Word) :
    memWrite a z v s = .refused .storeToConstantExecSegment := by
  have hmeets : (s.params.execConstant && s.meetsExecSegment a.toNat (leBytes z.bytes v).length) = true := by
    rw [length_leBytes, hx, hm, Bool.and_self]
  rw [memWrite, if_neg (by simp [hn]), if_pos hp, writePage_constant storeInPage hpg hw hv hmeets, bind_refused]

end Sys2Proof.Laws

namespace Sys2Proof.Proofs

open Sys2Proof.Machine Sys2Proof.Laws

/-- Settles O10: each row is the load of its size and extension (`runsWord_load`); that of LD has the width of the container. -/
theorem loadResults : Obligations.LoadResults := by
  rintro s rd rs1 imm _ hc rfl
  have needs64 (h : s.w = .w8) : (Needs.met s.params .rv64 && true) = true := (Bool.and_true _).trans (met_rv64 h)
  refine ⟨toNat_ea (by decide) rs1 imm, fun h1 => ⟨?lb, ?lbu⟩, fun h2 => ⟨?lh, ?lhu⟩, fun h4 => ⟨?lw, fun h64 => ?lwu⟩,
    fun h8 h64 => ?ld⟩
  case lb => exact runsWord_load (.lb ..) rfl hc h1 (congrArg s.mod (extended_signed ..))
  case lbu => exact runsWord_load (.lbu ..) rfl hc h1 (congrArg s.mod (extended_unsigned ..))
  case lh => exact runsWord_load (.lh ..) rfl hc h2 (congrArg s.mod (extended_signed ..))
  case lhu => exact runsWord_load (.lhu ..) rfl hc h2 (congrArg s.mod (extended_unsigned ..))
  case lw => exact runsWord_load (.lw ..) rfl hc h4 (congrArg s.mod (extended_signed ..))
  case lwu => exact runsWord_load (.lwu ..) (needs64 h64) hc h4 (congrArg s.mod (extended_unsigned ..))
  case ld => exact runsWord_load (.ld ..) (needs64 h64) hc h8 ((congrArg s.mod (extended_signed ..)).trans (mod_signedOf_container _))

/-- Settles O11: the read stops at its alignment (`memRead_misaligned`) or at its first byte that is not readable
(`memRead_stops`), and the load with it. -/
theorem loadFaults : Obligations.LoadFaults := by
  intro s i len ea z sg rd hi hw
  have ha : canonical s.w ea := (load_form hi hw).1
  refine ⟨fun hcheck hmis => ?_, fun hm k hk hbefore => ⟨fun hpg hf => ?_, fun p hpg hread => ?_⟩⟩
  · exact faults_of_isLoad hi hw (memRead_misaligned (misaligned_of_checked hcheck hmis))
  · exact faults_of_isLoad hi hw (memRead_stops ha hm hk hbefore (.inl ⟨hpg, hf⟩))
  · exact faults_of_isLoad hi hw (memRead_stops ha hm hk hbefore (.inr ⟨p, hpg, hread⟩))

/-- Settles O12: the encoding of each row (`decode32_of_encode`) and the store of its size (`stores_of_isStore`). -/
theorem storeResults : Obligations.StoreResults := by
  rintro s rs1 rs2 imm _ hc rfl
  refine ⟨toNat_ea (by decide) rs1 imm, fun h1 => ?sb, fun h2 => ?sh, fun h4 => ?sw, fun h8 h64 => ?sd⟩
  case sb => exact ⟨decode32_of_encode rfl, stores_of_isStore (.sb ..) rfl hc h1⟩
  case sh => exact ⟨decode32_of_encode rfl, stores_of_isStore (.sh ..) rfl hc h2⟩
  case sw => exact ⟨decode32_of_encode rfl, stores_of_isStore (.sw ..) rfl hc h4⟩
  case sd =>
    have hi : (Needs.met s.params .rv64 && true) = true := (Bool.and_true _).trans (met_rv64 h64)
    exact ⟨decode32_of_encode hi, stores_of_isStore (.sd ..) hi hc h8⟩

/-- Settles O13: the write stops at its alignment (`memWrite_misaligned`), at the page of its first byte (`memWrite_stops`) or at the
constant execute segment (`memWrite_constant`), and the store with it. -/
theorem storeFaults : Obligations.StoreFaults := by
  intro s i len ea z v hi hw
  refine ⟨fun hcheck hmis => ?_, fun hm hpg hf => ?_,
    fun hm p hpg hv => ⟨fun hwrite => ?_, fun hwrite hp hx hmeets => ?_⟩⟩
  · exact faults_of_isStore (u := s.undo) hi hw (memWrite_misaligned (misaligned_of_checked hcheck hmis))
  · obtain ⟨u, e⟩ := memWrite_stops (v := v) hm (.inl ⟨hpg, hf⟩)
    exact faults_of_isStore hi hw e
  · obtain ⟨u, e⟩ := memWrite_stops (v := v) hm (.inr ⟨p, hpg, hwrite, hv⟩)
    exact faults_of_isStore hi hw e
  · have e := memWrite_constant hp hm hpg hwrite hv hx (meetsExec_iff.mpr hmeets) v
    exact (store_form hi hw).2.trans (congrArg (finish len) e)

end Sys2Proof.Proofs
end

section
/-! SUPPORT. What the bodies of the A extension leave: an LR and a failing SC retire with a reservation of their own, a successful SC and
every AMO store (R281, R283, R284, R294); and the operations of the AMOs as numbers modulo `2^(8n)` (R285 to R293, R382 to R390). -/

namespace Sys2Proof.Laws

open Sys2Proof.Machine

/-! ### Numbers modulo `2^(8n)` -/

/-- The container holds at least the bytes of an access. -/
theorem size_pow_dvd (z : Size) : (2 : Int) ^ (8 * z.bytes) ∣ 2 ^ 64 := pow_dvd_pow 2 (Nat.mul_le_mul_left 8 (size_le z))

/-- The signed reading of a number is the number modulo `2^(8n)` (R8). -/
theorem modEq_signedOf (n v : Nat) : (v : Int) ≡ signedOf n v [ZMOD 2 ^ n] := by
  have h : signedOf n v % (2 ^ n : Nat) = v % (2 ^ n : Nat) := Int.bmod_emod
  exact_mod_cast h.symm

theorem zext_eq_self {z : Size} {t : Word} (h : t.toNat < 2 ^ (8 * z.bytes)) : z.zext t = t :=
  BitVec.eq_of_toNat_eq ((toNat_zext z t).trans (Nat.mod_eq_of_lt h))

/-- The signed comparison of the low `8n` bits (R290, R291, R387, R388). -/
theorem slt_sext_iff {z : Size} {t u : Word} :
    (z.sext t).slt (z.sext u) = true ↔ signedOf (8 * z.bytes) t.toNat < signedOf (8 * z.bytes) u.toNat := by
  rw [BitVec.slt_iff_toInt_lt, toInt_sext, toInt_sext]

/-- The low bytes of a word are those of any number it equals modulo `2^(8n)` (R76). -/
theorem byteOf_of_modEq {z : Size} {v : Word} {V : Int} (h : (v.toNat : Int) ≡ V [ZMOD 2 ^ (8 * z.bytes)]) {k : Nat}
    (hk : k < z.bytes) : byteOf v k = BitVec.ofNat 8 ((V % 2 ^ (8 * z.bytes)).toNat / 256 ^ k) := by
  have hV : (V % 2 ^ (8 * z.bytes)).toNat = v.toNat % 256 ^ z.bytes := by
    rw [← h, pow_bytes]
    exact_mod_cast Int.toNat_natCast _
  have hsplit : 256 ^ z.bytes = 256 ^ k * 256 ^ (z.bytes - k) := by rw [← pow_add, Nat.add_sub_cancel' hk.le]
  have hd : 256 ∣ 256 ^ (z.bytes - k) := dvd_pow_self 256 (by omega)
  apply BitVec.eq_of_toNat_eq
  rw [byteOf_eq, hV, hsplit, Nat.mod_mul_right_div_self, BitVec.toNat_ofNat, BitVec.toNat_ofNat]
  exact (Nat.mod_mod_of_dvd _ hd).symm

/-! ### The operations of the AMOs -/

/-- On operands below `2^(8n)` the operation gives a word that is `f` of them modulo `2^(8n)`. -/
def OpGives (z : Size) (op : AmoOp) (f : Nat → Nat → Int) : Prop :=
  ∀ t u : Word, t.toNat < 2 ^ (8 * z.bytes) → u.toNat < 2 ^ (8 * z.bytes) →
    ((op z t u).toNat : Int) ≡ f t.toNat u.toNat [ZMOD 2 ^ (8 * z.bytes)]

section
variable (z : Size)

theorem opGives_amoSwap : OpGives z amoSwap fun _ u => u := fun _ _ _ _ => .rfl

theorem opGives_amoAdd : OpGives z amoAdd fun t u => (t + u : Nat) := fun t u _ _ => by
  rw [amoAdd, BitVec.toNat_add]
  exact Int.emod_emod_of_dvd (t.toNat + u.toNat : Nat) (size_pow_dvd z)

theorem opGives_amoXor : OpGives z amoXor fun t u => (t ^^^ u : Nat) := fun _ _ _ _ => .rfl

theorem opGives_amoAnd : OpGives z amoAnd fun t u => (t &&& u : Nat) := fun _ _ _ _ => .rfl

theorem opGives_amoOr : OpGives z amoOr fun t u => (t ||| u : Nat) := fun _ _ _ _ => .rfl

theorem opGives_minSigned : OpGives z minSigned fun t u =>
    if signedOf (8 * z.bytes) t < signedOf (8 * z.bytes) u then signedOf (8 * z.bytes) t else signedOf (8 * z.bytes) u := by
  intro t u _ _
  simp only [minSigned, slt_sext_iff]
  split <;> exact modEq_signedOf _ _

theorem opGives_maxSigned : OpGives z maxSigned fun t u =>
    if signedOf (8 * z.bytes) t > signedOf (8 * z.bytes) u then signedOf (8 * z.bytes) t else signedOf (8 * z.bytes) u := by
  intro t u _ _
  simp only [maxSigned, slt_sext_iff]
  split <;> exact modEq_signedOf _ _

theorem opGives_minUnsigned : OpGives z minUnsigned fun t u => (if t < u then t else u : Nat) := by
  intro t u ht hu
  simp only [minUnsigned, zext_eq_self ht, zext_eq_self hu, BitVec.ult_iff_lt, BitVec.lt_def]
  split <;> exact .rfl

theorem opGives_maxUnsigned : OpGives z maxUnsigned fun t u => (if t > u then t else u : Nat) := by
  intro t u ht hu
  simp only [maxUnsigned, zext_eq_self ht, zext_eq_self hu, BitVec.ult_iff_lt, BitVec.lt_def]
  split <;> exact .rfl

end

/-! ### The bodies over bytes that may be accessed -/

theorem not_atomicMisaligned {a : Word} {z : Size} (h : a.toNat % z.bytes = 0) : ¬atomicMisaligned a z = true := by
  rw [atomicMisaligned_eq_false h]
  exact Bool.false_ne_true

/-- The write of an SC has ended the reservation before the SC ends it (R79, R284). -/
theorem clearResv_setReg_clearResv (s : State) (r : Reg) (v : Word) :
    (s.clearResv.setReg r v).clearResv = s.clearResv.setReg r v := by
  rw [State.clearResv, setReg_resv]
  unfold State.setReg
  split <;> rfl

section
variable {s : State} {i : Instr} {w : BitVec 32} {rd rs1 rs2 : Reg} {width : Width} {z : Size} {op : AmoOp} {f : Nat → Nat → Int}
  {q : Reservation} {v : Word} {V : Int} (hi : i.wf s.params = true) (hc : s.counter ≠ counterMax)
include hi hc

/-- A write-back that leaves the reservation `q` (R281). -/
theorem retires_withResv (e : exec i s = guarded i s (finish 4 (.pure () { s.setReg rd v with resv := q })))
    (hv : (wrap s.w v).toNat = s.mod V) :
    ∃ t, exec i s = .next t ∧ Retired s t (s.pc.toNat + 4) rd V ∧ t.resv = q ∧ s.SameMemory t ∧ s.SameControl t := by
  rw [guarded_wf _ hi, finish_pure, retire_next _ _ _ (by simpa using hc)] at e
  refine ⟨_, e, ?_, rfl, sameMemory_of ?_ ?_ ?_, ⟨⟨?_, ?_, ?_, ?_, ?_, ?_⟩, ?_, ?_, ?_, ?_, ?_, ?_, ?_, ?_, ?_⟩⟩
  · refine retired_of (u := s.setReg rd v) (by decide) hc (by simp) (by simp [State.pcNext, State.w]) (by simp) rfl (by simp)
      (fun r hr => x_setReg_ne _ _ _ _ hr) fun hr => ?_
    rw [State.ux, x_setReg_self, if_neg (show ¬rd = 0#5 from hr), hv]
  all_goals simp

/-- An LR of readable bytes (R283, R380). -/
theorem retires_loadReserved (ha : (s.x rs1).toNat % (sizeOfWidth width).bytes = 0)
    (hr : s.canRead (s.x rs1) (sizeOfWidth width) = true)
    (e : exec i s = guarded i s (finish 4 (loadReserved width rd rs1 s)) := by rfl) :
    ∃ t, exec i s = .next t ∧
      Retired s t (s.pc.toNat + 4) rd
        (signedOf (8 * (sizeOfWidth width).bytes) (s.valueAt (s.x rs1) (sizeOfWidth width).bytes)) ∧
      t.resv = ⟨true, s.x rs1, width⟩ ∧ s.SameMemory t ∧ s.SameControl t := by
  rw [loadReserved, if_neg (not_atomicMisaligned ha), memRead_readable (canonical_x s rs1) hr, bind_pure] at e
  refine retires_withResv hi hc e ?_
  rw [toNat_wrap_toInt, toInt_sext, toNat_ofNat_valueAt]

/-- An SC that holds its reservation, over storable bytes (R284, R381). -/
theorem stores_storeConditional (ha : (s.x rs1).toNat % (sizeOfWidth width).bytes = 0)
    (hres : s.resv = ⟨true, s.x rs1, width⟩) (hs : s.canStore (s.x rs1) (sizeOfWidth width) = true)
    (e : exec i s = guarded i s (finish 4 (storeConditional width rd rs1 rs2 s)) := by rfl) :
    Stores i 4 (s.x rs1) (sizeOfWidth width).bytes (s.ux rs2) rd 0 s := by
  have hreserved : s.reserved (s.x rs1) width = true := by simp [State.reserved, hres]
  obtain ⟨m, hm, u, hw, -⟩ := memWrite_storable (s.x rs2) (canonical_x s rs1) hs
  have hbody : storeConditional width rd rs1 rs2 s =
      (memWrite (s.x rs1) (sizeOfWidth width) (s.x rs2) s).bind fun _ t => .pure () (t.setReg rd 0) := by
    rw [storeConditional, if_neg (not_atomicMisaligned ha), if_pos hreserved, hw, bind_pure, bind_pure,
      clearResv_setReg_clearResv]
  rw [guarded_wf _ hi, hbody] at e
  exact stores_memWrite (by decide) hc (canonical_x s rs1) hs e (fun k _ => byteOf_eq _ k) (toNat_wrap_mod rfl 0)

/-- An SC without its reservation (R284, R381). -/
theorem retires_storeConditional (ha : (s.x rs1).toNat % (sizeOfWidth width).bytes = 0)
    (hres : ¬(s.resv.valid = true ∧ s.resv.addr = s.x rs1 ∧ s.resv.width = width))
    (e : exec i s = guarded i s (finish 4 (storeConditional width rd rs1 rs2 s)) := by rfl) :
    ∃ t, exec i s = .next t ∧ Retired s t (s.pc.toNat + 4) rd 1 ∧ t.resv = { s.resv with valid := false } ∧
      s.SameMemory t ∧ s.SameControl t := by
  have hreserved : ¬s.reserved (s.x rs1) width = true := by simpa [State.reserved, and_assoc] using hres
  rw [storeConditional, if_neg (not_atomicMisaligned ha), if_neg hreserved, State.clearResv, setReg_resv] at e
  exact retires_withResv hi hc e (toNat_wrap_mod rfl 1)

/-- An AMO over readable and storable bytes (R294). -/
theorem runsAmo (hop : OpGives z op f) (ha : (s.x rs1).toNat % z.bytes = 0) (hr : s.canRead (s.x rs1) z = true)
    (hs : s.canStore (s.x rs1) z = true)
    (e : exec i s = guarded i s (finish 4 (atomicOp op z rd rs1 rs2 s)) := by rfl) (hw : encode i = .word w := by rfl)
    (hV : f (s.valueAt (s.x rs1) z.bytes) (s.ux rs2 % 2 ^ (8 * z.bytes)) = V := by rfl) : RunsAmo w i z rd rs1 V s := by
  have hold := toNat_ofNat_valueAt (s := s) (s.x rs1) z
  have hoperand : (z.zext (s.x rs2)).toNat = s.ux rs2 % 2 ^ (8 * z.bytes) := toNat_zext z _
  have hnew := hop (BitVec.ofNat 64 (s.valueAt (s.x rs1) z.bytes)) (z.zext (s.x rs2))
    (by rw [hold, ← pow_bytes]; exact littleEndian_lt _ _) (by rw [hoperand]; exact Nat.mod_lt _ (by positivity))
  rw [hold, hoperand, hV] at hnew
  rw [guarded_wf _ hi, atomicOp, if_neg (not_atomicMisaligned ha), memRead_readable (canonical_x s rs1) hr,
    bind_pure] at e
  refine ⟨decode32_of_encode hi hw, ?_⟩
  refine stores_memWrite (by decide) hc (canonical_x s rs1) hs e (fun k hk => byteOf_of_modEq hnew hk) ?_
  rw [toNat_wrap_toInt, toInt_sext, hold]

end

end Sys2Proof.Laws

namespace Sys2Proof.Proofs

open Sys2Proof.Machine Sys2Proof.Laws

/-- Settles O19: the read gives the value and the write-back leaves the reservation (`retires_loadReserved`); the encoding and the body
are the same for all values of `aq` and `rl`. -/
theorem loadReservedResults : Obligations.LoadReservedResults := by
  intro s rd rs1 aq rl hc hx
  refine ⟨fun hr ha => ?word, fun hr ha h64 => ?double⟩
  case word =>
    have hi : Instr.wf s.params (.lrW rd rs1 aq rl) = true := (Bool.and_true _).trans hx
    exact ⟨decode32_of_encode hi, retires_loadReserved (width := .w4) hi hc ha hr⟩
  case double =>
    have hi : Instr.wf s.params (.lrD rd rs1 aq rl) = true := (Bool.and_true _).trans (met_atomic64 hx h64)
    exact ⟨decode32_of_encode hi, retires_loadReserved (width := .w8) hi hc ha hr⟩

/-- Settles O20: with its reservation the SC is its store and a write of 0 (`stores_storeConditional`), without it a write of 1
(`retires_storeConditional`). -/
theorem storeConditionalResults : Obligations.StoreConditionalResults := by
  intro s rd rs1 rs2 aq rl hc hx
  refine ⟨fun ha => ?word, fun ha h64 => ?double⟩
  case word =>
    have hi : Instr.wf s.params (.scW rd rs1 rs2 aq rl) = true := (Bool.and_true _).trans hx
    exact ⟨decode32_of_encode hi, fun hres hs => stores_storeConditional (width := .w4) hi hc ha hres hs,
      fun hres => retires_storeConditional (width := .w4) hi hc ha hres⟩
  case double =>
    have hi : Instr.wf s.params (.scD rd rs1 rs2 aq rl) = true := (Bool.and_true _).trans (met_atomic64 hx h64)
    exact ⟨decode32_of_encode hi, fun hres hs => stores_storeConditional (width := .w8) hi hc ha hres hs,
      fun hres => retires_storeConditional (width := .w8) hi hc ha hres⟩

/-- Settles O21: each row is its operation on 32-bit numbers (`OpGives`) in the one shape of every AMO (`runsAmo`). -/
theorem amoWordResults : Obligations.AmoWordResults := by
  intro s rd rs1 rs2 aq rl hc hx ha hr hs
  have hi : (Needs.met s.params .atomic && true) = true := (Bool.and_true _).trans hx
  exact ⟨runsAmo hi hc (opGives_amoSwap .b4) ha hr hs,
    runsAmo hi hc (opGives_amoAdd .b4) ha hr hs,
    runsAmo hi hc (opGives_amoXor .b4) ha hr hs,
    runsAmo hi hc (opGives_amoAnd .b4) ha hr hs,
    runsAmo hi hc (opGives_amoOr .b4) ha hr hs,
    runsAmo hi hc (opGives_minSigned .b4) ha hr hs,
    runsAmo hi hc (opGives_maxSigned .b4) ha hr hs,
    runsAmo hi hc (opGives_minUnsigned .b4) ha hr hs,
    runsAmo hi hc (opGives_maxUnsigned .b4) ha hr hs⟩

/-- Settles O22: as the word forms, on 64-bit numbers. -/
theorem amoDoublewordResults : Obligations.AmoDoublewordResults := by
  intro s rd rs1 rs2 aq rl hc hx h64 ha hr hs
  have hi : (Needs.met s.params .atomic64 && true) = true := (Bool.and_true _).trans (met_atomic64 hx h64)
  exact ⟨runsAmo hi hc (opGives_amoSwap .b8) ha hr hs,
    runsAmo hi hc (opGives_amoAdd .b8) ha hr hs,
    runsAmo hi hc (opGives_amoXor .b8) ha hr hs,
    runsAmo hi hc (opGives_amoAnd .b8) ha hr hs,
    runsAmo hi hc (opGives_amoOr .b8) ha hr hs,
    runsAmo hi hc (opGives_minSigned .b8) ha hr hs,
    runsAmo hi hc (opGives_maxSigned .b8) ha hr hs,
    runsAmo hi hc (opGives_minUnsigned .b8) ha hr hs,
    runsAmo hi hc (opGives_maxUnsigned .b8) ha hr hs⟩

end Sys2Proof.Proofs
end

section
/-! SUPPORT. System calls (R302 to R304, R351): what `systemCall` does in each of its cases, and how the instruction that makes the call
ends. -/

namespace Sys2Proof.Laws

open Sys2Proof.Machine

/-- The call of EBREAK's number writes no register (R304). -/
theorem systemCall_answered_ebreak {s u : State} {n : Word} {handler : Nat} {answer : HostAnswer} {w : Bool}
    (hh : SMap.find s.handlers n.toNat = some handler) (hc : callHost handler [n.toNat] s = .done answer u w)
    (hn : n = u.ebreakNumber) : systemCall n s = .done () u w := by
  simp [systemCall, hh, hc, ← hn, Effect.pure]

section
variable {s : State} {n : Word} (hm : SMap.find s.handlers n.toNat = none)
include hm

theorem systemCall_unhandled_throws (ht : s.params.throwOnUnhandledSyscall = true) :
    systemCall n s = .trapped .unhandledSyscall n.toNat s := by
  simp [systemCall, hm, ht]

theorem systemCall_unhandled (ht : s.params.throwOnUnhandledSyscall = false) (hn : n ≠ s.ebreakNumber) :
    systemCall n s = .pure () (s.setReg 10 s.noSuchCall) := by
  simp [systemCall, hm, ht, hn]

/-- The draw for EBREAK's number without a handler: `a0` as it is, or `-ENOSYS` (C3). -/
theorem systemCall_unhandled_ebreak (ht : s.params.throwOnUnhandledSyscall = false) (hn : n = s.ebreakNumber) :
    systemCall n s = .pure () s.drawn ∨ systemCall n s = .pure () (s.drawn.setReg 10 s.noSuchCall) := by
  have e : systemCall n s =
      if Config.freeBool s.draws then .pure () s.drawn else .pure () (s.drawn.setReg 10 s.noSuchCall) := by
    simp [systemCall, hm, ht, ← hn]
  rw [e]
  cases Config.freeBool s.draws
  · exact .inr rfl
  · exact .inl rfl

end

theorem toNat_wrap_noSuchCall (s : State) : (wrap s.w s.noSuchCall).toNat = s.mod (-s.params.enosys.toNat) := by
  rw [State.noSuchCall, wrap_wrap, ← BitVec.zero_sub]
  simpa using toNat_wrap_subWords s 0 s.params.enosys

/-- A register is its own value modulo `2^XLEN`. -/
theorem mod_ux (s : State) (r : Reg) : s.mod (s.ux r) = s.ux r := by
  rw [State.ux, ← toNat_wrap_mod rfl (s.x r), wrap_x]

/-- An instruction that writes no register leaves in any register the value it had. -/
theorem retired_keeping {s t : State} {pc : Int} (h : Retired s t pc 0 0) (rd : Reg) : Retired s t pc rd (s.ux rd) where
  pc := h.pc
  counter := h.counter
  dest hr := (congrArg BitVec.toNat (h.others rd hr)).trans (mod_ux s rd).symm
  x0 := h.x0
  others r _ := by
    by_cases h0 : r = 0
    · rw [h0, x_zero, x_zero]
    · exact h.others r h0

theorem completes_keeping {i : Instr} {s : State} {pc : Int} (h : Completes i pc 0 0 s) (rd : Reg) :
    Completes i pc rd (s.ux rd) s := by
  obtain ⟨t, e, hr, hresv, hmem, hctl⟩ := h
  exact ⟨t, e, retired_keeping hr rd, hresv, hmem, hctl⟩

section
variable {s : State} {i : Instr} {len : Nat} (hl : len < 2 ^ 32) (hc : s.counter ≠ counterMax)
include hl hc

/-- A write-back after draws, one of which may be that of the reservation `q` (R281). -/
theorem retires_afterDraws {q : Reservation} {d : Nat} {rd : Reg} {v : Word} {V : Int}
    (e : exec i s = writeBack len rd v { s with resv := q, draws := d }) (hv : (wrap s.w v).toNat = s.mod V) :
    ∃ t, exec i s = .next t ∧ Retired s t (s.pc.toNat + len) rd V ∧ t.resv = q ∧ s.SameMemory t ∧ s.SameControl t := by
  rw [writeBack_next len rd v { s with resv := q, draws := d } hc] at e
  refine ⟨_, e, ?_, ?_, sameMemory_of ?_ ?_ ?_, ⟨⟨?_, ?_, ?_, ?_, ?_, ?_⟩, ?_, ?_, ?_, ?_, ?_, ?_, ?_, ?_, ?_⟩⟩
  · refine retired_of (u := State.setReg { s with resv := q, draws := d } rd v) hl hc (by simp) rfl rfl rfl (by simp)
      (fun r hr => x_setReg_ne _ _ _ _ hr) fun hr => ?_
    rw [State.ux, x_setReg_self, if_neg (show ¬rd = 0#5 from hr)]
    exact hv
  all_goals simp

/-- The end of an instruction after a call of the host that did nothing but answer (R281, R432). -/
theorem completesAfterHost_writeBack {rd : Reg} {v : Word} {V : Int}
    (e : exec i s = writeBack len rd v (drawReservation s.drawn)) (hv : (wrap s.w v).toNat = s.mod V) :
    CompletesAfterHost i (s.pc.toNat + len) rd V s := by
  obtain ⟨t, et, hr, hresv, hmem, hctl⟩ := retires_afterDraws hl hc e hv
  exact ⟨t, et, hr, (resvDrawn_drawReservation s.drawn).imp hresv.trans hresv.trans, hmem, hctl⟩

/-- The end of an instruction after one draw. -/
theorem completes_afterDraw {rd : Reg} {v : Word} {V : Int} (e : exec i s = writeBack len rd v s.drawn)
    (hv : (wrap s.w v).toNat = s.mod V) : Completes i (s.pc.toNat + len) rd V s :=
  retires_afterDraws (q := s.resv) hl hc e hv

section
variable {n : Word} (e : exec i s = finish len (systemCall n s))
include e

section
variable {handler : Nat} {answer : HostAnswer} (hh : SMap.find s.handlers n.toNat = some handler)
  (hs : SMap.find s.scripts handler = some answer) (ha : answer.acts = []) (hf : answer.failure = none)
include hh hs ha hf

/-- A call of another number than EBREAK's, whose handler only answers `v` (R304, R432). -/
theorem completesAfterHost_systemCall {v : Word} (hn : n ≠ s.ebreakNumber) (hv : answer.value = .lit v) :
    CompletesAfterHost i (s.pc.toNat + len) 10 v.toNat s := by
  refine completesAfterHost_writeBack hl hc (e.trans ?_) (toNat_wrap_mod rfl v)
  rw [systemCall_answered hh (callHost_quiet [n.toNat] hs ha hf) hn, answerValue, hv]
  rfl

/-- A call of EBREAK's number, whose handler only answers (R304). -/
theorem completesAfterHost_systemCall_ebreak (hn : n = s.ebreakNumber) :
    CompletesAfterHost i (s.pc.toNat + len) 0 0 s := by
  refine completesAfterHost_writeBack (v := 0) hl hc (e.trans ?_) (toNat_wrap_mod rfl 0)
  rw [systemCall_answered_ebreak hh (callHost_quiet [n.toNat] hs ha hf) hn]
  rfl

end

section
variable (hm : SMap.find s.handlers n.toNat = none) (ht : s.params.throwOnUnhandledSyscall = false)
include hm ht

/-- A call of another number than EBREAK's without a handler (R304). -/
theorem completes_systemCall_unhandled (hn : n ≠ s.ebreakNumber) :
    Completes i (s.pc.toNat + len) 10 (-s.params.enosys.toNat) s :=
  completes_writeBack hl hc (e.trans (congrArg (finish len) (systemCall_unhandled hm ht hn))) (toNat_wrap_noSuchCall s)

/-- A call of EBREAK's number without a handler (R304, C3). -/
theorem completes_systemCall_unhandled_ebreak (hn : n = s.ebreakNumber) :
    Completes i (s.pc.toNat + len) 10 (s.ux 10) s ∨ Completes i (s.pc.toNat + len) 10 (-s.params.enosys.toNat) s := by
  refine (systemCall_unhandled_ebreak hm ht hn).imp (fun h => ?_) fun h => ?_
  · exact completes_keeping
      (completes_afterDraw (v := 0) hl hc (e.trans (congrArg (finish len) h)) (toNat_wrap_mod rfl 0)) 10
  · exact completes_afterDraw hl hc (e.trans (congrArg (finish len) h)) (toNat_wrap_noSuchCall s)

end

end

end

/-- A call without a handler, of a machine that throws (R304). -/
theorem faults_systemCall_unhandled {s : State} {i : Instr} {len : Nat} {n : Word} (e : exec i s = finish len (systemCall n s))
    (hm : SMap.find s.handlers n.toNat = none) (ht : s.params.throwOnUnhandledSyscall = true) :
    Faults i .unhandledSyscall n.toNat s :=
  faults_finish (u := s.undo) (e.trans (congrArg (finish len) (systemCall_unhandled_throws hm ht)))

/-- The machine has C.EBREAK where it has the C extension (R320, R351). -/
theorem wf_cEbreak {p : Params} (hx : p.extC = true) : Instr.cEbreak.wf p = true := (Bool.and_true _).trans hx

theorem exec_cEbreak_finish {s : State} (hx : s.params.extC = true) :
    exec .cEbreak s = finish 2 (systemCall s.ebreakNumber s) := guarded_wf _ (wf_cEbreak hx)

/-- The number of an ECALL is EBREAK's (R302, R303). -/
theorem x17_eq_ebreakNumber_iff (s : State) : s.x 17 = s.ebreakNumber ↔ s.ux 17 = s.mod s.params.syscallEbreak.toNat := by
  rw [← toNat_ebreakNumber rfl]
  exact BitVec.toNat_inj.symm

end Sys2Proof.Laws

namespace Sys2Proof.Proofs

open Sys2Proof.Machine Sys2Proof.Laws

/-- Settles O24: the word is the encoding, and the instruction is a retirement and nothing else. -/
theorem fenceResult : Obligations.FenceResult := fun _ _ _ _ _ _ hc =>
  ⟨decode32_of_encode rfl, completes_retire (by decide) hc rfl⟩

/-- Settles O25: the handler leaves two draws, one of them the reservation's (`callHost_quiet`), and its answer is written back or not
as the number says; ECALL, EBREAK and C.EBREAK differ in their number and their length. -/
theorem systemCallHit : Obligations.SystemCallHit := by
  intro s n h a v hc hh hs ha hf hv
  refine ⟨rfl, rfl, ?_, ?_, ?_⟩
  · rintro rfl hn
    exact completesAfterHost_systemCall (by decide) hc rfl hh hs ha hf (mt (x17_eq_ebreakNumber_iff s).mp hn) hv
  · rintro rfl hn
    exact completesAfterHost_systemCall_ebreak (by decide) hc rfl hh hs ha hf ((x17_eq_ebreakNumber_iff s).mpr hn)
  · intro hn
    rw [hn, ← toNat_ebreakNumber rfl] at hh
    exact ⟨completesAfterHost_systemCall_ebreak (by decide) hc rfl hh hs ha hf rfl, fun hx =>
      ⟨(roundTrip .cEbreak s.params (wf_cEbreak hx)).2,
        completesAfterHost_systemCall_ebreak (by decide) hc (exec_cEbreak_finish hx) hh hs ha hf rfl⟩⟩

/-- Settles O26: without a handler the call is a fault, a write of `-ENOSYS`, or, for the number of EBREAK, a draw between that write
and none (`systemCall_unhandled_ebreak`). -/
theorem systemCallMiss : Obligations.SystemCallMiss := by
  intro s n hc hm
  refine ⟨fun ht => ⟨?_, ?_⟩, fun ht => ⟨?_, fun hn => ⟨?_, ?_⟩⟩⟩
  · rintro rfl
    exact faults_systemCall_unhandled (len := 4) rfl hm ht
  · intro hn
    rw [hn, ← toNat_ebreakNumber rfl] at hm ⊢
    exact ⟨faults_systemCall_unhandled (len := 4) rfl hm ht, fun hx =>
      faults_systemCall_unhandled (exec_cEbreak_finish hx) hm ht⟩
  · rintro rfl hn
    exact completes_systemCall_unhandled (by decide) hc rfl hm ht (mt (x17_eq_ebreakNumber_iff s).mp hn)
  · rintro rfl
    exact completes_systemCall_unhandled_ebreak (by decide) hc rfl hm ht ((x17_eq_ebreakNumber_iff s).mpr hn)
  · rw [hn, ← toNat_ebreakNumber rfl] at hm
    exact ⟨completes_systemCall_unhandled_ebreak (by decide) hc rfl hm ht rfl, fun hx =>
      completes_systemCall_unhandled_ebreak (by decide) hc (exec_cEbreak_finish hx) hm ht rfl⟩

end Sys2Proof.Proofs
end

section
/-! SUPPORT. The 32-bit words that have no instruction, or one this block does not execute (R301, R305 to R308). -/

namespace Sys2Proof.Laws

open Sys2Proof.Machine

/-- A row that is not executed: its word decodes to it and faults. -/
theorem unimplementedWord {i : Instr} {s : State} {w : BitVec 32} (hi : i.wf s.params = true)
    (e : exec i s = unimplemented i s := by rfl) (hw : encode i = .word w := by rfl) : UnimplementedWord w i s :=
  ⟨decode32_of_encode hi hw, faults_unimplementedWord e hw⟩

theorem notExecuted_ite {c : Prop} [Decidable c] {a b : Option Instr} (ha : c → NotExecuted a) (hb : ¬c → NotExecuted b) :
    NotExecuted (if c then a else b) := by
  split
  · exact ha ‹c›
  · exact hb ‹¬c›

/-- A row of a decoding table that is not executed. -/
theorem notExecuted_row {c : Prop} [Decidable c] {i : Instr} {b : Option Instr} (hb : NotExecuted b)
    (he : ∀ s, exec i s = unimplemented i s := by exact fun _ => rfl) : NotExecuted (if c then some i else b) :=
  notExecuted_ite (fun _ => notExecuted_some rfl he) fun _ => hb

section
variable {p : Params} {w : BitVec 32}

/-- MISC-MEM but for FENCE (R301). -/
theorem notExecuted_decodeMiscMem (h : fFunct3 w ≠ 0b000#3) : NotExecuted (decodeMiscMem w) :=
  notExecuted_ite (absurd · h) fun _ => notExecuted_row (notExecuted_none rfl)

/-- The M extension in OP (R305). -/
theorem notExecuted_decodeOp (h : fFunct7 w = 0b0000001#7) : NotExecuted (decodeOp w) :=
  notExecuted_some (i := .mulDiv (fFunct3 w) (fRd w) (fRs1 w) (fRs2 w)) (by simp [decodeOp, h]) fun _ => rfl

/-- The M extension in OP-32 (R305), which RV32 does not have. -/
theorem notExecuted_decodeOp32 (h : fFunct7 w = 0b0000001#7) : NotExecuted (decodeOp32 p w) := by
  by_cases hw : p.w = .w4
  · exact notExecuted_none (by simp [decodeOp32, hw])
  · exact notExecuted_some (i := .mulDivW (fFunct3 w) (fRd w) (fRs1 w) (fRs2 w)) (by simp [decodeOp32, h, hw]) fun _ => rfl

/-- SYSTEM but for ECALL and EBREAK (R306), row by row. -/
theorem notExecuted_decodeSystem (hecall : w ≠ 0x00000073#32) (hebreak : w ≠ 0x00100073#32) : NotExecuted (decodeSystem w) :=
  notExecuted_ite (absurd · hecall) fun _ =>
  notExecuted_ite (absurd · hebreak) fun _ =>
  notExecuted_row <| notExecuted_row <| notExecuted_row <| notExecuted_row <|
  notExecuted_ite (fun _ => notExecuted_row (notExecuted_none rfl)) fun _ =>
  notExecuted_row <| notExecuted_row <| notExecuted_row <| notExecuted_row <| notExecuted_row <| notExecuted_row <|
  notExecuted_some rfl fun _ => rfl

/-- A word of the spaces that have no instruction this block executes (R301, R305, R306, R308). -/
def FaultingSpace (w : BitVec 32) : Prop :=
  (fOpcode w = 0b0001111#7 ∧ fFunct3 w ≠ 0b000#3) ∨
    ((fOpcode w = 0b0110011#7 ∨ fOpcode w = 0b0111011#7) ∧ fFunct7 w = 0b0000001#7) ∨
    (fOpcode w = 0b1110011#7 ∧ w ≠ 0x00000073#32 ∧ w ≠ 0x00100073#32)

theorem FaultingSpace.lengthOf (h : FaultingSpace w) : lengthOf p (w.extractLsb' 0 16) = some 4 := by
  obtain ⟨hop, -⟩ | ⟨hop | hop, -⟩ | ⟨hop, -⟩ := h <;>
    exact lengthOf_word p w _ hop (by decide) (by decide)

/-- The opcode selects the table, and the table answers nothing or a row that is not executed. -/
theorem FaultingSpace.notExecuted_decode32 (h : FaultingSpace w) : NotExecuted (decode32 p w) := by
  obtain ⟨hop, h3⟩ | ⟨hop | hop, h7⟩ | ⟨hop, hecall, hebreak⟩ := h
  · have e : decode32 p w = decodeMiscMem w := by simp [decode32, hop]
    exact e ▸ notExecuted_decodeMiscMem h3
  · have e : decode32 p w = decodeOp w := by simp [decode32, hop]
    exact e ▸ notExecuted_decodeOp h7
  · have e : decode32 p w = decodeOp32 p w := by simp [decode32, hop]
    exact e ▸ notExecuted_decodeOp32 h7
  · have e : decode32 p w = decodeSystem w := by simp [decode32, hop]
    exact e ▸ notExecuted_decodeSystem hecall hebreak

end

/-- The fetch of the four bytes of a word. -/
theorem fetch_wordBytes {s : State} {w : BitVec 32}
    (h : s.holdsCode [w.extractLsb' 0 8, w.extractLsb' 8 8, w.extractLsb' 16 8, w.extractLsb' 24 8] = true)
    (hl : lengthOf s.params (w.extractLsb' 0 16) = some 4) : fetch s = decodedWord w s := by
  rw [← lowParcel_of_bytes w] at hl
  exact (fetch_word h hl).trans (congrArg (decodedWord · s) (word_of_bytes w))

end Sys2Proof.Laws

namespace Sys2Proof.Proofs

open Sys2Proof.Machine Sys2Proof.Laws

/-- Settles O30: each word is the encoding of its row, which is not executed (`unimplementedWord`); RV64 alone has the row of OP-32. -/
theorem unimplementedWords : Obligations.UnimplementedWords := by
  intro s imm f3 rd rs1 rs2 high
  have rv64 : s.w = .w8 → (Instr.mulDivW f3 rd rs1 rs2).wf s.params = true := fun hw =>
    (Bool.and_true _).trans (met_rv64 hw)
  exact ⟨unimplementedWord rfl, unimplementedWord rfl, fun hw => unimplementedWord (rv64 hw), unimplementedWord rfl,
    unimplementedWord rfl, unimplementedWord rfl, unimplementedWord rfl, unimplementedWord rfl, unimplementedWord rfl,
    unimplementedWord rfl, unimplementedWord rfl, unimplementedWord rfl, unimplementedWord rfl, unimplementedWord rfl,
    unimplementedWord rfl, unimplementedWord rfl, unimplementedWord rfl, unimplementedWord rfl, unimplementedWord rfl,
    unimplementedWord rfl, unimplementedWord rfl, unimplementedWord rfl⟩

/-- Settles O32: a word of these spaces decodes to nothing, and then the fetch faults, or to an instruction that is not executed
(`FaultingSpace.notExecuted_decode32`), whose bits are the word (`reads_decode32`). -/
theorem faultingWordSpaces : Obligations.FaultingWordSpaces := by
  intro s w hat hcode hspace
  have hw : FaultingSpace w := hspace
  have hf := fetch_wordBytes hcode hw.lengthOf
  cases hd : decode32 s.params w with
  | none => exact stepFaults_of_fetch s.draws hat (by rw [hf, decodedWord, hd])
  | some i =>
    have hi := (reads_decode32 s.params w i hd).1
    obtain ⟨t, et, ht⟩ := faults_unimplementedWord (hw.notExecuted_decode32 i hd s) hi
    exact ⟨t, (step_of_fetch hat (by rw [hf, decodedWord, hd])).trans et, ht⟩

end Sys2Proof.Proofs
end

section
/-! SUPPORT. The compressed instructions (R320 to R355): a halfword that encodes an instruction runs it, 2 bytes long, and the operands
that are their own: a zero-extended offset, and the jump to a register. -/

namespace Sys2Proof.Laws

open Sys2Proof.Machine

variable {s : State}

/-- The halfword that encodes an instruction the machine has decodes to it. -/
theorem decode16_of_encode {p : Params} {i : Instr} {c : BitVec 16} (hi : i.wf p = true) (he : encode i = .half c := by rfl) :
    decode16 p c = some i := by
  have h := roundTrip i p hi
  rw [he] at h
  exact h.2

/-- An instruction exists where the machine has what its row needs and its operands are neither reserved nor HINTs (R121). -/
theorem wf_of {p : Params} {i : Instr} (hn : i.needs.met p = true) (ho : i.operandsOk p = true := by rfl) : i.wf p = true :=
  Bool.and_intro hn ho

/-- A row that is not executed: its halfword decodes to it and faults (R321). -/
theorem unimplementedHalf {i : Instr} {c : BitVec 16} (hx : s.params.extC = true) (hi : i.wf s.params = true)
    (e : exec i s = unimplemented i s := by rfl) (he : encode i = .half c := by rfl) : UnimplementedHalf c i s :=
  ⟨decode16_of_encode hi he, faults_unimplementedHalf hx e he⟩

/-! ### Zero-extended offsets (R322, R323, R347) -/

theorem toNat_wrap_add_setWidth {n : Nat} (hn : n ≤ 64) (v : Word) (imm : BitVec n) :
    (wrap s.w (v + imm.setWidth 64)).toNat = s.mod (v.toNat + imm.toNat) := by
  rw [toNat_wrap_addWords, BitVec.toNat_setWidth_of_le hn]

theorem toNat_eaU {n : Nat} (hn : n ≤ 64) (r : Reg) (imm : BitVec n) : (s.eaU r imm).toNat = s.mod (s.ux r + imm.toNat) :=
  toNat_wrap_add_setWidth hn (s.x r) imm

/-! ### Jumps without a link, and to a register (R343, R349, R352) -/

/-- What is written to x0 does not matter (R21). -/
theorem completes_linkingX0 {i : Instr} {pc L V : Int} (h : Completes i pc 0 L s) : Completes i pc 0 V s := by
  obtain ⟨t, e, hr, hrest⟩ := h
  exact ⟨t, e, { hr with dest := (absurd rfl ·) }, hrest⟩

/-- The sum of a register and the offset 0 is the register. -/
theorem mod_ux_add_zero (r : Reg) : s.mod (s.ux r + (0#12).toInt) = s.ux r := by
  rw [BitVec.toInt_zero, add_zero, mod_ux]

theorem jumpRegister_odd {r : Reg} (h : s.ux r % 2 = 1) (len : Nat) (rd : Reg) :
    jumpRegister len rd r 0#12 s = .refused .jalrOddTarget := by
  rw [jumpRegister_eq (by decide), mod_ux_add_zero, if_pos h]

theorem completes_jumpToReg {i : Instr} {len : Nat} {rd r : Reg} (hl : len < 2 ^ 32) (hc : s.counter ≠ counterMax)
    (h : s.ux r % 2 = 0) (e : exec i s = jumpRegister len rd r 0#12 s) :
    Completes i (s.ux r) rd (s.pc.toNat + len) s := by
  rw [← mod_ux_add_zero r] at h
  simpa using completes_jumpRegister (by decide) hl hc h e

/-! ### Instructions that run from their halfwords -/

section

variable {i : Instr} {c : BitVec 16} {rd : Reg} {V : Int} (hi : i.wf s.params = true) (hc : s.counter ≠ counterMax)
include hi hc

theorem runsHalf_writeBack {v : Word} (hv : (wrap s.w v).toNat = s.mod V)
    (e : exec i s = guarded i s (writeBack 2 rd v s) := by rfl) (he : encode i = .half c := by rfl) : RunsHalf c i rd V s :=
  ⟨decode16_of_encode hi he, completes_writeBack (by decide) hc (e.trans (guarded_wf _ hi)) hv⟩

theorem runsHalf_load {ea : Word} {z : Size} {sg : Bool} (h : IsLoad s i 2 ea z sg rd) (hr : s.canRead ea z = true)
    (hv : s.mod (extended z sg (s.valueAt ea z.bytes)) = s.mod V) (he : encode i = .half c := by rfl) : RunsHalf c i rd V s := by
  obtain ⟨ha, e⟩ := load_form h hi
  refine ⟨decode16_of_encode hi he, completes_loadFrom (by decide) hc ha hr e ?_⟩
  rw [toNat_wrap_extended, toNat_ofNat_valueAt, hv]

end

end Sys2Proof.Laws

namespace Sys2Proof.Proofs

open Sys2Proof.Machine Sys2Proof.Laws

/-- Settles O31: each halfword is the encoding of its row, which is not executed (`unimplementedHalf`); RV32 alone has the rows of the
single-precision loads and stores. -/
theorem unimplementedHalves : Obligations.UnimplementedHalves := by
  intro s mid hx
  refine ⟨unimplementedHalf hx (wf_of hx), unimplementedHalf hx (wf_of hx), unimplementedHalf hx (wf_of hx),
    unimplementedHalf hx (wf_of hx), unimplementedHalf hx (wf_of hx), unimplementedHalf hx (wf_of hx), fun hw => ?_⟩
  have rv32 : Needs.met s.params .compressed32 = true := met_compressed32 hx hw
  exact ⟨unimplementedHalf hx (wf_of rv32), unimplementedHalf hx (wf_of rv32), unimplementedHalf hx (wf_of rv32),
    unimplementedHalf hx (wf_of rv32)⟩

/-- Settles O34: as the 32-bit forms of the expansions, with the encodings that the operands allow (`wf_of`); the offset of C.ADDI4SPN
is zero-extended (`toNat_wrap_add_setWidth`). -/
theorem compressedImmediateResults : Obligations.CompressedImmediateResults := by
  intro s rd rp imm spn hc hx
  have sum (r : Reg) : (wrap s.w (s.x r + immWord s.w imm)).toNat = s.mod (s.ux r + imm.toInt) :=
    toNat_wrap_add_immWord s (by decide) (s.x r) imm
  refine ⟨fun h4 h0 => ?addi4spn, ?nop, fun hrd himm => ?addi, fun hrd hw => ?addiw, fun hrd => ?li, fun h16 h0 => ?addi16sp,
    fun hrd hsp himm => ?lui, ?andi⟩
  case addi4spn =>
    exact runsHalf_writeBack (wf_of hx (Bool.and_intro (beq_iff_eq.mpr h4) (bne_iff_ne.mpr h0))) hc
      (toNat_wrap_add_setWidth (by decide) (s.x 2) spn)
  case nop =>
    have hi : Instr.cNop.wf s.params = true := wf_of hx
    exact ⟨decode16_of_encode hi, completes_retire (by decide) hc (guarded_wf _ hi)⟩
  case addi =>
    exact runsHalf_writeBack (wf_of hx (Bool.and_intro (bne_iff_ne.mpr hrd) (bne_iff_ne.mpr himm))) hc (sum rd)
  case addiw =>
    exact runsHalf_writeBack (wf_of (met_compressed64 hx hw) (bne_iff_ne.mpr hrd)) hc (toNat_wrap_sext32_low32 s (sum rd))
  case li =>
    exact runsHalf_writeBack (wf_of hx (bne_iff_ne.mpr hrd)) hc (toNat_wrap_immWord s (by decide) imm)
  case addi16sp =>
    exact runsHalf_writeBack (wf_of hx (Bool.and_intro (beq_iff_eq.mpr h16) (bne_iff_ne.mpr h0))) hc
      (toNat_wrap_add_immWord s (by decide) (s.x 2) spn)
  case lui =>
    have upper : (imm ++ 0#12).toInt = imm.toInt * 4096 := BitVec.toInt_append_zero.trans (mul_comm _ _)
    rw [← upper]
    exact runsHalf_writeBack
      (wf_of hx (Bool.and_intro (Bool.and_intro (bne_iff_ne.mpr hrd) (bne_iff_ne.mpr hsp)) (bne_iff_ne.mpr himm))) hc
      (toNat_wrap_immWord s (by decide) (imm ++ 0#12))
  case andi =>
    rw [← toNat_immWord s (by decide) imm]
    exact runsHalf_writeBack (wf_of hx) hc (toNat_wrap_and s _ _)

/-- Settles O35: as the 32-bit forms of the expansions; the shift amounts are those that decode (`shamtFits_iff`). -/
theorem compressedRegisterResults : Obligations.CompressedRegisterResults := by
  intro s rd rs2 rp rq imm hc hx
  refine ⟨fun h0 hlt => ?shifts, ?sub, ?xor, ?or, ?and, fun hw => ?word, fun hrd hrs => ?whole⟩
  case shifts =>
    have nonzero : (imm != 0) = true := bne_iff_ne.mpr h0
    have fits : shamtFits s.params imm = true := shamtFits_iff.mpr hlt
    exact ⟨runsHalf_writeBack (wf_of hx (Bool.and_intro nonzero fits)) hc (toNat_wrap_shiftRight s _ _),
      runsHalf_writeBack (wf_of hx (Bool.and_intro nonzero fits)) hc (toNat_wrap_shiftRightArith s _ _),
      fun hrd => runsHalf_writeBack (wf_of hx (Bool.and_intro (Bool.and_intro (bne_iff_ne.mpr hrd) nonzero) fits)) hc
        (toNat_wrap_shiftLeft s _ _)⟩
  case sub => exact runsHalf_writeBack (wf_of hx) hc (toNat_wrap_subWords s _ _)
  case xor => exact runsHalf_writeBack (wf_of hx) hc (toNat_wrap_xor s _ _)
  case or => exact runsHalf_writeBack (wf_of hx) hc (toNat_wrap_or s _ _)
  case and => exact runsHalf_writeBack (wf_of hx) hc (toNat_wrap_and s _ _)
  case word =>
    have rv64 : Needs.met s.params .compressed64 = true := met_compressed64 hx hw
    exact ⟨runsHalf_writeBack (wf_of rv64) hc (toNat_wrap_sext32_low32 s (toNat_wrap_subWords s _ _)),
      runsHalf_writeBack (wf_of rv64) hc (toNat_wrap_sext32_low32 s (toNat_wrap_addWords s _ _))⟩
  case whole =>
    have operands : (rd != 0 && rs2 != 0) = true := Bool.and_intro (bne_iff_ne.mpr hrd) (bne_iff_ne.mpr hrs)
    exact ⟨runsHalf_writeBack (wf_of hx operands) hc (toNat_wrap_mod rfl (s.x rs2)),
      runsHalf_writeBack (wf_of hx operands) hc (toNat_wrap_addWords s _ _)⟩

/-- Settles O36: the jumps and branches of Machine/Control.lean with a length of 2; the target of C.JR and C.JALR is the register
itself, and its bit 0 decides (`jumpRegister_odd`). -/
theorem compressedJumpResults : Obligations.CompressedJumpResults := by
  intro s rs1 rp o b hc hx ho hb
  have evenJump : multipleOf o 2 = true := beq_iff_eq.mpr ho
  have evenBranch : multipleOf b 2 = true := beq_iff_eq.mpr hb
  have isZero : equalWords s.w (s.x (reg3 rp)) 0 = true ↔ s.ux (reg3 rp) = 0 :=
    equalWords_iff (canonical_x s _) (x_zero s ▸ canonical_x s 0)
  have hj : (Instr.cJ o).wf s.params = true := wf_of hx evenJump
  have hbeqz : (Instr.cBeqz rp b).wf s.params = true := wf_of hx evenBranch
  have hbnez : (Instr.cBnez rp b).wf s.params = true := wf_of hx evenBranch
  refine ⟨decode16_of_encode hj, ?j, fun hw => ?jal, decode16_of_encode hbeqz, ?beqz, decode16_of_encode hbnez, ?bnez,
    fun hrs => ?register⟩
  case j => exact completes_linkingX0 (completes_jumpRelative (by decide) (by decide) hc (guarded_wf _ hj))
  case jal =>
    have hi : (Instr.cJal o).wf s.params = true := wf_of (met_compressed32 hx hw) evenJump
    exact ⟨decode16_of_encode hi, completes_jumpRelative (by decide) (by decide) hc (guarded_wf _ hi)⟩
  case beqz => exact completes_branchIf (by decide) (by decide) hc isZero (guarded_wf _ hbeqz)
  case bnez => exact completes_branchIf (by decide) (by decide) hc (not_eq_true_iff_of isZero) (guarded_wf _ hbnez)
  case register =>
    have hjr : (Instr.cJr rs1).wf s.params = true := wf_of hx (bne_iff_ne.mpr hrs)
    have hjalr : (Instr.cJalr rs1).wf s.params = true := wf_of hx (bne_iff_ne.mpr hrs)
    refine ⟨decode16_of_encode hjr, decode16_of_encode hjalr, fun heven => ?_, fun hodd => ?_⟩
    · exact ⟨completes_linkingX0 (completes_jumpToReg (by decide) hc heven (guarded_wf _ hjr)),
        completes_jumpToReg (by decide) hc heven (guarded_wf _ hjalr)⟩
    · exact ⟨(guarded_wf _ hjr).trans (jumpRegister_odd hodd ..), (guarded_wf _ hjalr).trans (jumpRegister_odd hodd ..)⟩

/-- Settles O37: each row is the load of its size (`runsHalf_load`), at the base plus the zero-extended offset (`toNat_eaU`); the
doublewords have the width of the container. -/
theorem compressedLoadResults : Obligations.CompressedLoadResults := by
  intro s rd rp rb iw id sw sd hc hx
  have word (a : Word) : s.mod (extended .b4 true (s.valueAt a 4)) = s.mod (signedOf 32 (s.valueAt a 4)) :=
    congrArg s.mod (extended_signed ..)
  have double (a : Word) : s.mod (extended .b8 true (s.valueAt a 8)) = s.mod (s.valueAt a 8) :=
    (congrArg s.mod (extended_signed ..)).trans (mod_signedOf_container _)
  refine ⟨fun h4 hr => ⟨toNat_eaU (by decide) _ _, ?lw⟩, fun h8 hw hr => ⟨toNat_eaU (by decide) _ _, ?ld⟩,
    fun hrd h4 hr => ⟨toNat_eaU (by decide) _ _, ?lwsp⟩, fun hrd h8 hw hr => ⟨toNat_eaU (by decide) _ _, ?ldsp⟩⟩
  case lw => exact runsHalf_load (wf_of hx (beq_iff_eq.mpr h4)) hc (.cLw ..) hr (word _)
  case ld => exact runsHalf_load (wf_of (met_compressed64 hx hw) (beq_iff_eq.mpr h8)) hc (.cLd ..) hr (double _)
  case lwsp =>
    exact runsHalf_load (wf_of hx (Bool.and_intro (bne_iff_ne.mpr hrd) (beq_iff_eq.mpr h4))) hc (.cLwsp ..) hr (word _)
  case ldsp =>
    exact runsHalf_load (wf_of (met_compressed64 hx hw) (Bool.and_intro (bne_iff_ne.mpr hrd) (beq_iff_eq.mpr h8))) hc
      (.cLdsp ..) hr (double _)

/-- Settles O38: the encoding of each row (`decode16_of_encode`) and the store of its size (`stores_of_isStore`), at the base plus the
zero-extended offset (`toNat_eaU`). -/
theorem compressedStoreResults : Obligations.CompressedStoreResults := by
  intro s rs2 rp rb iw id sw sd hc hx
  refine ⟨fun h4 hs => ?sw, fun h8 hw hs => ?sd, fun h4 hs => ?swsp, fun h8 hw hs => ?sdsp⟩
  case sw =>
    have hi : (Instr.cSw rb rp iw).wf s.params = true := wf_of hx (beq_iff_eq.mpr h4)
    exact ⟨decode16_of_encode hi, toNat_eaU (by decide) _ _, stores_of_isStore (.cSw ..) hi hc hs⟩
  case sd =>
    have hi : (Instr.cSd rb rp id).wf s.params = true := wf_of (met_compressed64 hx hw) (beq_iff_eq.mpr h8)
    exact ⟨decode16_of_encode hi, toNat_eaU (by decide) _ _, stores_of_isStore (.cSd ..) hi hc hs⟩
  case swsp =>
    have hi : (Instr.cSwsp rs2 sw).wf s.params = true := wf_of hx (beq_iff_eq.mpr h4)
    exact ⟨decode16_of_encode hi, toNat_eaU (by decide) _ _, stores_of_isStore (.cSwsp ..) hi hc hs⟩
  case sdsp =>
    have hi : (Instr.cSdsp rs2 sd).wf s.params = true := wf_of (met_compressed64 hx hw) (beq_iff_eq.mpr h8)
    exact ⟨decode16_of_encode hi, toNat_eaU (by decide) _ _, stores_of_isStore (.cSdsp ..) hi hc hs⟩

end Sys2Proof.Proofs
end

section
/-! SUPPORT. Faults without host callbacks (R410): where no page is a Trap page, no lookup asks the host and copy-on-write is the
default one, an access changes pages and bytes alone until it completes, so a fault finds the CPU as the instruction found it. -/

namespace Sys2Proof.Laws

open Sys2Proof.Machine

/-- No access can call the host (R435 to R437): no Trap page, a policy other than `Host`, the default page-write callback. -/
structure CallsNoHost (s : State) : Prop where
  pages : ∀ e ∈ s.pages, isTrapPage e.2 = false
  policy : s.params.pageFault ≠ .host
  pageWrite : s.pageWriteCallback = none

/-- `t` is `s` with other pages, none of them a Trap page, other bytes and other notes. -/
def MemoryMoved (s t : State) : Prop :=
  ∃ ps m hm u d, t = { withBytes s m hm u with pages := ps, draws := d } ∧ ∀ e ∈ ps, isTrapPage e.2 = false

/-! ### What an access changes before it completes -/

theorem memoryMoved_refl {s : State} (h : CallsNoHost s) : MemoryMoved s s := ⟨_, _, _, _, _, rfl, h.pages⟩

section
variable {s t : State} (h : MemoryMoved s t)
include h

theorem MemoryMoved.params : t.params = s.params := by
  obtain ⟨_, _, _, _, _, rfl, -⟩ := h
  rfl

theorem MemoryMoved.run : t.run = s.run := by
  obtain ⟨_, _, _, _, _, rfl, -⟩ := h
  rfl

theorem MemoryMoved.pageWriteCallback : t.pageWriteCallback = s.pageWriteCallback := by
  obtain ⟨_, _, _, _, _, rfl, -⟩ := h
  rfl

theorem MemoryMoved.notTrap {n : Nat} {p : Page} (hp : t.pageAt n = some p) : isTrapPage p = false := by
  obtain ⟨_, _, _, _, _, rfl, hps⟩ := h
  exact hps _ (mem_of_find hp)

theorem MemoryMoved.withBytes (m hm : List Host.Cell) (u : List (Place × Byte)) : MemoryMoved s (withBytes t m hm u) := by
  obtain ⟨ps, _, _, _, d, rfl, hps⟩ := h
  exact ⟨ps, m, hm, u, d, rfl, hps⟩

theorem MemoryMoved.undo (u : List (Place × Byte)) : MemoryMoved s { t with undo := u } := h.withBytes t.mem t.hostMem u

theorem MemoryMoved.drawn : MemoryMoved s t.drawn := by
  obtain ⟨ps, m, hm, u, d, rfl, hps⟩ := h
  exact ⟨ps, m, hm, u, d + 1, rfl, hps⟩

theorem MemoryMoved.setPage (n : Nat) {p : Page} (hp : isTrapPage p = false) : MemoryMoved s (t.setPage n p) := by
  obtain ⟨ps, m, hm, u, d, rfl, hps⟩ := h
  refine ⟨SMap.insert n p ps, m, hm, u, d, rfl, fun e he => ?_⟩
  obtain rfl | he := mem_insert he
  · exact hp
  · exact hps e he

theorem MemoryMoved.installPage (n : Nat) {p : Page} (bs : List Byte) (hp : isTrapPage p = false) :
    MemoryMoved s (t.installPage n p bs) := (h.setPage n hp).withBytes _ _ _

theorem MemoryMoved.storeInPage (a : Nat) (bs : List Byte) : MemoryMoved s (storeInPage a bs t) := by
  obtain ⟨m, hm, e⟩ := storeBytes_withBytes t a bs
  exact (show Machine.storeInPage a bs t = _ from e) ▸ h.withBytes m hm t.undo

theorem MemoryMoved.storeNoted (a : Nat) (bs : List Byte) : MemoryMoved s (storeNoted a bs t) := by
  induction bs generalizing t a with
  | nil => exact h
  | cons b bs ih =>
    obtain ⟨m, hm, e⟩ := putNoted_withBytes t (t.place a) b
    exact ih (e ▸ h.withBytes _ _ _) (a + 1)

theorem MemoryMoved.drawPartialStore : MemoryMoved s (drawPartialStore t) := by
  unfold Machine.drawPartialStore
  split
  · exact h
  · split
    · exact h.drawn.undo []
    · obtain ⟨m, hm, e⟩ := restoreBytes_withBytes t.undo t.drawn
      rw [e]
      exact (h.drawn.withBytes m hm t.drawn.undo).undo []

end

/-! ### The accesses -/

section
variable {s t : State} (hs : CallsNoHost s) (h : MemoryMoved s t)

section
include h

theorem moved_createOwned (n : Nat) (attr : PageAttr) : Keeps (MemoryMoved s) (createOwned n attr t) := by
  unfold createOwned
  split
  · exact h
  · exact h.installPage n [] rfl

theorem moved_promoteOwned (n : Nat) (p : Page) : Keeps (MemoryMoved s) (promoteOwned n p t) := by
  unfold promoteOwned
  split
  · exact h
  · exact h.setPage n rfl

end

include hs h

theorem moved_lookup (a : Nat) : Keeps (MemoryMoved s) (lookup a t) := by
  unfold lookup lookupWith
  split
  · exact h
  split
  next => exact h
  next => exact moved_createOwned h _ _
  next hp => exact absurd (h.params ▸ hp) hs.policy

theorem moved_writableWith (n : Nat) (p : Page) : Keeps (MemoryMoved s) (writableWith .outer n p t) := by
  unfold writableWith
  rw [h.pageWriteCallback, hs.pageWrite]
  split
  · exact moved_promoteOwned h n p
  · exact h

theorem moved_readPage (a n : Nat) : Keeps (MemoryMoved s) (readPage a n t) := by
  unfold readPage
  refine (moved_lookup hs h a).bindWith (fun p u => u.pageAt (pageOf a) = some p)
    (fun _ _ _ e => lookupWith_done pathsKeep_outer e) fun p u hu hp => ?_
  split
  · split
    next hv => simpa [isTrapPage, hv] using hu.notTrap hp
    all_goals exact hu
  · exact hu

theorem moved_writePage {store : Nat → List Byte → State → State} (a : Nat) (bs : List Byte)
    (hst : ∀ u, MemoryMoved s u → MemoryMoved s (store a bs u)) : Keeps (MemoryMoved s) (writePage store a bs t) := by
  unfold writePage
  refine (moved_lookup hs h a).bindWith (fun p u => u.pageAt (pageOf a) = some p)
    (fun _ _ _ e => lookupWith_done pathsKeep_outer e) fun p u hu hp => ?_
  refine (moved_writableWith hs hu (pageOf a) p).bindWith (fun q v => v.pageAt (pageOf a) = some q)
    (fun _ _ _ e => writableWith_done pathsKeep_outer hp e) fun q v hv hq => ?_
  split
  · split
    · trivial
    split
    next hvar => simpa [isTrapPage, hvar] using hv.notTrap hq
    all_goals exact hst v hv
  · exact hv

end

section
variable {s : State} (hs : CallsNoHost s)
include hs

theorem moved_readStraddling (n : Nat) (a : Word) {t : State} (h : MemoryMoved s t) :
    Keeps (MemoryMoved s) (readStraddling n a t) := by
  induction n generalizing t a with
  | zero => exact h
  | succ n ih => exact (moved_readPage hs h _ _).bind fun _ u hu => (ih _ hu).bind fun _ _ hv => hv

theorem moved_writeStraddling (bs : List Byte) (a : Word) {t : State} (h : MemoryMoved s t) :
    Keeps (MemoryMoved s) (writeStraddling bs a t) := by
  induction bs generalizing t a with
  | nil => exact h
  | cons b bs ih =>
    exact (moved_writePage hs h _ _ fun _ hu => hu.storeNoted _ _).bind fun _ u hu => ih _ hu

theorem moved_memRead (a : Word) (z : Size) {t : State} (h : MemoryMoved s t) : Keeps (MemoryMoved s) (memRead a z t) := by
  unfold memRead
  split
  · exact h
  split
  · exact (moved_readPage hs h _ _).bind fun _ _ hu => hu
  · exact (moved_readStraddling hs _ _ h).bind fun _ _ hu => hu

theorem moved_writeNoted (bs : List Byte) (a : Word) {t : State} (h : MemoryMoved s t) :
    Keeps (MemoryMoved s) (writeNoted bs a t) := by
  have hw := moved_writeStraddling hs bs a (h.undo [])
  unfold writeNoted
  split
  next e => rw [e] at hw; exact MemoryMoved.undo hw []
  next e => rw [e] at hw; exact MemoryMoved.drawPartialStore hw
  next => trivial

end

/-! ### Parts of an instruction whose faults are precise -/

/-- A fault of the part finds `s` with its memory moved; a part that is done has left the active run. -/
def FaultsPrecisely (s : State) {α : Type} (e : Effect α) : Prop :=
  match e with
  | .done _ t _ => t.run = s.run
  | .trapped _ _ t => MemoryMoved s t
  | .refused _ => True

theorem Keeps.faultsPrecisely {s : State} {α : Type} {e : Effect α} (h : Keeps (MemoryMoved s) e) : FaultsPrecisely s e := by
  cases e with
  | done a t w => exact MemoryMoved.run h
  | trapped tag detail t => exact h
  | refused r => trivial

theorem FaultsPrecisely.orWrote {s : State} {α : Type} {e : Effect α} (h : FaultsPrecisely s e) (w : Bool) :
    FaultsPrecisely s (e.orWrote w) := by
  cases e <;> exact h

/-- A part that moves memory alone, then one whose faults are precise. -/
theorem Keeps.bindPrecisely {s : State} {α β : Type} {e : Effect α} {f : α → State → Effect β} (he : Keeps (MemoryMoved s) e)
    (hf : ∀ a t, MemoryMoved s t → FaultsPrecisely s (f a t)) : FaultsPrecisely s (e.bind f) := by
  cases e with
  | done a t w => exact (hf a t he).orWrote w
  | trapped tag detail t => exact he
  | refused r => trivial

/-- A part whose faults are precise, then an update that cannot fault. -/
theorem FaultsPrecisely.bindPure {s : State} {α β : Type} {e : Effect α} {b : α → State → β} {g : α → State → State}
    (he : FaultsPrecisely s e) (hg : ∀ a t, (g a t).run = t.run) :
    FaultsPrecisely s (e.bind fun a t => .pure (b a t) (g a t)) := by
  cases e with
  | done a t w => exact (hg a t).trans he
  | trapped tag detail t => exact he
  | refused r => trivial

section
variable {s : State} (hs : CallsNoHost s)
include hs

theorem precise_memWrite (a : Word) (z : Size) (v : Word) {t : State} (h : MemoryMoved s t) :
    FaultsPrecisely s (memWrite a z v t) := by
  unfold memWrite
  split
  · exact h
  split
  · exact (moved_writePage hs h _ _ fun _ hu => hu.storeInPage _ _).faultsPrecisely.bindPure fun _ _ => rfl
  · exact (moved_writeNoted hs _ _ h).faultsPrecisely.bindPure fun _ _ => rfl

theorem precise_loadReserved (width : Width) (rd rs1 : Reg) : FaultsPrecisely s (loadReserved width rd rs1 s) := by
  have h := memoryMoved_refl hs
  unfold loadReserved
  split
  · exact h
  · exact (moved_memRead hs _ _ h).faultsPrecisely.bindPure fun _ _ => setReg_run ..

theorem precise_storeConditional (width : Width) (rd rs1 rs2 : Reg) :
    FaultsPrecisely s (storeConditional width rd rs1 rs2 s) := by
  have h := memoryMoved_refl hs
  unfold storeConditional
  split
  · exact h
  split
  · exact (precise_memWrite hs _ _ _ h).bindPure fun _ _ => setReg_run ..
  · exact setReg_run ..

theorem precise_atomicOp (op : AmoOp) (z : Size) (rd rs1 rs2 : Reg) : FaultsPrecisely s (atomicOp op z rd rs1 rs2 s) := by
  have h := memoryMoved_refl hs
  unfold atomicOp
  split
  · exact h
  · exact (moved_memRead hs _ _ h).bindPrecisely fun _ _ hu =>
      (precise_memWrite hs _ _ _ hu).bindPure fun _ _ => setReg_run ..

/-- Without a handler a system call faults before it changes anything (R304). -/
theorem precise_systemCall (n : Word) (hh : s.handlers = []) : FaultsPrecisely s (systemCall n s) := by
  have hm : SMap.find s.handlers n.toNat = none := by rw [hh]; rfl
  cases ht : s.params.throwOnUnhandledSyscall with
  | true => exact systemCall_unhandled_throws hm ht ▸ memoryMoved_refl hs
  | false =>
    by_cases hn : n = s.ebreakNumber
    · obtain e | e := systemCall_unhandled_ebreak hm ht hn
      · exact e ▸ rfl
      · exact e ▸ setReg_run ..
    · exact systemCall_unhandled hm ht hn ▸ setReg_run ..

end

/-! ### The instructions -/

/-- The outcome leaves the active run, or is a fault in `s` with its memory moved. -/
def EndsPrecisely (s : State) (o : Host.Outcome State Fault Refusal) : Prop :=
  ∀ t, o = .next t → t.run = s.run ∨ ∃ tag detail u, t = takeTrap tag detail u ∧ MemoryMoved s u

theorem endsPrecisely_finish {s : State} {e : Effect Unit} (len : Nat) (h : FaultsPrecisely s e) :
    EndsPrecisely s (finish len e) := by
  intro t ht
  obtain ⟨u, w, rfl, -, rfl⟩ | ⟨tag, detail, u, rfl, rfl⟩ := finish_next ht
  · exact .inl h
  · exact .inr ⟨tag, detail, u, rfl, h⟩

theorem endsPrecisely_retire {s t : State} (len : Nat) (w : Bool) (h : t.run = s.run) : EndsPrecisely s (retire len w t) :=
  endsPrecisely_finish (e := .done () t w) len h

theorem endsPrecisely_writeBack (s : State) (len : Nat) (rd : Reg) (v : Word) : EndsPrecisely s (writeBack len rd v s) :=
  endsPrecisely_retire _ _ (setReg_run ..)

theorem endsPrecisely_jumpTo {s t : State} (len : Nat) (v : Word) (h : t.run = s.run) : EndsPrecisely s (jumpTo len v t) :=
  endsPrecisely_retire _ _ h

theorem endsPrecisely_jumpRegister (s : State) {n : Nat} (len : Nat) (rd rs1 : Reg) (o : BitVec n) :
    EndsPrecisely s (jumpRegister len rd rs1 o s) := by
  unfold jumpRegister
  split
  · exact endsPrecisely_finish (e := .refused .jalrOddTarget) 0 trivial
  · exact endsPrecisely_jumpTo _ _ (setReg_run ..)

theorem endsPrecisely_branchIf (s : State) {n : Nat} (len : Nat) (c : Bool) (o : BitVec n) :
    EndsPrecisely s (branchIf len c o s) := by
  unfold branchIf
  split
  · exact endsPrecisely_jumpTo _ _ rfl
  · exact endsPrecisely_retire _ _ rfl

section
variable {s : State} (hs : CallsNoHost s)
include hs

theorem endsPrecisely_unimplemented (i : Instr) : EndsPrecisely s (unimplemented i s) := by
  have trap tag detail : EndsPrecisely s (.next (takeTrap tag detail s)) :=
    endsPrecisely_finish (e := .trapped tag detail s) 0 (memoryMoved_refl hs)
  unfold unimplemented
  split
  · split <;> exact trap _ _
  · exact trap _ _

theorem endsPrecisely_notExecuted {i : Instr} (e : exec i s = unimplemented i s) : EndsPrecisely s (exec i s) :=
  e ▸ endsPrecisely_unimplemented hs i

theorem endsPrecisely_guarded (i : Instr) {o : Host.Outcome State Fault Refusal} (ho : EndsPrecisely s o) :
    EndsPrecisely s (guarded i s o) := by
  unfold guarded
  split
  · exact ho
  · exact endsPrecisely_unimplemented hs i

theorem endsPrecisely_loadFrom (len : Nat) (z : Size) (sg : Bool) (rd : Reg) (ea : Word) :
    EndsPrecisely s (loadFrom len z sg rd ea s) :=
  endsPrecisely_finish len ((moved_memRead hs ea z (memoryMoved_refl hs)).faultsPrecisely.bindPure fun _ _ => setReg_run ..)

theorem endsPrecisely_storeTo (len : Nat) (z : Size) (ea v : Word) : EndsPrecisely s (storeTo len z ea v s) :=
  endsPrecisely_finish len (precise_memWrite hs ea z v (memoryMoved_refl hs))

/-- Every instruction, by the shapes of their meanings: where there is no handler it retires or faults precisely. -/
theorem endsPrecisely_exec (i : Instr) (hh : s.handlers = []) : EndsPrecisely s (exec i s) :=
  match i with
  | .lui .. | .auipc .. | .addi .. | .slti .. | .sltiu .. | .xori .. | .ori .. | .andi .. | .add .. | .sub .. | .sll .. | .slt ..
  | .sltu .. | .xor .. | .srl .. | .sra .. | .or .. | .and .. => endsPrecisely_writeBack s _ _ _
  | .slli .. | .srli .. | .srai .. | .addiw .. | .slliw .. | .srliw .. | .sraiw .. | .addw .. | .subw .. | .sllw .. | .srlw ..
  | .sraw .. | .cAddi4spn .. | .cAddi .. | .cAddiw .. | .cLi .. | .cAddi16sp .. | .cLui .. | .cSrli .. | .cSrai .. | .cAndi ..
  | .cSub .. | .cXor .. | .cOr .. | .cAnd .. | .cSubw .. | .cAddw .. | .cSlli .. | .cMv .. | .cAdd .. =>
    endsPrecisely_guarded hs _ (endsPrecisely_writeBack s _ _ _)
  | .jal .. => endsPrecisely_jumpTo _ _ (setReg_run ..)
  | .cJal .. | .cJ .. => endsPrecisely_guarded hs _ (endsPrecisely_jumpTo _ _ (setReg_run ..))
  | .jalr .. => endsPrecisely_jumpRegister s _ _ _ _
  | .cJr .. | .cJalr .. => endsPrecisely_guarded hs _ (endsPrecisely_jumpRegister s _ _ _ _)
  | .beq .. | .bne .. | .blt .. | .bge .. | .bltu .. | .bgeu .. => endsPrecisely_branchIf s _ _ _
  | .cBeqz .. | .cBnez .. => endsPrecisely_guarded hs _ (endsPrecisely_branchIf s _ _ _)
  | .lb .. | .lh .. | .lw .. | .lbu .. | .lhu .. => endsPrecisely_loadFrom hs _ _ _ _ _
  | .ld .. | .lwu .. | .cLw .. | .cLd .. | .cLwsp .. | .cLdsp .. =>
    endsPrecisely_guarded hs _ (endsPrecisely_loadFrom hs _ _ _ _ _)
  | .sb .. | .sh .. | .sw .. => endsPrecisely_storeTo hs _ _ _ _
  | .sd .. | .cSw .. | .cSd .. | .cSwsp .. | .cSdsp .. => endsPrecisely_guarded hs _ (endsPrecisely_storeTo hs _ _ _ _)
  | .lrW .. | .lrD .. => endsPrecisely_guarded hs _ (endsPrecisely_finish _ (precise_loadReserved hs _ _ _))
  | .scW .. | .scD .. => endsPrecisely_guarded hs _ (endsPrecisely_finish _ (precise_storeConditional hs _ _ _ _))
  | .amoswapW .. | .amoaddW .. | .amoxorW .. | .amoandW .. | .amoorW .. | .amominW .. | .amomaxW .. | .amominuW ..
  | .amomaxuW .. | .amoswapD .. | .amoaddD .. | .amoxorD .. | .amoandD .. | .amoorD .. | .amominD .. | .amomaxD ..
  | .amominuD .. | .amomaxuD .. => endsPrecisely_guarded hs _ (endsPrecisely_finish _ (precise_atomicOp hs _ _ _ _ _))
  | .fence .. => endsPrecisely_retire _ _ rfl
  | .cNop => endsPrecisely_guarded hs _ (endsPrecisely_retire _ _ rfl)
  | .ecall | .ebreak => endsPrecisely_finish _ (precise_systemCall hs _ hh)
  | .cEbreak => endsPrecisely_guarded hs _ (endsPrecisely_finish _ (precise_systemCall hs _ hh))
  | .fenceI .. | .mulDiv .. | .mulDivW .. | .csrrw .. | .csrrs .. | .csrrc .. | .csrrwi .. | .csrrsi .. | .csrrci ..
  | .systemFunct3_4 .. | .uret | .sret | .mret | .wfi | .sfenceVma .. | .loadFp .. | .storeFp .. | .fmadd .. | .fmsub ..
  | .fnmsub .. | .fnmadd .. | .opFp .. | .cFld .. | .cFsd .. | .cFldsp .. | .cFsdsp .. | .cFlw .. | .cFsw .. | .cFlwsp ..
  | .cFswsp .. | .cReserved00_4 .. | .cIllegal => endsPrecisely_notExecuted hs rfl

end

end Sys2Proof.Laws

namespace Sys2Proof.Proofs

open Sys2Proof.Machine Sys2Proof.Laws

/-- Settles O44: an execution that leaves no active run has faulted (`endsPrecisely_exec`), in a state that differs from the one before
it in pages and bytes alone. -/
theorem faultsArePrecise : Obligations.FaultsArePrecise := by
  intro i s t _ hh hp hf hw hr e hn
  obtain hrun | ⟨tag, detail, u, rfl, ps, m, hm, n, d, rfl, -⟩ := endsPrecisely_exec ⟨hp, hf, hw⟩ i hh t e
  · exact absurd (hrun.symm.trans hn) hr
  · exact ⟨fun _ => rfl, rfl, rfl, rfl, rfl, tag, detail, rfl⟩

end Sys2Proof.Proofs
end

section
/-! SUPPORT. A handler's script whose first operation completes, sets the pc or fails (R421, R432, R433). -/

namespace Sys2Proof.Laws

open Sys2Proof.Machine

/-- An operation that completes without setting the pc, then the rest of the script. -/
theorem runScript_done {p : PagePaths} {op : HostOp} {s u : State} {r : HostResult} (acts : List HostOp)
    (h : hostAct p op s = .pure r u) : runScript p (op :: acts) s = runScript p acts { u with hostResult := r } := by
  rw [runScript, h, bind_pure]

/-- An operation that fails ends the script (R421). -/
theorem runScript_failed {p : PagePaths} {op : HostOp} {s u : State} {tag : Tag} {detail : Nat} (acts : List HostOp)
    (h : hostAct p op s = .trapped tag detail u) : runScript p (op :: acts) s = .trapped tag detail u := by
  rw [runScript, h, bind_trapped]

theorem hostAct_setupCall_tooMany (p : PagePaths) (call ret : Word) {args : List Word} (s : State) (h : 8 < args.length) :
    hostAct p (.setupCall call ret args) s = .trapped .invalidArgument args.length s := if_pos h

/-- A write of one register and the reservation draw are a callback that wrote that register (R281). -/
theorem called_setReg (s : State) (q : Reg) (u : Word) :
    Called s q u (drawReservation { s.drawn.setReg q u with hostResult := .ok }) := by
  have hr : (s.drawn.setReg q u).resv = s.resv := by simp
  refine ⟨?_, ?_, ?_, (resvDrawn_drawReservation _).imp (·.trans hr) (·.trans (by rw [hr])), ?_, ?_, ?_,
    ⟨⟨?_, ?_, ?_, ?_, ?_, ?_⟩, ?_, ?_, ?_, ?_, ?_, ?_, ?_, ?_, ?_⟩⟩
  · show (s.drawn.setReg q u).regs = (s.setReg q u).regs
    unfold State.setReg
    split <;> rfl
  all_goals simp

/-- A callback whose script writes a register and then sets up a call with too many arguments ends with the failure of that
operation; the write stands (R410 item 3, R443). -/
theorem callHost_setReg_setupCall {s : State} {callback : Nat} {args : List Nat} {answer : HostAnswer} {q : Reg} {u call ret : Word}
    {vs : List Word} {acts : List HostOp} (h : answerOf callback args s = answer)
    (ha : answer.acts = .setReg q u :: .setupCall call ret vs :: acts) (hl : 8 < vs.length) :
    callHost callback args s =
      .trapped .invalidArgument vs.length (drawReservation { s.drawn.setReg q u with hostResult := .ok }) := by
  rw [callHost, callHostWith, h, ha, runScript_done _ rfl,
    runScript_failed acts (hostAct_setupCall_tooMany _ call ret _ hl), afterHost, bind_trapped]

theorem answerOf_declared {s : State} {callback : Nat} {answer : HostAnswer} (args : List Nat)
    (h : SMap.find s.scripts callback = some answer) : answerOf callback args s = answer := by
  rw [answerOf, h, Option.getD_some]

/-- An ECALL whose handler fails (R302, R421, R432). -/
theorem ecall_failed {s c : State} {handler : Nat} {tag : Tag} {detail : Nat} (hh : SMap.find s.handlers (s.ux 17) = some handler)
    (hc : callHost handler [s.ux 17] s = .trapped tag detail c) : exec .ecall s = .next (takeTrap tag detail c) := by
  have hs : systemCall (s.x 17) s = .trapped tag detail c := by
    rw [State.ux] at hh hc
    rw [systemCall, hh]
    dsimp only
    rw [hc, bind_trapped]
  rw [exec_ecall, execEcall, hs, finish_trapped]

/-- A write-back in a state with the registers and the counter of `s`, whose pc is written, retires from `s` at that pc. -/
theorem retired_pcWritten {s u : State} {rd : Reg} {v target : Word} (hc : s.counter ≠ counterMax) (hp : u.params = s.params)
    (hr : u.regs = s.regs) (hpc : u.pc = wrap s.w target) (hcnt : u.counter = s.counter) :
    Retired s { u.setReg rd v with pc := (u.setReg rd v).pc, counter := (u.setReg rd v).counter + 1 } target.toNat rd v.toNat := by
  have hw : s.w = u.w := (congrArg Params.w hp).symm
  refine ⟨?_, ?_, fun h0 => ?_, x_zero _, fun q hq => ?_⟩
  · rw [setReg_pc, hpc]
    exact toNat_wrap_mod rfl target
  · rw [setReg_counter, hcnt]
    exact counter_succ hc
  · refine (congrArg BitVec.toNat ((x_congr (s := u.setReg rd v) rfl rfl rd).trans (x_setReg_self u rd v))).trans ?_
    rw [if_neg (show ¬rd = 0#5 from h0)]
    exact toNat_wrap_mod hw v
  · exact ((x_congr (s := u.setReg rd v) rfl rfl q).trans (x_setReg_ne _ _ _ _ hq)).trans (x_congr hr hp q)

end Sys2Proof.Laws

namespace Sys2Proof.Proofs

open Sys2Proof.Machine Sys2Proof.Laws

/-- Settles O28: the handler sets the pc alone (`callHost_oneAct`), so the ECALL ends with its `a0` write and leaves the pc
(`ecall_answered`). -/
theorem systemCallSetsPc : Obligations.SystemCallSetsPc := by
  intro s h a v target hc hh hn hs ha hf hv
  obtain ⟨u, hu⟩ : ∃ u, u = drawReservation { s.drawn.setPc target with hostResult := .ok } := ⟨_, rfl⟩
  have hcall : callHost h [s.ux 17] s = .done a u true := hu ▸ callHost_oneAct _ hs ha hf rfl
  have e : exec .ecall s = retire 4 true (u.setReg 10 v) :=
    ecall_answered hh hn hcall (by rw [hu]; rfl) (by rw [answerValue, hv])
  rw [retire_next _ _ _ (by simpa [hu] using hc), if_pos rfl] at e
  have hdrawn : s.ResvDrawn u := hu ▸ resvDrawn_drawReservation { s.drawn.setPc target with hostResult := .ok }
  have hresv : (u.setReg 10 v).resv = u.resv := setReg_resv ..
  refine ⟨_, e, retired_pcWritten hc (by rw [hu]; rfl) (by rw [hu]; rfl) (by rw [hu]; rfl) (by rw [hu]; rfl), ?_, ?_, ?_,
    sameMemory_of ?_ ?_ ?_, ⟨?_, ?_, ?_, ?_, ?_, ?_⟩, hdrawn.imp hresv.trans hresv.trans⟩ <;>
    simp [hu]

/-- Settles O29: the handler ends in a state that differs in one register (`callHost_called`, `called_setReg`), with its own failure or
with that of its second operation, and so does the ECALL (`ecall_failed`). -/
theorem systemCallFails : Obligations.SystemCallFails := by
  intro s h a r u hh hs
  have ha : answerOf h [s.ux 17] s = a := answerOf_declared _ hs
  refine ⟨fun tag detail hacts hf => ?_, fun call ret args acts hacts hl => ?_⟩
  · obtain ⟨c, hcalled, hc⟩ := callHost_called ha hacts
    exact hcalled.hostFails (ecall_failed hh (hc.trans (answered_failed hf c)))
  · exact (called_setReg s r u).hostFails (ecall_failed hh (callHost_setReg_setupCall ha hacts hl))

end Sys2Proof.Proofs
end

section
/-! SUPPORT. Calls of the host between runs that set registers and the pc alone (R443, R444): what they leave, and what the set-up of a
guest call writes. -/

namespace Sys2Proof.Laws

open Sys2Proof.Machine

/-- `u` is `s` with other registers and another pc. -/
def CpuSet (s u : State) : Prop := ∃ g p, u = { s with regs := g, pc := p }

section
variable {s u : State}

theorem cpuSet_refl (s : State) : CpuSet s s := ⟨_, _, rfl⟩

theorem CpuSet.setReg (h : CpuSet s u) (r : Reg) (v : Word) : CpuSet s (u.setReg r v) := by
  obtain ⟨g, p, rfl⟩ := h
  unfold State.setReg
  split
  · exact ⟨g, p, rfl⟩
  · exact ⟨_, p, rfl⟩

theorem CpuSet.setPc (h : CpuSet s u) (v : Word) : CpuSet s (u.setPc v) := by
  obtain ⟨g, p, rfl⟩ := h
  exact ⟨g, _, rfl⟩

theorem CpuSet.setArgs (h : CpuSet s u) (r : Nat) (args : List Word) : CpuSet s (setArgs r args u) := by
  induction args generalizing u r with
  | nil => exact h
  | cons v args ih => exact ih (h.setReg _ v) (r + 1)

theorem CpuSet.params (h : CpuSet s u) : u.params = s.params := by
  obtain ⟨g, p, rfl⟩ := h
  rfl

end

/-! ### The answer of such a call -/

section
variable {s u : State} {rest : List HostOp}

theorem hostAnswered_of_cpuSet (r : HostResult) (hu : CpuSet (atCall s rest) u) :
    HostAnswered s { drawReservation u with hostResult := r } rest r := by
  obtain ⟨g, p, rfl⟩ := hu
  have hd := resvDrawn_drawReservation { atCall s rest with regs := g, pc := p }
  have hresv : ({ atCall s rest with regs := g, pc := p } : State).resv = s.resv := atBoundary_resv s
  rw [State.ResvDrawn, hresv] at hd
  exact ⟨rfl, rfl, atBoundary_run s, atBoundary_counter s, atBoundary_status s, atBoundary_stopped s, hd,
    sameMemory_of rfl rfl rfl, sameFixed_congr (sameFixed_atBoundary s), atBoundary_handlers s, atBoundary_scripts s⟩

variable (hr : s.run = none) {op : HostOp} (hq : s.hostCalls = op :: rest)
include hr hq

/-- A call that sets registers and the pc alone and answers `r`. -/
theorem step_cpuSet {r : HostResult} {w : Bool} (hu : CpuSet (atCall s rest) u)
    (h : hostCall op (atCall s rest) = answerHost (.done r u w)) :
    ∃ t, step s = .next t ∧ HostAnswered s t rest r ∧ (∀ q, t.x q = u.x q) ∧ t.pc = u.pc :=
  ⟨_, (step_hostCall hr hq).trans h, hostAnswered_of_cpuSet r hu, x_congr rfl rfl, rfl⟩

/-- A call that answers `r` and leaves the registers and the pc. -/
theorem step_cpuKept {r : HostResult} (h : hostCall op (atCall s rest) = answerHost (.pure r (atCall s rest))) :
    ∃ t, step s = .next t ∧ HostAnswered s t rest r ∧ (∀ q, t.x q = s.x q) ∧ t.pc = s.pc := by
  obtain ⟨t, et, ha, hx, hpc⟩ := step_cpuSet hr hq (cpuSet_refl _) h
  exact ⟨t, et, ha, fun q => (hx q).trans (x_atCall q), hpc.trans (atBoundary_pc s)⟩

/-- A call that fails before it changes anything. -/
theorem step_cpuFailed {tag : Tag} {detail : Nat}
    (h : hostCall op (atCall s rest) = answerHost (.trapped tag detail (atCall s rest))) :
    ∃ t, step s = .next t ∧ HostAnswered s t rest (.failed tag detail) ∧ (∀ q, t.x q = s.x q) ∧ t.pc = s.pc :=
  step_cpuKept hr hq h

end

/-! ### The guest call (R443) -/

theorem argReg_inj {i j : Nat} (hi : i < 32) (hj : j < 32) (h : BitVec.ofNat 5 i = BitVec.ofNat 5 j) : i = j := by
  simpa [Nat.mod_eq_of_lt hi, Nat.mod_eq_of_lt hj] using congrArg BitVec.toNat h

/-- A register none of the arguments goes to. -/
theorem x_setArgs_ne {args : List Word} {r : Nat} {s : State} {q : Reg} (h : ∀ k < args.length, q ≠ BitVec.ofNat 5 (r + k)) :
    (setArgs r args s).x q = s.x q := by
  induction args generalizing r s with
  | nil => rfl
  | cons v args ih =>
    have h0 : q ≠ BitVec.ofNat 5 r := h 0 (Nat.zero_lt_succ _)
    rw [setArgs, ih fun k hk => by rw [Nat.add_assoc, Nat.add_comm 1]; exact h (k + 1) (Nat.succ_lt_succ hk)]
    exact x_setReg_ne _ _ _ _ h0

/-- The register of argument `k`. -/
theorem x_setArgs_arg {args : List Word} {r : Nat} {s : State} (h0 : 0 < r) (hl : r + args.length ≤ 32) {k : Nat}
    (hk : k < args.length) : (setArgs r args s).x (BitVec.ofNat 5 (r + k)) = wrap s.w args[k] := by
  induction args generalizing r s k with
  | nil => exact absurd hk (Nat.not_lt_zero k)
  | cons v args ih =>
    rw [List.length_cons] at hl hk
    rw [setArgs]
    cases k with
    | zero =>
      have hne : ∀ j < args.length, BitVec.ofNat 5 r ≠ BitVec.ofNat 5 (r + 1 + j) := fun j hj e => by
        have := argReg_inj (by omega) (by omega) e
        omega
      have hz : ¬BitVec.ofNat 5 r = 0#5 := fun e => by
        have := argReg_inj (by omega) (by omega) e
        omega
      exact (x_setArgs_ne hne).trans ((x_setReg_self ..).trans (if_neg hz))
    | succ k =>
      have := ih (r := r + 1) (s := s.setReg (BitVec.ofNat 5 r) v) (by omega) (by omega) (k := k) (by omega)
      rwa [setReg_w, Nat.add_assoc, Nat.add_comm 1] at this

/-- The state a guest call with at most 8 arguments starts from. -/
def guestCall (call ret : Word) (args : List Word) (s : State) : State := (setArgs 10 args (s.setReg 1 ret)).setPc call

theorem setupCall_fits (call ret : Word) {args : List Word} (s : State) (h : args.length ≤ 8) :
    setupCall call ret args s = .done .ok (guestCall call ret args s) true := if_neg (not_lt.mpr h)

theorem cpuSet_guestCall (call ret : Word) (args : List Word) (s : State) : CpuSet s (guestCall call ret args s) :=
  (((cpuSet_refl s).setReg 1 ret).setArgs 10 args).setPc call

/-- What reads as the state of the guest call has the call set up. -/
theorem callSet_guestCall {s t : State} {rest : List HostOp} {call ret : Word} {args : List Word} (hl : args.length ≤ 8)
    (hx : ∀ q, t.x q = (guestCall call ret args (atCall s rest)).x q)
    (hpc : t.pc = (guestCall call ret args (atCall s rest)).pc) : CallSet s t call.toNat ret.toNat args := by
  have hw : s.w = (atCall s rest).w := (congrArg Params.w (atBoundary_params s)).symm
  have hx : ∀ q, t.x q = (setArgs 10 args ((atCall s rest).setReg 1 ret)).x q := fun q => (hx q).trans (x_congr rfl rfl q)
  have ha : (setArgs 10 args ((atCall s rest).setReg 1 ret)).w = (atCall s rest).w :=
    congrArg Params.w (((cpuSet_refl (atCall s rest)).setReg 1 ret).setArgs 10 args).params
  refine ⟨?_, ?_, fun k hk => ?_, fun r h1 hr => ?_⟩
  · rw [hpc, guestCall, State.setPc, ha]
    exact toNat_wrap_mod hw call
  · have h1 : ∀ k < args.length, (1 : Reg) ≠ BitVec.ofNat 5 (10 + k) := fun k hk e => by
      have := argReg_inj (i := 1) (by omega) (by omega) e
      omega
    rw [State.ux, hx, x_setArgs_ne h1, x_setReg_self, if_neg (by decide)]
    exact toNat_wrap_mod hw ret
  · rw [State.ux, hx, x_setArgs_arg (by omega) (by omega) hk, setReg_w]
    exact toNat_wrap_mod hw _
  · rw [hx, x_setArgs_ne hr, x_setReg_ne _ _ _ _ h1, x_atCall]

theorem vmcall_tooMany (target : Option Word) {args : List Word} (exec : Bool) (n : Nat) (s : State) (h : 8 < args.length) :
    vmcall target args exec n s = answerHost (.trapped .invalidArgument args.length s) := by
  have hs : vmcallSetup target args s = .trapped .invalidArgument args.length s := if_pos h
  rw [vmcall, hs]

theorem vmcall_unresolved {args : List Word} (exec : Bool) (n : Nat) (s : State) (h : args.length ≤ 8) :
    vmcall none args exec n s = .refused .unresolvedSymbol := by
  have hs : vmcallSetup none args s = .refused .unresolvedSymbol := if_neg (not_lt.mpr h)
  rw [vmcall, hs]

/-- A `vmcall` of a known address sets up the call to `exit_address`, and runs it when asked to. -/
theorem vmcall_resolved (a : Word) {args : List Word} (exec : Bool) (n : Nat) (s : State) (h : args.length ≤ 8) :
    vmcall (some a) args exec n s =
      if exec then .next (enterSimulate n (drawReservation (guestCall a s.exitAddress args s)))
      else answerHost (.done .ok (guestCall a s.exitAddress args s) true) := by
  have hs : vmcallSetup (some a) args s = .done .ok (guestCall a s.exitAddress args s) true :=
    (if_neg (not_lt.mpr h)).trans (setupCall_fits _ _ _ h)
  rw [vmcall, hs]

/-! ### The stack pointer (R444) -/

/-- Clearing the low `k` bits rounds down to a multiple of `2^k`. -/
theorem toNat_clearLow (v : Word) (k : Nat) :
    (v &&& ~~~BitVec.ofNat 64 (2 ^ k - 1)).toNat = v.toNat - v.toNat % 2 ^ k := by
  have h : v &&& ~~~BitVec.ofNat 64 (2 ^ k - 1) = (v >>> k) <<< k := by
    ext i hi
    have hm : (BitVec.ofNat 64 (2 ^ k - 1))[i] = decide (i < k) := by
      rw [BitVec.getElem_eq_testBit_toNat, BitVec.toNat_ofNat, Nat.testBit_mod_two_pow, Nat.testBit_two_pow_sub_one,
        decide_eq_true hi, Bool.true_and]
    by_cases hk : i < k
    · simp [hm, hk]
    · have hki : k + (i - k) = i := by omega
      simp [hm, hk, hki, BitVec.getLsbD_eq_getElem hi]
  have hle : v.toNat / 2 ^ k * 2 ^ k ≤ v.toNat := Nat.div_mul_le_self _ _
  rw [h, BitVec.toNat_shiftLeft, BitVec.toNat_ushiftRight, Nat.shiftRight_eq_div_pow, Nat.shiftLeft_eq,
    Nat.mod_eq_of_lt (lt_of_le_of_lt hle v.isLt)]
  have := Nat.div_add_mod' v.toNat (2 ^ k)
  omega

/-- The stack pointer after `realign_stack`: `sp` rounded down, as the mask of the model gives it. -/
theorem ux_realigned (s : State) (k : Nat) :
    (s.setReg 2 (s.x 2 &&& ~~~BitVec.ofNat 64 (2 ^ k - 1))).ux 2 = s.ux 2 - s.ux 2 % 2 ^ k := by
  have hlt : (s.x 2).toNat < 2 ^ s.w.xlen := canonical_iff.mp (canonical_x s 2)
  rw [State.ux, x_setReg_self, if_neg (by decide), toNat_wrap, toNat_clearLow, State.ux,
    Nat.mod_eq_of_lt (lt_of_le_of_lt (Nat.sub_le _ _) hlt)]

theorem realignStack_allowed {align : Nat} (s : State) (h : align = 4 ∨ align = 8 ∨ align = 16) :
    realignStack align s = .pure .ok (s.setReg 2 (s.x 2 &&& ~~~BitVec.ofNat 64 (align - 1))) := if_pos h

theorem realignStack_refused {align : Nat} (s : State) (h : ¬(align = 4 ∨ align = 8 ∨ align = 16)) :
    realignStack align s = .trapped .invalidAlignment align s := if_neg h

theorem twoPow_of_align {align : Nat} (h : align = 4 ∨ align = 8 ∨ align = 16) : ∃ k, align = 2 ^ k := by
  obtain rfl | rfl | rfl := h
  · exact ⟨2, rfl⟩
  · exact ⟨3, rfl⟩
  · exact ⟨4, rfl⟩

end Sys2Proof.Laws

namespace Sys2Proof.Proofs

open Sys2Proof.Machine Sys2Proof.Laws

/-- Settles O48: with at most 8 arguments `setup_call` leaves the state of the guest call (`callSet_guestCall`), with more it fails before
it changes anything (`step_cpuFailed`); `stop()` sets the flag on the boundary's state. -/
theorem setupCallResult : Obligations.SetupCallResult := by
  intro s call ret args rest hr
  refine ⟨fun hq hl => ?_, fun hq hl => ?_, fun hq => ?_⟩
  · obtain ⟨t, et, ha, hx, hpc⟩ := step_cpuSet hr hq (cpuSet_guestCall call ret args (atCall s rest))
      (congrArg answerHost (setupCall_fits call ret (atCall s rest) hl))
    exact ⟨t, et, ha, callSet_guestCall hl hx hpc⟩
  · exact step_cpuFailed hr hq (congrArg answerHost (if_pos hl))
  · exact ⟨_, step_hostCall hr hq, rfl, x_atCall (rest := rest), atBoundary_pc s, atBoundary_counter s, atBoundary_status s,
      (atBoundary_run s).trans hr, sameMemory_of rfl rfl rfl⟩

/-- Settles O49: `vmcall` in its cases (`vmcall_tooMany`, `vmcall_unresolved`, `vmcall_resolved`); the call it sets up returns to
`exit_address`, which no boundary changes. -/
theorem vmcallResult : Obligations.VmcallResult := by
  intro s target args max run rest hr hq
  refine ⟨fun hl => step_cpuFailed hr hq (vmcall_tooMany target run max _ hl), fun hl ht => ?_, fun hl a ht => ?_⟩
  · subst ht
    exact (step_hostCall hr hq).trans (vmcall_unresolved run max _ hl)
  · subst ht
    obtain ⟨u, hu⟩ : ∃ u, u = guestCall a (atCall s rest).exitAddress args (atCall s rest) := ⟨_, rfl⟩
    have e : step s = if run then .next (enterSimulate max (drawReservation u)) else answerHost (.done .ok u true) := by
      rw [step_hostCall hr hq, hu]
      exact vmcall_resolved a run max _ hl
    have hset : ∀ t : State, (∀ q, t.x q = u.x q) → t.pc = u.pc → CallSet s t a.toNat s.exitAddress.toNat args := by
      rw [hu, show (atCall s rest).exitAddress = s.exitAddress from atBoundary_exitAddress s]
      exact fun t => callSet_guestCall (rest := rest) hl
    obtain ⟨g, p, rfl⟩ : CpuSet (atCall s rest) u := hu ▸ cpuSet_guestCall _ _ _ _
    cases run with
    | true =>
      have kept : MachineKept s (enterSimulate max (drawReservation { atCall s rest with regs := g, pc := p })) rest :=
        machineKept_of
      exact ⟨_, e, hset _ (x_congr rfl rfl) rfl, atBoundary_counter s, kept.memory, kept.fixed, kept.hostCalls,
        fun _ => ⟨rfl, rfl, congrArg (fun c => some (Run.mk c max)) (atBoundary_counter s)⟩, nofun⟩
    | false =>
      have ha := hostAnswered_of_cpuSet (s := s) (rest := rest) .ok ⟨g, p, rfl⟩
      exact ⟨_, e, hset _ (x_congr rfl rfl) rfl, ha.counter, ha.memory, ha.fixed, ha.hostCalls, nofun,
        fun _ => ⟨ha.status, ha.stopped, ha.run.trans hr, ha.result⟩⟩

/-- Settles O50: an allowed alignment is a power of two, and the model's mask rounds down to its multiples (`ux_realigned`); any other
fails before it changes anything. -/
theorem realignStackResult : Obligations.RealignStackResult := by
  intro s align rest hr hq
  refine ⟨fun ha => ?_, fun ha => step_cpuFailed hr hq (congrArg answerHost (realignStack_refused _ ha))⟩
  obtain ⟨t, et, hans, hx, hpc⟩ := step_cpuSet hr hq ((cpuSet_refl _).setReg 2 _)
    (congrArg answerHost (realignStack_allowed (atCall s rest) ha))
  obtain ⟨k, rfl⟩ := twoPow_of_align ha
  have hsp : (atCall s rest).ux 2 = s.ux 2 := congrArg BitVec.toNat (x_atCall 2)
  refine ⟨t, et, hans, ?_, fun q hq => ?_, ?_⟩
  · rw [← hsp, ← ux_realigned, State.ux, hx, State.ux]
  · rw [hx, x_setReg_ne _ _ _ _ hq, x_atCall]
  · rw [hpc, setReg_pc, atCall, atBoundary_pc]

end Sys2Proof.Proofs
end

section
/-! SUPPORT. Strings read by the host (R445, R446): byte by byte over pages that are mapped and no Trap pages, whatever their
permissions, up to the NUL or the limit. -/

namespace Sys2Proof.Laws

open Sys2Proof.Machine

/-- The host reads the byte at `a` without a lookup miss or a Trap page (R445). -/
def HostReads (s : State) (a : Nat) : Prop := ∃ p, s.pageAt (pageOf a) = some p ∧ isTrapPage p = false

theorem bulkReadByte_hostReads (p : PagePaths) {s : State} {a : Nat} (h : HostReads s a) :
    bulkReadByte p a s = .pure (s.byte a) s := by
  obtain ⟨page, hp, ht⟩ := h
  simp [bulkReadByte, lookupWith_mapped p hp, ht]

theorem byteAddr_wrap (s : State) (a : Word) (k : Nat) : s.byteAddr (wrap s.w a) k = s.byteAddr a k := by
  rw [State.byteAddr, toNat_wrap, Nat.mod_add_mod, State.byteAddr]

section
variable (p : PagePaths) {s : State}

/-- The first byte of a string, then the rest. -/
theorem readString_succ {n : Nat} {a : Word} (ha : canonical s.w a) (h : HostReads s (s.byteAddr a 0)) :
    readString p (n + 1) a s =
      if s.byte (s.byteAddr a 0) = 0 then .pure (some []) s
      else (readString p n (wrap s.w (a + 1)) s).bind fun r t => .pure (r.map (s.byte (s.byteAddr a 0) :: ·)) t := by
  rw [byteAddr_zero ha] at h ⊢
  rw [readString, bulkReadByte_hostReads p h, bind_pure]
  rfl

/-- A string with its first NUL at `k`, below the limit. -/
theorem readString_nul {n k : Nat} {a : Word} (ha : canonical s.w a) (hr : ∀ j < n, HostReads s (s.byteAddr a j)) (hk : k < n)
    (hne : ∀ j < k, s.byte (s.byteAddr a j) ≠ 0) (h0 : s.byte (s.byteAddr a k) = 0) :
    readString p n a s = .pure (some ((List.range k).map fun j => s.byte (s.byteAddr a j))) s := by
  induction n generalizing k a with
  | zero => exact absurd hk (Nat.not_lt_zero k)
  | succ n ih =>
    rw [readString_succ p ha (hr 0 (Nat.zero_lt_succ n))]
    cases k with
    | zero => rw [if_pos h0]; rfl
    | succ k =>
      have tail := ih (k := k) (canonical_wrap s.w (a + 1)) (fun j hj => by rw [byteAddr_succ]; exact hr _ (Nat.succ_lt_succ hj))
        (Nat.lt_of_succ_lt_succ hk) (fun j hj => by rw [byteAddr_succ]; exact hne _ (Nat.succ_lt_succ hj))
        (by rw [byteAddr_succ]; exact h0)
      rw [if_neg (hne 0 (Nat.zero_lt_succ k)), tail, bind_pure, List.range_succ_eq_map, List.map_cons, List.map_map]
      simp only [byteAddr_succ, Option.map_some]
      rfl

/-- No NUL below the limit. -/
theorem readString_noNul {n : Nat} {a : Word} (ha : canonical s.w a) (hr : ∀ j < n, HostReads s (s.byteAddr a j))
    (hne : ∀ j < n, s.byte (s.byteAddr a j) ≠ 0) : readString p n a s = .pure none s := by
  induction n generalizing a with
  | zero => rfl
  | succ n ih =>
    have tail := ih (canonical_wrap s.w (a + 1)) (fun j hj => by rw [byteAddr_succ]; exact hr _ (Nat.succ_lt_succ hj))
      (fun j hj => by rw [byteAddr_succ]; exact hne _ (Nat.succ_lt_succ hj))
    rw [readString_succ p ha (hr 0 (Nat.zero_lt_succ n)), if_neg (hne 0 (Nat.zero_lt_succ n)), tail, bind_pure]
    rfl

end

/-! ### `memstring` and `strlen` by what the string read gives -/

section
variable {p : PagePaths} {s : State} {a : Word} {n : Nat}

theorem hostAct_memstring {bs : List Byte} (h : readString p n (wrap s.w a) s = .pure (some bs) s) :
    hostAct p (.memstring a n) s = .pure (.data bs) s := by
  rw [hostAct, h, bind_pure]

theorem hostAct_memstring_overLimit (h : readString p n (wrap s.w a) s = .pure none s) :
    hostAct p (.memstring a n) s = .trapped .stringOverLimit (wrap s.w a).toNat s := by
  rw [hostAct, h, bind_pure]

theorem hostAct_strlen {bs : List Byte} (h : readString p n (wrap s.w a) s = .pure (some bs) s) :
    hostAct p (.strlen a n) s = .pure (.value bs.length) s := by
  rw [hostAct, h, bind_pure]

theorem hostAct_strlen_overLimit (h : readString p n (wrap s.w a) s = .pure none s) :
    hostAct p (.strlen a n) s = .trapped .stringOverLimit (wrap s.w a).toNat s := by
  rw [hostAct, h, bind_pure]

end

end Sys2Proof.Laws

namespace Sys2Proof.Proofs

open Sys2Proof.Machine Sys2Proof.Laws

/-- Settles O51: on the boundary's state the read gives the bytes before the NUL (`readString_nul`) or none (`readString_noNul`); the two
operations answer from it and change nothing. -/
theorem stringReadResult : Obligations.StringReadResult := by
  intro s a maxlen k rest hr hm hne
  have hw : (atCall s rest).w = s.w := congrArg Params.w (atBoundary_params s)
  have haddr : ∀ j, (atCall s rest).byteAddr (wrap (atCall s rest).w a) j = s.byteAddr a j := fun j =>
    (byteAddr_wrap _ _ _).trans (byteAddr_congr (atBoundary_params s) a j)
  have hbyte : ∀ j, (atCall s rest).byte ((atCall s rest).byteAddr (wrap (atCall s rest).w a) j) =
      (atBoundary s).byte (s.byteAddr a j) := fun j => by rw [haddr, byte_atCall]
  have hreads : ∀ j < maxlen, HostReads (atCall s rest) ((atCall s rest).byteAddr (wrap (atCall s rest).w a) j) := by
    intro j hj
    rw [haddr, HostReads, pageAt_atCall]
    exact hm j hj
  have hnul : k < maxlen → (atBoundary s).byte (s.byteAddr a k) = 0 →
      readString .outer maxlen (wrap (atCall s rest).w a) (atCall s rest) =
        .pure (some ((List.range k).map fun j => (atBoundary s).byte (s.byteAddr a j))) (atCall s rest) := by
    intro hk h0
    rw [readString_nul _ (canonical_wrap _ a) hreads hk (fun j hj => by rw [hbyte]; exact hne j hj) (by rw [hbyte]; exact h0)]
    simp only [hbyte]
  have hno : k = maxlen → readString .outer maxlen (wrap (atCall s rest).w a) (atCall s rest) = .pure none (atCall s rest) :=
    fun hk => readString_noNul _ (canonical_wrap _ a) hreads fun j hj => by rw [hbyte]; exact hne j (hk ▸ hj)
  rw [← toNat_wrap_atCall (rest := rest)]
  refine ⟨fun hq => ⟨fun hk h0 => ?_, fun hk => ?_⟩, fun hq => ⟨fun hk h0 => ?_, fun hk => ?_⟩⟩
  · exact step_cpuKept hr hq (congrArg answerHost (hostAct_memstring (hnul hk h0)))
  · exact step_cpuFailed hr hq (congrArg answerHost (hostAct_memstring_overLimit (hno hk)))
  · simpa using step_cpuKept hr hq (congrArg answerHost (hostAct_strlen (hnul hk h0)))
  · exact step_cpuFailed hr hq (congrArg answerHost (hostAct_strlen_overLimit (hno hk)))

end Sys2Proof.Proofs
end

section
/-! SUPPORT. Restoring a snapshot (R447): each page is bound once, its bytes are those of the snapshot or of the host's buffer, and no
later page of the snapshot changes them. -/

namespace Sys2Proof.Laws

open Sys2Proof.Machine

/-! ### The host's buffer -/

/-- The host's write leaves its bytes at the buffer's addresses, modulo `2^64`, ascending (R93). -/
theorem storedAt_writeBuffer (s : State) (ptr : HostAddr) (bs : List Byte) :
    StoredAt s (writeBuffer ptr bs s) (fun k => .host (ptr + BitVec.ofNat 64 k).toNat) bs := by
  induction bs generalizing s ptr with
  | nil => exact storedAt_nil ..
  | cons b bs ih =>
    have hptr : ∀ k, ptr + 1 + BitVec.ofNat 64 k = ptr + BitVec.ofNat 64 (k + 1) := fun k => by
      rw [BitVec.ofNat_add, BitVec.add_assoc, BitVec.add_comm (1 : HostAddr)]
      rfl
    refine storedAt_cons (s' := s.hostPut (.host ptr.toNat) b) (fun p => ?_) ?_
    · simpa using get_hostPut s (.host ptr.toNat) p b
    · have tail := ih (s.hostPut (.host ptr.toNat) b) (ptr + 1)
      simp only [hptr] at tail
      exact tail

/-- The host's write changes the host's memory and notes alone. -/
theorem writeBuffer_withBytes (s : State) (ptr : HostAddr) (bs : List Byte) :
    ∃ hm u, writeBuffer ptr bs s = withBytes s s.mem hm u := by
  induction bs generalizing s ptr with
  | nil => exact ⟨_, _, rfl⟩
  | cons b bs ih =>
    obtain ⟨hm, u, e⟩ := ih (s.hostPut (.host ptr.toNat) b) (ptr + 1)
    exact ⟨hm, u, e⟩

/-- The host's memory holds the bytes of the backing at its buffer. -/
def HoldsBuffer (k : Backing) (s : State) : Prop :=
  ∀ i (hi : i < k.bytes.length), s.get (.host (k.buffer + BitVec.ofNat 64 i).toNat) = k.bytes[i]

theorem holdsBuffer_writeBuffer {k : Backing} (s : State) (hl : k.bytes.length ≤ pageSize) :
    HoldsBuffer k (writeBuffer k.buffer k.bytes s) := by
  intro i hi
  refine (storedAt_writeBuffer s k.buffer k.bytes).1 i hi fun j hij hj e => ?_
  have hji := congrArg BitVec.toNat (add_left_cancel (BitVec.eq_of_toNat_eq (Place.host.inj e)))
  simp only [BitVec.toNat_ofNat, pageSize] at hji hl
  omega

/-! ### One page -/

theorem installPage_withBytes (s : State) (n : Nat) (p : Page) (bs : List Byte) :
    ∃ m u, s.installPage n p bs = { withBytes s m s.hostMem u with pages := SMap.insert n p s.pages } :=
  ⟨(s.installPage n p bs).mem, (s.installPage n p bs).undo, rfl⟩

/-- The bytes of an installed page of the Machine's own (R52). -/
theorem get_installPage_own {s : State} {n a : Nat} {p : Page} (bs : List Byte) (hb : p.variant.buffer? = none) (ha : pageOf a = n)
    (hl : bs.length = pageSize) : (s.installPage n p bs).get (.guest a) = bs.getD (a - n * pageSize) 0 := by
  have hin : n * pageSize ≤ a ∧ a < n * pageSize + bs.length := by
    simp only [pageOf, pageSize] at *
    omega
  show Memory.read (s.installPage n p bs).mem a = _
  rw [installPage_mem, hb, if_neg (by simp), List.take_of_length_le hl.le, read_writeBytes, if_pos hin]

/-- A byte of another page. -/
theorem get_installPage_ne {s : State} {n a : Nat} {p : Page} (bs : List Byte) (ha : pageOf a ≠ n) :
    (s.installPage n p bs).get (.guest a) = s.get (.guest a) := by
  show Memory.read (s.installPage n p bs).mem a = Memory.read s.mem a
  have hlen : (if p.variant.buffer?.isSome then [] else bs.take pageSize).length ≤ pageSize := by split <;> simp
  have hout : ¬(n * pageSize ≤ a ∧ a < n * pageSize + (if p.variant.buffer?.isSome then [] else bs.take pageSize).length) := by
    simp only [pageOf, pageSize] at *
    omega
  rw [installPage_mem, read_writeBytes, if_neg hout]
  simp [Memory.read, Memory.clearPage, find_dropKeys, ha]

theorem length_stateBytes (s : State) (a n : Nat) : (s.bytes a n).length = n := by simp [State.bytes]

theorem getD_pageBytes (s : State) {n a : Nat} (ha : pageOf a = n) :
    (s.bytes (n * pageSize) pageSize).getD (a - n * pageSize) 0 = s.byte a := by
  have h1 : a - n * pageSize < pageSize ∧ n * pageSize + (a - n * pageSize) = a := by
    simp only [pageOf, pageSize] at *
    omega
  simp [State.bytes, h1]

/-- The variant a page is restored with, where the host gives what it needs (R447). -/
def restoredVariant (h : Restorer) (n : Nat) (v : Variant) : Option Variant :=
  match v with
  | .owned => some .owned
  | .sharedRO => some .sharedRO
  | .nonOwned .. => (SMap.find h.backing n).map fun k => .nonOwned k.buffer k.external
  | .trap .. => (SMap.find h.trapCallbacks n).map fun callback => .trap callback none

/-- The page's bytes are the engine's own (R53). -/
def isEngineHeld (p : Page) : Prop := p.variant = .owned ∨ p.variant = .sharedRO

/-- `t` is `u` with the pages `ps` of `s` restored, and no other page or guest byte changed. -/
structure PagesRestored (h : Restorer) (s : State) (ps : List (Nat × Page)) (u t : State) : Prop where
  memoryOnly : ∃ pages m hm un, t = { withBytes u m hm un with pages := pages }
  page : ∀ e ∈ ps, ∀ v, restoredVariant h e.1 e.2.variant = some v → t.pageAt e.1 = some ⟨e.2.attr, v⟩
  bytes : ∀ e ∈ ps, isEngineHeld e.2 → ∀ a, pageOf a = e.1 → t.get (.guest a) = s.byte a
  otherPages : ∀ n, (∀ e ∈ ps, n ≠ e.1) → t.pageAt n = u.pageAt n
  otherBytes : ∀ a, (∀ e ∈ ps, pageOf a ≠ e.1) → t.get (.guest a) = u.get (.guest a)
  buffer : ∀ n k, h.backing = [(n, k)] → k.bytes.length ≤ pageSize →
    (HoldsBuffer k u ∨ ∃ e ∈ ps, isNonOwned e.2 = true) → HoldsBuffer k t

theorem pagesRestored_nil (h : Restorer) (s u : State) : PagesRestored h s [] u u :=
  ⟨⟨_, _, _, _, rfl⟩, nofun, nofun, fun _ _ => rfl, fun _ _ => rfl, fun _ _ _ _ hb => hb.elim id nofun⟩

/-- One page, then others of other numbers. -/
theorem PagesRestored.cons {h : Restorer} {s u u' t : State} {e : Nat × Page} {ps : List (Nat × Page)}
    (h1 : PagesRestored h s [e] u u') (h2 : PagesRestored h s ps u' t) (hne : ∀ e' ∈ ps, e.1 ≠ e'.1) :
    PagesRestored h s (e :: ps) u t where
  memoryOnly := by
    obtain ⟨_, _, _, _, rfl⟩ := h1.memoryOnly
    obtain ⟨pages, m, hm, un, rfl⟩ := h2.memoryOnly
    exact ⟨pages, m, hm, un, rfl⟩
  page e' he v hv := by
    obtain rfl | he := List.mem_cons.mp he
    · exact (h2.otherPages _ hne).trans (h1.page _ (List.mem_singleton.mpr rfl) v hv)
    · exact h2.page e' he v hv
  bytes e' he ho a ha := by
    obtain rfl | he := List.mem_cons.mp he
    · exact (h2.otherBytes a (ha ▸ hne)).trans (h1.bytes _ (List.mem_singleton.mpr rfl) ho a ha)
    · exact h2.bytes e' he ho a ha
  otherPages n hn := (h2.otherPages n fun e' he => hn e' (List.mem_cons_of_mem _ he)).trans
    (h1.otherPages n fun e' he => hn e' (List.mem_singleton.mp he ▸ List.mem_cons_self ..))
  otherBytes a ha := (h2.otherBytes a fun e' he => ha e' (List.mem_cons_of_mem _ he)).trans
    (h1.otherBytes a fun e' he => ha e' (List.mem_singleton.mp he ▸ List.mem_cons_self ..))
  buffer n k hk hl hb := by
    refine h2.buffer n k hk hl ?_
    obtain hb | ⟨e', he, ho⟩ := hb
    · exact .inl (h1.buffer n k hk hl (.inl hb))
    · obtain rfl | he := List.mem_cons.mp he
      · exact .inl (h1.buffer n k hk hl (.inr ⟨_, List.mem_singleton.mpr rfl, ho⟩))
      · exact .inr ⟨e', he, ho⟩

/-- A page installed over `u'`, which is `u` but for the host's memory, is that page restored. -/
theorem pagesRestored_installPage {h : Restorer} {s u u' : State} {n : Nat} {p : Page} {v : Variant} {bs : List Byte}
    (hv : restoredVariant h n p.variant = some v) (hu : ∃ hm un, u' = withBytes u u.mem hm un)
    (hbs : isEngineHeld p → v.buffer? = none ∧ bs = s.bytes (n * pageSize) pageSize)
    (hbuf : ∀ m k, h.backing = [(m, k)] → k.bytes.length ≤ pageSize → (HoldsBuffer k u ∨ isNonOwned p = true) → HoldsBuffer k u') :
    PagesRestored h s [(n, p)] u (u'.installPage n ⟨p.attr, v⟩ bs) := by
  obtain ⟨hm, un, rfl⟩ := hu
  obtain ⟨m, un', em⟩ := installPage_withBytes (withBytes u u.mem hm un) n ⟨p.attr, v⟩ bs
  refine ⟨⟨SMap.insert n ⟨p.attr, v⟩ u.pages, m, hm, un', em⟩, ?_, ?_, fun m hm => ?_, fun a ha => ?_, fun m k hk hl hb => ?_⟩
  · intro e he w hw
    obtain rfl := List.mem_singleton.mp he
    obtain rfl := Option.some.inj (hv.symm.trans hw)
    exact pageAt_installPage ..
  · intro e he ho a ha
    obtain rfl := List.mem_singleton.mp he
    obtain ⟨hb, hbytes⟩ := hbs ho
    rw [hbytes, get_installPage_own _ hb ha (length_stateBytes ..)]
    exact getD_pageBytes s ha
  · exact pageAt_installPage_ne (hm _ (List.mem_singleton.mpr rfl))
  · exact get_installPage_ne _ (ha _ (List.mem_singleton.mpr rfl))
  · refine hbuf m k hk hl (hb.imp_right ?_)
    rintro ⟨e, he, ho⟩
    obtain rfl := List.mem_singleton.mp he
    exact ho

theorem find_singleton {α : Type} {n m : Nat} {v w : α} (h : SMap.find [(n, v)] m = some w) : w = v := by
  unfold SMap.find at h
  split at h
  · exact (Option.some.inj h).symm
  · cases h

/-- The snapshot of one page is restored with the variant the host gives it. -/
theorem restorePage_restored {h : Restorer} (s u : State) {n : Nat} {p : Page} {v : Variant}
    (hv : restoredVariant h n p.variant = some v) :
    ∃ t, restorePage h (snapshotPage s (n, p)) u = some t ∧ PagesRestored h s [(n, p)] u t := by
  obtain ⟨attr, variant⟩ := p
  have unchanged : ∃ hm un, u = withBytes u u.mem hm un := ⟨_, _, rfl⟩
  cases variant with
  | owned =>
    cases hv
    exact ⟨_, rfl, pagesRestored_installPage rfl unchanged (fun _ => ⟨rfl, rfl⟩) fun _ _ _ _ hb => hb.elim id nofun⟩
  | sharedRO =>
    cases hv
    exact ⟨_, rfl, pagesRestored_installPage rfl unchanged (fun _ => ⟨rfl, rfl⟩) fun _ _ _ _ hb => hb.elim id nofun⟩
  | nonOwned buffer external =>
    obtain ⟨k, hk, rfl⟩ := Option.map_eq_some_iff.mp hv
    refine ⟨_, congrArg (Option.map _) hk, pagesRestored_installPage hv (writeBuffer_withBytes u k.buffer k.bytes) ?_
      fun m k' hk' hl _ => ?_⟩
    · rintro (ho | ho) <;> cases ho
    · rw [hk'] at hk
      cases find_singleton hk
      exact holdsBuffer_writeBuffer u hl
  | trap callback buffer =>
    obtain ⟨callback', hc, rfl⟩ := Option.map_eq_some_iff.mp hv
    refine ⟨_, congrArg (Option.map _) hc, pagesRestored_installPage hv unchanged ?_ fun _ _ _ _ hb => hb.elim id nofun⟩
    rintro (ho | ho) <;> cases ho

/-! ### All pages -/

theorem restorePages_restored {h : Restorer} (s : State) {ps : List (Nat × Page)} (hs : SMap.sorted ps)
    (hv : ∀ e ∈ ps, ∃ v, restoredVariant h e.1 e.2.variant = some v) (u : State) :
    ∃ t, restorePages h (ps.map (snapshotPage s)) u = .pure () t ∧ PagesRestored h s ps u t := by
  induction ps generalizing u with
  | nil => exact ⟨u, rfl, pagesRestored_nil h s u⟩
  | cons e ps ih =>
    obtain ⟨hlt, hs⟩ := List.pairwise_cons.mp hs
    obtain ⟨v, hv0⟩ := hv e (List.mem_cons_self ..)
    obtain ⟨u', e1, h1⟩ := restorePage_restored s u hv0
    obtain ⟨t, e2, h2⟩ := ih hs (fun e' he => hv e' (List.mem_cons_of_mem _ he)) u'
    refine ⟨t, ?_, h1.cons h2 fun e' he => (hlt e' he).ne⟩
    rw [List.map_cons, restorePages, e1]
    exact e2

/-- A page the host gives nothing for refuses the restore. -/
theorem restorePages_refused {h : Restorer} {ps : List SnapshotPage} {p : SnapshotPage} (hp : p ∈ ps)
    (hn : ∀ u, restorePage h p u = none) (u : State) : restorePages h ps u = .refused .snapshotPageWithoutBacking := by
  induction ps generalizing u with
  | nil => cases hp
  | cons q ps ih =>
    rw [restorePages]
    split
    next u' e =>
      obtain rfl | hp := List.mem_cons.mp hp
      · rw [hn] at e
        cases e
      · exact ih hp u'
    next => rfl

/-- What the host must give: backing for a NonOwned page, a callback for a Trap page. -/
theorem restoredVariant_given {h : Restorer} {n : Nat} {p : Page} (hb : isNonOwned p = true → SMap.find h.backing n ≠ none)
    (ht : isTrapPage p = true → SMap.find h.trapCallbacks n ≠ none) : ∃ v, restoredVariant h n p.variant = some v := by
  obtain ⟨attr, variant⟩ := p
  cases variant with
  | owned => exact ⟨_, rfl⟩
  | sharedRO => exact ⟨_, rfl⟩
  | nonOwned buffer external =>
    obtain ⟨k, hk⟩ := Option.ne_none_iff_exists'.mp (hb rfl)
    exact ⟨_, congrArg (Option.map _) hk⟩
  | trap callback buffer =>
    obtain ⟨c, hc⟩ := Option.ne_none_iff_exists'.mp (ht rfl)
    exact ⟨_, congrArg (Option.map _) hc⟩

/-- A NonOwned page without backing is not restored. -/
theorem restorePage_unbacked {h : Restorer} (s : State) {n : Nat} {p : Page} (hp : isNonOwned p = true)
    (hn : SMap.find h.backing n = none) (u : State) : restorePage h (snapshotPage s (n, p)) u = none := by
  obtain ⟨attr, variant⟩ := p
  cases variant with
  | nonOwned buffer external => exact congrArg (Option.map _) hn
  | owned | sharedRO | trap => cases hp

section
variable {h : Restorer} {s u t : State} {ps : List (Nat × Page)} (ht : PagesRestored h s ps u t) {n : Nat} {p : Page}
  (hp : (n, p) ∈ ps)
include ht hp

/-- A page of the engine's own comes back as it was, with its bytes. -/
theorem PagesRestored.engineHeld (ho : isEngineHeld p) :
    t.pageAt n = some p ∧ ∀ a, pageOf a = n → t.byte a = s.byte a := by
  obtain ⟨attr, variant⟩ := p
  have hv : restoredVariant h n variant = some variant ∧ variant.buffer? = none := by
    obtain rfl | rfl := ho <;> exact ⟨rfl, rfl⟩
  have hpage := ht.page _ hp _ hv.1
  refine ⟨hpage, fun a ha => ?_⟩
  have hplace : t.place a = .guest a := by
    rw [place_eq, ha, hpage, Option.bind_some, hv.2]
  rw [State.byte, hplace, ht.bytes _ hp ho a ha]

/-- A NonOwned page shows the host's buffer, whose bytes are those given where it is the only backing. -/
theorem PagesRestored.nonOwned {k : Backing} (ho : isNonOwned p = true) (hk : SMap.find h.backing n = some k) :
    t.pageAt n = some ⟨p.attr, .nonOwned k.buffer k.external⟩ ∧
      (h.backing = [(n, k)] → k.bytes.length ≤ pageSize →
        ∀ i (hi : i < k.bytes.length), t.byte (n * pageSize + i) = k.bytes[i]'hi) := by
  have hpage : t.pageAt n = some ⟨p.attr, .nonOwned k.buffer k.external⟩ := by
    refine ht.page _ hp _ ?_
    obtain ⟨attr, variant⟩ := p
    cases variant with
    | nonOwned buffer external => exact congrArg (Option.map _) hk
    | owned | sharedRO | trap => cases ho
  refine ⟨hpage, fun hb hl i hi => ?_⟩
  have hi' : i < pageSize := lt_of_lt_of_le hi hl
  have hoff : offsetOf (n * pageSize + i) = i := by
    simp only [offsetOf, pageSize] at *
    omega
  have hplace : t.place (n * pageSize + i) = .host (k.buffer + BitVec.ofNat 64 i).toNat := by
    rw [place_eq, pageOf_in n i hi', hpage, hoff]
    rfl
  rw [State.byte, hplace]
  exact ht.buffer n k hb hl (.inr ⟨_, hp, ho⟩) i hi

/-- A Trap page takes the host's callback. -/
theorem PagesRestored.trap {callback : Nat} (ho : isTrapPage p = true) (hc : SMap.find h.trapCallbacks n = some callback) :
    t.pageAt n = some ⟨p.attr, .trap callback none⟩ := by
  refine ht.page _ hp _ ?_
  obtain ⟨attr, variant⟩ := p
  cases variant with
  | trap callback' buffer => exact congrArg (Option.map _) hc
  | owned | sharedRO | nonOwned => cases ho

end

/-- A restore whose pages are restored (R447). -/
theorem restore_restored {h : Restorer} {s : State} (hs : SMap.sorted s.pages)
    (hv : ∀ e ∈ s.pages, ∃ v, restoredVariant h e.1 e.2.variant = some v) :
    ∃ t, restore (serialize s) h = .next t ∧ PagesRestored h s s.pages (restoredCpu (serialize s) h) t := by
  obtain ⟨t, e, ht⟩ := restorePages_restored s hs hv (restoredCpu (serialize s) h)
  have e : restorePages h (serialize s).pages (restoredCpu (serialize s) h) = .pure () t := e
  exact ⟨t, by rw [restore, e]; rfl, ht⟩

end Sys2Proof.Laws

namespace Sys2Proof.Proofs

open Sys2Proof.Machine Sys2Proof.Laws

/-- Settles O53: the CPU of the snapshot (`restoredCpu`), then its pages in rising order, each bound once (`restorePages_restored`); a
page the host gives nothing for refuses the restore (`restorePages_refused`). -/
theorem snapshotRestores : Obligations.SnapshotRestores := by
  intro s h hwf
  refine ⟨fun hgiven => ?_, fun n p hp ho hn => ?_⟩
  · obtain ⟨t, e, ht⟩ := restore_restored hwf.sorted fun e he => restoredVariant_given (hgiven e he).1 (hgiven e he).2
    have absent : ∀ n, s.pageAt n = none → t.pageAt n = none := fun n hn => by
      refine (ht.otherPages n fun e he hne => ?_).trans rfl
      rw [State.pageAt, hne, find_of_mem hwf.sorted he] at hn
      cases hn
    have pages := fun n p (hp : s.pageAt n = some p) => mem_of_find hp
    obtain ⟨ps, m, hm, un, rfl⟩ := ht.memoryOnly
    exact ⟨_, e, fun _ => rfl, rfl, rfl, rfl, rfl, rfl, absent,
      fun n p hp => ⟨ht.engineHeld (pages n p hp), fun _ => ht.nonOwned (pages n p hp), fun _ => ht.trap (pages n p hp)⟩,
      rfl, rfl, rfl, rfl, rfl, rfl, rfl, rfl, rfl⟩
  · have e : restorePages h (serialize s).pages (restoredCpu (serialize s) h) = .refused .snapshotPageWithoutBacking :=
      restorePages_refused (List.mem_map_of_mem (mem_of_find hp)) (restorePage_unbacked s ho hn) _
    rw [restore, e]

end Sys2Proof.Proofs
end
